-- ==== Sys2Proof/Word.lean ====
section
/-! DEFINITION. The plain values of the PS core: bytes of the bitstream, the spec's `Num` (here `PsNum`) and
complex samples. Arithmetic on numbers is in Machine/Arith.lean. -/

namespace Sys2Proof

/-- One byte of the bitstream (`20_memory.md` R72, decision D3). -/
abbrev Byte := BitVec 8

/-- A value of the spec's type `Num` (`00_scope.md` R12), written by its value: a finite number is an exact
rational, and the values that are no real number are an infinity of either sign and NaN. The spec writes its
DSP rules over the reals; every real a rule forms from numbers is rational. Negative zero is not told apart
from zero (log 1). What a special value does in an operation is free (Config.lean, log 2). -/
inductive PsNum
  | fin (q : Rat)
  | inf (neg : Bool)
  | nan
  deriving DecidableEq, Repr, Inhabited

/-- The number zero. -/
def PsNum.zero : PsNum := .fin 0

/-- The number one. -/
def PsNum.one : PsNum := .fin 1

/-- A complex sample, real part first (`00_scope.md` R16). -/
structure Cx where
  re : PsNum
  im : PsNum
  deriving DecidableEq, Repr, Inhabited

/-- The complex number zero. -/
def Cx.zero : Cx := ⟨.zero, .zero⟩

end Sys2Proof
end

