-- ==== Sys2Proof/Config.lean ====
section
/-! DEFINITION. What an implementation of the PS core fixes and the spec leaves as a parameter: the configuration
flag, the number format, the constants of `00_scope.md` R9, the tables of `47_constant_tables.md`; and the free
values, opaque constants with no body. A `Config` is plain data and stands in the state (log 5). -/

namespace Sys2Proof

/-- The number format: the type `Num` and its rounding function `rnd` (`00_scope.md` R12, decision D16, log 3). The
spec's candidate is `binary 24 (-126) 127`. -/
inductive NumFormat
  /-- The reals: nothing is rounded. -/
  | exact
  /-- A binary floating-point format with `prec` bits of significand and exponents `emin..emax`, rounding to nearest,
  ties to even, with gradual underflow. -/
  | binary (prec : Nat) (emin emax : Int)
  /-- Any other format: its rounding function is `Config.customRnd id`, of which nothing is known. -/
  | custom (id : Nat)
  deriving DecidableEq, Repr, Inhabited

/-- `PAD` (`20_memory.md` R80, decision D4, U6): what the bits read as that the host has not written. -/
inductive Pad
  /-- The candidate: all zeros. -/
  | zeros
  /-- Any other function: byte `a` reads as `Config.hostPad id a`, of which nothing is known. -/
  | host (id : Nat)
  deriving DecidableEq, Repr, Inhabited

/-- The points where the spec does not say whether a partial result is rounded (log 4): the accumulation of
`power` (`44_decorrelation.md` R242), the filter outputs folded in `43_hybrid_filterbank.md` R222, and the
products of `45_stereo_mixing.md` R275 ("rounded once or after each product"). -/
structure RoundPolicy where
  power : Bool
  fold : Bool
  mix : Bool
  deriving DecidableEq, Repr, Inhabited

/-- A Huffman table (`47_constant_tables.md` R303): entry `i` is `(code[i], bits[i])`, and decoding codeword `i`
yields the delta `i - offset`. -/
structure HuffTable where
  code : List (Nat × Nat)
  offset : Nat
  deriving DecidableEq, Repr, Inhabited

/-- The record `Tables` (`47_constant_tables.md` R300), one field per table. A pair of fields ending in 20 and 34
is one table of the spec indexed by `is34`. -/
structure Tables where
  /-- `NR_IIDICC_TAB` (R302). -/
  nrIidIcc : List Nat
  /-- `NR_IPDOPD_TAB` (R302). -/
  nrIpdOpd : List Nat
  /-- `IID_QUANT_TAB` (R302). -/
  iidQuant : List Bool
  /-- The ten Huffman tables by id (`40_entropy_delta.md` R140, R303). -/
  huff : List HuffTable
  /-- `k_to_i` (R306). -/
  kToI20 : List Nat
  kToI34 : List Nat
  /-- The hybrid filters, seven taps each (R308). -/
  f20_0_8 : List (List Cx)
  f34_0_12 : List (List Cx)
  f34_1_8 : List (List Cx)
  f34_2_4 : List (List Cx)
  /-- The real two-band filter `g1_Q2` (R308). -/
  g1Q2 : List PsNum
  /-- The mixing tables (R309): `[row][icc][0..3]`. -/
  ha : List (List (List PsNum))
  hb : List (List (List PsNum))
  /-- `pd_re_smooth`, `pd_im_smooth` (R312). -/
  pdRe : List PsNum
  pdIm : List PsNum
  /-- `Q_fract_allpass[k][m]` and `phi_fract[k]` (R311). -/
  qFract20 : List (List Cx)
  qFract34 : List (List Cx)
  phiFract20 : List Cx
  phiFract34 : List Cx
  deriving DecidableEq, Repr, Inhabited

/-- Everything an instance takes as configuration (`10_state.md` R47). -/
structure Config where
  /-- `BASELINE` (`00_scope.md` R11). -/
  baseline : Bool
  /-- The number format (R12). -/
  fmt : NumFormat
  /-- `PAD` (`20_memory.md` R80). -/
  pad : Pad
  /-- Where partial results are rounded (log 4). -/
  round : RoundPolicy
  /-- `PS_MAX_NUM_ENV` (R9). -/
  maxNumEnv : Nat
  /-- `PS_MAX_DELAY` (R9). -/
  maxDelay : Nat
  /-- `PS_MAX_AP_DELAY` (R9). -/
  maxApDelay : Nat
  /-- `SHORT_DELAY_BAND` (R9). -/
  shortDelayBand20 : Nat
  shortDelayBand34 : Nat
  /-- `DECAY_CUTOFF` (R9). -/
  decayCutoff20 : Nat
  decayCutoff34 : Nat
  /-- `PEAK_DECAY_FACTOR` (R9). -/
  peakDecayFactor : PsNum
  /-- `AP_COEFF[0..2]` (R9). -/
  apCoeff : List PsNum
  /-- `AP_LINK_DELAY[0..2]` (R9). -/
  apLinkDelay : List Nat
  /-- `PS_MAX_NR_IIDICC` (R9). -/
  maxNrIidIcc : Nat
  /-- `PS_MAX_NR_IPDOPD` (R9). -/
  maxNrIpdOpd : Nat
  /-- `THIRD` (`42_band_remap.md` R209). -/
  third : PsNum
  /-- The constant tables. -/
  tables : Tables
  deriving DecidableEq, Repr, Inhabited

/-- The operations a special value can enter. -/
inductive NumOp
  | add | sub | mul | div
  deriving DecidableEq, Repr, Inhabited

/-- FREE VALUE (`93_implementation_defined.md` U8, decision D16, log 2): the result of an operation on two numbers
of which one is an infinity or NaN, and of a division by zero. Nothing constrains it. -/
opaque Config.nonFinite : NumOp → PsNum → PsNum → PsNum

/-- FREE VALUE (U8, log 2): whether the first number compares greater than the second where one of the two is an
infinity or NaN. -/
opaque Config.nonFiniteGt : PsNum → PsNum → Bool

/-- FREE VALUE (U8, log 2): what is stored for a real whose rounding lies beyond the range of the format. -/
opaque Config.overflow : NumFormat → Rat → PsNum

/-- FREE VALUE (`00_scope.md` R12, log 3): the rounding function of a `custom` number format. -/
opaque Config.customRnd : Nat → Rat → PsNum

/-- FREE VALUE (`20_memory.md` R80, log 7): the bytes of a `PAD` that is not the candidate, eight bits each. -/
opaque Config.hostPad : Nat → Nat → Byte

/-- FREE VALUE (`42_band_remap.md` R211, log 23): the cell of a parameter row that does not exist, where REMAP20 or
REMAP34 reads one; by the number of the draw, the row and the band. -/
opaque Config.absentParam : Nat → Nat → Nat → Int

end Sys2Proof
end

