-- ==== Sys2Proof/Machine/Consts.lean ====
section
/-! DEFINITION. The constants the source fixes (`00_scope.md` R8) and the per-resolution parameters and tables
selected by `is34`. -/

namespace Sys2Proof

/-- `NUM_QMF_SLOTS` (`00_scope.md` R8). -/
def numSlots : Nat := 32

/-- `QMF_BANDS` (R8). -/
def qmfBands : Nat := 64

/-- `QMF_ROWS` (R8). -/
def qmfRows : Nat := 38

/-- `HYB_MAX` (R8). -/
def hybMax : Nat := 91

/-- `NR_BANDS[is34]` (R8). -/
def nrBands (is34 : Bool) : Nat := if is34 then 91 else 71

/-- `NR_PAR_BANDS[is34]` (R8). -/
def nrParBands (is34 : Bool) : Nat := if is34 then 34 else 20

/-- `NR_IPDOPD_BANDS[is34]` (R8). -/
def nrIpdOpdBands (is34 : Bool) : Nat := if is34 then 17 else 11

/-- `NR_ALLPASS_BANDS[is34]` (R8). -/
def nrAllpassBands (is34 : Bool) : Nat := if is34 then 50 else 30

/-- `PS_AP_LINKS` (R8). -/
def apLinks : Nat := 3

/-- `A_SMOOTH` (R8). -/
def aSmooth : PsNum := .fin (1 / 4)

/-- `TRANSIENT_IMPACT` (R8). -/
def transientImpact : PsNum := .fin (3 / 2)

/-- `DECAY_SPAN` (R8). -/
def decaySpan : Nat := 20

/-- `IN_BUF_CLASSES` and `IN_BUF_LEN` (R8). -/
def inBufClasses : Nat := 5

/-- `IN_BUF_LEN` (R8). -/
def inBufLen : Nat := 44

/-- `IN_BUF_HIST` (R8). -/
def inBufHist : Nat := 6

/-- `NUM_ENV_TAB[frame_class][sel]` (`47_constant_tables.md` R301). -/
def numEnvTab (frameClass : Bool) (sel : Nat) : Nat :=
  (if frameClass then [1, 2, 3, 4] else [0, 1, 2, 4]).getD sel 0

/-- `SHORT_DELAY_BAND[is34]`. -/
def shortDelayBand (c : Config) (is34 : Bool) : Nat := if is34 then c.shortDelayBand34 else c.shortDelayBand20

/-- `DECAY_CUTOFF[is34]`. -/
def decayCutoff (c : Config) (is34 : Bool) : Nat := if is34 then c.decayCutoff34 else c.decayCutoff20

/-- `k_to_i[is34][k]` (`47_constant_tables.md` R306). -/
def kToI (c : Config) (is34 : Bool) (k : Nat) : Nat :=
  (if is34 then c.tables.kToI34 else c.tables.kToI20).getD k 0

/-- `Q_fract_allpass[is34][k][m]` (R311). -/
def qFract (c : Config) (is34 : Bool) (k m : Nat) : Cx :=
  ((if is34 then c.tables.qFract34 else c.tables.qFract20).getD k []).getD m Cx.zero

/-- `phi_fract[is34][k]` (R311). -/
def phiFract (c : Config) (is34 : Bool) (k : Nat) : Cx :=
  (if is34 then c.tables.phiFract34 else c.tables.phiFract20).getD k Cx.zero

end Sys2Proof
end

