-- ==== Sys2Proof/Syntax.lean ====
section
/-! DEFINITION. The instructions of the PS core: the 23 elements of the payload (`30_encoding.md` R102) and the 12
commands (R119), one constructor per row of the opcode table; the operand forms of the commands; the places of
the payload grammar; the words the instructions are encoded in. -/

namespace Sys2Proof

/-- The parameter families (`00_scope.md` R19). -/
inductive Family
  | iid | icc | ipd | opd
  deriving DecidableEq, Repr, Inhabited

/-- The four persistent mixing matrices (`10_state.md` R36). -/
inductive Mat
  | h11 | h12 | h21 | h22
  deriving DecidableEq, Repr, Inhabited

/-- Real or imaginary part (`00_scope.md` R16). -/
inductive Part
  | re | im
  deriving DecidableEq, Repr, Inhabited

/-- One row of `Num` a scalar remap converts in place: the row `X[part][env]` of a mixing matrix
(`42_band_remap.md` R200, `45_stereo_mixing.md` R263; log 19). -/
structure RowRef where
  mat : Mat
  part : Part
  env : Nat
  deriving DecidableEq, Repr, Inhabited

/-- The two hybrid-domain working buffers (`10_state.md` R43). -/
inductive HybBuf
  | lbuf | rbuf
  deriving DecidableEq, Repr, Inhabited

/-- The two host sample buffers (`20_memory.md` R83). -/
inductive HostBuf
  | left | right
  deriving DecidableEq, Repr, Inhabited

/-- The instructions. An element carries the value it encodes (a `VLC` element its signed delta, R120); which
envelope and band it belongs to is decided by its place (`Phase`). A command carries its arguments. -/
inductive Instr
  /-- PS_HEADER. -/
  | psHeader (v : Bool)
  /-- ENABLE_IID. -/
  | enableIid (v : Bool)
  /-- IID_MODE. -/
  | iidMode (m : BitVec 3)
  /-- ENABLE_ICC. -/
  | enableIcc (v : Bool)
  /-- ICC_MODE. -/
  | iccMode (m : BitVec 3)
  /-- ENABLE_EXT. -/
  | enableExt (v : Bool)
  /-- FRAME_CLASS. -/
  | frameClass (v : Bool)
  /-- NUM_ENV_IDX. -/
  | numEnvIdx (n : BitVec 2)
  /-- BORDER_POSITION. -/
  | borderPosition (b : BitVec 5)
  /-- IID_DT. -/
  | iidDt (dt : Bool)
  /-- IID_DATA. -/
  | iidData (delta : Int)
  /-- ICC_DT. -/
  | iccDt (dt : Bool)
  /-- ICC_DATA. -/
  | iccData (delta : Int)
  /-- EXT_SIZE. -/
  | extSize (n : BitVec 4)
  /-- EXT_ESC. -/
  | extEsc (n : BitVec 8)
  /-- EXT_ID. -/
  | extId (id : BitVec 2)
  /-- EXT_FILL. -/
  | extFill
  /-- ENABLE_IPDOPD. -/
  | enableIpdopd (v : Bool)
  /-- IPD_DT. -/
  | ipdDt (dt : Bool)
  /-- IPD_DATA. -/
  | ipdData (delta : Int)
  /-- OPD_DT. -/
  | opdDt (dt : Bool)
  /-- OPD_DATA. -/
  | opdData (delta : Int)
  /-- RESERVED_PS. -/
  | reservedPs (v : Bool)
  /-- INIT_TABLES. -/
  | initTables
  /-- RESET. -/
  | reset
  /-- READ_DATA. -/
  | readData (bitsAvailable : Nat)
  /-- APPLY; the buffers `L` and `R` are the host's. -/
  | apply (topBand : Int)
  /-- REMAP20. -/
  | remap20 (src : Family) (srcBandCount numEnvelopes : Nat) (isFullRange : Bool)
  /-- REMAP34. -/
  | remap34 (src : Family) (srcBandCount numEnvelopes : Nat) (isFullRange : Bool)
  /-- REMAPVAL20. -/
  | remapVal20 (row : RowRef)
  /-- REMAPVAL34. -/
  | remapVal34 (row : RowRef)
  /-- HYBRID_ANALYSIS of `L`. -/
  | hybridAnalysis (is34 : Bool)
  /-- DECORRELATE. -/
  | decorrelate (src : HybBuf) (is34 : Bool)
  /-- STEREO_PROCESS of `Lbuf` and `Rbuf`. -/
  | stereoProcess (is34 : Bool)
  /-- HYBRID_SYNTHESIS. -/
  | hybridSynthesis (src : HybBuf) (is34 : Bool) (dst : HostBuf)
  deriving DecidableEq, Repr, Inhabited

/-- The places of the payload grammar (`30_encoding.md` R102): which element comes next, with the envelope `e`, the
band `b` and the flag `dt` of the row where it stands in one. -/
inductive Phase
  | psHeader
  | enableIid
  | iidMode
  | enableIcc
  | iccMode
  | enableExt
  | frameClass
  | numEnvIdx
  | border (e : Nat)
  | iidDt (e : Nat)
  | iidData (e b : Nat) (dt : Bool)
  | iccDt (e : Nat)
  | iccData (e b : Nat) (dt : Bool)
  | extSize
  | extEsc
  | extId
  | extFill
  | enableIpdopd
  | ipdDt (e : Nat)
  | ipdData (e b : Nat) (dt : Bool)
  | opdDt (e : Nat)
  | opdData (e b : Nat) (dt : Bool)
  | reservedPs
  deriving DecidableEq, Repr, Inhabited

/-- What decides how the bits at the working cursor are read (R101, R102, R118): the place in the grammar,
`iid_quant` (which IID table) and the remaining extension budget (the width of EXT_FILL). -/
structure ElemCtx where
  phase : Phase
  iidQuant : Bool
  cnt : Int
  deriving DecidableEq, Repr, Inhabited

/-- A command as the host issues it: its 4-bit code (R119, decision D2) and its arguments as integers in the
order of the table (log 14). A missing argument counts as 0. -/
structure CommandWord where
  code : BitVec 4
  args : List Int
  deriving DecidableEq, Repr, Inhabited

/-- Why a decoder answers no instruction. -/
inductive DecodeError
  /-- Codes 1100 to 1111 (R119, `93_implementation_defined.md` U4). -/
  | unassignedCode
  /-- An argument that is no value of its type (log 14). -/
  | badArgument
  /-- No codeword of the table matches the bits (U7): impossible for a conforming table. -/
  | noCodeword
  deriving DecidableEq, Repr, Inhabited

end Sys2Proof
end

