-- ==== Sys2Proof/Decode.lean ====
section
/-! DEFINITION. Bit fields, the Huffman decoder, the decoder of the payload elements and of the commands, and the
encoders. -/

namespace Sys2Proof

/-- `ReadBits(n)` at position `pos` of a bit sequence: the unsigned number whose most significant bit is the first
bit (`20_memory.md` R74; `ReadBits(0) = 0`, `00_scope.md` R15). -/
def bitsValue (bit : Nat → Bool) (pos : Nat) : Nat → Nat
  | 0 => 0
  | n + 1 => 2 * bitsValue bit pos n + (bit (pos + n)).toNat

/-- The `n` bits of a field with value `v`, first bit most significant (R72). -/
def fieldBits (n v : Nat) : List Bool := (List.range n).map fun j => v.testBit (n - 1 - j)

/-- The bit sequence that starts with the given bits and goes on with zeros. -/
def bitAt (l : List Bool) (i : Nat) : Bool := l.getD i false

/-- The table id of `TableFor(F, dt)` (`40_entropy_delta.md` R142). -/
def tableId (f : Family) (dt iidQuant : Bool) : Nat :=
  match f with
  | .iid => [2, 0, 3, 1].getD (2 * dt.toNat + iidQuant.toNat) 0
  | .icc => 4 + dt.toNat
  | .ipd => 6 + dt.toNat
  | .opd => 8 + dt.toNat

/-- The Huffman table of `TableFor(F, dt)` (R142). -/
def tableFor (c : Config) (f : Family) (dt iidQuant : Bool) : HuffTable :=
  c.tables.huff.getD (tableId f dt iidQuant) ⟨[], 0⟩

/-- Whether the codeword `(code, bits)` stands at `pos` (R141). -/
def codewordAt (bit : Nat → Bool) (pos : Nat) (cw : Nat × Nat) : Bool := bitsValue bit pos cw.2 == cw.1

/-- `PeekBitsForHuffman` (`20_memory.md` R75, `40_entropy_delta.md` R141): the signed delta of the codeword that is
a prefix of the bits at `pos`, and its length. `none` where no codeword matches, which a conforming table
excludes (R303). -/
def huffDecode (t : HuffTable) (bit : Nat → Bool) (pos : Nat) : Option (Int × Nat) :=
  match t.code.findIdx? (codewordAt bit pos) with
  | some k => some ((k : Int) - t.offset, (t.code.getD k (0, 0)).2)
  | none => none

/-- The codeword `(code, bits)` of a signed delta (R141, R303), if the table has one. -/
def codewordOf (t : HuffTable) (delta : Int) : Option (Nat × Nat) :=
  if 0 ≤ delta + t.offset then t.code[(delta + t.offset).toNat]? else none

/-- One `VLC(t)` element (`30_encoding.md` R116). -/
def decodeVlc (mk : Int → Instr) (t : HuffTable) (bit : Nat → Bool) : Except DecodeError (Instr × Nat) :=
  match huffDecode t bit 0 with
  | some (d, len) => .ok (mk d, len)
  | none => .error .noCodeword

/-- The payload element at a place of the grammar, read from the bits that start at the working cursor, and its
length in bits (R101, R102). -/
def decodeElement (c : Config) (x : ElemCtx) (bit : Nat → Bool) : Except DecodeError (Instr × Nat) :=
  match x.phase with
  | .psHeader => .ok (.psHeader (bit 0), 1)
  | .enableIid => .ok (.enableIid (bit 0), 1)
  | .iidMode => .ok (.iidMode (BitVec.ofNat 3 (bitsValue bit 0 3)), 3)
  | .enableIcc => .ok (.enableIcc (bit 0), 1)
  | .iccMode => .ok (.iccMode (BitVec.ofNat 3 (bitsValue bit 0 3)), 3)
  | .enableExt => .ok (.enableExt (bit 0), 1)
  | .frameClass => .ok (.frameClass (bit 0), 1)
  | .numEnvIdx => .ok (.numEnvIdx (BitVec.ofNat 2 (bitsValue bit 0 2)), 2)
  | .border _ => .ok (.borderPosition (BitVec.ofNat 5 (bitsValue bit 0 5)), 5)
  | .iidDt _ => .ok (.iidDt (bit 0), 1)
  | .iidData _ _ dt => decodeVlc .iidData (tableFor c .iid dt x.iidQuant) bit
  | .iccDt _ => .ok (.iccDt (bit 0), 1)
  | .iccData _ _ dt => decodeVlc .iccData (tableFor c .icc dt x.iidQuant) bit
  | .extSize => .ok (.extSize (BitVec.ofNat 4 (bitsValue bit 0 4)), 4)
  | .extEsc => .ok (.extEsc (BitVec.ofNat 8 (bitsValue bit 0 8)), 8)
  | .extId => .ok (.extId (BitVec.ofNat 2 (bitsValue bit 0 2)), 2)
  | .extFill => .ok (.extFill, x.cnt.toNat)
  | .enableIpdopd => .ok (.enableIpdopd (bit 0), 1)
  | .ipdDt _ => .ok (.ipdDt (bit 0), 1)
  | .ipdData _ _ dt => decodeVlc .ipdData (tableFor c .ipd dt x.iidQuant) bit
  | .opdDt _ => .ok (.opdDt (bit 0), 1)
  | .opdData _ _ dt => decodeVlc .opdData (tableFor c .opd dt x.iidQuant) bit
  | .reservedPs => .ok (.reservedPs (bit 0), 1)

/-- Argument `k` of a command word; a missing argument is 0. -/
def CommandWord.arg (w : CommandWord) (k : Nat) : Int := w.args.getD k 0

/-- A natural-number argument. -/
def natArg (a : Int) : Except DecodeError Nat := if 0 ≤ a then .ok a.toNat else .error .badArgument

/-- A Boolean argument, 0 or 1. -/
def boolArg (a : Int) : Except DecodeError Bool :=
  if a = 0 then .ok false else if a = 1 then .ok true else .error .badArgument

/-- A parameter family argument: 0 to 3 for IID, ICC, IPD, OPD. -/
def familyArg (a : Int) : Except DecodeError Family :=
  if a = 0 then .ok .iid else if a = 1 then .ok .icc else if a = 2 then .ok .ipd else if a = 3 then .ok .opd
  else .error .badArgument

/-- A mixing matrix argument: 0 to 3 for `H11`, `H12`, `H21`, `H22`. -/
def matArg (a : Int) : Except DecodeError Mat :=
  if a = 0 then .ok .h11 else if a = 1 then .ok .h12 else if a = 2 then .ok .h21 else if a = 3 then .ok .h22
  else .error .badArgument

/-- The four operands of REMAP20 and REMAP34 (`42_band_remap.md` R201). -/
def remapArgs (mk : Family → Nat → Nat → Bool → Instr) (w : CommandWord) : Except DecodeError Instr :=
  match familyArg (w.arg 0), natArg (w.arg 1), natArg (w.arg 2), boolArg (w.arg 3) with
  | .ok f, .ok n, .ok e, .ok full => .ok (mk f n e full)
  | _, _, _, _ => .error .badArgument

/-- The row operand of REMAPVAL20 and REMAPVAL34: matrix, part, envelope slot. -/
def rowArgs (mk : RowRef → Instr) (w : CommandWord) : Except DecodeError Instr :=
  match matArg (w.arg 0), boolArg (w.arg 1), natArg (w.arg 2) with
  | .ok x, .ok p, .ok e => .ok (mk ⟨x, if p then .im else .re, e⟩)
  | _, _, _ => .error .badArgument

/-- The buffer a Boolean argument selects: 0 for `Lbuf`, 1 for `Rbuf`. -/
def hybBufOf (b : Bool) : HybBuf := if b then .rbuf else .lbuf

/-- The command a command word stands for (`30_encoding.md` R119). Codes 1100 to 1111 are refused. R119 gives codes only:
the order and coding of the arguments, and that arguments beyond those a command takes are ignored, are the model's
choice (log 14). -/
def decodeCommand (w : CommandWord) : Except DecodeError Instr :=
  match w.code.toNat with
  | 0 => .ok .initTables
  | 1 => .ok .reset
  | 2 => match natArg (w.arg 0) with
    | .ok n => .ok (.readData n)
    | .error x => .error x
  | 3 => .ok (.apply (w.arg 0))
  | 4 => remapArgs .remap20 w
  | 5 => remapArgs .remap34 w
  | 6 => rowArgs .remapVal20 w
  | 7 => rowArgs .remapVal34 w
  | 8 => match boolArg (w.arg 0) with
    | .ok b => .ok (.hybridAnalysis b)
    | .error x => .error x
  | 9 => match boolArg (w.arg 0), boolArg (w.arg 1) with
    | .ok src, .ok b => .ok (.decorrelate (hybBufOf src) b)
    | _, _ => .error .badArgument
  | 10 => match boolArg (w.arg 0) with
    | .ok b => .ok (.stereoProcess b)
    | .error x => .error x
  | 11 => match boolArg (w.arg 0), boolArg (w.arg 1), boolArg (w.arg 2) with
    | .ok src, .ok b, .ok dst => .ok (.hybridSynthesis (hybBufOf src) b (if dst then .right else .left))
    | _, _, _ => .error .badArgument
  | _ => .error .unassignedCode

/-- The instruction the decoder reads from a word numbered as the opcode table numbers it. Only commands have a
word of their own (their 4-bit code, all arguments zero); an element's bits mean something only at its place of the
grammar (`30_encoding.md` R118). -/
def decodeTableWord (_nbits w : Nat) : Option Instr :=
  if w < 16 then
    match decodeCommand ⟨BitVec.ofNat 4 w, []⟩ with
    | .ok x => some x
    | .error _ => none
  else none

/-! ## The encoders -/

/-- The bits of a `VLC(t)` element (R116). -/
def encodeVlc (t : HuffTable) (delta : Int) : Option (List Bool) :=
  match codewordOf t delta with
  | some cw => some (fieldBits cw.2 cw.1)
  | none => none

/-- The bits of a payload element at a place of the grammar, or `none` where that element does not stand there.
The fill bits may have any value (R115); the encoder writes zeros. -/
def encodeElement (c : Config) (x : ElemCtx) (i : Instr) : Option (List Bool) :=
  match x.phase, i with
  | .psHeader, .psHeader v => some [v]
  | .enableIid, .enableIid v => some [v]
  | .iidMode, .iidMode m => some (fieldBits 3 m.toNat)
  | .enableIcc, .enableIcc v => some [v]
  | .iccMode, .iccMode m => some (fieldBits 3 m.toNat)
  | .enableExt, .enableExt v => some [v]
  | .frameClass, .frameClass v => some [v]
  | .numEnvIdx, .numEnvIdx n => some (fieldBits 2 n.toNat)
  | .border _, .borderPosition b => some (fieldBits 5 b.toNat)
  | .iidDt _, .iidDt dt => some [dt]
  | .iidData _ _ dt, .iidData d => encodeVlc (tableFor c .iid dt x.iidQuant) d
  | .iccDt _, .iccDt dt => some [dt]
  | .iccData _ _ dt, .iccData d => encodeVlc (tableFor c .icc dt x.iidQuant) d
  | .extSize, .extSize n => some (fieldBits 4 n.toNat)
  | .extEsc, .extEsc n => some (fieldBits 8 n.toNat)
  | .extId, .extId id => some (fieldBits 2 id.toNat)
  | .extFill, .extFill => some (List.replicate x.cnt.toNat false)
  | .enableIpdopd, .enableIpdopd v => some [v]
  | .ipdDt _, .ipdDt dt => some [dt]
  | .ipdData _ _ dt, .ipdData d => encodeVlc (tableFor c .ipd dt x.iidQuant) d
  | .opdDt _, .opdDt dt => some [dt]
  | .opdData _ _ dt, .opdData d => encodeVlc (tableFor c .opd dt x.iidQuant) d
  | .reservedPs, .reservedPs v => some [v]
  | _, _ => none

/-- The argument that stands for a family. -/
def familyCode : Family → Int
  | .iid => 0
  | .icc => 1
  | .ipd => 2
  | .opd => 3

/-- The argument that stands for a mixing matrix. -/
def matCode : Mat → Int
  | .h11 => 0
  | .h12 => 1
  | .h21 => 2
  | .h22 => 3

/-- The argument that stands for a Boolean. -/
def boolCode (b : Bool) : Int := if b then 1 else 0

/-- The arguments that stand for a matrix row. -/
def rowCode (r : RowRef) : List Int :=
  [matCode r.mat, (match r.part with | .re => 0 | .im => 1), (r.env : Int)]

/-- The argument that stands for a hybrid buffer. -/
def hybBufCode : HybBuf → Int
  | .lbuf => 0
  | .rbuf => 1

/-- The argument that stands for a host buffer. -/
def hostBufCode : HostBuf → Int
  | .left => 0
  | .right => 1

/-- The command word of a command (R119); `none` for an element. -/
def encodeCommand (i : Instr) : Option CommandWord :=
  match i with
  | .initTables => some ⟨0, []⟩
  | .reset => some ⟨1, []⟩
  | .readData n => some ⟨2, [(n : Int)]⟩
  | .apply t => some ⟨3, [t]⟩
  | .remap20 f n e full => some ⟨4, [familyCode f, n, e, boolCode full]⟩
  | .remap34 f n e full => some ⟨5, [familyCode f, n, e, boolCode full]⟩
  | .remapVal20 r => some ⟨6, rowCode r⟩
  | .remapVal34 r => some ⟨7, rowCode r⟩
  | .hybridAnalysis b => some ⟨8, [boolCode b]⟩
  | .decorrelate src b => some ⟨9, [hybBufCode src, boolCode b]⟩
  | .stereoProcess b => some ⟨10, [boolCode b]⟩
  | .hybridSynthesis src b dst => some ⟨11, [hybBufCode src, boolCode b, hostBufCode dst]⟩
  | .psHeader _ | .enableIid _ | .iidMode _ | .enableIcc _ | .iccMode _ | .enableExt _ | .frameClass _
  | .numEnvIdx _ | .borderPosition _ | .iidDt _ | .iidData _ | .iccDt _ | .iccData _ | .extSize _ | .extEsc _
  | .extId _ | .extFill | .enableIpdopd _ | .ipdDt _ | .ipdData _ | .opdDt _ | .opdData _ | .reservedPs _ => none

/-- The words of an instruction: a command word, or the bits of a payload element. -/
inductive Words
  | command (w : CommandWord)
  | payload (bits : List Bool)
  deriving DecidableEq, Repr, Inhabited

/-- The words of an instruction. For an element, `x` says where in the payload it stands. -/
def encode (c : Config) (x : ElemCtx) (i : Instr) : Option Words :=
  match encodeCommand i with
  | some w => some (.command w)
  | none => match encodeElement c x i with
    | some l => some (.payload l)
    | none => none

/-- The instruction that words stand for, with the number of payload bits it takes (0 for a command). Payload bits
beyond those given count as zeros. -/
def decode (c : Config) (x : ElemCtx) (w : Words) : Except DecodeError (Instr × Nat) :=
  match w with
  | .command w => match decodeCommand w with
    | .ok i => .ok (i, 0)
    | .error e => .error e
  | .payload l => decodeElement c x (bitAt l)

end Sys2Proof
end

