-- ==== Sys2Proof/Machine/Arith.lean ====
section
/-! DEFINITION. Arithmetic on `PsNum`: exact operations on real values, rounding to the configured format at a
store point, complex arithmetic, and the reading of binary32 words. -/

namespace Sys2Proof

/-- Exact sum. -/
def PsNum.add : PsNum → PsNum → PsNum
  | .fin a, .fin b => .fin (a + b)
  | .fin a, .inf b => Config.nonFinite .add (.fin a) (.inf b)
  | .fin a, .nan => Config.nonFinite .add (.fin a) .nan
  | .inf a, y => Config.nonFinite .add (.inf a) y
  | .nan, y => Config.nonFinite .add .nan y

/-- Exact difference. -/
def PsNum.sub : PsNum → PsNum → PsNum
  | .fin a, .fin b => .fin (a - b)
  | .fin a, .inf b => Config.nonFinite .sub (.fin a) (.inf b)
  | .fin a, .nan => Config.nonFinite .sub (.fin a) .nan
  | .inf a, y => Config.nonFinite .sub (.inf a) y
  | .nan, y => Config.nonFinite .sub .nan y

/-- Exact product. -/
def PsNum.mul : PsNum → PsNum → PsNum
  | .fin a, .fin b => .fin (a * b)
  | .fin a, .inf b => Config.nonFinite .mul (.fin a) (.inf b)
  | .fin a, .nan => Config.nonFinite .mul (.fin a) .nan
  | .inf a, y => Config.nonFinite .mul (.inf a) y
  | .nan, y => Config.nonFinite .mul .nan y

/-- Exact quotient; a division by zero is a free value. -/
def PsNum.div : PsNum → PsNum → PsNum
  | .fin a, .fin b => if b = 0 then Config.nonFinite .div (.fin a) (.fin b) else .fin (a / b)
  | .fin a, .inf b => Config.nonFinite .div (.fin a) (.inf b)
  | .fin a, .nan => Config.nonFinite .div (.fin a) .nan
  | .inf a, y => Config.nonFinite .div (.inf a) y
  | .nan, y => Config.nonFinite .div .nan y

/-- The negative: zero minus the number. -/
def PsNum.neg (x : PsNum) : PsNum := PsNum.sub .zero x

/-- Greater than. -/
def PsNum.gt : PsNum → PsNum → Bool
  | .fin a, .fin b => decide (a > b)
  | .fin a, .inf b => Config.nonFiniteGt (.fin a) (.inf b)
  | .fin a, .nan => Config.nonFiniteGt (.fin a) .nan
  | .inf a, y => Config.nonFiniteGt (.inf a) y
  | .nan, y => Config.nonFiniteGt .nan y

/-- The larger of two numbers (`44_decorrelation.md` R243). -/
def PsNum.max (x y : PsNum) : PsNum := if PsNum.gt x y then x else y

/-- The quotient `n / d` of naturals rounded to the nearest natural, ties to even. -/
def divNearestEven (n d : Nat) : Nat :=
  let q := n / d
  let r := n % d
  if 2 * r < d then q else if d < 2 * r then q + 1 else if q % 2 = 0 then q else q + 1

/-- The exponent `e` of a positive rational `n / d`: `2^e ≤ n/d < 2^(e+1)`. -/
def ratExponent (n d : Nat) : Int :=
  let e : Int := (Nat.log2 n : Int) - (Nat.log2 d : Int)
  if 0 ≤ e then (if n < d * 2 ^ e.toNat then e - 1 else e)
  else if n * 2 ^ (-e).toNat < d then e - 1 else e

/-- The exponent of the unit in the last place of a positive rational `n / d` in a binary format. -/
def ulpExponent (prec : Nat) (emin : Int) (n d : Nat) : Int :=
  Max.max (ratExponent n d) emin - ((prec : Int) - 1)

/-- The multiple of the unit in the last place nearest to a positive rational `n / d`, ties to even. -/
def nearestUlps (u : Int) (n d : Nat) : Nat :=
  if 0 ≤ u then divNearestEven n (d * 2 ^ u.toNat) else divNearestEven (n * 2 ^ (-u).toNat) d

/-- `k * 2^u`. -/
def scaled (k : Int) (u : Int) : Rat := if 0 ≤ u then ((k * 2 ^ u.toNat : Int) : Rat) else mkRat k (2 ^ (-u).toNat)

/-- Rounding a real to the format (`00_scope.md` R12): to nearest in a binary format, where ties to even and gradual
underflow are the candidate format's; free in a `custom` format (log 3). Beyond the range of a binary format the
stored value is free (log 2). -/
def NumFormat.rnd (f : NumFormat) (q : Rat) : PsNum :=
  match f with
  | .exact => .fin q
  | .binary prec emin emax =>
    if q = 0 then .fin 0
    else
      let n := q.num.natAbs
      let u := ulpExponent prec emin n q.den
      let v := scaled (nearestUlps u n q.den) u
      if v < scaled 1 (emax + 1) then .fin (if q < 0 then -v else v) else Config.overflow f q
  | .custom id => Config.customRnd id q

/-- Whether a number is a value of the format's `Num`: a real that rounding leaves as it is; an infinity or NaN where
the format has them (`00_scope.md` R12). -/
def NumFormat.holds (f : NumFormat) : PsNum → Bool
  | .fin q => f.rnd q == .fin q
  | .inf _ => f != .exact
  | .nan => f != .exact

/-- `rnd` at a store point (`00_scope.md` R12, R15). A special value is stored as it is. -/
def rnd (c : Config) : PsNum → PsNum
  | .fin q => c.fmt.rnd q
  | .inf b => .inf b
  | .nan => .nan

/-- `rnd` where the policy says a partial result is rounded, nothing otherwise (log 4). -/
def rndIf (b : Bool) (c : Config) (x : PsNum) : PsNum := if b then rnd c x else x

/-- An integer as a number. -/
def PsNum.ofInt (n : Int) : PsNum := .fin n

/-- Exact complex sum. -/
def Cx.add (x y : Cx) : Cx := ⟨x.re.add y.re, x.im.add y.im⟩

/-- Exact complex difference. -/
def Cx.sub (x y : Cx) : Cx := ⟨x.re.sub y.re, x.im.sub y.im⟩

/-- Exact complex product. -/
def Cx.mul (x y : Cx) : Cx := ⟨(x.re.mul y.re).sub (x.im.mul y.im), (x.re.mul y.im).add (x.im.mul y.re)⟩

/-- A real multiple of a complex number. -/
def Cx.scale (a : PsNum) (x : Cx) : Cx := ⟨a.mul x.re, a.mul x.im⟩

/-- `|z|^2` (`00_scope.md` R16). -/
def Cx.normSq (x : Cx) : PsNum := (x.re.mul x.re).add (x.im.mul x.im)

/-- Rounding of both parts. -/
def Cx.rnd (c : Config) (x : Cx) : Cx := ⟨Sys2Proof.rnd c x.re, Sys2Proof.rnd c x.im⟩

/-- Rounding of both parts where the policy says so. -/
def Cx.rndIf (b : Bool) (c : Config) (x : Cx) : Cx := if b then Cx.rnd c x else x

/-- The value of an IEEE 754 binary32 word. -/
def num32 (w : Nat) : PsNum :=
  let e : Nat := w / 2 ^ 23 % 256
  let m : Nat := w % 2 ^ 23
  let k : Int := if e = 0 then (m : Int) else (m : Int) + 2 ^ 23
  let u : Int := (if e = 0 then 1 else (e : Int)) - 150
  if e = 255 then (if m = 0 then .inf (w / 2 ^ 31 % 2 == 1) else .nan)
  else .fin (scaled (if w / 2 ^ 31 % 2 = 1 then -k else k) u)

/-- The `n` binary32 words of a numeral, most significant first. -/
def numWords (n : Nat) (x : Nat) : List PsNum :=
  (List.range n).map fun j => num32 (x / 2 ^ (32 * (n - 1 - j)) % 2 ^ 32)

/-- The `n` complex numbers of a numeral: real part, imaginary part, and so on, most significant first. -/
def cxWords (n : Nat) (x : Nat) : List Cx :=
  (List.range n).map fun j =>
    ⟨num32 (x / 2 ^ (32 * (2 * n - 1 - 2 * j)) % 2 ^ 32), num32 (x / 2 ^ (32 * (2 * n - 2 - 2 * j)) % 2 ^ 32)⟩

/-- One row of a mixing table: eight groups of four numbers, most significant first. -/
def mixRow (x : Nat) : List (List PsNum) :=
  (List.range 8).map fun j => numWords 4 (x / 2 ^ (128 * (7 - j)) % 2 ^ 128)

end Sys2Proof
end

