-- ==== Sys2Proof/Machine/CandidateTables.lean ====
section
/-! DEFINITION. The spec's candidate configuration, "the default instance of the parameter" (`47_constant_tables.md`
introduction, decision D6): PRESUMED throughout (log 6). Numbers of the real-valued tables are the candidate
constructions of R308, R309, R311 and R312 rounded to binary32, nearest even, written as binary32 words: a row is one
numeral, eight hexadecimal digits a number, the first number in the most significant digits. -/

namespace Sys2Proof

/-- Candidate content of table 0, `huff_iid_df1` (`47_constant_tables.md` R305): `(code, bits)`. -/
def huffCandidate0 : HuffTable :=
  ⟨[(0x1FEB4, 18), (0x1FEB5, 18), (0x1FD76, 18), (0x1FD77, 18), (0x1FD74, 18), (0x1FD75, 18), (0x1FE8A, 18), (0x1FE8B, 18)]
    ++ [(0x1FE88, 18), (0xFE80, 17), (0x1FEB6, 18), (0xFE82, 17), (0xFEB8, 17), (0x7F42, 16), (0x7FAE, 16), (0x3FAF, 15)]
    ++ [(0x1FD1, 14), (0x1FE9, 14), (0xFE9, 13), (0x7EA, 12), (0x7FB, 12), (0x3FB, 11), (0x1FB, 10), (0x1FF, 10)]
    ++ [(0x7C, 8), (0x3C, 7), (0x1C, 6), (0xC, 5), (0x0, 4), (0x1, 3), (0x1, 1), (0x2, 3)]
    ++ [(0x1, 4), (0xD, 5), (0x1D, 6), (0x3D, 7), (0x7D, 8), (0xFC, 9), (0x1FC, 10), (0x3FC, 11)]
    ++ [(0x3F4, 11), (0x7EB, 12), (0xFEA, 13), (0x1FEA, 14), (0x1FD6, 14), (0x3FD0, 15), (0x7FAF, 16), (0x7F43, 16)]
    ++ [(0xFEB9, 17), (0xFE83, 17), (0x1FEB7, 18), (0xFE81, 17), (0x1FE89, 18), (0x1FE8E, 18), (0x1FE8F, 18), (0x1FE8C, 18)]
    ++ [(0x1FE8D, 18), (0x1FEB2, 18), (0x1FEB3, 18), (0x1FEB0, 18), (0x1FEB1, 18)], 30⟩

/-- Candidate content of table 1, `huff_iid_dt1` (`47_constant_tables.md` R305): `(code, bits)`. -/
def huffCandidate1 : HuffTable :=
  ⟨[(0x4ED4, 16), (0x4ED5, 16), (0x4ECE, 16), (0x4ECF, 16), (0x4ECC, 16), (0x4ED6, 16), (0x4ED8, 16), (0x4F46, 16)]
    ++ [(0x4F60, 16), (0x2718, 15), (0x2719, 15), (0x2764, 15), (0x2765, 15), (0x276D, 15), (0x27B1, 15), (0x13B7, 14)]
    ++ [(0x13D6, 14), (0x9C7, 13), (0x9E9, 13), (0x9ED, 13), (0x4EE, 12), (0x4F7, 12), (0x278, 11), (0x139, 10)]
    ++ [(0x9A, 9), (0x9F, 9), (0x20, 7), (0x11, 6), (0xA, 5), (0x3, 3), (0x1, 1), (0x0, 2)]
    ++ [(0xB, 5), (0x12, 6), (0x21, 7), (0x4C, 8), (0x9B, 9), (0x13A, 10), (0x279, 11), (0x270, 11)]
    ++ [(0x4EF, 12), (0x4E2, 12), (0x9EA, 13), (0x9D8, 13), (0x13D7, 14), (0x13D0, 14), (0x27B2, 15), (0x27A2, 15)]
    ++ [(0x271A, 15), (0x271B, 15), (0x4F66, 16), (0x4F67, 16), (0x4F61, 16), (0x4F47, 16), (0x4ED9, 16), (0x4ED7, 16)]
    ++ [(0x4ECD, 16), (0x4ED2, 16), (0x4ED3, 16), (0x4ED0, 16), (0x4ED1, 16)], 30⟩

/-- Candidate content of table 2, `huff_iid_df0` (`47_constant_tables.md` R305): `(code, bits)`. -/
def huffCandidate2 : HuffTable :=
  ⟨[(0x1FFFB, 17), (0x1FFFC, 17), (0x1FFFD, 17), (0x1FFFA, 17), (0xFFFC, 16), (0x7FFC, 15), (0x1FFD, 13), (0x3FE, 10)]
    ++ [(0x1FE, 9), (0x7E, 7), (0x3C, 6), (0x1D, 5), (0xD, 4), (0x5, 3), (0x0, 1), (0x4, 3)]
    ++ [(0xC, 4), (0x1C, 5), (0x3D, 6), (0x3E, 6), (0xFE, 8), (0x7FE, 11), (0x1FFC, 13), (0x3FFC, 14)]
    ++ [(0x3FFD, 14), (0x7FFD, 15), (0x1FFFE, 17), (0x3FFFE, 18), (0x3FFFF, 18)], 14⟩

/-- Candidate content of table 3, `huff_iid_dt0` (`47_constant_tables.md` R305): `(code, bits)`. -/
def huffCandidate3 : HuffTable :=
  ⟨[(0x7FFF9, 19), (0x7FFFA, 19), (0x7FFFB, 19), (0xFFFF8, 20), (0xFFFF9, 20), (0xFFFFA, 20), (0x1FFFD, 17), (0x7FFE, 15)]
    ++ [(0xFFE, 12), (0x3FE, 10), (0xFE, 8), (0x3E, 6), (0xE, 4), (0x2, 2), (0x0, 1), (0x6, 3)]
    ++ [(0x1E, 5), (0x7E, 7), (0x1FE, 9), (0x7FE, 11), (0x1FFE, 13), (0x3FFE, 14), (0x1FFFC, 17), (0x7FFF8, 19)]
    ++ [(0xFFFFB, 20), (0xFFFFC, 20), (0xFFFFD, 20), (0xFFFFE, 20), (0xFFFFF, 20)], 14⟩

/-- Candidate content of table 4, `huff_icc_df` (`47_constant_tables.md` R304): `(code, bits)`. -/
def huffCandidate4 : HuffTable :=
  ⟨[(0x3FFF, 14), (0x3FFE, 14), (0xFFE, 12), (0x3FE, 10), (0x7E, 7), (0x1E, 5), (0x6, 3), (0x0, 1)]
    ++ [(0x2, 2), (0xE, 4), (0x3E, 6), (0xFE, 8), (0x1FE, 9), (0x7FE, 11), (0x1FFE, 13)], 7⟩

/-- Candidate content of table 5, `huff_icc_dt` (`47_constant_tables.md` R304): `(code, bits)`. -/
def huffCandidate5 : HuffTable :=
  ⟨[(0x3FFE, 14), (0x1FFE, 13), (0x7FE, 11), (0x1FE, 9), (0x7E, 7), (0x1E, 5), (0x6, 3), (0x0, 1)]
    ++ [(0x2, 2), (0xE, 4), (0x3E, 6), (0xFE, 8), (0x3FE, 10), (0xFFE, 12), (0x3FFF, 14)], 7⟩

/-- Candidate content of table 6, `huff_ipd_df` (`47_constant_tables.md` R304): `(code, bits)`. -/
def huffCandidate6 : HuffTable :=
  ⟨[(0x1, 1), (0x0, 3), (0x6, 4), (0x4, 4), (0x2, 4), (0x3, 4), (0x5, 4), (0x7, 4)], 0⟩

/-- Candidate content of table 7, `huff_ipd_dt` (`47_constant_tables.md` R304): `(code, bits)`. -/
def huffCandidate7 : HuffTable :=
  ⟨[(0x1, 1), (0x2, 3), (0x2, 4), (0x3, 5), (0x2, 5), (0x0, 4), (0x3, 4), (0x3, 3)], 0⟩

/-- Candidate content of table 8, `huff_opd_df` (`47_constant_tables.md` R304): `(code, bits)`. -/
def huffCandidate8 : HuffTable :=
  ⟨[(0x1, 1), (0x1, 3), (0x6, 4), (0x4, 4), (0xF, 5), (0xE, 5), (0x5, 4), (0x0, 3)], 0⟩

/-- Candidate content of table 9, `huff_opd_dt` (`47_constant_tables.md` R304): `(code, bits)`. -/
def huffCandidate9 : HuffTable :=
  ⟨[(0x1, 1), (0x2, 3), (0x1, 4), (0x7, 5), (0x6, 5), (0x0, 4), (0x2, 4), (0x3, 3)], 0⟩

/-- Candidate `k_to_i[0]` (R306). -/
def kToI20Candidate : List Nat :=
  [1, 0, 0, 1, 2, 3, 4, 5, 6, 7, 8, 9, 10, 11, 12, 13]
    ++ [14, 14, 15, 15, 15, 16, 16, 16, 16, 17, 17, 17, 17, 17, 18, 18]
    ++ [18, 18, 18, 18, 18, 18, 18, 18, 18, 18, 19, 19, 19, 19, 19, 19]
    ++ [19, 19, 19, 19, 19, 19, 19, 19, 19, 19, 19, 19, 19, 19, 19, 19]
    ++ [19, 19, 19, 19, 19, 19, 19]

/-- Candidate `k_to_i[1]` (R306). -/
def kToI34Candidate : List Nat :=
  [0, 1, 2, 3, 4, 5, 6, 6, 7, 2, 1, 0, 10, 10, 4, 5]
    ++ [6, 7, 8, 9, 10, 11, 12, 9, 14, 11, 12, 13, 14, 15, 16, 13]
    ++ [16, 17, 18, 19, 20, 21, 22, 22, 23, 23, 24, 24, 25, 25, 26, 26]
    ++ [27, 27, 27, 28, 28, 28, 29, 29, 29, 30, 30, 30, 31, 31, 31, 31]
    ++ [32, 32, 32, 32, 33, 33, 33, 33, 33, 33, 33, 33, 33, 33, 33, 33]
    ++ [33, 33, 33, 33, 33, 33, 33, 33, 33, 33, 33]

/-- Candidate `f20_0_8` (R308). -/
def f20_0_8Candidate : List (List Cx) :=
  [cxWords 7 0xBBACDEF73BACDEF7BC0E5A503CABD5C4000000003D3A3D583CE3C9DC3D897B873D8F26D33D8F26D33DDF26403D38DCF03E00000000000000,
   cxWords 7 0x3BACDEF73BACDEF73CABD5C4BC0E5A5000000000BD3A3D58BD897B87BCE3C9DCBD8F26D33D8F26D33D38DCF03DDF26403E00000000000000,
   cxWords 7 0x3BACDEF7BBACDEF7BCABD5C4BC0E5A50000000003D3A3D583D897B87BCE3C9DCBD8F26D3BD8F26D3BD38DCF03DDF26403E00000000000000,
   cxWords 7 0xBBACDEF7BBACDEF73C0E5A503CABD5C400000000BD3A3D58BCE3C9DC3D897B873D8F26D3BD8F26D3BDDF26403D38DCF03E00000000000000,
   cxWords 7 0xBBACDEF73BACDEF73C0E5A50BCABD5C4000000003D3A3D58BCE3C9DCBD897B873D8F26D33D8F26D3BDDF2640BD38DCF03E00000000000000,
   cxWords 7 0x3BACDEF73BACDEF7BCABD5C43C0E5A5000000000BD3A3D583D897B873CE3C9DCBD8F26D33D8F26D3BD38DCF0BDDF26403E00000000000000,
   cxWords 7 0x3BACDEF7BBACDEF73CABD5C43C0E5A50000000003D3A3D58BD897B873CE3C9DCBD8F26D3BD8F26D33D38DCF0BDDF26403E00000000000000,
   cxWords 7 0xBBACDEF7BBACDEF7BC0E5A50BCABD5C400000000BD3A3D583CE3C9DCBD897B873D8F26D3BD8F26D33DDF2640BD38DCF03E00000000000000]

/-- Candidate `f34_0_12` (R308). -/
def f34_0_12Candidate : List (List Cx) :=
  [cxWords 7 0x000000003D272A463C21AE923D16D9EE3CD2BC463D3680933D395BE23D395BE23D83C0043D1821C23DA03E0D3CABBF4D3DAAAAAB00000000,
   cxWords 7 0x00000000BD272A46BCDCDC92BCDCDC92BD52BC4600000000BD395BE23D395BE2000000003D9821C23D6A9C733D6A9C733DAAAAAB00000000,
   cxWords 7 0x000000003D272A463D16D9EE3C21AE923CD2BC46BD368093BD395BE2BD395BE2BD83C0043D1821C23CABBF4D3DA03E0D3DAAAAAB00000000,
   cxWords 7 0x00000000BD272A46BD16D9EE3C21AE923CD2BC463D3680933D395BE2BD395BE2BD83C004BD1821C2BCABBF4D3DA03E0D3DAAAAAB00000000,
   cxWords 7 0x000000003D272A463CDCDC92BCDCDC92BD52BC46000000003D395BE23D395BE200000000BD9821C2BD6A9C733D6A9C733DAAAAAB00000000,
   cxWords 7 0x00000000BD272A46BC21AE923D16D9EE3CD2BC46BD368093BD395BE23D395BE23D83C004BD1821C2BDA03E0D3CABBF4D3DAAAAAB00000000,
   cxWords 7 0x000000003D272A46BC21AE92BD16D9EE3CD2BC463D368093BD395BE2BD395BE23D83C0043D1821C2BDA03E0DBCABBF4D3DAAAAAB00000000,
   cxWords 7 0x00000000BD272A463CDCDC923CDCDC92BD52BC46000000003D395BE2BD395BE2000000003D9821C2BD6A9C73BD6A9C733DAAAAAB00000000,
   cxWords 7 0x000000003D272A46BD16D9EEBC21AE923CD2BC46BD3680933D395BE23D395BE2BD83C0043D1821C2BCABBF4DBDA03E0D3DAAAAAB00000000,
   cxWords 7 0x00000000BD272A463D16D9EEBC21AE923CD2BC463D368093BD395BE23D395BE2BD83C004BD1821C23CABBF4DBDA03E0D3DAAAAAB00000000,
   cxWords 7 0x000000003D272A46BCDCDC923CDCDC92BD52BC4600000000BD395BE2BD395BE200000000BD9821C23D6A9C73BD6A9C733DAAAAAB00000000,
   cxWords 7 0x00000000BD272A463C21AE92BD16D9EE3CD2BC46BD3680933D395BE2BD395BE23D83C004BD1821C23DA03E0DBCABBF4D3DAAAAAB00000000]

/-- Candidate `f34_1_8` (R308). -/
def f34_1_8Candidate : List (List Cx) :=
  [cxWords 7 0xBC3563223C356322BC6B4A803D0E02BD000000003D5DEAB53D03EF4C3D9F42643D95442B3D95442B3DE742FC3D3F955C3E00000000000000,
   cxWords 7 0x3C3563223C3563223D0E02BDBC6B4A8000000000BD5DEAB5BD9F4264BD03EF4CBD95442B3D95442B3D3F955C3DE742FC3E00000000000000,
   cxWords 7 0x3C356322BC356322BD0E02BDBC6B4A80000000003D5DEAB53D9F4264BD03EF4CBD95442BBD95442BBD3F955C3DE742FC3E00000000000000,
   cxWords 7 0xBC356322BC3563223C6B4A803D0E02BD00000000BD5DEAB5BD03EF4C3D9F42643D95442BBD95442BBDE742FC3D3F955C3E00000000000000,
   cxWords 7 0xBC3563223C3563223C6B4A80BD0E02BD000000003D5DEAB5BD03EF4CBD9F42643D95442B3D95442BBDE742FCBD3F955C3E00000000000000,
   cxWords 7 0x3C3563223C356322BD0E02BD3C6B4A8000000000BD5DEAB53D9F42643D03EF4CBD95442B3D95442BBD3F955CBDE742FC3E00000000000000,
   cxWords 7 0x3C356322BC3563223D0E02BD3C6B4A80000000003D5DEAB5BD9F42643D03EF4CBD95442BBD95442B3D3F955CBDE742FC3E00000000000000,
   cxWords 7 0xBC356322BC356322BC6B4A80BD0E02BD00000000BD5DEAB53D03EF4CBD9F42643D95442BBD95442B3DE742FCBD3F955C3E00000000000000]

/-- Candidate `f34_2_4` (R308). -/
def f34_2_4Candidate : List (List Cx) :=
  [cxWords 7 0x000000003D7200163D0D17FA3D0D17FA0000000000000000BD614BC13D614BC1000000003E28D1DB3E28906D3E28906D3E80000000000000,
   cxWords 7 0x00000000BD720016BD0D17FA3D0D17FA00000000000000003D614BC13D614BC100000000BE28D1DBBE28906D3E28906D3E80000000000000,
   cxWords 7 0x000000003D720016BD0D17FABD0D17FA00000000000000003D614BC1BD614BC1000000003E28D1DBBE28906DBE28906D3E80000000000000,
   cxWords 7 0x00000000BD7200163D0D17FABD0D17FA0000000000000000BD614BC1BD614BC100000000BE28D1DB3E28906DBE28906D3E80000000000000]

/-- Candidate `g1_Q2` (R308). -/
def g1Q2Candidate : List PsNum := numWords 7 0x000000003C9B9B2400000000BD955D0E000000003E9CA79E3F000000

/-- Candidate `HA` (R309), rows 0 to 7; a numeral is a row of eight groups of four. -/
def haCandidate0 : List (List (List PsNum)) :=
  [mixRow 0x3DA29D523FB4BBDA00000000000000003D98F2613FB4B9663CDCEF58BC6E42983D8A382D3FB4B5903D2B55A0BCBEB9A03D4A508E3FB4AB533D7EA471BD1A92BB3D01EB6E3FB4A05E3D951380BD47511B3B6BD4573FB48C503DA2728CBD830DA7BD2E7DEC3FB45E903D893A78BDB78A19BDA1F2513FB3FDCB3BEB964FBE02EB2E,
   mixRow 0x3E34E2543FB39A0800000000000000003E2AEFF23FB38D233D6CA059BD081B283E1BC13C3FB378FB3DB7F374BD59E0A83DEABF063FB343333E09A1D6BDB085E53D9F39053FB309AA3E226C2DBDE38B193C9696663FB2A0663E33E6EBBE158517BDA843D03FB1B0833E20209EBE511B00BE30F7683FAFB6383D15C519BE94B545,
   mixRow 0x3E8DAE053FB1852D00000000000000003E868DF03FB163BE3DB175CFBD59DDDD3E774FE23FB12F7D3E0A4F19BDAE56973E3FF2103FB0A4213E50720CBE0D28843E090E823FB00F223E78021CBE35D56D3D3E7BFB3FAEFECF3E8BAA26BE6EABB6BDD92A403FAC93773E82DD68BEA66B1BBE85AD373FA77E173DBBC668BEEB46B0,
   mixRow 0x3EDA514A3FAC985D00000000000000003ED0E6FE3FAC43303DFDB04DBDAB62713EC274B83FABBE263E467D17BE090EC73E9D7E983FAA5BBB3E97304FBE5D93D83E70DBEC3FA8E1733EB618CDBE8E758C3DEBC0A53FA62FCD3ED23620BEBA60F4BDD564743FA017BF3ED3B2FBBF00FC9FBEBA7EBC3F936FF23E62FFC1BF337560,
   mixRow 0x3F13A7D93FA547A900000000000000003F0E5CC53FA4A2E03E1CB944BDE92A123F0636F43FA3A1B23E7634FFBE3A45A93EE26EBE3FA0F5DD3EBD921ABE9628473EB7D5613F9E1E113EE71D5EBEC083453E5FC9D63F98F4C23F08A55DBEFA7FFCBD497FE63F8D62713F131E1CBF2B34B4BED2846E3F6BA5103ECF1A1CBF67D262,
   mixRow 0x3F4130A63F9917C100000000000000003F3BEB753F97F0EB3E33448BBE15F23A3F33C6EE3F96257C3E8D7546BE6F202D3F1E9CE33F91641F3EDC9596BEBFC8D73F08DBF23F8C5B543F085A33BEF4895F3EC6BDA63F8349B33F25AC93BF1D7DD23DC3DD113F5E96BB3F3FA1E5BF523F41BEB5EDD33F102B453F2A6F2EBF870F61,
   mixRow 0x3F612E973F8DBE6100000000000000003F5C5E043F8C28973E3943FFBE291C3E3F54E8C83F89B1423E92A668BE8695BB3F4169873F832E503EE6A3B7BED6C4A63F2D31183F78A60D3F0FEA40BF0828603F09DE863F60244C3F320ACABF2D912C3E8233353F2B0A713F579107BF621352BE616FD43E8DE7723F5A03DCBF893B7C,
   mixRow 0x3F8000003F80000000000000000000003F7BEF8D3F7BEF8D3E35BDF2BE35BDF23F75A0133F75A0133E9047CDBE9047CD3F650A083F650A083EE4B5BBBEE4B5BB3F53B1F43F53B1F43F0FF2D1BF0FF2D13F3504F33F3504F33F3504F3BF3504F33EE819B53EE819B53F642F56BF642F5600000000000000003F800000BF800000]

/-- Candidate `HA` (R309), rows 8 to 15; a numeral is a row of eight groups of four. -/
def haCandidate1 : List (List (List PsNum)) :=
  [mixRow 0x3F8DBE613F612E9700000000000000003F8C28973F5C5E043E291C3EBE3943FF3F89B1423F54E8C83E8695BBBE92A6683F832E503F4169873ED6C4A6BEE6A3B73F78A60D3F2D31183F082860BF0FEA403F60244C3F09DE863F2D912CBF320ACA3F2B0A713E8233353F621352BF5791073E8DE772BE616FD43F893B7CBF5A03DC,
   mixRow 0x3F9917C13F4130A600000000000000003F97F0EB3F3BEB753E15F23ABE33448B3F96257C3F33C6EE3E6F202DBE8D75463F91641F3F1E9CE33EBFC8D7BEDC95963F8C5B543F08DBF23EF4895FBF085A333F8349B33EC6BDA63F1D7DD2BF25AC933F5E96BB3DC3DD113F523F41BF3FA1E53F102B45BEB5EDD33F870F61BF2A6F2E,
   mixRow 0x3FA547A93F13A7D900000000000000003FA4A2E03F0E5CC53DE92A12BE1CB9443FA3A1B23F0636F43E3A45A9BE7634FF3FA0F5DD3EE26EBE3E962847BEBD921A3F9E1E113EB7D5613EC08345BEE71D5E3F98F4C23E5FC9D63EFA7FFCBF08A55D3F8D6271BD497FE63F2B34B4BF131E1C3F6BA510BED2846E3F67D262BECF1A1C,
   mixRow 0x3FAC985D3EDA514A00000000000000003FAC43303ED0E6FE3DAB6271BDFDB04D3FABBE263EC274B83E090EC7BE467D173FAA5BBB3E9D7E983E5D93D8BE97304F3FA8E1733E70DBEC3E8E758CBEB618CD3FA62FCD3DEBC0A53EBA60F4BED236203FA017BFBDD564743F00FC9FBED3B2FB3F936FF2BEBA7EBC3F337560BE62FFC1,
   mixRow 0x3FB1852D3E8DAE0500000000000000003FB163BE3E868DF03D59DDDDBDB175CF3FB12F7D3E774FE23DAE5697BE0A4F193FB0A4213E3FF2103E0D2884BE50720C3FB00F223E090E823E35D56DBE78021C3FAEFECF3D3E7BFB3E6EABB6BE8BAA263FAC9377BDD92A403EA66B1BBE82DD683FA77E17BE85AD373EEB46B0BDBBC668,
   mixRow 0x3FB39A083E34E25400000000000000003FB38D233E2AEFF23D081B28BD6CA0593FB378FB3E1BC13C3D59E0A8BDB7F3743FB343333DEABF063DB085E5BE09A1D63FB309AA3D9F39053DE38B19BE226C2D3FB2A0663C9696663E158517BE33E6EB3FB1B083BDA843D03E511B00BE20209E3FAFB638BE30F7683E94B545BD15C519,
   mixRow 0x3FB4BBDA3DA29D5200000000000000003FB4B9663D98F2613C6E4298BCDCEF583FB4B5903D8A382D3CBEB9A0BD2B55A03FB4AB533D4A508E3D1A92BBBD7EA4713FB4A05E3D01EB6E3D47511BBD9513803FB48C503B6BD4573D830DA7BDA2728C3FB45E90BD2E7DEC3DB78A19BD893A783FB3FDCBBDA1F2513E02EB2EBBEB964F,
   mixRow 0x3B928ACF3FB504B800000000000000003B8956C73FB504B63ACC74A0BA5181D33B76AE193FB504B33B1E4389BAA7B6943B3076B53FB504AB3B6A01ABBB07EEE43AD8879F3FB504A33B882D6EBB2F4B83373AA3FE3FB504933B928AB1BB668CF1BB2BCCDD3FB504703B6D738EBBA17ED7BB928A583FB5042537BAA3D8BBE68CC2]

/-- Candidate `HA` (R309), rows 16 to 23; a numeral is a row of eight groups of four. -/
def haCandidate2 : List (List (List PsNum)) :=
  [mixRow 0x3C024B8B3FB5043800000000000000003BF443B53FB504323B359279BABA81843BDB6E133FB504283B8C8FEDBB154CE73B9D23223FB5040F3BCFE1ECBB7204CA3B413CE23FB503F43BF20440BB9C0CB53813BAE83FB503C33C024B38BBCD3D15BB982D903FB503533BD38A34BC0FC3C4BC024A3C3FB502663893BA89BC4D3C91,
   mixRow 0x3C67B1733FB502A200000000000000003C593DC43FB5028F3BA1187BBB262E253C4341293FB502713BF97562BB8507843C0C16E13FB502223C388B67BBD7A4893BACF1403FB501CC3C56F3C4BC0B0AE838EA12E63FB501313C67AF9ABC36DEC4BC0663783FB4FFCD3C3CBC87BC801865BC67AA0F3FB4FCDC396A1109BCB6DD4F,
   mixRow 0x3CCDFC3E3FB4FDA000000000000000003CC13CD13FB4FD633C0EAD5DBB944C193CADD6D93FB4FD043C5CFF20BBED6D5B3C7A49C33FB4FC073CA39CB2BC406F893C1B8D553FB4FAF73CBEBCD5BC78282E39B9B9423FB4F9073CCDF703BCA33009BC6C08613FB4F49A3CA8D35CBCE49C8ABCCDE7503FB4EB3C3A39B48ABD232BE4,
   mixRow 0x3D3716513FB4EDCC00000000000000003D2BEA903FB4ED093C7BE547BC04AB763D1AE92C3FB4EBD93CC32D64BC5467EE3CE05E5B3FB4E8AE3D10B0FFBCAC27383C8D1FC83FB4E5493D28F189BCDDFF6F3A93B8E93FB4DF123D37076ABD11FB1EBCCD17203FB4D0E63D17ACE1BD4C7DF6BD36DAB93FB4B2E83B13ACE3BD91EF3C,
   mixRow 0x3DA29D523FB4BBDA00000000000000003D98F2613FB4B9663CDCEF58BC6E42983D8A382D3FB4B5903D2B55A0BCBEB9A03D4A508E3FB4AB533D7EA471BD1A92BB3D01EB6E3FB4A05E3D951380BD47511B3B6BD4573FB48C503DA2728CBD830DA7BD2E7DEC3FB45E903D893A78BDB78A19BDA1F2513FB3FDCB3BEB964FBE02EB2E,
   mixRow 0x3DE556F33FB4737100000000000000003DD80B793FB46E753D19E66EBCA9A1E13DC3C7613FB466AB3D6EE44FBD07C9083D90B3803FB451E13DB1ED7ABD5C13DD3D3D62EE3FB43BA23DD0E0ADBD8DE1333BED16813FB412EB3DE4DC46BDBA8C28BD6B863C3FB3B60F3DC4CBD4BE0295B5BDE36CC13FB2F1BE3C6C97AEBE3A285F,
   mixRow 0x3E2178EF3FB3E3FA00000000000000003E18737E3FB3D9D13D54DD92BCF1D8073E0AAFD23FB3C9EE3DA56676BD4193B13DCFD7A53FB39F8C3DF72C7FBD9CD90D3D8B884D3FB372333E119F72BDCA33113C6E907D3FB31F393E20C853BE04E352BD9AE7BF3FB262143E0DAF2BBE39EA30BE1EB8023FB0D2A53CED8B90BE8451FA,
   mixRow 0x3E62B0093FB2C9AD00000000000000003E56B20C3FB2B4E73D9181FFBD2C5A683E445FCD3FB2946F3DE27D7DBD89F0363E15F5833FB23DD03E29FFAEBDDF75A83DD046BC3FB1E12B3E495A0DBE0FFC5B3CEFCF923FB137BC3E60B269BE3D2354BDC2C1EB3FAFB5E93E4CB4D0BE841CEFBE5AC27C3FAC88FA3D6DB471BEBB7A1F]

/-- Candidate `HA` (R309), rows 24 to 31; a numeral is a row of eight groups of four. -/
def haCandidate3 : List (List (List PsNum)) :=
  [mixRow 0x3E9E2F673FB0A59400000000000000003E9678D83FB07B373DC32B8DBD74A1093E8AAAA63FB039023E183CFEBDC3BBAF3E59440E3FAF88793E65F811BE1E6FDA3E1D91D13FAECBC83E892B6CBE4C07B03D6FAF3D3FAD730E3E9B526CBE85D435BDE097F33FAA63C13E93E280BEBA653EBE92D6043FA3F91B3DEB589EBF036816,
   mixRow 0x3EDA514A3FAC985D00000000000000003ED0E6FE3FAC43303DFDB04DBDAB62713EC274B83FABBE263E467D17BE090EC73E9D7E983FAA5BBB3E97304FBE5D93D83E70DBEC3FA8E1733EB618CDBE8E758C3DEBC0A53FA62FCD3ED23620BEBA60F4BDD564743FA017BF3ED3B2FBBF00FC9FBEBA7EBC3F936FF23E62FFC1BF337560,
   mixRow 0x3F05E8A43FA82E8900000000000000003F00C28A3FA7A9713E131A15BDD36BA93EF1AFE63FA6D9A73E66C4CFBE28F8E13EC8FD113FA4B0B93EB10098BE885D5A3E9FDFB43FA263903ED6DD33BEAF0A6D3E35C0E23F9E341A3EFBED86BEE445A2BD9A97AA3F94C91E3F0481D2BF1CD158BECE24F13F8173E93EAAF851BF56BA85,
   mixRow 0x3F2237493FA1D4EA00000000000000003F1CD8DF3FA10AA13E258D96BDFF8FB03F1492BE3F9FCF113E823B15BE4C0F2D3EFE61E63F9C88C83EC95C08BEA444B83ED2D1B03F990DE33EF69981BED24A7E3E88C3F43F92BFE23F131916BF087104BC5187063F84ADBC3F222ED3BF3951EABED11FBD3F50A0EC3EF809ECBF777381,
   mixRow 0x3F4130A63F9917C100000000000000003F3BEB753F97F0EB3E33448BBE15F23A3F33C6EE3F96257C3E8D7546BE6F202D3F1E9CE33F91641F3EDC9596BEBFC8D73F08DBF23F8C5B543F085A33BEF4895F3EC6BDA63F8349B33F25AC93BF1D7DD23DC3DD113F5E96BB3F3FA1E5BF523F41BEB5EDD33F102B453F2A6F2EBF870F61,
   mixRow 0x3F612E973F8DBE6100000000000000003F5C5E043F8C28973E3943FFBE291C3E3F54E8C83F89B1423E92A668BE8695BB3F4169873F832E503EE6A3B7BED6C4A63F2D31183F78A60D3F0FEA40BF0828603F09DE863F60244C3F320ACABF2D912C3E8233353F2B0A713F579107BF621352BE616FD43E8DE7723F5A03DCBF893B7C,
   mixRow 0x3F8000003F80000000000000000000003F7BEF8D3F7BEF8D3E35BDF2BE35BDF23F75A0133F75A0133E9047CDBE9047CD3F650A083F650A083EE4B5BBBEE4B5BB3F53B1F43F53B1F43F0FF2D1BF0FF2D13F3504F33F3504F33F3504F3BF3504F33EE819B53EE819B53F642F56BF642F5600000000000000003F800000BF800000,
   mixRow 0x3F8DBE613F612E9700000000000000003F8C28973F5C5E043E291C3EBE3943FF3F89B1423F54E8C83E8695BBBE92A6683F832E503F4169873ED6C4A6BEE6A3B73F78A60D3F2D31183F082860BF0FEA403F60244C3F09DE863F2D912CBF320ACA3F2B0A713E8233353F621352BF5791073E8DE772BE616FD43F893B7CBF5A03DC]

/-- Candidate `HA` (R309), rows 32 to 39; a numeral is a row of eight groups of four. -/
def haCandidate4 : List (List (List PsNum)) :=
  [mixRow 0x3F9917C13F4130A600000000000000003F97F0EB3F3BEB753E15F23ABE33448B3F96257C3F33C6EE3E6F202DBE8D75463F91641F3F1E9CE33EBFC8D7BEDC95963F8C5B543F08DBF23EF4895FBF085A333F8349B33EC6BDA63F1D7DD2BF25AC933F5E96BB3DC3DD113F523F41BF3FA1E53F102B45BEB5EDD33F870F61BF2A6F2E,
   mixRow 0x3FA1D4EA3F22374900000000000000003FA10AA13F1CD8DF3DFF8FB0BE258D963F9FCF113F1492BE3E4C0F2DBE823B153F9C88C83EFE61E63EA444B8BEC95C083F990DE33ED2D1B03ED24A7EBEF699813F92BFE23E88C3F43F087104BF1319163F84ADBCBC5187063F3951EABF222ED33F50A0ECBED11FBD3F777381BEF809EC,
   mixRow 0x3FA82E893F05E8A400000000000000003FA7A9713F00C28A3DD36BA9BE131A153FA6D9A73EF1AFE63E28F8E1BE66C4CF3FA4B0B93EC8FD113E885D5ABEB100983FA263903E9FDFB43EAF0A6DBED6DD333F9E341A3E35C0E23EE445A2BEFBED863F94C91EBD9A97AA3F1CD158BF0481D23F8173E9BECE24F13F56BA85BEAAF851,
   mixRow 0x3FAC985D3EDA514A00000000000000003FAC43303ED0E6FE3DAB6271BDFDB04D3FABBE263EC274B83E090EC7BE467D173FAA5BBB3E9D7E983E5D93D8BE97304F3FA8E1733E70DBEC3E8E758CBEB618CD3FA62FCD3DEBC0A53EBA60F4BED236203FA017BFBDD564743F00FC9FBED3B2FB3F936FF2BEBA7EBC3F337560BE62FFC1,
   mixRow 0x3FB0A5943E9E2F6700000000000000003FB07B373E9678D83D74A109BDC32B8D3FB039023E8AAAA63DC3BBAFBE183CFE3FAF88793E59440E3E1E6FDABE65F8113FAECBC83E1D91D13E4C07B0BE892B6C3FAD730E3D6FAF3D3E85D435BE9B526C3FAA63C1BDE097F33EBA653EBE93E2803FA3F91BBE92D6043F036816BDEB589E,
   mixRow 0x3FB2C9AD3E62B00900000000000000003FB2B4E73E56B20C3D2C5A68BD9181FF3FB2946F3E445FCD3D89F036BDE27D7D3FB23DD03E15F5833DDF75A8BE29FFAE3FB1E12B3DD046BC3E0FFC5BBE495A0D3FB137BC3CEFCF923E3D2354BE60B2693FAFB5E9BDC2C1EB3E841CEFBE4CB4D03FAC88FABE5AC27C3EBB7A1FBD6DB471,
   mixRow 0x3FB3E3FA3E2178EF00000000000000003FB3D9D13E18737E3CF1D807BD54DD923FB3C9EE3E0AAFD23D4193B1BDA566763FB39F8C3DCFD7A53D9CD90DBDF72C7F3FB372333D8B884D3DCA3311BE119F723FB31F393C6E907D3E04E352BE20C8533FB26214BD9AE7BF3E39EA30BE0DAF2B3FB0D2A5BE1EB8023E8451FABCED8B90,
   mixRow 0x3FB473713DE556F300000000000000003FB46E753DD80B793CA9A1E1BD19E66E3FB466AB3DC3C7613D07C908BD6EE44F3FB451E13D90B3803D5C13DDBDB1ED7A3FB43BA23D3D62EE3D8DE133BDD0E0AD3FB412EB3BED16813DBA8C28BDE4DC463FB3B60FBD6B863C3E0295B5BDC4CBD43FB2F1BEBDE36CC13E3A285FBC6C97AE]

/-- Candidate `HA` (R309), rows 40 to 45; a numeral is a row of eight groups of four. -/
def haCandidate5 : List (List (List PsNum)) :=
  [mixRow 0x3FB4BBDA3DA29D5200000000000000003FB4B9663D98F2613C6E4298BCDCEF583FB4B5903D8A382D3CBEB9A0BD2B55A03FB4AB533D4A508E3D1A92BBBD7EA4713FB4A05E3D01EB6E3D47511BBD9513803FB48C503B6BD4573D830DA7BDA2728C3FB45E90BD2E7DEC3DB78A19BD893A783FB3FDCBBDA1F2513E02EB2EBBEB964F,
   mixRow 0x3FB4EDCC3D37165100000000000000003FB4ED093D2BEA903C04AB76BC7BE5473FB4EBD93D1AE92C3C5467EEBCC32D643FB4E8AE3CE05E5B3CAC2738BD10B0FF3FB4E5493C8D1FC83CDDFF6FBD28F1893FB4DF123A93B8E93D11FB1EBD37076A3FB4D0E6BCCD17203D4C7DF6BD17ACE13FB4B2E8BD36DAB93D91EF3CBB13ACE3,
   mixRow 0x3FB4FDA03CCDFC3E00000000000000003FB4FD633CC13CD13B944C19BC0EAD5D3FB4FD043CADD6D93BED6D5BBC5CFF203FB4FC073C7A49C33C406F89BCA39CB23FB4FAF73C1B8D553C78282EBCBEBCD53FB4F90739B9B9423CA33009BCCDF7033FB4F49ABC6C08613CE49C8ABCA8D35C3FB4EB3CBCCDE7503D232BE4BA39B48A,
   mixRow 0x3FB502A23C67B17300000000000000003FB5028F3C593DC43B262E25BBA1187B3FB502713C4341293B850784BBF975623FB502223C0C16E13BD7A489BC388B673FB501CC3BACF1403C0B0AE8BC56F3C43FB5013138EA12E63C36DEC4BC67AF9A3FB4FFCDBC0663783C801865BC3CBC873FB4FCDCBC67AA0F3CB6DD4FB96A1109,
   mixRow 0x3FB504383C024B8B00000000000000003FB504323BF443B53ABA8184BB3592793FB504283BDB6E133B154CE7BB8C8FED3FB5040F3B9D23223B7204CABBCFE1EC3FB503F43B413CE23B9C0CB5BBF204403FB503C33813BAE83BCD3D15BC024B383FB50353BB982D903C0FC3C4BBD38A343FB50266BC024A3C3C4D3C91B893BA89,
   mixRow 0x3FB504B83B928ACF00000000000000003FB504B63B8956C73A5181D3BACC74A03FB504B33B76AE193AA7B694BB1E43893FB504AB3B3076B53B07EEE4BB6A01AB3FB504A33AD8879F3B2F4B83BB882D6E3FB50493373AA3FE3B668CF1BB928AB13FB50470BB2BCCDD3BA17ED7BB6D738E3FB50425BB928A583BE68CC2B7BAA3D8]

/-- Candidate `HA` (R309). -/
def haCandidate : List (List (List PsNum)) :=
  haCandidate0 ++ haCandidate1 ++ haCandidate2 ++ haCandidate3 ++ haCandidate4 ++ haCandidate5

/-- Candidate `HB` (R309), rows 0 to 7; a numeral is a row of eight groups of four. -/
def hbCandidate0 : List (List (List PsNum)) :=
  [mixRow 0x3DA29D523FB4BBDA00000000000000003D986DAB3FB4BBD4BCE2983B3ABF1B5E3D88EA0E3FB4BBCEBD2F79E43B04EE763D43D4E53FB4BBCCBD81D4A13B0CAD223CEFCA303FB4BBD3BD9729563AC88DFC3B8280D73FB4BBDABDA268EC396A8B463B8280D73FB4BBDABDA268EC396A8B463B8280D73FB4BBDABDA268EC396A8B46,
   mixRow 0x3E34E2543FB39A0800000000000000003E29CF613FB3996DBD7946213BEBAFE03E18DA4A3FB398DABDC171953C24A3293DDB99253FB398B0BE0FBF3E3C2FC3983D86D7BC3FB39957BE27D9723BFC0AD23C1308173FB39A04BE34A6893A93E3EA3C1308173FB39A04BE34A6893A93E3EA3C1308173FB39A04BE34A6893A93E3EA,
   mixRow 0x3E8DAE053FB1852D00000000000000003E855E883FB1818BBDBF3D6B3C8FB0303E710C043FB17DF9BE14F5AF3CCA4C453E2E9F1D3FB17CB0BE5F28B43CDB8E5C3DD7B6C83FB180B7BE8303C83C9F37ED3C6C0F763FB18514BE8D7CD23B3C25543C6C0F763FB18514BE8D7CD23B3C25543C6C0F763FB18514BE8D7CD23B3C2554,
   mixRow 0x3EDA514A3FAC985D00000000000000003ECEC9653FAC83F4BE0C069C3D27D7C23EBC9C873FAC6E71BE5BE4B43D7086E63E8B9F493FAC62CCBEA7D5743D87EF6D3E2F5C613FAC7A6DBEC7EFCC3D4B473C3CC1FF483FAC97AFBED9FB073BF503A43CC1FF483FAC97AFBED9FB073BF503A43CC1FF483FAC97AFBED9FB073BF503A4,
   mixRow 0x3F13A7D93FA547A900000000000000003F0D0BB13FA50420BE2EBCA63D955ABB3F0266683FA4B5D9BE8A891D3DDB5AF63EC828B73FA473DABED921193E0422F73E81F2D63FA4C31EBF0497743DD126AB3D1371323FA54464BF135E293C8379303D1371323FA54464BF135E293C8379303D1371323FA54464BF135E293C837930,
   mixRow 0x3F4130A63F9917C100000000000000003F3ACBC23F985868BE452AB23DF1C0C93F3058E93F975BBDBE9DC8EE3E37D5B83F10D88A3F95F2A4BEFFAC153E76F9163ECD1FCE3F968813BF23B7AB3E5F179C3D7FEFCD3F990294BF4086D43D2104843D7FEFCD3F990294BF4086D43D2104843D7FEFCD3F990294BF4086D43D210484,
   mixRow 0x3F612E973F8DBE6100000000000000003F5BBAC53F8C6D9BBE4502EE3E1A22103F52E9F73F8A86F1BE9DC32D3E7033573F38AAB83F86AF94BF00DC563EB0AE163F1369AC3F85C27EBF2A397D3EBB99823DF075D63F8D3EDDBF5F2ABB3DBDF6763DF075D63F8D3EDDBF5F2ABB3DBDF6763DF075D63F8D3EDDBF5F2ABB3DBDF676,
   mixRow 0x3F8000003F80000000000000000000003F7BEF8D3F7BEF8DBE35BDF23E35BDF23F75A0133F75A013BE9047CD3E9047CD3F650A083F650A08BEE4B5BB3EE4B5BB3F53B1F43F53B1F4BF0FF2D13F0FF2D13F397D583F397D58BF306F923F306F923F397D583F397D58BF306F923F306F923F397D583F397D58BF306F923F306F92]

/-- Candidate `HB` (R309), rows 8 to 15; a numeral is a row of eight groups of four. -/
def hbCandidate1 : List (List (List PsNum)) :=
  [mixRow 0x3F8DBE613F612E9700000000000000003F8C6D9B3F5BBAC5BE1A22103E4502EE3F8A86F13F52E9F7BE7033573E9DC32D3F86AF943F38AAB8BEB0AE163F00DC563F85C27E3F1369ACBEBB99823F2A397D3F8D3EDD3DF075D6BDBDF6763F5F2ABB3F8D3EDD3DF075D6BDBDF6763F5F2ABB3F8D3EDD3DF075D6BDBDF6763F5F2ABB,
   mixRow 0x3F9917C13F4130A600000000000000003F9858683F3ACBC2BDF1C0C93E452AB23F975BBD3F3058E9BE37D5B83E9DC8EE3F95F2A43F10D88ABE76F9163EFFAC153F9688133ECD1FCEBE5F179C3F23B7AB3F9902943D7FEFCDBD2104843F4086D43F9902943D7FEFCDBD2104843F4086D43F9902943D7FEFCDBD2104843F4086D4,
   mixRow 0x3FA547A93F13A7D900000000000000003FA504203F0D0BB1BD955ABB3E2EBCA63FA4B5D93F026668BDDB5AF63E8A891D3FA473DA3EC828B7BE0422F73ED921193FA4C31E3E81F2D6BDD126AB3F0497743FA544643D137132BC8379303F135E293FA544643D137132BC8379303F135E293FA544643D137132BC8379303F135E29,
   mixRow 0x3FAC985D3EDA514A00000000000000003FAC83F43ECEC965BD27D7C23E0C069C3FAC6E713EBC9C87BD7086E63E5BE4B43FAC62CC3E8B9F49BD87EF6D3EA7D5743FAC7A6D3E2F5C61BD4B473C3EC7EFCC3FAC97AF3CC1FF48BBF503A43ED9FB073FAC97AF3CC1FF48BBF503A43ED9FB073FAC97AF3CC1FF48BBF503A43ED9FB07,
   mixRow 0x3FB1852D3E8DAE0500000000000000003FB1818B3E855E88BC8FB0303DBF3D6B3FB17DF93E710C04BCCA4C453E14F5AF3FB17CB03E2E9F1DBCDB8E5C3E5F28B43FB180B73DD7B6C8BC9F37ED3E8303C83FB185143C6C0F76BB3C25543E8D7CD23FB185143C6C0F76BB3C25543E8D7CD23FB185143C6C0F76BB3C25543E8D7CD2,
   mixRow 0x3FB39A083E34E25400000000000000003FB3996D3E29CF61BBEBAFE03D7946213FB398DA3E18DA4ABC24A3293DC171953FB398B03DDB9925BC2FC3983E0FBF3E3FB399573D86D7BCBBFC0AD23E27D9723FB39A043C130817BA93E3EA3E34A6893FB39A043C130817BA93E3EA3E34A6893FB39A043C130817BA93E3EA3E34A689,
   mixRow 0x3FB4BBDA3DA29D5200000000000000003FB4BBD43D986DABBABF1B5E3CE2983B3FB4BBCE3D88EA0EBB04EE763D2F79E43FB4BBCC3D43D4E5BB0CAD223D81D4A13FB4BBD33CEFCA30BAC88DFC3D9729563FB4BBDA3B8280D7B96A8B463DA268EC3FB4BBDA3B8280D7B96A8B463DA268EC3FB4BBDA3B8280D7B96A8B463DA268EC,
   mixRow 0x3B928ACF3FB504B800000000000000003B894F6B3FB504B8BACCC3A2369B52893B7689993FB504B8BB1E7C5F36D7D9693B301F163FB504B8BB6A43A536E3ED423AD780413FB504B8BB88478836A23D53396A784B3FB504B8BB925BE2353D9378396A784B3FB504B8BB925BE2353D9378396A784B3FB504B8BB925BE2353D9378]

/-- Candidate `HB` (R309), rows 16 to 23; a numeral is a row of eight groups of four. -/
def hbCandidate2 : List (List (List PsNum)) :=
  [mixRow 0x3C024B8B3FB5043800000000000000003BF42C883FB50438BB360EFD377594623BDB348E3FB50438BB8CE99037AAA3F53B9C98D63FB50438BBD04A2D37B430EB3B3F9CAC3FB50438BBF256ED3780432439D07A8E3FB50438BC0221D23615DFE839D07A8E3FB50438BC0221D23615DFE839D07A8E3FB50438BC0221D23615DFE8,
   mixRow 0x3C67B1733FB502A200000000000000003C5919623FB502A2BBA1DC393842218D3C42E6BF3FB502A2BBFA8F943886E50A3C0B3CEA3FB502A2BC393013388E738F3BAA5FC43FB502A2BC5776E0384ACDBB3A395F7E3FB502A2BC67673F36ECFB0A3A395F7E3FB502A2BC67673F36ECFB0A3A395F7E3FB502A2BC67673F36ECFB0A,
   mixRow 0x3CCDFC3E3FB4FDA000000000000000003CC104053FB4FDA0BC0FDF9D39196EB33CAD49693FB4FDA0BC5EB9B639553EB93C779C863FB4FDA0BCA4A08D396139803C177F923FB4FDA0BCBF8D363920569C3AA4D71B3FB4FDA0BCCDBA3F37BB5EA53AA4D71B3FB4FDA0BCCDBA3F37BB5EA53AA4D71B3FB4FDA0BCCDBA3F37BB5EA5,
   mixRow 0x3D3716513FB4EDCC00000000000000003D2B92D73FB4EDCBBC7F9B3F39F263C93D1A0DE43FB4EDCBBCC5DEE03A287AC23CDC2E9D3FB4EDCBBD124A563A3207543C86BCA13FB4EDCBBD2A3E0139FD8E9A3B129DB13FB4EDCCBD36DB9338942DD33B129DB13FB4EDCCBD36DB9338942DD33B129DB13FB4EDCCBD36DB9338942DD3,
   mixRow 0x3DA29D523FB4BBDA00000000000000003D986DAB3FB4BBD4BCE2983B3ABF1B5E3D88EA0E3FB4BBCEBD2F79E43B04EE763D43D4E53FB4BBCCBD81D4A13B0CAD223CEFCA303FB4BBD3BD9729563AC88DFC3B8280D73FB4BBDABDA268EC396A8B463B8280D73FB4BBDABDA268EC396A8B463B8280D73FB4BBDABDA268EC396A8B46,
   mixRow 0x3DE556F33FB4737100000000000000003DD70E333FB47358BD1F58AF3B3DE7793DC145283FB47341BD76ED823B843C3A3D8A5EE43FB4733BBDB6E4E03B8C3EA53D298D8A3FB47355BDD518693B4839EC3BB8A23D3FB47371BDE50C9539EA5BC33BB8A23D3FB47371BDE50C9539EA5BC33BB8A23D3FB47371BDE50C9539EA5BC3,
   mixRow 0x3E2178EF3FB3E3FA00000000000000003E1787543FB3E398BD5F27F13BBBF96F3E0852923FB3E33BBDAD15733C032A9D3DC3A0703FB3E321BE0079A83C0BB7623D700FD53FB3E38BBE15E7A83BC80C5A3C02D2173FB3E3F8BE2143E83A6A8D483C02D2173FB3E3F8BE2143E83A6A8D483C02D2173FB3E3F8BE2143E83A6A8D48,
   mixRow 0x3E62B0093FB2C9AD00000000000000003E5509CE3FB2C82FBD9AF1DD3C38A2383E400F0E3FB2C6C0BDF0D6733C815D943E0A697E3FB2C64CBE3386833C8AFE4F3DAA5C503FB2C7ECBE5213423C482E533C3A02A63FB2C9A3BE6263AB3AEB88FA3C3A02A63FB2C9A3BE6263AB3AEB88FA3C3A02A63FB2C9A3BE6263AB3AEB88FA]

/-- Candidate `HB` (R309), rows 24 to 31; a numeral is a row of eight groups of four. -/
def hbCandidate3 : List (List (List PsNum)) :=
  [mixRow 0x3E9E2F673FB0A59400000000000000003E9512F83FB09FEFBDD3A3C53CB2A0963E86F0203FB09A51BE2518F03CFC4B413E4439853FB09820BE782A573D09E03A3DF30B703FB09E6FBE920CD23CC8FAA33C8534CD3FB0A56CBE9DF7473B6E3D503C8534CD3FB0A56CBE9DF7473B6E3D503C8534CD3FB0A56CBE9DF7473B6E3D50,
   mixRow 0x3EDA514A3FAC985D00000000000000003ECEC9653FAC83F4BE0C069C3D27D7C23EBC9C873FAC6E71BE5BE4B43D7086E63E8B9F493FAC62CCBEA7D5743D87EF6D3E2F5C613FAC7A6DBEC7EFCC3D4B473C3CC1FF483FAC97AFBED9FB073BF503A43CC1FF483FAC97AFBED9FB073BF503A43CC1FF483FAC97AFBED9FB073BF503A4,
   mixRow 0x3F05E8A43FA82E8900000000000000003EFEFF613FA8009BBE23BCAA3D7886013EEA80DF3FA7CD43BE815C833DB4C8663EB1528E3FA7A85DBEC8B4C53DD446AC3E62E7EE3FA7DE8ABEF299883DA3F57A3CFE73EE3FA82CA3BF05AC263C4A401C3CFE73EE3FA82CA3BF05AC263C4A401C3CFE73EE3FA82CA3BF05AC263C4A401C,
   mixRow 0x3F2237493FA1D4EA00000000000000003F1B86AD3FA1734ABE386B523DB1A6F33F10AD733FA0FD77BE92BAE53E03DCC73EE235EA3FA087C3BEE88FBB3E23DB433E95D92C3FA0F69ABF0FE0543E05F0F43D2D16513FA1CF20BF21DAD73CAD22D83D2D16513FA1CF20BF21DAD73CAD22D83D2D16513FA1CF20BF21DAD73CAD22D8,
   mixRow 0x3F4130A63F9917C100000000000000003F3ACBC23F985868BE452AB23DF1C0C93F3058E93F975BBDBE9DC8EE3E37D5B83F10D88A3F95F2A4BEFFAC153E76F9163ECD1FCE3F968813BF23B7AB3E5F179C3D7FEFCD3F990294BF4086D43D2104843D7FEFCD3F990294BF4086D43D2104843D7FEFCD3F990294BF4086D43D210484,
   mixRow 0x3F612E973F8DBE6100000000000000003F5BBAC53F8C6D9BBE4502EE3E1A22103F52E9F73F8A86F1BE9DC32D3E7033573F38AAB83F86AF94BF00DC563EB0AE163F1369AC3F85C27EBF2A397D3EBB99823DF075D63F8D3EDDBF5F2ABB3DBDF6763DF075D63F8D3EDDBF5F2ABB3DBDF6763DF075D63F8D3EDDBF5F2ABB3DBDF676,
   mixRow 0x3F8000003F80000000000000000000003F7BEF8D3F7BEF8DBE35BDF23E35BDF23F75A0133F75A013BE9047CD3E9047CD3F650A083F650A08BEE4B5BB3EE4B5BB3F53B1F43F53B1F4BF0FF2D13F0FF2D13F397D583F397D58BF306F923F306F923F397D583F397D58BF306F923F306F923F397D583F397D58BF306F923F306F92,
   mixRow 0x3F8DBE613F612E9700000000000000003F8C6D9B3F5BBAC5BE1A22103E4502EE3F8A86F13F52E9F7BE7033573E9DC32D3F86AF943F38AAB8BEB0AE163F00DC563F85C27E3F1369ACBEBB99823F2A397D3F8D3EDD3DF075D6BDBDF6763F5F2ABB3F8D3EDD3DF075D6BDBDF6763F5F2ABB3F8D3EDD3DF075D6BDBDF6763F5F2ABB]

/-- Candidate `HB` (R309), rows 32 to 39; a numeral is a row of eight groups of four. -/
def hbCandidate4 : List (List (List PsNum)) :=
  [mixRow 0x3F9917C13F4130A600000000000000003F9858683F3ACBC2BDF1C0C93E452AB23F975BBD3F3058E9BE37D5B83E9DC8EE3F95F2A43F10D88ABE76F9163EFFAC153F9688133ECD1FCEBE5F179C3F23B7AB3F9902943D7FEFCDBD2104843F4086D43F9902943D7FEFCDBD2104843F4086D43F9902943D7FEFCDBD2104843F4086D4,
   mixRow 0x3FA1D4EA3F22374900000000000000003FA1734A3F1B86ADBDB1A6F33E386B523FA0FD773F10AD73BE03DCC73E92BAE53FA087C33EE235EABE23DB433EE88FBB3FA0F69A3E95D92CBE05F0F43F0FE0543FA1CF203D2D1651BCAD22D83F21DAD73FA1CF203D2D1651BCAD22D83F21DAD73FA1CF203D2D1651BCAD22D83F21DAD7,
   mixRow 0x3FA82E893F05E8A400000000000000003FA8009B3EFEFF61BD7886013E23BCAA3FA7CD433EEA80DFBDB4C8663E815C833FA7A85D3EB1528EBDD446AC3EC8B4C53FA7DE8A3E62E7EEBDA3F57A3EF299883FA82CA33CFE73EEBC4A401C3F05AC263FA82CA33CFE73EEBC4A401C3F05AC263FA82CA33CFE73EEBC4A401C3F05AC26,
   mixRow 0x3FAC985D3EDA514A00000000000000003FAC83F43ECEC965BD27D7C23E0C069C3FAC6E713EBC9C87BD7086E63E5BE4B43FAC62CC3E8B9F49BD87EF6D3EA7D5743FAC7A6D3E2F5C61BD4B473C3EC7EFCC3FAC97AF3CC1FF48BBF503A43ED9FB073FAC97AF3CC1FF48BBF503A43ED9FB073FAC97AF3CC1FF48BBF503A43ED9FB07,
   mixRow 0x3FB0A5943E9E2F6700000000000000003FB09FEF3E9512F8BCB2A0963DD3A3C53FB09A513E86F020BCFC4B413E2518F03FB098203E443985BD09E03A3E782A573FB09E6F3DF30B70BCC8FAA33E920CD23FB0A56C3C8534CDBB6E3D503E9DF7473FB0A56C3C8534CDBB6E3D503E9DF7473FB0A56C3C8534CDBB6E3D503E9DF747,
   mixRow 0x3FB2C9AD3E62B00900000000000000003FB2C82F3E5509CEBC38A2383D9AF1DD3FB2C6C03E400F0EBC815D943DF0D6733FB2C64C3E0A697EBC8AFE4F3E3386833FB2C7EC3DAA5C50BC482E533E5213423FB2C9A33C3A02A6BAEB88FA3E6263AB3FB2C9A33C3A02A6BAEB88FA3E6263AB3FB2C9A33C3A02A6BAEB88FA3E6263AB,
   mixRow 0x3FB3E3FA3E2178EF00000000000000003FB3E3983E178754BBBBF96F3D5F27F13FB3E33B3E085292BC032A9D3DAD15733FB3E3213DC3A070BC0BB7623E0079A83FB3E38B3D700FD5BBC80C5A3E15E7A83FB3E3F83C02D217BA6A8D483E2143E83FB3E3F83C02D217BA6A8D483E2143E83FB3E3F83C02D217BA6A8D483E2143E8,
   mixRow 0x3FB473713DE556F300000000000000003FB473583DD70E33BB3DE7793D1F58AF3FB473413DC14528BB843C3A3D76ED823FB4733B3D8A5EE4BB8C3EA53DB6E4E03FB473553D298D8ABB4839EC3DD518693FB473713BB8A23DB9EA5BC33DE50C953FB473713BB8A23DB9EA5BC33DE50C953FB473713BB8A23DB9EA5BC33DE50C95]

/-- Candidate `HB` (R309), rows 40 to 45; a numeral is a row of eight groups of four. -/
def hbCandidate5 : List (List (List PsNum)) :=
  [mixRow 0x3FB4BBDA3DA29D5200000000000000003FB4BBD43D986DABBABF1B5E3CE2983B3FB4BBCE3D88EA0EBB04EE763D2F79E43FB4BBCC3D43D4E5BB0CAD223D81D4A13FB4BBD33CEFCA30BAC88DFC3D9729563FB4BBDA3B8280D7B96A8B463DA268EC3FB4BBDA3B8280D7B96A8B463DA268EC3FB4BBDA3B8280D7B96A8B463DA268EC,
   mixRow 0x3FB4EDCC3D37165100000000000000003FB4EDCB3D2B92D7B9F263C93C7F9B3F3FB4EDCB3D1A0DE4BA287AC23CC5DEE03FB4EDCB3CDC2E9DBA3207543D124A563FB4EDCB3C86BCA1B9FD8E9A3D2A3E013FB4EDCC3B129DB1B8942DD33D36DB933FB4EDCC3B129DB1B8942DD33D36DB933FB4EDCC3B129DB1B8942DD33D36DB93,
   mixRow 0x3FB4FDA03CCDFC3E00000000000000003FB4FDA03CC10405B9196EB33C0FDF9D3FB4FDA03CAD4969B9553EB93C5EB9B63FB4FDA03C779C86B96139803CA4A08D3FB4FDA03C177F92B920569C3CBF8D363FB4FDA03AA4D71BB7BB5EA53CCDBA3F3FB4FDA03AA4D71BB7BB5EA53CCDBA3F3FB4FDA03AA4D71BB7BB5EA53CCDBA3F,
   mixRow 0x3FB502A23C67B17300000000000000003FB502A23C591962B842218D3BA1DC393FB502A23C42E6BFB886E50A3BFA8F943FB502A23C0B3CEAB88E738F3C3930133FB502A23BAA5FC4B84ACDBB3C5776E03FB502A23A395F7EB6ECFB0A3C67673F3FB502A23A395F7EB6ECFB0A3C67673F3FB502A23A395F7EB6ECFB0A3C67673F,
   mixRow 0x3FB504383C024B8B00000000000000003FB504383BF42C88B77594623B360EFD3FB504383BDB348EB7AAA3F53B8CE9903FB504383B9C98D6B7B430EB3BD04A2D3FB504383B3F9CACB78043243BF256ED3FB5043839D07A8EB615DFE83C0221D23FB5043839D07A8EB615DFE83C0221D23FB5043839D07A8EB615DFE83C0221D2,
   mixRow 0x3FB504B83B928ACF00000000000000003FB504B83B894F6BB69B52893ACCC3A23FB504B83B768999B6D7D9693B1E7C5F3FB504B83B301F16B6E3ED423B6A43A53FB504B83AD78041B6A23D533B8847883FB504B8396A784BB53D93783B925BE23FB504B8396A784BB53D93783B925BE23FB504B8396A784BB53D93783B925BE2]

/-- Candidate `HB` (R309). -/
def hbCandidate : List (List (List PsNum)) :=
  hbCandidate0 ++ hbCandidate1 ++ hbCandidate2 ++ hbCandidate3 ++ hbCandidate4 ++ hbCandidate5

/-- Candidate `pd_re_smooth` (R312), sixteen entries a numeral. -/
def pdReCandidate : List PsNum :=
  numWords 16 0x3F8000003F6650323F19999A3D780219BF8000003D7802193F19999A3F6650323F79FEE73F47002E3ED08323BDC70094BF3F0F4FBE8FEA533F2EB4753F772A4E
    ++ numWords 16 0x3F6DB0A63F1F0D193E285835BEB551A6BF550140BF692EA63EE4F92E3F7A35893F6E25C83EFD3850BD9C39B3BF1B7470BF73CB3BBF6AA777BE21F7DE3F5CE425
    ++ numWords 16 0x3F8000003F0AFAC3BE785B42BF4DE6E9BF800000BF4DE6E9BE785B423F0AFAC33F6E25C83F5CE425BE21F7DEBF6AA777BF73CB3BBF1B7470BD9C39B33EFD3850
    ++ numWords 16 0x3F6DB0A63F7A35893EE4F92EBF692EA6BF550140BEB551A63E2858353F1F0D193F79FEE73F772A4E3F2EB475BE8FEA53BF3F0F4FBDC700943ED083233F47002E
    ++ numWords 16 0x3F7E96CD3F57BFBA3EFF410CBD0C7846BF609A5ABD69DF3C3F2292C13F6F0C543F71E3183F3504F33EA7A66DBE10D0C3BF29BA08BF3504F33F3FA5D13F7D6D54
    ++ numWords 16 0x3F5DEADB3F09CC633DD6B935BEB73729BF45C091BF7F95163EF5ADC93F7FD9733F5735803EC9AFCABDEB0344BF14CC07BF6964D9BF7B0756BEB45B5E3F72DCE9
    ++ numWords 16 0x3F77B0963ECBF681BE879B9EBF424CE7BF7DBEE1BF639E1ABEBB1EED3F161BBF3F7A4B533F3504F3BE56FD6FBF5B84A8BF7D28D4BF3504F3BE181E9E3F03B5FE
    ++ numWords 16 0x3F76DB853F6ACF633E816523BF4F5F6FBF6E4A6ABEEA516A3E0798DC3F26AEF33F7E4F143F6B4D173F0AA3E1BEA1E89BBF6F974CBE48D2AB3ED25D3A3F5050D6
    ++ numWords 16 0x3F7C84503F48988F3EBE26EBBE5891C3BF64F92EBED34D1F3F0E00D53F6F68CE3F69CF1C3F210AE83E5C7A39BE8558C2BF3B1EEDBF75ADC93F2A63643F7EC9E0
    ++ numWords 16 0x3F4CCCCD3EDF889100000000BEDF8891BF4CCCCDBF7F87C2000000003F7F87C23F3B1EED3E8558C2BE5C7A39BF210AE8BF69CF1CBF7EC9E0BF2A63643F75ADC9
    ++ numWords 16 0x3F64F92E3E5891C3BEBE26EBBF48988FBF7C8450BF6F68CEBF0E00D53ED34D1F3F7CC7013F016523BEBBD91CBF5E7FCEBF7F410CBF4B654ABE9C36473ECCADF6
    ++ numWords 16 0x3F785B423F56FD6F00000000BF56FD6FBF785B42BF181E9E000000003F181E9E3F7F410C3F5E7FCE3EBBD91CBF016523BF7CC701BECCADF63E9C36473F4B654A
    ++ numWords 16 0x3F7DBEE13F424CE73E879B9EBECBF681BF77B096BF161BBF3EBB1EED3F639E1A3F6964D93F14CC073DEB0344BEC9AFCABF573580BF72DCE93EB45B5E3F7B0756
    ++ numWords 16 0x3F45C0913EB73729BDD6B935BF09CC63BF5DEADBBF7FD973BEF5ADC93F7F95163F29BA083E10D0C3BEA7A66DBF3504F3BF71E318BF7D6D54BF3FA5D13F3504F3
    ++ numWords 16 0x3F609A5A3D0C7846BEFF410CBF57BFBABF7E96CDBF6F0C54BF2292C13D69DF3C3F6F974C3EA1E89BBF0AA3E1BF6B4D17BF7E4F14BF5050D6BED25D3A3E48D2AB
    ++ numWords 16 0x3F6E4A6A3F4F5F6FBE816523BF6ACF63BF76DB85BF26AEF3BE0798DC3EEA516A3F7D28D43F5B84A83E56FD6FBF3504F3BF7A4B53BF03B5FE3E181E9E3F3504F3
    ++ numWords 16 0x3F8000003F4DE6E93E785B42BF0AFAC3BF800000BF0AFAC33E785B423F4DE6E93F73CB3B3F1B74703D9C39B3BEFD3850BF6E25C8BF5CE4253E21F7DE3F6AA777
    ++ numWords 16 0x3F5501403EB551A6BE285835BF1F0D19BF6DB0A6BF7A3589BEE4F92E3F692EA63F3F0F4F3DC70094BED08323BF47002EBF79FEE7BF772A4EBF2EB4753E8FEA53
    ++ numWords 16 0x3F800000BD780219BF19999ABF665032BF800000BF665032BF19999ABD7802193F3F0F4F3E8FEA53BF2EB475BF772A4EBF79FEE7BF47002EBED083233DC70094
    ++ numWords 16 0x3F5501403F692EA6BEE4F92EBF7A3589BF6DB0A6BF1F0D19BE2858353EB551A63F73CB3B3F6AA7773E21F7DEBF5CE425BF6E25C8BEFD38503D9C39B33F1B7470
    ++ numWords 16 0x3F7DBEE13F639E1A3EBB1EEDBF161BBFBF77B096BECBF6813E879B9E3F424CE73F7D28D43F3504F33E181E9EBF03B5FEBF7A4B53BF3504F33E56FD6F3F5B84A8
    ++ numWords 16 0x3F6E4A6A3EEA516ABE0798DCBF26AEF3BF76DB85BF6ACF63BE8165233F4F5F6F3F6F974C3E48D2ABBED25D3ABF5050D6BF7E4F14BF6B4D17BF0AA3E13EA1E89B
    ++ numWords 16 0x3F609A5A3D69DF3CBF2292C1BF6F0C54BF7E96CDBF57BFBABEFF410C3D0C78463F29BA083F3504F3BF3FA5D1BF7D6D54BF71E318BF3504F3BEA7A66D3E10D0C3
    ++ numWords 16 0x3F45C0913F7F9516BEF5ADC9BF7FD973BF5DEADBBF09CC63BDD6B9353EB737293F6964D93F7B07563EB45B5EBF72DCE9BF573580BEC9AFCA3DEB03443F14CC07
    ++ numWords 16 0x3F7C84503F6F68CE3F0E00D5BED34D1FBF64F92EBE5891C33EBE26EB3F48988F3F7F410C3F4B654A3E9C3647BECCADF6BF7CC701BF0165233EBBD91C3F5E7FCE
    ++ numWords 16 0x3F785B423F181E9E00000000BF181E9EBF785B42BF56FD6F000000003F56FD6F3F7CC7013ECCADF6BE9C3647BF4B654ABF7F410CBF5E7FCEBEBBD91C3F016523
    ++ numWords 16 0x3F64F92E3ED34D1FBF0E00D5BF6F68CEBF7C8450BF48988FBEBE26EB3E5891C33F3B1EED3F75ADC9BF2A6364BF7EC9E0BF69CF1CBF210AE8BE5C7A393E8558C2
    ++ numWords 16 0x3F4CCCCD3F7F87C200000000BF7F87C2BF4CCCCDBEDF8891000000003EDF88913F69CF1C3F7EC9E03F2A6364BF75ADC9BF3B1EEDBE8558C23E5C7A393F210AE8
    ++ numWords 16 0x3F7E96CD3F6F0C543F2292C1BD69DF3CBF609A5ABD0C78463EFF410C3F57BFBA3F7E4F143F5050D63ED25D3ABE48D2ABBF6F974CBEA1E89B3F0AA3E13F6B4D17
    ++ numWords 16 0x3F76DB853F26AEF33E0798DCBEEA516ABF6E4A6ABF4F5F6F3E8165233F6ACF633F7A4B533F03B5FEBE181E9EBF3504F3BF7D28D4BF5B84A8BE56FD6F3F3504F3
    ++ numWords 16 0x3F77B0963F161BBFBEBB1EEDBF639E1ABF7DBEE1BF424CE7BE879B9E3ECBF6813F5735803F72DCE9BEB45B5EBF7B0756BF6964D9BF14CC07BDEB03443EC9AFCA
    ++ numWords 16 0x3F5DEADB3F7FD9733EF5ADC9BF7F9516BF45C091BEB737293DD6B9353F09CC633F71E3183F7D6D543F3FA5D1BF3504F3BF29BA08BE10D0C33EA7A66D3F3504F3

/-- Candidate `pd_im_smooth` (R312), sixteen entries a numeral. -/
def pdImCandidate : List PsNum :=
  numWords 16 0x000000003EDF88913F4CCCCD3F7F87C200000000BF7F87C2BF4CCCCDBEDF88913E5C7A393F210AE83F69CF1C3F7EC9E03F2A6364BF75ADC9BF3B1EEDBE8558C2
    ++ numWords 16 0x3EBE26EB3F48988F3F7C84503F6F68CE3F0E00D5BED34D1FBF64F92EBE5891C33EBBD91C3F5E7FCE3F7F410C3F4B654A3E9C3647BECCADF6BF7CC701BF016523
    ++ numWords 16 0x000000003F56FD6F3F785B423F181E9E00000000BF181E9EBF785B42BF56FD6FBEBBD91C3F0165233F7CC7013ECCADF6BE9C3647BF4B654ABF7F410CBF5E7FCE
    ++ numWords 16 0xBEBE26EB3E5891C33F64F92E3ED34D1FBF0E00D5BF6F68CEBF7C8450BF48988FBE5C7A393E8558C23F3B1EED3F75ADC9BF2A6364BF7EC9E0BF69CF1CBF210AE8
    ++ numWords 16 0x3DD6B9353F09CC633F5DEADB3F7FD9733EF5ADC9BF7F9516BF45C091BEB737293EA7A66D3F3504F33F71E3183F7D6D543F3FA5D1BF3504F3BF29BA08BE10D0C3
    ++ numWords 16 0x3EFF410C3F57BFBA3F7E96CD3F6F0C543F2292C1BD69DF3CBF609A5ABD0C78463F0AA3E13F6B4D173F7E4F143F5050D63ED25D3ABE48D2ABBF6F974CBEA1E89B
    ++ numWords 16 0x3E8165233F6ACF633F76DB853F26AEF33E0798DCBEEA516ABF6E4A6ABF4F5F6FBE56FD6F3F3504F33F7A4B533F03B5FEBE181E9EBF3504F3BF7D28D4BF5B84A8
    ++ numWords 16 0xBE879B9E3ECBF6813F77B0963F161BBFBEBB1EEDBF639E1ABF7DBEE1BF424CE7BDEB03443EC9AFCA3F5735803F72DCE9BEB45B5EBF7B0756BF6964D9BF14CC07
    ++ numWords 16 0x3E2858353F1F0D193F6DB0A63F7A35893EE4F92EBF692EA6BF550140BEB551A63ED083233F47002E3F79FEE73F772A4E3F2EB475BE8FEA53BF3F0F4FBDC70094
    ++ numWords 16 0x3F19999A3F6650323F8000003F6650323F19999A3D780219BF8000003D7802193F2EB4753F772A4E3F79FEE73F47002E3ED08323BDC70094BF3F0F4FBE8FEA53
    ++ numWords 16 0x3EE4F92E3F7A35893F6DB0A63F1F0D193E285835BEB551A6BF550140BF692EA6BE21F7DE3F5CE4253F6E25C83EFD3850BD9C39B3BF1B7470BF73CB3BBF6AA777
    ++ numWords 16 0xBE785B423F0AFAC33F8000003F0AFAC3BE785B42BF4DE6E9BF800000BF4DE6E9BD9C39B33EFD38503F6E25C83F5CE425BE21F7DEBF6AA777BF73CB3BBF1B7470
    ++ numWords 16 0x3E0798DC3F26AEF33F76DB853F6ACF633E816523BF4F5F6FBF6E4A6ABEEA516A3ED25D3A3F5050D63F7E4F143F6B4D173F0AA3E1BEA1E89BBF6F974CBE48D2AB
    ++ numWords 16 0x3F2292C13F6F0C543F7E96CD3F57BFBA3EFF410CBD0C7846BF609A5ABD69DF3C3F3FA5D13F7D6D543F71E3183F3504F33EA7A66DBE10D0C3BF29BA08BF3504F3
    ++ numWords 16 0x3EF5ADC93F7FD9733F5DEADB3F09CC633DD6B935BEB73729BF45C091BF7F9516BEB45B5E3F72DCE93F5735803EC9AFCABDEB0344BF14CC07BF6964D9BF7B0756
    ++ numWords 16 0xBEBB1EED3F161BBF3F77B0963ECBF681BE879B9EBF424CE7BF7DBEE1BF639E1ABE181E9E3F03B5FE3F7A4B533F3504F3BE56FD6FBF5B84A8BF7D28D4BF3504F3
    ++ numWords 16 0x000000003F181E9E3F785B423F56FD6F00000000BF56FD6FBF785B42BF181E9E3E9C36473F4B654A3F7F410C3F5E7FCE3EBBD91CBF016523BF7CC701BECCADF6
    ++ numWords 16 0x3F0E00D53F6F68CE3F7C84503F48988F3EBE26EBBE5891C3BF64F92EBED34D1F3F2A63643F7EC9E03F69CF1C3F210AE83E5C7A39BE8558C2BF3B1EEDBF75ADC9
    ++ numWords 16 0x000000003F7F87C23F4CCCCD3EDF889100000000BEDF8891BF4CCCCDBF7F87C2BF2A63643F75ADC93F3B1EED3E8558C2BE5C7A39BF210AE8BF69CF1CBF7EC9E0
    ++ numWords 16 0xBF0E00D53ED34D1F3F64F92E3E5891C3BEBE26EBBF48988FBF7C8450BF6F68CEBE9C36473ECCADF63F7CC7013F016523BEBBD91CBF5E7FCEBF7F410CBF4B654A
    ++ numWords 16 0xBE0798DC3EEA516A3F6E4A6A3F4F5F6FBE816523BF6ACF63BF76DB85BF26AEF33E181E9E3F3504F33F7D28D43F5B84A83E56FD6FBF3504F3BF7A4B53BF03B5FE
    ++ numWords 16 0x3EBB1EED3F639E1A3F7DBEE13F424CE73E879B9EBECBF681BF77B096BF161BBF3EB45B5E3F7B07563F6964D93F14CC073DEB0344BEC9AFCABF573580BF72DCE9
    ++ numWords 16 0xBEF5ADC93F7F95163F45C0913EB73729BDD6B935BF09CC63BF5DEADBBF7FD973BF3FA5D13F3504F33F29BA083E10D0C3BEA7A66DBF3504F3BF71E318BF7D6D54
    ++ numWords 16 0xBF2292C13D69DF3C3F609A5A3D0C7846BEFF410CBF57BFBABF7E96CDBF6F0C54BED25D3A3E48D2AB3F6F974C3EA1E89BBF0AA3E1BF6B4D17BF7E4F14BF5050D6
    ++ numWords 16 0xBE2858353EB551A63F5501403F692EA6BEE4F92EBF7A3589BF6DB0A6BF1F0D193D9C39B33F1B74703F73CB3B3F6AA7773E21F7DEBF5CE425BF6E25C8BEFD3850
    ++ numWords 16 0x3E785B423F4DE6E93F8000003F4DE6E93E785B42BF0AFAC3BF800000BF0AFAC33E21F7DE3F6AA7773F73CB3B3F1B74703D9C39B3BEFD3850BF6E25C8BF5CE425
    ++ numWords 16 0xBEE4F92E3F692EA63F5501403EB551A6BE285835BF1F0D19BF6DB0A6BF7A3589BF2EB4753E8FEA533F3F0F4F3DC70094BED08323BF47002EBF79FEE7BF772A4E
    ++ numWords 16 0xBF19999ABD7802193F800000BD780219BF19999ABF665032BF800000BF665032BED083233DC700943F3F0F4F3E8FEA53BF2EB475BF772A4EBF79FEE7BF47002E
    ++ numWords 16 0xBDD6B9353EB737293F45C0913F7F9516BEF5ADC9BF7FD973BF5DEADBBF09CC633DEB03443F14CC073F6964D93F7B07563EB45B5EBF72DCE9BF573580BEC9AFCA
    ++ numWords 16 0x3E879B9E3F424CE73F7DBEE13F639E1A3EBB1EEDBF161BBFBF77B096BECBF6813E56FD6F3F5B84A83F7D28D43F3504F33E181E9EBF03B5FEBF7A4B53BF3504F3
    ++ numWords 16 0xBE8165233F4F5F6F3F6E4A6A3EEA516ABE0798DCBF26AEF3BF76DB85BF6ACF63BF0AA3E13EA1E89B3F6F974C3E48D2ABBED25D3ABF5050D6BF7E4F14BF6B4D17
    ++ numWords 16 0xBEFF410C3D0C78463F609A5A3D69DF3CBF2292C1BF6F0C54BF7E96CDBF57BFBABEA7A66D3E10D0C33F29BA083F3504F3BF3FA5D1BF7D6D54BF71E318BF3504F3

/-- Candidate `Q_fract_allpass[0]` (R311), a numeral per subband. -/
def qFract20Candidate : List (List Cx) :=
  [cxWords 3 0x3F5FD9353EF86AFB3F2267993F45E4033F6AE7BE3ECB8634,
   cxWords 3 0x3F7C5BE03E2C17BB3F74FA0B3E94A0313F7DA07C3E0B1B05,
   cxWords 3 0x3F7C5BE0BE2C17BB3F74FA0BBE94A0313F7DA07CBE0B1B05,
   cxWords 3 0x3F5FD935BEF86AFB3F226799BF45E4033F6AE7BEBECB8634,
   cxWords 3 0x3F2A0C73BF3F5CB53DC8BD36BF7EC46D3F46D809BF213C77,
   cxWords 3 0x3EC21329BF6CE564BEF15AEABF61C5983F141ACEBF50CEFB,
   cxWords 3 0xBDF0B772BF7E39BCBF7B14BEBE47C5C23E53971CBF7A79AA,
   cxWords 3 0xBF366F7ABF339790BF0E39DA3F54DB31BEA943FABF719B0C,
   cxWords 3 0xBF7EAAB3BDD0BDC53F0E39DA3F54DB31BF45A2A5BF22B720,
   cxWords 3 0xBF57105F3F0ADD733F7B14BEBE47C5C2BF7D5C41BE12ABCF,
   cxWords 3 0x3C80ACA23F7FF7EABEC3EF15BF6C835EBF480A973F1FBF83,
   cxWords 3 0x3F7AAE593E4FA779BEC3EF153F6C835E3E449DC83F7B3C98,
   cxWords 3 0x3ED2B203BF6951BA3F6C835EBEC3EF153F757EF33E9128A7,
   cxWords 3 0xBF4CB822BF19B524BF6C835EBEC3EF153F31DD5CBF381EB5,
   cxWords 3 0xBF42A9F73F26423A3EC3EF153F6C835EBEA20945BF72D776,
   cxWords 3 0x3EEF947F3F623E773EC3EF15BF6C835EBF7CC8F6BE21C703,
   cxWords 3 0x3F76ED3CBE871A5EBF6C835E3EC3EF15BF18BDBD3F4D70FB,
   cxWords 3 0xBD40F2B2BF7FB73F3F6C835E3EC3EF153EDF14643F666C59,
   cxWords 3 0xBF7C3020BE300E2FBEC3EF15BF6C835E3F7FE2D13CF4747C,
   cxWords 3 0xBEC3EF153F6C835EBEC3EF153F6C835E3EFA2C90BF5F5BE6,
   cxWords 3 0x3F5172433F13338B3F6C835EBEC3EF15BF0C36ADBF562FEC,
   cxWords 3 0x3F3D5877BF2C4A8CBF6C835EBEC3EF15BF7EBF5C3DCA56FD,
   cxWords 3 0xBEFDACC2BF5E5EA33EC3EF153F6C835EBEBEB8923F6D9378,
   cxWords 3 0xBF74AEDA3E968C743EC3EF15BF6C835E3F2690743F42670C,
   cxWords 3 0x3DA0AF2A3F7F35F9BF6C835E3EC3EF153F79636DBE673873,
   cxWords 3 0x3F7D72313E10486A3F6C835E3EC3EF153E801BA9BF77DB63,
   cxWords 3 0x3EB4FAA8BF6F7943BEC3EF15BF6C835EBF3E27C6BF2B65A3,
   cxWords 3 0xBF55F779BF0C8CC2BEC3EF153F6C835EBF6FE5BE3EB2B85B,
   cxWords 3 0xBF37D7203F3227573F6C835EBEC3EF15BDFD7D933F7E080D,
   cxWords 3 0x3F05C2773F5A46A0BF6C835EBEC3EF153F5298923F118D45]

/-- Candidate `phi_fract[0]` (R311), ten entries a numeral. -/
def phiFract20Candidate : List Cx :=
  cxWords 10 0x3F6573763EE30D7E3F7D00E73E1C37483F7D00E7BE1C37483F657376BEE30D7E3F3889DCBF316E2C3EF4E4E1BF60D12D3D20CEE7BF7FCD79BF0ADD73BF57105FBF6D4679BEC03678BF79636D3E673873
    ++ cxWords 10 0xBED2B2033F6951BA3F37D7203F3227573F65E523BEE13FB5BDE0BC62BF7E743ABF78ED3CBE6F0C4DBF0C8CC23F55F7793F19B5243F4CB8223F74AEDABE968C743D40F2B2BF7FB73FBF6C835EBEC3EF15
    ++ cxWords 10 0xBF2C4A8C3F3D58773EEF947F3F623E773F7D7231BE10486A3E4FA779BF7AAE59BF5A46A0BF05C277BF47CA4A3F200FE73EA5D8813F7232A63F7FF7EA3C80ACA23EB4FAA8BF6F7943BF42A9F7BF26423A

/-- Candidate `Q_fract_allpass[1]` (R311), a numeral per subband. -/
def qFract34Candidate : List (List Cx) :=
  [cxWords 3 0x3F7E612DBDE6107A3F7B14BEBE47C5C23F7EF1C3BDB9CB23,
   cxWords 3 0x3F718A03BEA9A51F3F54DB31BF0E39DA3F768D35BE89D0E8,
   cxWords 3 0x3F58819EBF089AF63F0E39DABF54DB313F660AD3BEE0A595,
   cxWords 3 0x3F348B79BF357E1D3E47C5C2BF7B14BE3F4DF5C1BF180A84,
   cxWords 3 0x3F077846BF5937F7BE47C5C2BF7B14BE3F2F18F2BF3AC0E8,
   cxWords 3 0x3EA71D01BF71FADDBF0E39DABF54DB313F0A787EBF57516D,
   cxWords 3 0x3DDB67E5BF7E86D4BF54DB31BF0E39DA3EC29226BF6CCB57,
   cxWords 3 0xBDF0B772BF7E39BCBF7B14BEBE47C5C23E53971CBF7A79AA,
   cxWords 3 0xBEAC2C0CBF711778BF7B14BE3E47C5C23CD895E2BF7FE917,
   cxWords 3 0x3F58819E3F089AF63F0E39DA3F54DB313F660AD33EE0A595,
   cxWords 3 0x3F718A033EA9A51F3F54DB313F0E39DA3F768D353E89D0E8,
   cxWords 3 0x3F7E612D3DE6107A3F7B14BE3E47C5C23F7EF1C33DB9CB23,
   cxWords 3 0xBF76A8D6BE890A933E94A0313F74FA0BBF2DB2FCBF3C0E07,
   cxWords 3 0xBF7F6E043D889EDE3F45E4033F226799BF59E849BF065BF1,
   cxWords 3 0x3F2A0C73BF3F5CB53DC8BD36BF7EC46D3F46D809BF213C77,
   cxWords 3 0x3EC21329BF6CE564BEF15AEABF61C5983F141ACEBF50CEFB,
   cxWords 3 0x3D51037BBF7FAA9EBF61C598BEF15AEA3EACDDBDBF70F7AC,
   cxWords 3 0xBE90C5ECBF758D85BF7EC46D3DC8BD363D930CFABF7F56D8,
   cxWords 3 0xBF15A897BF4FB29ABF45E4033F226799BE4C1BE6BF7ADCEA,
   cxWords 3 0xBF5205D4BF1260B2BE94A0313F74FA0BBEE956A3BF63DE79,
   cxWords 3 0xBF7EAAB3BDD0BDC53F0E39DA3F54DB31BF45A2A5BF22B720,
   cxWords 3 0xBF57105F3F0ADD733F7B14BEBE47C5C2BF7D5C41BE12ABCF,
   cxWords 3 0xBEA209453F72D7763E47C5C2BF7B14BEBF6BA8713EC80362,
   cxWords 3 0xBF366F7ABF339790BF0E39DA3F54DB31BEA943FABF719B0C,
   cxWords 3 0x3F5B51D73F040A8BBF54DB313F0E39DABDA249A83F7F31EA,
   cxWords 3 0xBF57105F3F0ADD733F7B14BEBE47C5C2BF7D5C41BE12ABCF,
   cxWords 3 0xBEA209453F72D7763E47C5C2BF7B14BEBF6BA8713EC80362,
   cxWords 3 0x3EB136413F702D4FBF54DB31BF0E39DABF15A8973F4FB29A,
   cxWords 3 0x3F5B51D73F040A8BBF54DB313F0E39DABDA249A83F7F31EA,
   cxWords 3 0x3F7DB8B7BE0850F63E47C5C23F7B14BE3EE5EE7B3F64BBB2,
   cxWords 3 0x3F30B44EBF393BDE3F7B14BE3E47C5C23F58E6193F07FB34,
   cxWords 3 0x3EB136413F702D4FBF54DB31BF0E39DABF15A8973F4FB29A,
   cxWords 3 0x3ED2B203BF6951BA3F6C835EBEC3EF153F757EF33E9128A7,
   cxWords 3 0xBF4CB822BF19B524BF6C835EBEC3EF153F31DD5CBF381EB5,
   cxWords 3 0xBF42A9F73F26423A3EC3EF153F6C835EBEA20945BF72D776,
   cxWords 3 0x3EEF947F3F623E773EC3EF15BF6C835EBF7CC8F6BE21C703,
   cxWords 3 0x3F76ED3CBE871A5EBF6C835E3EC3EF15BF18BDBD3F4D70FB,
   cxWords 3 0xBD40F2B2BF7FB73F3F6C835E3EC3EF153EDF14643F666C59,
   cxWords 3 0xBF7C3020BE300E2FBEC3EF15BF6C835E3F7FE2D13CF4747C,
   cxWords 3 0xBEC3EF153F6C835EBEC3EF153F6C835E3EFA2C90BF5F5BE6,
   cxWords 3 0x3F5172433F13338B3F6C835EBEC3EF15BF0C36ADBF562FEC,
   cxWords 3 0x3F3D5877BF2C4A8CBF6C835EBEC3EF15BF7EBF5C3DCA56FD,
   cxWords 3 0xBEFDACC2BF5E5EA33EC3EF153F6C835EBEBEB8923F6D9378,
   cxWords 3 0xBF74AEDA3E968C743EC3EF15BF6C835E3F2690743F42670C,
   cxWords 3 0x3DA0AF2A3F7F35F9BF6C835E3EC3EF153F79636DBE673873,
   cxWords 3 0x3F7D72313E10486A3F6C835E3EC3EF153E801BA9BF77DB63,
   cxWords 3 0x3EB4FAA8BF6F7943BEC3EF15BF6C835EBF3E27C6BF2B65A3,
   cxWords 3 0xBF55F779BF0C8CC2BEC3EF153F6C835EBF6FE5BE3EB2B85B,
   cxWords 3 0xBF37D7203F3227573F6C835EBEC3EF15BDFD7D933F7E080D,
   cxWords 3 0x3F05C2773F5A46A0BF6C835EBEC3EF153F5298923F118D45]

/-- Candidate `phi_fract[1]` (R311), ten entries a numeral. -/
def phiFract34Candidate : List Cx :=
  cxWords 10 0x3F7EAAB3BDD0BDC53F741593BE9A632F3F5F5BE6BEFA2C903F415A26BF27C84E3F1B4F89BF4B81793EDDA17ABF66C5C33E76DC61BF78731D3D20CEE7BF7FCD79BE282099BF7C86A13F5F5BE63EFA2C90
    ++ cxWords 10 0x3F7415933E9A632F3F7EAAB33DD0BDC5BF5BD626BF032DCDBF7928D3BE6B22D73F3889DCBF316E2C3EF4E4E1BF60D12D3E43D3B5BF7B4675BDE8BA60BF7E577BBED0DC7BBF69BB2CBF2A0C73BF3F5CB5
    ++ cxWords 10 0xBF6D4679BEC03678BF79636D3E673873BF2ACC7D3F3EB160BF0ADD73BF57105F3EF320603F614BD4BF79636D3E673873BF2ACC7D3F3EB160BDF0B7723F7E39BC3EF320603F614BD43F6500E13EE4DA62
    ++ cxWords 10 0x3F7D27AABE183D96BDF0B7723F7E39BC3F65E523BEE13FB5BDE0BC62BF7E743ABF78ED3CBE6F0C4DBF0C8CC23F55F7793F19B5243F4CB8223F74AEDABE968C743D40F2B2BF7FB73FBF6C835EBEC3EF15
    ++ cxWords 10 0xBF2C4A8C3F3D58773EEF947F3F623E773F7D7231BE10486A3E4FA779BF7AAE59BF5A46A0BF05C277BF47CA4A3F200FE73EA5D8813F7232A63F7FF7EA3C80ACA23EB4FAA8BF6F7943BF42A9F7BF26423A

/-- The candidate tables (R302 to R312). -/
def Tables.candidate : Tables where
  nrIidIcc := [10, 20, 34, 10, 20, 34]
  nrIpdOpd := [5, 11, 17, 5, 11, 17]
  iidQuant := [false, false, false, true, true, true]
  huff := [huffCandidate0, huffCandidate1, huffCandidate2, huffCandidate3, huffCandidate4,
    huffCandidate5, huffCandidate6, huffCandidate7, huffCandidate8, huffCandidate9]
  kToI20 := kToI20Candidate
  kToI34 := kToI34Candidate
  f20_0_8 := f20_0_8Candidate
  f34_0_12 := f34_0_12Candidate
  f34_1_8 := f34_1_8Candidate
  f34_2_4 := f34_2_4Candidate
  g1Q2 := g1Q2Candidate
  ha := haCandidate
  hb := hbCandidate
  pdRe := pdReCandidate
  pdIm := pdImCandidate
  qFract20 := qFract20Candidate
  qFract34 := qFract34Candidate
  phiFract20 := phiFract20Candidate
  phiFract34 := phiFract34Candidate

/-- The candidate configuration (`00_scope.md` R9, R11, R12; `92_eei_decisions.md` section 6). The constants of R9
are the decimal numbers the spec prints. -/
def Config.candidate : Config where
  baseline := false
  fmt := .binary 24 (-126) 127
  pad := .zeros
  round := ⟨true, true, false⟩
  maxNumEnv := 5
  maxDelay := 14
  maxApDelay := 5
  shortDelayBand20 := 42
  shortDelayBand34 := 62
  decayCutoff20 := 10
  decayCutoff34 := 32
  peakDecayFactor := .fin (mkRat 76592833836465 (10 ^ 14))
  apCoeff := [.fin (mkRat 65143905753106 (10 ^ 14)), .fin (mkRat 56471812200776 (10 ^ 14)),
    .fin (mkRat 48954165955695 (10 ^ 14))]
  apLinkDelay := [3, 4, 5]
  maxNrIidIcc := 34
  maxNrIpdOpd := 17
  third := num32 0x3EAAAAAB
  tables := Tables.candidate

end Sys2Proof
end

