-- ==== Sys2Proof/Machine/Memory.lean ====
section
/-! DEFINITION. The bitstream as bytes (`20_memory.md` R70 to R72, R80) and the list operations the sample and
parameter arrays are built with. -/

namespace Sys2Proof.Machine

/-- The bytes of the bitstream: (address, byte) pairs in canonical form, see `Memory.wf`. -/
abbrev Memory := List Host.Cell

/-- What byte `a` reads as if nothing has written it: the bits of `PAD` (`20_memory.md` R80, log 7). -/
def padByte (pad : Pad) (a : Nat) : Byte :=
  match pad with
  | .zeros => 0
  | .host id => Config.hostPad id a

/-- The byte at an address. -/
def memRead (pad : Pad) : Memory → Nat → Byte
  | [], a => padByte pad a
  | (k, v) :: m, a => if k = a then v else memRead pad m a

/-- Writing a byte; writing the value an unlisted address reads as removes the entry. -/
def memWrite (pad : Pad) : Memory → Nat → Byte → Memory
  | [], a, v => if v = padByte pad a then [] else [(a, v)]
  | (k, w) :: m, a, v =>
    if a < k then (if v = padByte pad a then (k, w) :: m else (a, v) :: (k, w) :: m)
    else if a = k then (if v = padByte pad a then m else (a, v) :: m)
    else (k, w) :: memWrite pad m a v

/-- Every entry lies above the address. -/
def memAbove (a : Nat) (m : Memory) : Bool := m.all fun x => decide (a < x.1)

/-- The canonical form: addresses strictly rising, no entry equal to what an unlisted address reads as. -/
def Memory.wf (pad : Pad) : Memory → Bool
  | [] => true
  | (k, v) :: m => decide (v ≠ padByte pad k) && memAbove k m && Memory.wf pad m

/-- `Bit(p)`: bit `7 - (p mod 8)` of byte `p div 8` (`20_memory.md` R71, R72, decision D3). -/
def memBit (pad : Pad) (m : Memory) (p : Nat) : Bool := (memRead pad m (p / 8)).getLsbD (7 - p % 8)

/-! ## Arrays -/

/-- The array of `n` cells with cell `k` computed by `f`. -/
def tab {α : Type} (n : Nat) (f : Nat → α) : List α := (List.range n).map f

/-- Cell `k` of an array, `d` outside it (no rule reads outside an array, `20_memory.md` R85; log 24). -/
def cell {α : Type} (d : α) (l : List α) (k : Nat) : α := l.getD k d

/-- Cell `[e][b]` of an integer array. -/
def cellI (l : List (List Int)) (e b : Nat) : Int := cell 0 (cell [] l e) b

/-- Cell `[k][t]` of a complex array. -/
def cellC (l : List (List Cx)) (k t : Nat) : Cx := cell Cx.zero (cell [] l k) t

/-- Cell `[i][j][k]` of an array of numbers. -/
def cellN3 (l : List (List (List PsNum))) (i j k : Nat) : PsNum := cell .zero (cell [] (cell [] l i) j) k

/-- Changing cell `k` of an array. -/
def upd {α : Type} (l : List α) (k : Nat) (f : α → α) : List α := l.modify k f

/-- Storing into cell `[e][b]` of an integer array. -/
def storeI (l : List (List Int)) (e b : Nat) (v : Int) : List (List Int) := upd l e fun r => r.set b v

/-- An array with every cell zero, in the shape it had. -/
def zeroI (l : List (List Int)) : List (List Int) := l.map fun r => r.map fun _ => 0

end Sys2Proof.Machine
end

