-- ==== Sys2Proof/Machine/State.lean ====
section
/-! DEFINITION. The state of the machine, the reasons a step can stop, and the state after reset. -/

namespace Sys2Proof.Machine

/-- The nine causes of `InvalidData` (`60_exceptions.md` R331, codes 1 to 9 in this order). -/
inductive Cause
  | iidModeReserved
  | iccModeReserved
  | borderOrder
  | iidRange
  | iccRange
  | extUnderflow
  | fixupIidRange
  | fixupIccRange
  | bitOverrun
  deriving DecidableEq, Repr, Inhabited

/-- The result of the last command (`10_state.md` R34). -/
inductive Status
  /-- `Ok` of a command other than READ_DATA. -/
  | ok
  /-- `Ok(bitsConsumed)` of READ_DATA. -/
  | okBits (bitsConsumed : Nat)
  /-- `InvalidData(cause)` of READ_DATA. -/
  | invalidData (cause : Cause)
  deriving DecidableEq, Repr, Inhabited

/-- PSParameters (`10_state.md` R21 to R33). -/
structure Params where
  /-- `enable_iid` (R21). -/
  enableIid : Bool
  /-- `enable_icc` (R21). -/
  enableIcc : Bool
  /-- `enable_ext` (R21). -/
  enableExt : Bool
  /-- `enable_ipdopd` (R21). -/
  enableIpdopd : Bool
  /-- `iid_quant` (R22). -/
  iidQuant : Bool
  /-- `icc_mode` (R22); 6 or 7 after ICC_MODE_RESERVED (`41_parameter_decoder.md` R162). -/
  iccMode : BitVec 3
  /-- `frame_class` (R25). -/
  frameClass : Bool
  /-- `nr_iid_par` (R23). -/
  nrIidPar : Nat
  /-- `nr_icc_par` (R23). -/
  nrIccPar : Nat
  /-- `nr_ipdopd_par` (R23). -/
  nrIpdopdPar : Nat
  /-- `num_env` (R24). -/
  numEnv : Nat
  /-- `num_env_old` (R24). -/
  numEnvOld : Nat
  /-- `border_position` (R28). -/
  borderPosition : List Int
  /-- `iid_par` (R29). -/
  iidPar : List (List Int)
  /-- `icc_par` (R30). -/
  iccPar : List (List Int)
  /-- `ipd_par` (R31). -/
  ipdPar : List (List Int)
  /-- `opd_par` (R31). -/
  opdPar : List (List Int)
  /-- `is34bands` (R32). -/
  is34bands : Bool
  /-- `is34bands_old` (R32). -/
  is34bandsOld : Bool
  /-- `start` (R33). -/
  start : Bool
  deriving DecidableEq, Repr, Inhabited

/-- The DSP state (`10_state.md` R36 to R41). -/
structure Dsp where
  /-- `H11[part][env][band]` (R36). -/
  h11 : List (List (List PsNum))
  /-- `H12` (R36). -/
  h12 : List (List (List PsNum))
  /-- `H21` (R36). -/
  h21 : List (List (List PsNum))
  /-- `H22` (R36). -/
  h22 : List (List (List PsNum))
  /-- `ipd_hist` (R37). -/
  ipdHist : List (BitVec 6)
  /-- `opd_hist` (R37). -/
  opdHist : List (BitVec 6)
  /-- `delay[k][t]` (R38). -/
  delay : List (List Cx)
  /-- `ap_delay[k][m][t]` (R39). -/
  apDelay : List (List (List Cx))
  /-- `peak_decay_nrg` (R40). -/
  peakDecayNrg : List PsNum
  /-- `power_smooth` (R40). -/
  powerSmooth : List PsNum
  /-- `peak_decay_diff_smooth` (R40). -/
  peakDecayDiffSmooth : List PsNum
  /-- `in_buf[c][t]` (R41). -/
  inBuf : List (List Cx)
  deriving DecidableEq, Repr, Inhabited

/-- The remapped rows of a frame (`45_stereo_mixing.md` R262). -/
structure Mapped where
  /-- `iid_m`. -/
  iid : List (List Int)
  /-- `icc_m`. -/
  icc : List (List Int)
  /-- `ipd_m`. -/
  ipd : List (List Int)
  /-- `opd_m`. -/
  opd : List (List Int)
  deriving DecidableEq, Repr, Inhabited

/-- The working buffers (`10_state.md` R43, `45_stereo_mixing.md` R262; log 17, log 19). -/
structure Work where
  /-- `Lbuf[k][n]` (R43). -/
  lbuf : List (List Cx)
  /-- `Rbuf[k][n]` (R43). -/
  rbuf : List (List Cx)
  /-- The rows the remap commands produce. -/
  mapped : Mapped
  deriving DecidableEq, Repr, Inhabited

/-- What the host can do between two commands (`00_scope.md` R18, `20_memory.md` R70, R88; log 13). -/
inductive HostEvent
  /-- Issue a command. -/
  | issue (w : CommandWord)
  /-- Write a byte of the bitstream. -/
  | writeByte (addr : Nat) (b : Byte)
  /-- Place the host cursor. -/
  | setCursor (pos : Nat)
  /-- Supply the content of `L` or `R`. -/
  | supply (buf : HostBuf) (content : List (List (List PsNum)))
  deriving DecidableEq, Repr, Inhabited

/-- The host's side: its cursor, the bitstream, the sample buffers and the events still to come. -/
structure HostSide where
  /-- `hostpos` (`10_state.md` R26). -/
  hostpos : Nat
  /-- The bitstream (`20_memory.md` R71). -/
  bitstream : Memory
  /-- `L[part][row][band]` (`20_memory.md` R83). -/
  bufL : List (List (List PsNum))
  /-- `R[part][row][band]` (`20_memory.md` R83). -/
  bufR : List (List (List PsNum))
  /-- Host events still to come, oldest first (the model's own, log 13). -/
  inputs : List HostEvent
  deriving DecidableEq, Repr, Inhabited

/-- What exists only during READ_DATA (`10_state.md` R27, `41_parameter_decoder.md` R161; log 9). -/
structure Parse where
  /-- `pos`, the working cursor (R27). -/
  pos : Nat
  /-- `bitsAvailable` (R160). -/
  budget : Nat
  /-- `header` (R161). -/
  header : Bool
  /-- `cnt` (R170). -/
  cnt : Int
  /-- `p0` (R170). -/
  extStart : Nat
  /-- The running value `v` of a frequency-delta row (`40_entropy_delta.md` R145). -/
  acc : Int
  /-- Which element comes next (`30_encoding.md` R102). -/
  phase : Phase
  deriving DecidableEq, Repr, Inhabited

/-- Why the machine stops with a fault. The spec's own exception, `InvalidData`, is no fault: the machine goes on
(`60_exceptions.md` R330, R337). -/
inductive Fault
  /-- Raised by READ_DATA if its parse did not end within the bound on the number of elements. From a
  state with the invariant it is never raised (Obligations.ReadDataCompletes; log 21); safe. -/
  | parseUnfinished
  deriving DecidableEq, Repr, Inhabited

/-- Why a step has no meaning. -/
inductive Refusal
  /-- An instruction without a meaning in this model, by its mnemonic: raised by no arm. -/
  | notModelled (mnemonic : String)
  /-- A command other than INIT_TABLES while `tables_ready = 0` (`93_implementation_defined.md` U1): raised by every
  other command; safe. -/
  | tablesNotReady
  /-- A command while another one runs: raised by every command while a parse is in progress. U2 says that this is not
  defined, "stuck"; that the model answers with this refusal is its own choice (log 11); safe. -/
  | commandInProgress
  /-- APPLY with `topBand` outside 0..64 (U3); safe. -/
  | topBandOutOfRange
  /-- A command word with code 1100 to 1111 (U4), raised by the step; safe. -/
  | unassignedCode
  /-- A command word whose argument is no value of its type (log 14), raised by the step; safe. -/
  | badArgument
  /-- No codeword of the selected table matches: the tables are not those of a PS core (U7), raised by READ_DATA, the
  VLC elements and the step; safe. -/
  | noCodeword
  /-- An element that is not the one the grammar has next (`30_encoding.md` R102; log 10), raised by the elements;
  safe. -/
  | elementOutOfPlace
  /-- The host supplies what is no buffer: not of the shape `[2][38][64]` (`20_memory.md` R83), or with a sample that is
  no value of the configured `Num` (`00_scope.md` R12; log 28); raised by the step; safe. -/
  | badBuffer
  deriving DecidableEq, Repr, Inhabited

/-- The state of the machine. -/
structure State where
  /-- The configuration (`10_state.md` R47; log 5). No step changes it. -/
  cfg : Config
  /-- PSParameters. -/
  params : Params
  /-- The DSP state. -/
  dsp : Dsp
  /-- The working buffers. -/
  work : Work
  /-- The host's side. -/
  host : HostSide
  /-- `tables_ready` (`10_state.md` R44). -/
  tablesReady : Bool
  /-- `status` (`10_state.md` R34). -/
  status : Status
  /-- The parse in progress, if any. -/
  parse : Option Parse
  /-- The number of draws of free values so far (the model's own, log 29). -/
  draws : Nat
  deriving DecidableEq, Repr, Inhabited

/-- `n` equal cells. -/
def rep {α : Type} (n : Nat) (x : α) : List α := List.replicate n x

/-- PSParameters after RESET (`10_state.md` R46). -/
def Params.zero (c : Config) : Params where
  enableIid := false
  enableIcc := false
  enableExt := false
  enableIpdopd := false
  iidQuant := false
  iccMode := 0
  frameClass := false
  nrIidPar := 0
  nrIccPar := 0
  nrIpdopdPar := 0
  numEnv := 0
  numEnvOld := 0
  borderPosition := rep (c.maxNumEnv + 1) 0
  iidPar := rep c.maxNumEnv (rep c.maxNrIidIcc 0)
  iccPar := rep c.maxNumEnv (rep c.maxNrIidIcc 0)
  ipdPar := rep c.maxNumEnv (rep c.maxNrIpdOpd 0)
  opdPar := rep c.maxNumEnv (rep c.maxNrIpdOpd 0)
  is34bands := false
  is34bandsOld := false
  start := false

/-- A mixing matrix after RESET (R36, R46). -/
def zeroH (c : Config) : List (List (List PsNum)) := rep 2 (rep (c.maxNumEnv + 1) (rep c.maxNrIidIcc .zero))

/-- The DSP state after RESET (`10_state.md` R46, decision D18). -/
def Dsp.zero (c : Config) : Dsp where
  h11 := zeroH c
  h12 := zeroH c
  h21 := zeroH c
  h22 := zeroH c
  ipdHist := rep c.maxNrIpdOpd 0
  opdHist := rep c.maxNrIpdOpd 0
  delay := rep hybMax (rep (c.maxDelay + 32) Cx.zero)
  apDelay := rep 50 (rep apLinks (rep (c.maxApDelay + 32) Cx.zero))
  peakDecayNrg := rep 34 .zero
  powerSmooth := rep 34 .zero
  peakDecayDiffSmooth := rep 34 .zero
  inBuf := rep inBufClasses (rep inBufLen Cx.zero)

/-- The working buffers at reset: the spec says unspecified, never read before written (`10_state.md` R43, R46); zero
and empty here (log 17). -/
def Work.zero : Work where
  lbuf := rep hybMax (rep numSlots Cx.zero)
  rbuf := rep hybMax (rep numSlots Cx.zero)
  mapped := ⟨[], [], [], []⟩

/-- A host buffer of zeros (`20_memory.md` R83). -/
def zeroBuf : List (List (List PsNum)) := rep 2 (rep qmfRows (rep qmfBands .zero))

/-- The host's side before the host has done anything (log 17). -/
def HostSide.zero : HostSide where
  hostpos := 0
  bitstream := []
  bufL := zeroBuf
  bufR := zeroBuf
  inputs := []

/-- The machine right after power-up and creation of the instance, in a configuration (`10_state.md` R46,
`70_reset_and_hazards.md` R361). -/
def State.resetWith (c : Config) : State where
  cfg := c
  params := Params.zero c
  dsp := Dsp.zero c
  work := Work.zero
  host := HostSide.zero
  tablesReady := false
  status := .ok
  parse := none
  draws := 0

/-- The machine right after reset, in the default instance of the configuration (`47_constant_tables.md`, decision D6;
log 6). -/
def State.reset : State := State.resetWith Config.candidate

end Sys2Proof.Machine
end

