-- ==== Sys2Proof/Machine/Ops.lean ====
section
/-! DEFINITION. The named operations every meaning is written with: updates of the parts of the state, the guard of
a command, the place check of an element, the error path (the machine's one exception) and the commit. -/

namespace Sys2Proof.Machine

/-- The outcome of a meaning. -/
abbrev Out := Host.Outcome State Fault Refusal

/-- Replacing PSParameters. -/
def State.withParams (s : State) (q : Params) : State := { s with params := q }

/-- Replacing the DSP state. -/
def State.withDsp (s : State) (d : Dsp) : State := { s with dsp := d }

/-- Replacing the working buffers. -/
def State.withWork (s : State) (w : Work) : State := { s with work := w }

/-- Replacing the host's side. -/
def State.withHost (s : State) (h : HostSide) : State := { s with host := h }

/-- Replacing the status. -/
def State.withStatus (s : State) (x : Status) : State := { s with status := x }

/-- Replacing the parse in progress. -/
def State.withParse (s : State) (p : Option Parse) : State := { s with parse := p }

/-- The parse goes on with another element. -/
def State.goto (s : State) (p : Parse) (ph : Phase) : State := s.withParse (some { p with phase := ph })

/-- The working cursor moves: `ReadBits(n)` and `SkipBits(n)` (`20_memory.md` R74, R76). -/
def Parse.advance (p : Parse) (n : Nat) : Parse := { p with pos := p.pos + n }

/-- Every command: refused while another command runs (`93_implementation_defined.md` U2). -/
def whenIdle (s : State) (k : State → Out) : Out :=
  if s.parse.isSome then .refused .commandInProgress else k s

/-- Every command but INIT_TABLES: refused until the tables are ready (`70_reset_and_hazards.md` R367, U1). -/
def command (s : State) (k : State → Out) : Out :=
  whenIdle s fun s => if s.tablesReady then k s else .refused .tablesNotReady

/-- Every element: it runs where the grammar has it next (`30_encoding.md` R102) and is refused elsewhere (log 10).
`k` answers for the places where the element may stand. -/
def element (s : State) (k : Parse → Phase → Option Out) : Out :=
  match s.parse with
  | some p => match k p p.phase with
    | some o => o
    | none => .refused .elementOutOfPlace
  | none => .refused .elementOutOfPlace

/-- The four parameter arrays zeroed, all rows and columns (`60_exceptions.md` R333). -/
def Params.zeroArrays (q : Params) : Params :=
  { q with
    iidPar := zeroI q.iidPar
    iccPar := zeroI q.iccPar
    ipdPar := zeroI q.ipdPar
    opdPar := zeroI q.opdPar }

/-- The host cursor moves: the commit of `20_memory.md` R79. -/
def HostSide.moveCursor (h : HostSide) (n : Nat) : HostSide := { h with hostpos := h.hostpos + n }

/-- TAKING THE EXCEPTION `InvalidData(cause)`: the error path of `60_exceptions.md` R333. `start` is cleared, the host
cursor advances by `bitsAvailable`, the four arrays are zeroed, the status reports the cause, the working cursor is
discarded and the command ends. Every other field keeps its value (R332, R336). There is no return from it: the
machine goes on with the next command (R337). -/
def errorPath (cause : Cause) (p : Parse) (s : State) : State :=
  { s with
    params := { s.params.zeroArrays with start := false }
    host := s.host.moveCursor p.budget
    status := .invalidData cause
    parse := none }

/-- Step 10: the budget check and the commit (`41_parameter_decoder.md` R181). -/
def commit (p : Parse) (s : State) : State :=
  let consumed := p.pos - s.host.hostpos
  if consumed ≤ p.budget then
    { s with host := s.host.moveCursor consumed, status := .okBits consumed, parse := none }
  else errorPath .bitOverrun p s

/-- The bit of the bitstream at a position (`20_memory.md` R71). -/
def State.bit (s : State) (pos : Nat) : Bool := memBit s.cfg.pad s.host.bitstream pos

/-- Byte `a` of the bitstream (`20_memory.md` R71). -/
def State.byte (s : State) (a : Nat) : Byte := memRead s.cfg.pad s.host.bitstream a

/-- What decides how the bits at the working cursor are read. -/
def elemCtx (s : State) (p : Parse) : ElemCtx := ⟨p.phase, s.params.iidQuant, p.cnt⟩

/-- Fetching the payload element at the working cursor (`10_state.md` R27). -/
def fetchElement (s : State) (p : Parse) : Except DecodeError (Instr × Nat) :=
  decodeElement s.cfg (elemCtx s p) fun j => s.bit (p.pos + j)

end Sys2Proof.Machine
end

