-- ==== Sys2Proof/Machine/Operands.lean ====
section
/-! DEFINITION. The operand forms: the arrays of a parameter family, the mixing matrices and their rows, the hybrid
and the host buffers. -/

namespace Sys2Proof.Machine

/-- The array `par` of a family (`40_entropy_delta.md` R143). -/
def Params.par (q : Params) : Family → List (List Int)
  | .iid => q.iidPar
  | .icc => q.iccPar
  | .ipd => q.ipdPar
  | .opd => q.opdPar

/-- Replacing the array of a family. -/
def Params.setPar (q : Params) (f : Family) (rows : List (List Int)) : Params :=
  match f with
  | .iid => { q with iidPar := rows }
  | .icc => { q with iccPar := rows }
  | .ipd => { q with ipdPar := rows }
  | .opd => { q with opdPar := rows }

/-- `nrPar` of a family (R143). -/
def Params.nrPar (q : Params) : Family → Nat
  | .iid => q.nrIidPar
  | .icc => q.nrIccPar
  | .ipd => q.nrIpdopdPar
  | .opd => q.nrIpdopdPar

/-- A mixing matrix (`10_state.md` R36). -/
def Dsp.mat (d : Dsp) : Mat → List (List (List PsNum))
  | .h11 => d.h11
  | .h12 => d.h12
  | .h21 => d.h21
  | .h22 => d.h22

/-- Replacing a mixing matrix. -/
def Dsp.setMat (d : Dsp) (x : Mat) (h : List (List (List PsNum))) : Dsp :=
  match x with
  | .h11 => { d with h11 := h }
  | .h12 => { d with h12 := h }
  | .h21 => { d with h21 := h }
  | .h22 => { d with h22 := h }

/-- The same change in all four mixing matrices. -/
def Dsp.mapMats (d : Dsp) (f : List (List (List PsNum)) → List (List (List PsNum))) : Dsp :=
  { d with h11 := f d.h11, h12 := f d.h12, h21 := f d.h21, h22 := f d.h22 }

/-- The index of a part (`00_scope.md` R16). -/
def partIx : Part → Nat
  | .re => 0
  | .im => 1

/-- The row of `Num` a scalar remap converts. -/
def Dsp.row (d : Dsp) (r : RowRef) : List PsNum := cell [] (cell [] (d.mat r.mat) (partIx r.part)) r.env

/-- Replacing that row. -/
def Dsp.setRow (d : Dsp) (r : RowRef) (h : List PsNum) : Dsp :=
  d.setMat r.mat (upd (d.mat r.mat) (partIx r.part) fun env => env.set r.env h)

/-- A hybrid-domain buffer (`10_state.md` R43). -/
def Work.buf (w : Work) : HybBuf → List (List Cx)
  | .lbuf => w.lbuf
  | .rbuf => w.rbuf

/-- A host buffer (`20_memory.md` R83). -/
def HostSide.buf (h : HostSide) : HostBuf → List (List (List PsNum))
  | .left => h.bufL
  | .right => h.bufR

/-- Replacing a host buffer. -/
def HostSide.setBuf (h : HostSide) (b : HostBuf) (x : List (List (List PsNum))) : HostSide :=
  match b with
  | .left => { h with bufL := x }
  | .right => { h with bufR := x }

/-- The remapped rows of a family (`45_stereo_mixing.md` R262). -/
def Mapped.rows (m : Mapped) : Family → List (List Int)
  | .iid => m.iid
  | .icc => m.icc
  | .ipd => m.ipd
  | .opd => m.opd

/-- Replacing the remapped rows of a family. -/
def Mapped.setRows (m : Mapped) (f : Family) (x : List (List Int)) : Mapped :=
  match f with
  | .iid => { m with iid := x }
  | .icc => { m with icc := x }
  | .ipd => { m with ipd := x }
  | .opd => { m with opd := x }

/-- The sample `L[.][row][band]` of a host buffer (R83). -/
def hostSample (x : List (List (List PsNum))) (row band : Nat) : Cx := ⟨cellN3 x 0 row band, cellN3 x 1 row band⟩

/-- The shape `[2][38][64]` of a host buffer (R83). -/
def hostShape (x : List (List (List PsNum))) : Bool :=
  (x.length == 2) && x.all (fun p => (p.length == qmfRows) && p.all fun r => r.length == qmfBands)

end Sys2Proof.Machine
end

