-- ==== Sys2Proof/Machine/Hybrid.lean ====
section
/-! DEFINITION. The hybrid filterbank (`43_hybrid_filterbank.md`): HYBRID_ANALYSIS and HYBRID_SYNTHESIS. -/

namespace Sys2Proof.Machine

/-- The exact sum of a list of numbers. -/
def sumNum (l : List PsNum) : PsNum := l.foldl PsNum.add .zero

/-- The filter kernel `y(F, c, n)` (R225) on the samples of one class, formed exactly. -/
def filterOut (f : List Cx) (x : List Cx) (n : Nat) : Cx :=
  let fr := fun j => (cell Cx.zero f j).re
  let fi := fun j => (cell Cx.zero f j).im
  let a := fun j => cell Cx.zero x (n + j)
  let b := fun j => cell Cx.zero x (n + 12 - j)
  ⟨((fr 6).mul (a 6).re).add (sumNum (tab 6 fun j =>
      ((fr j).mul ((a j).re.add (b j).re)).sub ((fi j).mul ((a j).im.sub (b j).im)))),
    ((fr 6).mul (a 6).im).add (sumNum (tab 6 fun j =>
      ((fr j).mul ((a j).im.add (b j).im)).add ((fi j).mul ((a j).re.sub (b j).re))))⟩

/-- Loading the 38 rows of `L` behind the six samples of history (R221). -/
def loadInBuf (inBuf : List (List Cx)) (l : List (List (List PsNum))) : List (List Cx) :=
  tab inBufClasses fun c => tab inBufLen fun t =>
    if t < inBufHist then cellC inBuf c t else hostSample l (t - inBufHist) c

/-- Keeping the new trailing six samples (R226). -/
def saveHistory (inBuf : List (List Cx)) : List (List Cx) :=
  tab inBufClasses fun c => tab inBufLen fun t =>
    if t < inBufHist then cellC inBuf c (32 + t) else cellC inBuf c t

/-- The centre term `a` of the two-band split (R222). -/
def twoBandCentre (c : Config) (x : List Cx) (n : Nat) : Cx :=
  Cx.scale (cell .zero c.tables.g1Q2 6) (cell Cx.zero x (n + 6))

/-- The side term `d` of the two-band split (R222). -/
def twoBandSide (c : Config) (x : List Cx) (n : Nat) : Cx :=
  let term := fun j => Cx.scale (cell .zero c.tables.g1Q2 j) ((cell Cx.zero x (n + j)).add (cell Cx.zero x (n + 12 - j)))
  ((term 1).add (term 3)).add (term 5)

/-- Split subband `k`, slot `n`, in 20-band resolution, `k < 10` (R222). -/
def split20 (c : Config) (inBuf : List (List Cx)) (k n : Nat) : Cx :=
  let t := fun q => Cx.rndIf c.round.fold c (filterOut (cell [] c.tables.f20_0_8 q) (cell [] inBuf 0) n)
  let a := fun cl => twoBandCentre c (cell [] inBuf cl) n
  let d := fun cl => twoBandSide c (cell [] inBuf cl) n
  Cx.rnd c (match k with
    | 0 => t 6
    | 1 => t 7
    | 2 => t 0
    | 3 => t 1
    | 4 => (t 2).add (t 5)
    | 5 => (t 3).add (t 4)
    | 6 => (a 1).sub (d 1)
    | 7 => (a 1).add (d 1)
    | 8 => (a 2).add (d 2)
    | _ => (a 2).sub (d 2))

/-- Split subband `k`, slot `n`, in 34-band resolution, `k < 32` (R223). -/
def split34 (c : Config) (inBuf : List (List Cx)) (k n : Nat) : Cx :=
  let y := fun (f : List (List Cx)) q cl => filterOut (cell [] f q) (cell [] inBuf cl) n
  Cx.rnd c
    (if k < 12 then y c.tables.f34_0_12 k 0
    else if k < 20 then y c.tables.f34_1_8 (k - 12) 1
    else if k < 24 then y c.tables.f34_2_4 (k - 20) 2
    else if k < 28 then y c.tables.f34_2_4 (k - 24) 3
    else y c.tables.f34_2_4 (k - 28) 4)

/-- Hybrid subband `k`, slot `n`: split (R222, R223) or passed through (R224). -/
def analysisOut (c : Config) (is34 : Bool) (inBuf : List (List Cx)) (l : List (List (List PsNum))) (k n : Nat) : Cx :=
  if is34 then (if k < 32 then split34 c inBuf k n else hostSample l n (k - 27))
  else if k < 10 then split20 c inBuf k n else hostSample l n (k - 7)

/-- A hybrid buffer whose rows below `NR_BANDS[is34]` are computed anew; the others are untouched (`10_state.md`
R43). -/
def hybRows (is34 : Bool) (old : List (List Cx)) (f : Nat → Nat → Cx) : List (List Cx) :=
  tab hybMax fun k => if k < nrBands is34 then tab numSlots (f k) else cell [] old k

/-- The analysis: the result buffer and the new `in_buf` (R220). -/
def analysis (c : Config) (is34 : Bool) (l : List (List (List PsNum))) (inBuf old : List (List Cx)) :
    List (List Cx) × List (List Cx) :=
  let b := loadInBuf inBuf l
  (hybRows is34 old (analysisOut c is34 b l), saveHistory b)

/-- The analysis of `L` into `Lbuf` on the state. -/
def State.analysis (s : State) (is34 : Bool) : State :=
  let r := Machine.analysis s.cfg is34 s.host.bufL s.dsp.inBuf s.work.lbuf
  (s.withWork { s.work with lbuf := r.1 }).withDsp { s.dsp with inBuf := r.2 }

/-- HYBRID_ANALYSIS (R220). -/
def execHybridAnalysis (is34 : Bool) (s : State) : Out :=
  command s fun s => .next ((s.analysis is34).withStatus .ok)

/-- A sum taken left to right, each partial sum rounded (R229, R230). -/
def foldSum (c : Config) (start : Cx) (l : List Cx) : Cx := l.foldl (fun acc x => Cx.rnd c (acc.add x)) start

/-- QMF subband `q`, slot `n`, of the synthesis (R229, R230, R231). -/
def synthesisOut (c : Config) (is34 : Bool) (inp : List (List Cx)) (n q : Nat) : Cx :=
  let x := fun k => cellC inp k n
  if is34 then
    match q with
    | 0 => foldSum c Cx.zero (tab 12 x)
    | 1 => foldSum c Cx.zero (tab 8 fun j => x (12 + j))
    | 2 => foldSum c Cx.zero (tab 4 fun j => x (20 + j))
    | 3 => foldSum c Cx.zero (tab 4 fun j => x (24 + j))
    | 4 => foldSum c Cx.zero (tab 4 fun j => x (28 + j))
    | _ => x (q + 27)
  else
    match q with
    | 0 => foldSum c (x 0) [x 1, x 2, x 3, x 4, x 5]
    | 1 => foldSum c (x 6) [x 7]
    | 2 => foldSum c (x 8) [x 9]
    | _ => x (q + 7)

/-- The synthesis into a host buffer: rows 0..31 are written, rows 32..37 are not (R228). -/
def synthesis (c : Config) (is34 : Bool) (inp : List (List Cx)) (dst : List (List (List PsNum))) :
    List (List (List PsNum)) :=
  let out := tab numSlots fun n => tab qmfBands fun q => synthesisOut c is34 inp n q
  tab 2 fun p => tab qmfRows fun r => tab qmfBands fun q =>
    if r < numSlots then (if p = 0 then (cellC out r q).re else (cellC out r q).im) else cellN3 dst p r q

/-- The synthesis of a hybrid buffer into a host buffer on the state. -/
def State.synthesis (s : State) (src : HybBuf) (is34 : Bool) (dst : HostBuf) : State :=
  s.withHost (s.host.setBuf dst (Machine.synthesis s.cfg is34 (s.work.buf src) (s.host.buf dst)))

/-- HYBRID_SYNTHESIS (R228). -/
def execHybridSynthesis (src : HybBuf) (is34 : Bool) (dst : HostBuf) (s : State) : Out :=
  command s fun s => .next ((s.synthesis src is34 dst).withStatus .ok)

end Sys2Proof.Machine
end

