-- ==== Sys2Proof/Machine/Decorrelate.lean ====
section
/-! DEFINITION. The decorrelation engine (`44_decorrelation.md`): DECORRELATE. -/

namespace Sys2Proof.Machine

/-- The state of the transient detector of one parameter band (`10_state.md` R40). -/
structure Transient where
  peak : PsNum
  smooth : PsNum
  diff : PsNum
  deriving DecidableEq, Repr, Inhabited

/-- The reset on a change of resolution (R241). -/
def Dsp.resetDecorrelation (d : Dsp) : Dsp :=
  { d with
    peakDecayNrg := d.peakDecayNrg.map fun _ => .zero
    powerSmooth := d.powerSmooth.map fun _ => .zero
    peakDecayDiffSmooth := d.peakDecayDiffSmooth.map fun _ => .zero
    delay := d.delay.map fun row => row.map fun _ => Cx.zero
    apDelay := d.apDelay.map fun links => links.map fun row => row.map fun _ => Cx.zero }

/-- `power[i][n]` (R242), accumulated in rising `k` from 0. -/
def powerOf (c : Config) (is34 : Bool) (inp : List (List Cx)) (i n : Nat) : PsNum :=
  (List.range (nrBands is34)).foldl
    (fun acc k => if kToI c is34 k = i then rndIf c.round.power c (acc.add (cellC inp k n).normSq) else acc) .zero

/-- One slot of the peak decay (R243) and the two smoothers (R244). -/
def transientSlot (c : Config) (t : Transient) (power : PsNum) : Transient :=
  let peak := rnd c (PsNum.max (c.peakDecayFactor.mul t.peak) power)
  let smooth := rnd c (t.smooth.add (aSmooth.mul (power.sub t.smooth)))
  let diff := rnd c (t.diff.add (aSmooth.mul ((peak.sub power).sub t.diff)))
  ⟨peak, smooth, diff⟩

/-- The transient gain (R245). -/
def transientGain (c : Config) (t : Transient) : PsNum :=
  let denom := rnd c (transientImpact.mul t.diff)
  if denom.gt t.smooth then rnd c (t.smooth.div denom) else .one

/-- The slots of one parameter band in rising order: the detector's final state and the gains. -/
def transientBand (c : Config) : Transient → List PsNum → Transient × List PsNum
  | t, [] => (t, [])
  | t, p :: ps =>
    let t' := transientSlot c t p
    let r := transientBand c t' ps
    (r.1, transientGain c t' :: r.2)

/-- The transient detector of parameter band `i` over the 32 slots (R242 to R245). -/
def bandTransient (c : Config) (is34 : Bool) (inp : List (List Cx)) (d : Dsp) (i : Nat) : Transient × List PsNum :=
  transientBand c
    ⟨cell .zero d.peakDecayNrg i, cell .zero d.powerSmooth i, cell .zero d.peakDecayDiffSmooth i⟩
    (tab numSlots (powerOf c is34 inp i))

/-- The `delay` row of subband `k` after its update (R247). -/
def shiftDelay (c : Config) (row inp : List Cx) : List Cx :=
  tab (c.maxDelay + 32) fun t =>
    if t < c.maxDelay then cell Cx.zero row (t + 32) else cell Cx.zero inp (t - c.maxDelay)

/-- An `ap_delay` row after its shift (R248); the cells of this call are written by the cascade. -/
def shiftApDelay (c : Config) (row : List Cx) : List Cx :=
  tab (c.maxApDelay + 32) fun t => if t < c.maxApDelay then cell Cx.zero row (t + 32) else cell Cx.zero row t

/-- `g_decay_slope(k)` (R249). -/
def decaySlope (c : Config) (is34 : Bool) (k : Nat) : Rat :=
  let g : Rat := 1 - ((k : Rat) - (decayCutoff c is34 : Rat)) / (decaySpan : Rat)
  if g < 0 then 0 else if 1 < g then 1 else g

/-- `ag[m]` (R250). -/
def linkCoeff (c : Config) (is34 : Bool) (k m : Nat) : PsNum :=
  (cell .zero c.apCoeff m).mul (.fin (decaySlope c is34 k))

/-- One all-pass link at one sample (R250): its output and its delay line with the new value stored. -/
def allpassLink (c : Config) (is34 : Bool) (k n m : Nat) (x : Cx) (line : List Cx) : Cx × List Cx :=
  let ag := linkCoeff c is34 k m
  let delayed := cell Cx.zero line (c.maxApDelay + n - cell 0 c.apLinkDelay m)
  let y := Cx.rnd c ((Cx.rnd c (delayed.mul (qFract c is34 k m))).sub (Cx.scale ag x))
  (y, line.set (c.maxApDelay + n) (Cx.rnd c (x.add (Cx.scale ag y))))

/-- The cascade at one sample (R250): the output before the gain, and the delay lines of the links. -/
def allpassSample (c : Config) (is34 : Bool) (k n : Nat) (delayRow : List Cx) (lines : List (List Cx)) :
    Cx × List (List Cx) :=
  (List.range apLinks).foldl
    (fun a m =>
      let r := allpassLink c is34 k n m a.1 (cell [] a.2 m)
      (r.1, a.2.set m r.2))
    (Cx.rnd c ((cell Cx.zero delayRow (c.maxDelay + n - 2)).mul (phiFract c is34 k)), lines)

/-- The cascade over the samples from `n` on, `fuel` of them. -/
def allpassSamples (c : Config) (is34 : Bool) (k : Nat) (delayRow : List Cx) :
    Nat → Nat → List (List Cx) → List Cx × List (List Cx)
  | 0, _, lines => ([], lines)
  | fuel + 1, n, lines =>
    let r := allpassSample c is34 k n delayRow lines
    let rest := allpassSamples c is34 k delayRow fuel (n + 1) r.2
    (r.1 :: rest.1, rest.2)

/-- The cascade of subband `k` over the 32 slots (R248, R250). -/
def allpassRow (c : Config) (is34 : Bool) (k : Nat) (delayRow : List Cx) (lines : List (List Cx)) :
    List Cx × List (List Cx) :=
  allpassSamples c is34 k delayRow numSlots 0 (lines.map (shiftApDelay c))

/-- Subband `k` before the gain at slot `n`, in one of the three classes (R250, R251, R252). -/
def delayedSample (c : Config) (is34 : Bool) (k n : Nat) (delayRow allpass : List Cx) : Cx :=
  if k < nrAllpassBands is34 then cell Cx.zero allpass n
  else if k < shortDelayBand c is34 then cell Cx.zero delayRow (c.maxDelay + n - 14)
  else cell Cx.zero delayRow (c.maxDelay + n - 1)

/-- DECORRELATE on the DSP state (R240, R253): the result buffer and the new state. `old` is the result buffer's
content, kept in rows from `NR_BANDS[is34]` on. -/
def decorrelate (c : Config) (is34 is34Old : Bool) (inp old : List (List Cx)) (d : Dsp) : List (List Cx) × Dsp :=
  let d0 := if is34 != is34Old then d.resetDecorrelation else d
  let trs := tab (nrParBands is34) (bandTransient c is34 inp d0)
  let gain := fun i n => cell .one (cell (⟨.zero, .zero, .zero⟩, []) trs i).2 n
  let delay := tab hybMax fun k =>
    if k < nrBands is34 then shiftDelay c (cell [] d0.delay k) (cell [] inp k) else cell [] d0.delay k
  let ap := tab (nrAllpassBands is34) fun k => allpassRow c is34 k (cell [] delay k) (cell [] d0.apDelay k)
  let band := fun (l : List PsNum) (f : Transient → PsNum) =>
    tab 34 fun i => if i < nrParBands is34 then f (cell (⟨.zero, .zero, .zero⟩, []) trs i).1 else cell .zero l i
  (hybRows is34 old fun k n =>
      Cx.rnd c (Cx.scale (gain (kToI c is34 k) n)
        (delayedSample c is34 k n (cell [] delay k) (cell ([], []) ap k).1)),
    { d0 with
      peakDecayNrg := band d0.peakDecayNrg Transient.peak
      powerSmooth := band d0.powerSmooth Transient.smooth
      peakDecayDiffSmooth := band d0.peakDecayDiffSmooth Transient.diff
      delay := delay
      apDelay := tab 50 fun k => if k < nrAllpassBands is34 then (cell ([], []) ap k).2 else cell [] d0.apDelay k })

/-- DECORRELATE of a hybrid buffer into `Rbuf` on the state. -/
def State.decorrelate (s : State) (src : HybBuf) (is34 : Bool) : State :=
  let r := Machine.decorrelate s.cfg is34 s.params.is34bandsOld (s.work.buf src) s.work.rbuf s.dsp
  (s.withWork { s.work with rbuf := r.1 }).withDsp r.2

/-- DECORRELATE (R240). -/
def execDecorrelate (src : HybBuf) (is34 : Bool) (s : State) : Out :=
  command s fun s => .next ((s.decorrelate src is34).withStatus .ok)

end Sys2Proof.Machine
end

