-- ==== Sys2Proof/Machine/Remap.lean ====
section
/-! DEFINITION. The band remapper (`42_band_remap.md`). Averages of integers truncate toward zero (R212). -/

namespace Sys2Proof.Machine

/-- `Map10to20` (R204). -/
def map10to20 (p : List Int) (full : Bool) : List Int :=
  let a := cell 0 p
  if full then
    [a 0, a 0, a 1, a 1, a 2, a 2, a 3, a 3, a 4, a 4] ++ [a 5, a 5, a 6, a 6, a 7, a 7, a 8, a 8, a 9, a 9]
  else [a 0, a 0, a 1, a 1, a 2, a 2, a 3, a 3, a 4, a 4] ++ [0]

/-- `Map34to20` (R205). -/
def map34to20 (p : List Int) (full : Bool) : List Int :=
  let a := cell 0 p
  [(2 * a 0 + a 1).tdiv 3, (a 1 + 2 * a 2).tdiv 3, (2 * a 3 + a 4).tdiv 3, (a 4 + 2 * a 5).tdiv 3,
    (a 6 + a 7).tdiv 2, (a 8 + a 9).tdiv 2, a 10, a 11, (a 12 + a 13).tdiv 2, (a 14 + a 15).tdiv 2, a 16]
  ++ if full then
    [a 17, a 18, a 19, (a 20 + a 21).tdiv 2, (a 22 + a 23).tdiv 2, (a 24 + a 25).tdiv 2, (a 26 + a 27).tdiv 2,
      (a 28 + a 29 + a 30 + a 31).tdiv 4, (a 32 + a 33).tdiv 2]
  else []

/-- `Map10to34` (R206). -/
def map10to34 (p : List Int) (full : Bool) : List Int :=
  let a := cell 0 p
  [a 0, a 0, a 0, a 1, a 1, a 1, a 2, a 2, a 2, a 2, a 3, a 3, a 4, a 4, a 4, a 4]
  ++ if full then
    [a 5, a 5, a 6, a 6, a 7, a 7, a 7, a 7, a 8, a 8, a 8, a 8, a 9, a 9, a 9, a 9, a 9, a 9]
  else [0]

/-- `Map20to34` (R207). -/
def map20to34 (p : List Int) (full : Bool) : List Int :=
  let a := cell 0 p
  [a 0, (a 0 + a 1).tdiv 2, a 1, a 2, (a 2 + a 3).tdiv 2, a 3, a 4, a 4, a 5, a 5, a 6, a 7, a 8, a 8, a 9, a 9,
    a 10]
  ++ if full then
    [a 11, a 12, a 13, a 14, a 14, a 15, a 15, a 16, a 16, a 17, a 17, a 18, a 18, a 18, a 18, a 19, a 19]
  else []

/-- The map REMAP20 selects by the source band count (R201); `none` passes the rows through (R203). -/
def mapTo20 (srcBandCount : Nat) : Option (List Int → Bool → List Int) :=
  if srcBandCount = 34 ∨ srcBandCount = 17 then some map34to20
  else if srcBandCount = 10 ∨ srcBandCount = 5 then some map10to20
  else none

/-- The map REMAP34 selects (R202, R203). -/
def mapTo34 (srcBandCount : Nat) : Option (List Int → Bool → List Int) :=
  if srcBandCount = 20 ∨ srcBandCount = 11 then some map20to34
  else if srcBandCount = 10 ∨ srcBandCount = 5 then some map10to34
  else none

/-- The rows a remap answers: each of `numEnvelopes` rows converted, or the source itself (R200, R203). `row` gives the
source row of an envelope. -/
def remapRows (map : Option (List Int → Bool → List Int)) (src : List (List Int)) (row : Nat → List Int)
    (numEnvelopes : Nat) (full : Bool) : List (List Int) :=
  match map with
  | some f => tab numEnvelopes fun e => f (row e) full
  | none => src

/-- `Remap` on rows that exist (R201, R202). -/
def remapTo20 (src : List (List Int)) (srcBandCount numEnvelopes : Nat) (full : Bool) : List (List Int) :=
  remapRows (mapTo20 srcBandCount) src (fun e => cell [] src e) numEnvelopes full

/-- The same to 34 bands. -/
def remapTo34 (src : List (List Int)) (srcBandCount numEnvelopes : Nat) (full : Bool) : List (List Int) :=
  remapRows (mapTo34 srcBandCount) src (fun e => cell [] src e) numEnvelopes full

/-- The widest source row a map reads. -/
def remapSpan : Nat := 34

/-- Row `e` of a parameter array as a remap command reads it: the cells the array has, and free values for those it has
not (R211 checks nothing and the spec states no value there; log 23). -/
def sourceRow (draw : Nat) (src : List (List Int)) (e : Nat) : List Int :=
  let r := cell [] src e
  r ++ tab (remapSpan - r.length) fun j => Config.absentParam draw e (r.length + j)

/-- One half. -/
def half : PsNum := .fin (1 / 2)

/-- One quarter. -/
def quarter : PsNum := .fin (1 / 4)

/-- Two. -/
def two : PsNum := .fin 2

/-- REMAPVAL20 on a row (R209): all sources are read before any cell is written, which is the result of the spec's
assignments in their order; cells 20 and up keep their value. -/
def remapRow20 (c : Config) (h : List PsNum) : List PsNum :=
  let a := cell PsNum.zero h
  let third := fun x y => rnd c (((two.mul x).add y).mul c.third)
  let third' := fun x y => rnd c ((PsNum.add x (two.mul y)).mul c.third)
  let mean := fun x y => rnd c ((PsNum.add x y).mul half)
  [third (a 0) (a 1), third' (a 1) (a 2), third (a 3) (a 4), third' (a 4) (a 5), mean (a 6) (a 7),
    mean (a 8) (a 9), a 10, a 11, mean (a 12) (a 13), mean (a 14) (a 15), a 16, a 17, a 18, a 19,
    mean (a 20) (a 21), mean (a 22) (a 23), mean (a 24) (a 25), mean (a 26) (a 27),
    rnd c ((((a 28).add (a 29)).add (a 30)).add (a 31) |>.mul quarter), mean (a 32) (a 33)]
  ++ h.drop 20

/-- REMAPVAL34 on a row (R210), all sources read first; cells 34 and up keep their value. -/
def remapRow34 (c : Config) (h : List PsNum) : List PsNum :=
  let a := cell PsNum.zero h
  let mean := fun x y => rnd c ((PsNum.add x y).mul half)
  [a 0, mean (a 0) (a 1), a 1, a 2, mean (a 2) (a 3), a 3, a 4, a 4, a 5, a 5, a 6, a 7, a 8, a 8, a 9, a 9, a 10,
    a 11, a 12, a 13, a 14, a 14, a 15, a 15, a 16, a 16, a 17, a 17, a 18, a 18, a 18, a 18, a 19, a 19]
  ++ h.drop 34

/-- A remap command on the state: the rows it answers are kept in the working buffer of the family (log 19), and the
command takes one draw of free values (log 29). -/
def State.remap (s : State) (map : Option (List Int → Bool → List Int)) (f : Family) (numEnvelopes : Nat)
    (full : Bool) : State :=
  let src := s.params.par f
  let rows := remapRows map src (sourceRow s.draws src) numEnvelopes full
  { s with
    work := { s.work with mapped := s.work.mapped.setRows f rows }
    status := .ok
    draws := s.draws + 1 }

/-- A scalar remap on the state: the row is converted in place; a row that does not exist has no cell to change
(log 23). -/
def State.remapVal (s : State) (f : List PsNum → List PsNum) (r : RowRef) : State :=
  (s.withDsp (s.dsp.setRow r (f (s.dsp.row r)))).withStatus .ok

/-- REMAP20 (R201). -/
def execRemap20 (src : Family) (srcBandCount numEnvelopes : Nat) (isFullRange : Bool) (s : State) : Out :=
  command s fun s => .next (s.remap (mapTo20 srcBandCount) src numEnvelopes isFullRange)

/-- REMAP34 (R202). -/
def execRemap34 (src : Family) (srcBandCount numEnvelopes : Nat) (isFullRange : Bool) (s : State) : Out :=
  command s fun s => .next (s.remap (mapTo34 srcBandCount) src numEnvelopes isFullRange)

/-- REMAPVAL20 (R209), in place. -/
def execRemapVal20 (row : RowRef) (s : State) : Out :=
  command s fun s => .next (s.remapVal (remapRow20 s.cfg) row)

/-- REMAPVAL34 (R210), in place. -/
def execRemapVal34 (row : RowRef) (s : State) : Out :=
  command s fun s => .next (s.remapVal (remapRow34 s.cfg) row)

end Sys2Proof.Machine
end

