-- ==== Sys2Proof/Machine/Stereo.lean ====
section
/-! DEFINITION. The stereo mixing engine (`45_stereo_mixing.md`): STEREO_PROCESS. -/

namespace Sys2Proof.Machine

/-- The four coefficients of one part of a mixing matrix. -/
structure Coef where
  h11 : PsNum
  h12 : PsNum
  h21 : PsNum
  h22 : PsNum
  deriving DecidableEq, Repr, Inhabited

/-- The same operation on all four coefficients. -/
def Coef.map (f : PsNum → PsNum) (a : Coef) : Coef := ⟨f a.h11, f a.h12, f a.h21, f a.h22⟩

/-- An operation on the coefficients of two matrices. -/
def Coef.map2 (f : PsNum → PsNum → PsNum) (a b : Coef) : Coef :=
  ⟨f a.h11 b.h11, f a.h12 b.h12, f a.h21 b.h21, f a.h22 b.h22⟩

/-! ## Steps 1 and 2 -/

/-- The copy-forward of one matrix (R261). -/
def copyForward (numEnvOld : Nat) (x : List (List (List PsNum))) : List (List (List PsNum)) :=
  x.map fun env => env.set 0 (cell [] env numEnvOld)

/-- A row conversion of slot 0 of one matrix, in both parts (R263). -/
def remapSlot0 (f : List PsNum → List PsNum) (x : List (List (List PsNum))) : List (List (List PsNum)) :=
  x.map fun env => env.set 0 (f (cell [] env 0))

/-- The copy-forward (R261), and on a change of resolution the remap of the matrices (R263) and the reset of the phase
histories (R264). -/
def carryOver (c : Config) (q : Params) (is34 : Bool) (d : Dsp) : Dsp :=
  let d1 := if 0 < q.numEnvOld then d.mapMats (copyForward q.numEnvOld) else d
  if is34 != q.is34bandsOld then
    let d2 := d1.mapMats (remapSlot0 (if is34 then remapRow34 c else remapRow20 c))
    { d2 with ipdHist := d2.ipdHist.map fun _ => 0, opdHist := d2.opdHist.map fun _ => 0 }
  else d1

/-- `Remap` of R262: to the target resolution. -/
def remapTo (is34 : Bool) (src : List (List Int)) (srcBandCount numEnvelopes : Nat) (full : Bool) : List (List Int) :=
  if is34 then remapTo34 src srcBandCount numEnvelopes full else remapTo20 src srcBandCount numEnvelopes full

/-- The remapped parameters of the frame (R262). -/
def mapParams (q : Params) (is34 : Bool) : Mapped :=
  { iid := remapTo is34 q.iidPar q.nrIidPar q.numEnv true
    icc := remapTo is34 q.iccPar q.nrIccPar q.numEnv true
    ipd := if q.enableIpdopd then remapTo is34 q.ipdPar q.nrIpdopdPar q.numEnv false
      else tab q.numEnv fun _ => tab (nrIpdOpdBands is34) fun _ => 0
    opd := if q.enableIpdopd then remapTo is34 q.opdPar q.nrIpdopdPar q.numEnv false
      else tab q.numEnv fun _ => tab (nrIpdOpdBands is34) fun _ => 0 }

/-! ## Step 3: the target matrix of an envelope -/

/-- The choice of the mixing table (R266). -/
def mixTable (c : Config) (q : Params) : List (List (List PsNum)) :=
  if c.baseline || decide (q.iccMode.toNat < 3) then c.tables.ha else c.tables.hb

/-- The lookup (R267). -/
def lookupCoef (lut : List (List (List PsNum))) (iidQuant : Bool) (iid icc : Int) : Coef :=
  let h := cell [] (cell [] lut (iid + 7 + 23 * iidQuant.toNat).toNat) icc.toNat
  ⟨cell .zero h 0, cell .zero h 1, cell .zero h 2, cell .zero h 3⟩

/-- The index of the phase smoother (R268): history times 8 plus the current value. -/
def smoothIndex (hist : BitVec 6) (cur : Int) : Nat := hist.toNat * 8 + cur.toNat

/-- The entry of the phase-smoothing tables (R269). -/
def smoothed (c : Config) (ix : Nat) : Cx := ⟨cell .zero c.tables.pdRe ix, cell .zero c.tables.pdIm ix⟩

/-- The rotation (R269): the real and the imaginary parts of the four coefficients. R269 rounds "each product": in the
model the complex product `adj` is rounded once in each of its two parts, and not each of the four real products it is
made of, which is the model's choice (log 4); each product of a coefficient with a part of `opd` or `adj` is rounded. -/
def rotate (c : Config) (h : Coef) (opdIx ipdIx : Nat) : Coef × Coef :=
  let opd := smoothed c opdIx
  let ipd := smoothed c ipdIx
  let adj := Cx.rnd c
    ⟨(opd.re.mul ipd.re).add (opd.im.mul ipd.im), (opd.im.mul ipd.re).sub (opd.re.mul ipd.im)⟩
  let prod := fun x y => rnd c (PsNum.mul x y)
  (⟨prod h.h11 opd.re, prod h.h12 adj.re, prod h.h21 opd.re, prod h.h22 adj.re⟩,
    ⟨prod h.h11 opd.im, prod h.h12 adj.im, prod h.h21 opd.im, prod h.h22 adj.im⟩)

/-- Whether the complex path is taken (R269, R273, R276). -/
def complexPath (c : Config) (q : Params) : Bool := !c.baseline && q.enableIpdopd

/-- The target coefficients of band `b` of envelope `e` (R267, R269): real parts, and imaginary parts where they are
populated (R271). -/
def targetCoef (c : Config) (q : Params) (is34 : Bool) (m : Mapped) (d : Dsp) (e b : Nat) : Coef × Option Coef :=
  let h := lookupCoef (mixTable c q) q.iidQuant (cellI m.iid e b) (cellI m.icc e b)
  if complexPath c q && decide (b < nrIpdOpdBands is34) then
    let r := rotate c h (smoothIndex (cell 0 d.opdHist b) (cellI m.opd e b))
      (smoothIndex (cell 0 d.ipdHist b) (cellI m.ipd e b))
    (r.1, some r.2)
  else (h, none)

/-- The histories after envelope `e` (R268); it runs whether or not IPD/OPD is enabled. -/
def updateHist (is34 : Bool) (rows : List (List Int)) (e : Nat) (hist : List (BitVec 6)) : List (BitVec 6) :=
  tab hist.length fun b =>
    if b < nrIpdOpdBands is34 then BitVec.ofNat 6 (smoothIndex (cell 0 hist b) (cellI rows e b)) else cell 0 hist b

/-- Storing the bands `b < n` of row `[part][slot]` of a matrix; `none` leaves a cell as it is. -/
def storeBands (x : List (List (List PsNum))) (part slot n : Nat) (f : Nat → Option PsNum) :
    List (List (List PsNum)) :=
  upd x part fun env => upd env slot fun row =>
    tab row.length fun b => if b < n then (f b).getD (cell .zero row b) else cell .zero row b

/-- Storing one coefficient of every target matrix of envelope `e` (R270, R271). The pseudocode of R271 writes no
imaginary cell of a band from `NR_IPDOPD_BANDS` on, and its prose says that those cells "hold 0": the model follows the
pseudocode, so that slots 1 and up keep what they held, also after a change from 34 to 20 bands, where that may be no
zero (log 30, the model's choice). -/
def storeCoef (is34 : Bool) (targets : List (Coef × Option Coef)) (e : Nat) (g : Coef → PsNum)
    (x : List (List (List PsNum))) : List (List (List PsNum)) :=
  let t := fun b => cell (⟨.zero, .zero, .zero, .zero⟩, none) targets b
  storeBands (storeBands x 0 (e + 1) (nrParBands is34) fun b => some (g (t b).1))
    1 (e + 1) (nrParBands is34) fun b => (t b).2.map g

/-- The matrices and histories after the first half of envelope `e` (R265 to R271). -/
def storeTargets (c : Config) (q : Params) (is34 : Bool) (m : Mapped) (e : Nat) (d : Dsp) : Dsp :=
  let targets := tab (nrParBands is34) (targetCoef c q is34 m d e)
  { d with
    h11 := storeCoef is34 targets e Coef.h11 d.h11
    h12 := storeCoef is34 targets e Coef.h12 d.h12
    h21 := storeCoef is34 targets e Coef.h21 d.h21
    h22 := storeCoef is34 targets e Coef.h22 d.h22
    ipdHist := updateHist is34 m.ipd e d.ipdHist
    opdHist := updateHist is34 m.opd e d.opdHist }

/-! ## Steps 4 and 5: interpolation and application -/

/-- The coefficients `[part][slot][band]` of the four matrices. -/
def coefAt (d : Dsp) (part slot b : Nat) : Coef :=
  ⟨cellN3 d.h11 part slot b, cellN3 d.h12 part slot b, cellN3 d.h21 part slot b, cellN3 d.h22 part slot b⟩

/-- The span of envelope `e` (R272). -/
def spanOf (q : Params) (e : Nat) : Int := cell 0 q.borderPosition (e + 1) - cell 0 q.borderPosition e

/-- `width` (R272). -/
def widthOf (c : Config) (q : Params) (e : Nat) : PsNum :=
  rnd c (.fin (1 / ((if spanOf q e ≠ 0 then spanOf q e else 1 : Int) : Rat)))

/-- The sign flip of R273. -/
def signFlip (is34 : Bool) (k : Nat) : Bool := if is34 then decide (9 ≤ k) && decide (k ≤ 13) else decide (k ≤ 1)

/-- The imaginary start values, with the flip (R273). -/
def startIm (is34 : Bool) (k : Nat) (h : Coef) : Coef := if signFlip is34 k then h.map PsNum.neg else h

/-- The step from a start to a target (R274): each difference and each product rounded. -/
def stepOf (c : Config) (width : PsNum) (target start : Coef) : Coef :=
  Coef.map2 (fun t s => rnd c ((rnd c (t.sub s)).mul width)) target start

/-- Advancing the matrix by its step (R275, R276). -/
def advanceCoef (c : Config) (h step : Coef) : Coef := Coef.map2 (fun a b => rnd c (a.add b)) h step

/-- A stored sum of products, rounded once, or each product as well (R275, log 4). -/
def mixSum (c : Config) (l : List (PsNum × PsNum)) : PsNum :=
  match l.map fun x => rndIf c.round.mix c (x.1.mul x.2) with
  | [] => .zero
  | x :: xs => rnd c (xs.foldl PsNum.add x)

/-- A pair of samples through a real matrix (R275). -/
def mixReal (c : Config) (h : Coef) (lo ro : Cx) : Cx × Cx :=
  (⟨mixSum c [(h.h11, lo.re), (h.h21, ro.re)], mixSum c [(h.h11, lo.im), (h.h21, ro.im)]⟩,
    ⟨mixSum c [(h.h12, lo.re), (h.h22, ro.re)], mixSum c [(h.h12, lo.im), (h.h22, ro.im)]⟩)

/-- A pair of samples through a complex matrix (R276). -/
def mixComplex (c : Config) (h g : Coef) (lo ro : Cx) : Cx × Cx :=
  let out := fun a b ai bi =>
    (⟨mixSum c [(a, lo.re), (b, ro.re), (PsNum.neg ai, lo.im), (PsNum.neg bi, ro.im)],
      mixSum c [(a, lo.im), (b, ro.im), (ai, lo.re), (bi, ro.re)]⟩ : Cx)
  (out h.h11 h.h21 g.h11 g.h21, out h.h12 h.h22 g.h12 g.h22)

/-- The samples of an envelope in one subband, from slot `n` on, `count` of them (R275, R276): the matrix is advanced
before it is used, and both outputs of a sample are computed from the old pair. `g` is the imaginary part with its
step, absent on the real path. -/
def mixSamples (c : Config) :
    Nat → Nat → Coef × Coef → Option (Coef × Coef) → List Cx → List Cx → List Cx × List Cx
  | 0, _, _, _, l, r => (l, r)
  | count + 1, n, h, g, l, r =>
    let h' := advanceCoef c h.1 h.2
    let lo := cell Cx.zero l n
    let ro := cell Cx.zero r n
    match g with
    | none =>
      let o := mixReal c h' lo ro
      mixSamples c count (n + 1) (h', h.2) none (l.set n o.1) (r.set n o.2)
    | some (gs, gstep) =>
      let g' := advanceCoef c gs gstep
      let o := mixComplex c h' g' lo ro
      mixSamples c count (n + 1) (h', h.2) (some (g', gstep)) (l.set n o.1) (r.set n o.2)

/-- Subband `k` over envelope `e` (R272 to R277): its left and right rows. -/
def mixBand (c : Config) (q : Params) (is34 : Bool) (d : Dsp) (e k : Nat) (l r : List Cx) : List Cx × List Cx :=
  let b := kToI c is34 k
  let width := widthOf c q e
  let h := coefAt d 0 e b
  let re := (h, stepOf c width (coefAt d 0 (e + 1) b) h)
  let g := startIm is34 k (coefAt d 1 e b)
  let im := if complexPath c q then some (g, stepOf c width (coefAt d 1 (e + 1) b) g) else none
  mixSamples c (spanOf q e).toNat (cell 0 q.borderPosition e + 1).toNat re im l r

/-- What STEREO_PROCESS changes: the matrices and histories, and the two buffers. -/
structure Mix where
  dsp : Dsp
  l : List (List Cx)
  r : List (List Cx)
  deriving DecidableEq, Repr, Inhabited

/-- Envelope `e` (R265): its matrices, then its samples in every subband below `NR_BANDS[is34]`. -/
def mixEnvelope (c : Config) (q : Params) (is34 : Bool) (m : Mapped) (x : Mix) (e : Nat) : Mix :=
  let d := storeTargets c q is34 m e x.dsp
  let rows := tab (nrBands is34) fun k => mixBand c q is34 d e k (cell [] x.l k) (cell [] x.r k)
  { dsp := d
    l := tab x.l.length fun k => if k < nrBands is34 then (cell ([], []) rows k).1 else cell [] x.l k
    r := tab x.r.length fun k => if k < nrBands is34 then (cell ([], []) rows k).2 else cell [] x.r k }

/-- STEREO_PROCESS on the data it reads and writes (R278). -/
def stereo (c : Config) (q : Params) (is34 : Bool) (m : Mapped) (x : Mix) : Mix :=
  (List.range q.numEnv).foldl (mixEnvelope c q is34 m) { x with dsp := carryOver c q is34 x.dsp }

/-- STEREO_PROCESS of `Lbuf` and `Rbuf` on the state. -/
def State.stereo (s : State) (is34 : Bool) : State :=
  let m := mapParams s.params is34
  let r := Machine.stereo s.cfg s.params is34 m ⟨s.dsp, s.work.lbuf, s.work.rbuf⟩
  (s.withWork { lbuf := r.l, rbuf := r.r, mapped := m }).withDsp r.dsp

/-- STEREO_PROCESS (R260). -/
def execStereoProcess (is34 : Bool) (s : State) : Out :=
  command s fun s => .next ((s.stereo is34).withStatus .ok)

end Sys2Proof.Machine
end

