-- ==== Sys2Proof/Machine/Driver.lean ====
section
/-! DEFINITION. The frame driver and the housekeeping commands (`46_frame_driver.md`): APPLY, INIT_TABLES, RESET. -/

namespace Sys2Proof.Machine

/-- `top` of step 1 of APPLY (R291). -/
def topOf (is34 : Bool) (topBand : Int) : Int := topBand + (nrBands is34 : Int) - 64

/-- The history of the subbands from `top` on cleared (R291). -/
def Dsp.clearAbove (d : Dsp) (is34 : Bool) (top : Int) : Dsp :=
  { d with
    delay := tab hybMax fun k =>
      if decide (top ≤ (k : Int)) && decide (k < nrBands is34) then (cell [] d.delay k).map fun _ => Cx.zero
      else cell [] d.delay k
    apDelay := tab 50 fun k =>
      if decide (top ≤ (k : Int)) && decide (k < nrAllpassBands is34) then
        (cell [] d.apDelay k).map fun row => row.map fun _ => Cx.zero
      else cell [] d.apDelay k }

/-- Steps 1 to 5 of APPLY (R291, R292). -/
def State.applyFrame (s : State) (topBand : Int) : State :=
  let is34 := s.params.is34bands
  let s1 := s.withDsp (s.dsp.clearAbove is34 (topOf is34 topBand))
  let s2 := s1.analysis is34
  let s3 := s2.decorrelate .lbuf is34
  let s4 := s3.stereo is34
  let s5 := s4.synthesis .lbuf is34 .left
  s5.synthesis .rbuf is34 .right

/-- APPLY (R290); `topBand` outside 0..64 is refused (decision D25). -/
def execApply (topBand : Int) (s : State) : Out :=
  command s fun s =>
    if 0 ≤ topBand ∧ topBand ≤ 64 then .next ((s.applyFrame topBand).withStatus .ok)
    else .refused .topBandOutOfRange

/-- INIT_TABLES (R294): the tables are ready from here on; no instance is touched. -/
def execInitTables (s : State) : Out :=
  whenIdle s fun s => .next { s with tablesReady := true, status := .ok }

/-- The instance's fields at their reset values (R295, `10_state.md` R46); `hostpos`, the host's buffers, the
configuration and `tables_ready` are no instance fields. -/
def State.resetInstance (s : State) : State :=
  { s with params := Params.zero s.cfg, dsp := Dsp.zero s.cfg, work := Work.zero, status := .ok }

/-- RESET (R295). -/
def execReset (s : State) : Out := command s fun s => .next s.resetInstance

end Sys2Proof.Machine
end

