-- ==== Sys2Proof/Machine/Flags.lean ====
section
/-! DEFINITION. The flags and control fields READ_DATA computes: the mode lookups of the header, the range
predicates, the resolution, the baseline rule and `start`. -/

namespace Sys2Proof.Machine

/-- The fields a legal `IID_MODE` sets (`41_parameter_decoder.md` R162, `30_encoding.md` R104). -/
def Params.setIidMode (q : Params) (t : Tables) (mode : Nat) : Params :=
  { q with
    nrIidPar := t.nrIidIcc.getD mode 0
    iidQuant := t.iidQuant.getD mode false
    nrIpdopdPar := t.nrIpdOpd.getD mode 0 }

/-- The field a legal `ICC_MODE` sets besides `icc_mode` (R162, R105). -/
def Params.setIccMode (q : Params) (t : Tables) (mode : Nat) : Params :=
  { q with nrIccPar := t.nrIidIcc.getD mode 0 }

/-- `|v| <= 7 + 8*iid_quant` (`40_entropy_delta.md` R143, R147). -/
def iidOk (iidQuant : Bool) (v : Int) : Bool := decide (v.natAbs ≤ 7 + 8 * iidQuant.toNat)

/-- `0 <= v <= 7` (R143). -/
def iccOk (v : Int) : Bool := decide (0 ≤ v) && decide (v ≤ 7)

/-- The range predicate of a family; IPD and OPD have none (R143). -/
def rangeOk (iidQuant : Bool) (f : Family) (v : Int) : Bool :=
  match f with
  | .iid => iidOk iidQuant v
  | .icc => iccOk v
  | .ipd => true
  | .opd => true

/-- The cause on violation of a family's range predicate (R143); never used for IPD and OPD. -/
def rangeCause : Family → Cause
  | .iid => .iidRange
  | .icc => .iccRange
  | .ipd => .iccRange
  | .opd => .iccRange

/-- The 3-bit mask of IPD and OPD (R146): `v & 7` on two's complement is `v` modulo 8. -/
def maskOf (f : Family) (v : Int) : Int :=
  match f with
  | .iid => v
  | .icc => v
  | .ipd => v % 8
  | .opd => v % 8

/-- Steps 8: `is34bands_old` and `is34bands` (`41_parameter_decoder.md` R177, R178). -/
def Params.updateResolution (q : Params) (baseline : Bool) : Params :=
  { q with
    is34bandsOld := q.is34bands
    is34bands :=
      if !baseline && (q.enableIid || q.enableIcc) then
        (q.enableIid && q.nrIidPar == 34) || (q.enableIcc && q.nrIccPar == 34)
      else q.is34bands }

/-- The baseline rule and the zeroing of IPD and OPD (R179). -/
def Params.baselineRule (q : Params) (baseline : Bool) : Params :=
  let en := if baseline then false else q.enableIpdopd
  { q with
    enableIpdopd := en
    ipdPar := if en then q.ipdPar else zeroI q.ipdPar
    opdPar := if en then q.opdPar else zeroI q.opdPar }

/-- Step 9: `start` is set if a header was present (R180). -/
def Params.startRule (q : Params) (header : Bool) : Params := { q with start := header || q.start }

end Sys2Proof.Machine
end

