-- ==== Sys2Proof/Machine/Grammar.lean ====
section
/-! DEFINITION. The control flow of the payload grammar (`30_encoding.md` R102): which element comes next, and the
steps of READ_DATA between two elements and after the last one. Each definition enters one part of the grammar. -/

namespace Sys2Proof.Machine

/-! ## Step 7: the envelope fix-up (`41_parameter_decoder.md` R175, R176) -/

/-- The condition of R175. -/
def Params.fixupNeeded (q : Params) : Bool :=
  (q.numEnv == 0) || decide (cell 0 q.borderPosition q.numEnv < 31)

/-- The source row of R175, -1 where there is none. -/
def Params.fixupSource (q : Params) : Int :=
  if 0 < q.numEnv then (q.numEnv : Int) - 1 else (q.numEnvOld : Int) - 1

/-- One row copied onto another. -/
def copyRow (rows : List (List Int)) (dst src : Nat) : List (List Int) := rows.set dst (cell [] rows src)

/-- The copies of R175, each gated by its family's enable. -/
def Params.fixupCopy (q : Params) : Params :=
  if 0 ≤ q.fixupSource ∧ q.fixupSource ≠ q.numEnv then
    let src := q.fixupSource.toNat
    { q with
      iidPar := if q.enableIid then copyRow q.iidPar q.numEnv src else q.iidPar
      iccPar := if q.enableIcc then copyRow q.iccPar q.numEnv src else q.iccPar
      ipdPar := if q.enableIpdopd then copyRow q.ipdPar q.numEnv src else q.ipdPar
      opdPar := if q.enableIpdopd then copyRow q.opdPar q.numEnv src else q.opdPar }
  else q

/-- The IID validation of R176. -/
def Params.fixupIidOk (q : Params) : Bool :=
  !q.enableIid || (List.range q.nrIidPar).all fun b => iidOk q.iidQuant (cellI q.iidPar q.numEnv b)

/-- The ICC validation of R176. -/
def Params.fixupIccOk (q : Params) : Bool :=
  !q.enableIcc || (List.range q.nrIccPar).all fun b => iccOk (cellI q.iccPar q.numEnv b)

/-- The extension of R176: one more envelope, its border at slot 31. -/
def Params.closeEnvelope (q : Params) : Params :=
  { q with numEnv := q.numEnv + 1, borderPosition := q.borderPosition.set (q.numEnv + 1) 31 }

/-! ## Steps 8 to 10 -/

/-- Steps 8 and 9 (R177 to R180) and step 10 (R181). -/
def concludeParse (p : Parse) (s : State) : State :=
  commit p (s.withParams
    (((s.params.updateResolution s.cfg.baseline).baselineRule s.cfg.baseline).startRule p.header))

/-- After the last element: step 7 and then steps 8 to 10 (R184). -/
def finishParse (p : Parse) (s : State) : State :=
  if s.params.fixupNeeded then
    let q := s.params.fixupCopy
    if !q.fixupIidOk then errorPath .fixupIidRange p (s.withParams q)
    else if !q.fixupIccOk then errorPath .fixupIccRange p (s.withParams q)
    else concludeParse p (s.withParams q.closeEnvelope)
  else concludeParse p s

/-! ## Step 6: the extension container -/

/-- The loop condition and the end of the container (R170, R173). -/
def extLoop (p : Parse) (s : State) : State :=
  if 7 < p.cnt then s.goto p .extId
  else if p.cnt < 0 then errorPath .extUnderflow p s
  else s.goto p .extFill

/-- The extension container, present when `enable_ext = 1` (R170, R174). -/
def enterExt (p : Parse) (s : State) : State :=
  if s.params.enableExt then s.goto p .extSize else finishParse p s

/-- The envelopes of an IPD/OPD extension from envelope `e` on, then `RESERVED_PS` (R171). -/
def enterIpdRow (e : Nat) (p : Parse) (s : State) : State :=
  if e < s.params.numEnv then s.goto p (.ipdDt e) else s.goto p .reservedPs

/-! ## Steps 4 and 5: the IID and ICC blocks -/

/-- The rows of the ICC block from envelope `e` on (R168). -/
def enterIccRow (e : Nat) (p : Parse) (s : State) : State :=
  if e < s.params.numEnv then s.goto p (.iccDt e) else enterExt p s

/-- The ICC block (R168), or its array zeroed (R169). -/
def enterIcc (p : Parse) (s : State) : State :=
  if s.params.enableIcc then enterIccRow 0 p s
  else enterExt p (s.withParams (s.params.setPar .icc (zeroI s.params.iccPar)))

/-- The rows of the IID block from envelope `e` on (R166). -/
def enterIidRow (e : Nat) (p : Parse) (s : State) : State :=
  if e < s.params.numEnv then s.goto p (.iidDt e) else enterIcc p s

/-- The IID block (R166), or its array zeroed (R167). -/
def enterIid (p : Parse) (s : State) : State :=
  if s.params.enableIid then enterIidRow 0 p s
  else enterIcc p (s.withParams (s.params.setPar .iid (zeroI s.params.iidPar)))

/-- After the last value of row `e` of a family (R102). -/
def rowDone (f : Family) (e : Nat) (p : Parse) (s : State) : State :=
  match f with
  | .iid => enterIidRow (e + 1) p s
  | .icc => enterIccRow (e + 1) p s
  | .ipd => s.goto p (.opdDt e)
  | .opd => enterIpdRow (e + 1) p s

/-! ## Step 3: borders -/

/-- Border `e` of a frame with fixed borders (R165). -/
def fixedBorder (numEnv e : Nat) : Int := (((e * 32) >>> Nat.log2 numEnv : Nat) : Int) - 1

/-- `border_position[0] <- -1` and, for `e` in `1..num_env`, the fixed borders (R165). -/
def fixedBorders (numEnv : Nat) (old : List Int) : List Int :=
  (List.range numEnv).foldl (fun l j => l.set (j + 1) (fixedBorder numEnv (j + 1))) (old.set 0 (-1))

/-- After NUM_ENV_IDX: explicit borders follow (R164), or the fixed ones are computed (R165). -/
def enterBorders (p : Parse) (s : State) : State :=
  if s.params.frameClass then
    let s' := s.withParams { s.params with borderPosition := s.params.borderPosition.set 0 (-1) }
    if 1 ≤ s.params.numEnv then s'.goto p (.border 1) else enterIid p s'
  else
    enterIid p (s.withParams
      { s.params with borderPosition := fixedBorders s.params.numEnv s.params.borderPosition })

end Sys2Proof.Machine
end

