-- ==== Sys2Proof/Machine/Delta.lean ====
section
/-! DEFINITION. The delta codec (`40_entropy_delta.md` R143 to R149) and the elements of the parameter rows: the `dt`
flags and the codewords of IID, ICC, IPD and OPD. -/

namespace Sys2Proof.Machine

/-- `e_prev(e)` (R148). -/
def ePrev (q : Params) (e : Nat) : Nat := if 0 < e then e - 1 else q.numEnvOld - 1

/-- The value formed from one delta (R144, R145, R146): predicted from the previous envelope, or from the running
value. -/
def deltaValue (f : Family) (q : Params) (acc : Int) (e b : Nat) (dt : Bool) (delta : Int) : Int :=
  maskOf f ((if dt then cellI (q.par f) (ePrev q e) b else acc) + delta)

/-- The `dt` flag of row `e`: the row's values follow, if the family has any band (R144, R145). -/
def startRow (f : Family) (e : Nat) (mk : Nat → Phase) (p : Parse) (s : State) : State :=
  let p' := { p.advance 1 with acc := 0 }
  if 0 < s.params.nrPar f then s.goto p' (mk 0) else rowDone f e p' s

/-- One value of row `e` (R144, R145): stored, checked (R147), and the next band or what follows the row. -/
def storeValue (f : Family) (e b : Nat) (mk : Nat → Phase) (len : Nat) (v : Int) (p : Parse) (s : State) : State :=
  let s' := s.withParams (s.params.setPar f (storeI (s.params.par f) e b v))
  let p' := { p.advance len with acc := v }
  if rangeOk s.params.iidQuant f v then
    if b + 1 < s.params.nrPar f then s'.goto p' (mk (b + 1)) else rowDone f e p' s'
  else errorPath (rangeCause f) p' s'

/-- One `VLC` element of a family with the signed delta `delta` (R141, R143): its codeword moves the working
cursor, its value is stored. -/
def dataCell (f : Family) (e b : Nat) (dt : Bool) (mk : Nat → Phase) (delta : Int) (p : Parse) (s : State) : Out :=
  match codewordOf (tableFor s.cfg f dt s.params.iidQuant) delta with
  | some cw => .next (storeValue f e b mk cw.2 (deltaValue f s.params p.acc e b dt delta) p s)
  | none => .refused .noCodeword

/-- IID_DT (`41_parameter_decoder.md` R166). -/
def execIidDt (dt : Bool) (s : State) : Out :=
  element s fun p ph => match ph with
    | .iidDt e => some (.next (startRow .iid e (fun b => .iidData e b dt) p s))
    | _ => none

/-- IID_DATA (R166, `40_entropy_delta.md` R143). -/
def execIidData (delta : Int) (s : State) : Out :=
  element s fun p ph => match ph with
    | .iidData e b dt => some (dataCell .iid e b dt (fun b => .iidData e b dt) delta p s)
    | _ => none

/-- ICC_DT (R168). -/
def execIccDt (dt : Bool) (s : State) : Out :=
  element s fun p ph => match ph with
    | .iccDt e => some (.next (startRow .icc e (fun b => .iccData e b dt) p s))
    | _ => none

/-- ICC_DATA (R168, `40_entropy_delta.md` R143). -/
def execIccData (delta : Int) (s : State) : Out :=
  element s fun p ph => match ph with
    | .iccData e b dt => some (dataCell .icc e b dt (fun b => .iccData e b dt) delta p s)
    | _ => none

/-- IPD_DT (R171). -/
def execIpdDt (dt : Bool) (s : State) : Out :=
  element s fun p ph => match ph with
    | .ipdDt e => some (.next (startRow .ipd e (fun b => .ipdData e b dt) p s))
    | _ => none

/-- IPD_DATA (R171, `40_entropy_delta.md` R143, R146). -/
def execIpdData (delta : Int) (s : State) : Out :=
  element s fun p ph => match ph with
    | .ipdData e b dt => some (dataCell .ipd e b dt (fun b => .ipdData e b dt) delta p s)
    | _ => none

/-- OPD_DT (R171). -/
def execOpdDt (dt : Bool) (s : State) : Out :=
  element s fun p ph => match ph with
    | .opdDt e => some (.next (startRow .opd e (fun b => .opdData e b dt) p s))
    | _ => none

/-- OPD_DATA (R171, `40_entropy_delta.md` R143, R146). -/
def execOpdData (delta : Int) (s : State) : Out :=
  element s fun p ph => match ph with
    | .opdData e b dt => some (dataCell .opd e b dt (fun b => .opdData e b dt) delta p s)
    | _ => none

end Sys2Proof.Machine
end

