-- ==== Sys2Proof/Machine/Extension.lean ====
section
/-! DEFINITION. The elements of the extension container (`41_parameter_decoder.md` R170 to R173). -/

namespace Sys2Proof.Machine

/-- EXT_SIZE (R170): 15 announces EXT_ESC; any other value is the size in bytes. -/
def execExtSize (n : BitVec 4) (s : State) : Out :=
  element s fun p ph => match ph with
    | .extSize =>
      some (.next
        (if n.toNat = 15 then s.goto { p.advance 4 with cnt := 15 } .extEsc
        else extLoop { p.advance 4 with cnt := (n.toNat : Int) * 8 } s))
    | _ => none

/-- EXT_ESC (R170): added to the size. -/
def execExtEsc (n : BitVec 8) (s : State) : Out :=
  element s fun p ph => match ph with
    | .extEsc => some (.next (extLoop { p.advance 8 with cnt := (p.cnt + n.toNat) * 8 } s))
    | _ => none

/-- EXT_ID (R170): id 0 is the IPD/OPD extension (R171); ids 1, 2, 3 have no body (R172). -/
def execExtId (id : BitVec 2) (s : State) : Out :=
  element s fun p ph => match ph with
    | .extId =>
      let p' := p.advance 2
      some (.next
        (if id.toNat = 0 then s.goto { p' with extStart := p'.pos } .enableIpdopd
        else extLoop { p' with cnt := p.cnt - 2 } s))
    | _ => none

/-- EXT_FILL (R173): the rest of the container is skipped, and the parse has met its last element. -/
def execExtFill (s : State) : Out :=
  element s fun p ph => match ph with
    | .extFill => some (.next (finishParse (p.advance p.cnt.toNat) s))
    | _ => none

/-- ENABLE_IPDOPD (R171). -/
def execEnableIpdopd (v : Bool) (s : State) : Out :=
  element s fun p ph => match ph with
    | .enableIpdopd =>
      let s' := s.withParams { s.params with enableIpdopd := v }
      some (.next (if v then enterIpdRow 0 (p.advance 1) s' else s'.goto (p.advance 1) .reservedPs))
    | _ => none

/-- RESERVED_PS (R171): its value is ignored; the body is charged to the budget (R170). -/
def execReservedPs (_v : Bool) (s : State) : Out :=
  element s fun p ph => match ph with
    | .reservedPs =>
      let p' := p.advance 1
      some (.next (extLoop { p' with cnt := p.cnt - 2 - ((p'.pos : Int) - p.extStart) } s))
    | _ => none

end Sys2Proof.Machine
end

