-- ==== Sys2Proof/Machine/Header.lean ====
section
/-! DEFINITION. The header elements (`41_parameter_decoder.md` R162), the frame class and envelope count (R163) and
the explicit borders (R164). -/

namespace Sys2Proof.Machine

/-- PS_HEADER (R162, `30_encoding.md` R103). -/
def execPsHeader (v : Bool) (s : State) : Out :=
  element s fun p ph => match ph with
    | .psHeader => some (.next (s.goto { p.advance 1 with header := v } (if v then .enableIid else .frameClass)))
    | _ => none

/-- ENABLE_IID (R162). -/
def execEnableIid (v : Bool) (s : State) : Out :=
  element s fun p ph => match ph with
    | .enableIid =>
      some (.next ((s.withParams { s.params with enableIid := v }).goto (p.advance 1)
        (if v then .iidMode else .enableIcc)))
    | _ => none

/-- IID_MODE (R162): 6 and 7 raise IID_MODE_RESERVED; the other values set `nr_iid_par`, `iid_quant` and
`nr_ipdopd_par`. -/
def execIidMode (m : BitVec 3) (s : State) : Out :=
  element s fun p ph => match ph with
    | .iidMode =>
      some (.next
        (if 5 < m.toNat then errorPath .iidModeReserved p s
        else (s.withParams (s.params.setIidMode s.cfg.tables m.toNat)).goto (p.advance 3) .enableIcc))
    | _ => none

/-- ENABLE_ICC (R162). -/
def execEnableIcc (v : Bool) (s : State) : Out :=
  element s fun p ph => match ph with
    | .enableIcc =>
      some (.next ((s.withParams { s.params with enableIcc := v }).goto (p.advance 1)
        (if v then .iccMode else .enableExt)))
    | _ => none

/-- ICC_MODE (R162): `icc_mode` is assigned before its check (decision D14); 6 and 7 raise ICC_MODE_RESERVED. -/
def execIccMode (m : BitVec 3) (s : State) : Out :=
  element s fun p ph => match ph with
    | .iccMode =>
      let q := { s.params with iccMode := m }
      some (.next
        (if 5 < m.toNat then errorPath .iccModeReserved p (s.withParams q)
        else (s.withParams (q.setIccMode s.cfg.tables m.toNat)).goto (p.advance 3) .enableExt))
    | _ => none

/-- ENABLE_EXT (R162). -/
def execEnableExt (v : Bool) (s : State) : Out :=
  element s fun p ph => match ph with
    | .enableExt =>
      some (.next ((s.withParams { s.params with enableExt := v }).goto (p.advance 1) .frameClass))
    | _ => none

/-- FRAME_CLASS (R163). -/
def execFrameClass (v : Bool) (s : State) : Out :=
  element s fun p ph => match ph with
    | .frameClass =>
      some (.next ((s.withParams { s.params with frameClass := v }).goto (p.advance 1) .numEnvIdx))
    | _ => none

/-- NUM_ENV_IDX (R163): `num_env_old` takes the old `num_env`, then `num_env` is looked up. -/
def execNumEnvIdx (n : BitVec 2) (s : State) : Out :=
  element s fun p ph => match ph with
    | .numEnvIdx =>
      let q := { s.params with
        numEnvOld := s.params.numEnv
        numEnv := numEnvTab s.params.frameClass n.toNat }
      some (.next (enterBorders (p.advance 2) (s.withParams q)))
    | _ => none

/-- BORDER_POSITION (R164): stored, then compared with the border before it. -/
def execBorderPosition (b : BitVec 5) (s : State) : Out :=
  element s fun p ph => match ph with
    | .border e =>
      let s' := s.withParams { s.params with borderPosition := s.params.borderPosition.set e (b.toNat : Int) }
      some (.next
        (if (b.toNat : Int) < cell 0 s.params.borderPosition (e - 1) then errorPath .borderOrder p s'
        else if e < s.params.numEnv then s'.goto (p.advance 5) (.border (e + 1))
        else enterIid (p.advance 5) s'))
    | _ => none

end Sys2Proof.Machine
end

