-- ==== Sys2Proof/Machine/ReadData.lean ====
section
/-! DEFINITION. READ_DATA (`41_parameter_decoder.md` R160 to R184): the parse begins at the host cursor and runs
element after element to its end, in one step. -/

namespace Sys2Proof.Machine

/-- The effect of a payload element; commands are no elements. -/
def runElement (i : Instr) (s : State) : Out :=
  match i with
  | .psHeader v => execPsHeader v s
  | .enableIid v => execEnableIid v s
  | .iidMode m => execIidMode m s
  | .enableIcc v => execEnableIcc v s
  | .iccMode m => execIccMode m s
  | .enableExt v => execEnableExt v s
  | .frameClass v => execFrameClass v s
  | .numEnvIdx n => execNumEnvIdx n s
  | .borderPosition b => execBorderPosition b s
  | .iidDt dt => execIidDt dt s
  | .iidData d => execIidData d s
  | .iccDt dt => execIccDt dt s
  | .iccData d => execIccData d s
  | .extSize n => execExtSize n s
  | .extEsc n => execExtEsc n s
  | .extId id => execExtId id s
  | .extFill => execExtFill s
  | .enableIpdopd v => execEnableIpdopd v s
  | .ipdDt dt => execIpdDt dt s
  | .ipdData d => execIpdData d s
  | .opdDt dt => execOpdDt dt s
  | .opdData d => execOpdData d s
  | .reservedPs v => execReservedPs v s
  | .initTables | .reset | .readData _ | .apply _ | .remap20 _ _ _ _ | .remap34 _ _ _ _ | .remapVal20 _
  | .remapVal34 _ | .hybridAnalysis _ | .decorrelate _ _ | .stereoProcess _ | .hybridSynthesis _ _ _ =>
    .refused .elementOutOfPlace

/-- One element: fetched at the working cursor and run. -/
def parseStep (p : Parse) (s : State) : Out :=
  match fetchElement s p with
  | .ok (i, _) => runElement i s
  | .error _ => .refused .noCodeword

/-- Elements until the parse has ended, at most `fuel` of them. -/
def runParse : Nat → State → Out
  | 0, s => if s.parse.isSome then .fault .parseUnfinished else .next s
  | fuel + 1, s =>
    match s.parse with
    | none => .next s
    | some p =>
      match parseStep p s with
      | .next s' => runParse fuel s'
      | .fault r => .fault r
      | .refused r => .refused r

/-- The largest of the band counts a parse can meet: those of the state and those of the mode tables. -/
def bandCap (s : State) : Nat :=
  (s.params.nrIidPar :: s.params.nrIccPar :: s.params.nrIpdopdPar
    :: (s.cfg.tables.nrIidIcc ++ s.cfg.tables.nrIpdOpd)).foldl Nat.max 0

/-- A bound on the number of elements of a payload: 8 up to NUM_ENV_IDX, 4 borders, four IID and four ICC rows, the
size fields, at most 2160 bits of extension budget of which every id takes two, each with at most one IPD/OPD body,
and the fill (`30_encoding.md` R102). -/
def parseBound (s : State) : Nat := 32 + 8 * bandCap s + 2160 * (12 + 8 * bandCap s)

/-- The start of READ_DATA: the working cursor is a copy of the host cursor (`41_parameter_decoder.md` R161,
`20_memory.md` R79). -/
def beginParse (bitsAvailable : Nat) (s : State) : State :=
  s.withParse (some
    { pos := s.host.hostpos, budget := bitsAvailable, header := false, cnt := 0, extStart := 0, acc := 0,
      phase := .psHeader })

/-- READ_DATA (R160, R184). -/
def execReadData (bitsAvailable : Nat) (s : State) : Out :=
  command s fun s => runParse (parseBound s) (beginParse bitsAvailable s)

end Sys2Proof.Machine
end

