-- ==== Sys2Proof/Machine/Dispatch.lean ====
section
/-! DEFINITION. One arm per instruction: the meaning of each. -/

namespace Sys2Proof.Machine

def exec (i : Instr) (s : State) : Host.Outcome State Fault Refusal :=
  match i with
  | .psHeader v => Sys2Proof.Machine.execPsHeader v s
  | .enableIid v => Sys2Proof.Machine.execEnableIid v s
  | .iidMode m => Sys2Proof.Machine.execIidMode m s
  | .enableIcc v => Sys2Proof.Machine.execEnableIcc v s
  | .iccMode m => Sys2Proof.Machine.execIccMode m s
  | .enableExt v => Sys2Proof.Machine.execEnableExt v s
  | .frameClass v => Sys2Proof.Machine.execFrameClass v s
  | .numEnvIdx n => Sys2Proof.Machine.execNumEnvIdx n s
  | .borderPosition b => Sys2Proof.Machine.execBorderPosition b s
  | .iidDt dt => Sys2Proof.Machine.execIidDt dt s
  | .iidData delta => Sys2Proof.Machine.execIidData delta s
  | .iccDt dt => Sys2Proof.Machine.execIccDt dt s
  | .iccData delta => Sys2Proof.Machine.execIccData delta s
  | .extSize n => Sys2Proof.Machine.execExtSize n s
  | .extEsc n => Sys2Proof.Machine.execExtEsc n s
  | .extId id => Sys2Proof.Machine.execExtId id s
  | .extFill => Sys2Proof.Machine.execExtFill s
  | .enableIpdopd v => Sys2Proof.Machine.execEnableIpdopd v s
  | .ipdDt dt => Sys2Proof.Machine.execIpdDt dt s
  | .ipdData delta => Sys2Proof.Machine.execIpdData delta s
  | .opdDt dt => Sys2Proof.Machine.execOpdDt dt s
  | .opdData delta => Sys2Proof.Machine.execOpdData delta s
  | .reservedPs v => Sys2Proof.Machine.execReservedPs v s
  | .initTables => Sys2Proof.Machine.execInitTables s
  | .reset => Sys2Proof.Machine.execReset s
  | .readData bitsAvailable => Sys2Proof.Machine.execReadData bitsAvailable s
  | .apply topBand => Sys2Proof.Machine.execApply topBand s
  | .remap20 src srcBandCount numEnvelopes full => Sys2Proof.Machine.execRemap20 src srcBandCount numEnvelopes full s
  | .remap34 src srcBandCount numEnvelopes full => Sys2Proof.Machine.execRemap34 src srcBandCount numEnvelopes full s
  | .remapVal20 row => Sys2Proof.Machine.execRemapVal20 row s
  | .remapVal34 row => Sys2Proof.Machine.execRemapVal34 row s
  | .hybridAnalysis is34 => Sys2Proof.Machine.execHybridAnalysis is34 s
  | .decorrelate src is34 => Sys2Proof.Machine.execDecorrelate src is34 s
  | .stereoProcess is34 => Sys2Proof.Machine.execStereoProcess is34 s
  | .hybridSynthesis src is34 dst => Sys2Proof.Machine.execHybridSynthesis src is34 dst s

end Sys2Proof.Machine
end

