-- ==== Sys2Proof/Machine/Inputs.lean ====
section
/-! DEFINITION. What the host does between two commands (`00_scope.md` R18, `20_memory.md` R70, R88; log 13). -/

namespace Sys2Proof.Machine

/-- Taking the oldest host event off the list. -/
def State.popInput (s : State) (rest : List HostEvent) : State := s.withHost { s.host with inputs := rest }

/-- The host writes a byte of the bitstream. -/
def hostWriteByte (a : Nat) (b : Byte) (s : State) : Out :=
  .next (s.withHost { s.host with bitstream := memWrite s.cfg.pad s.host.bitstream a b })

/-- The host places its cursor (`10_state.md` R26: a payload may start at any bit). -/
def hostSetCursor (n : Nat) (s : State) : Out := .next (s.withHost { s.host with hostpos := n })

/-- Every sample of a buffer is a value of the configured `Num` (`00_scope.md` R12). -/
def samplesHeld (f : NumFormat) (x : List (List (List PsNum))) : Bool := x.all fun p => p.all fun r => r.all f.holds

/-- The host supplies the content of `L` or `R` (`70_reset_and_hazards.md` R368; what is no buffer of `Num` is refused,
log 28). -/
def hostSupply (b : HostBuf) (x : List (List (List PsNum))) (s : State) : Out :=
  if hostShape x && samplesHeld s.cfg.fmt x then .next (s.withHost (s.host.setBuf b x)) else .refused .badBuffer

/-- The refusal of a command word the decoder rejects. -/
def commandRefusal : DecodeError → Refusal
  | .unassignedCode => .unassignedCode
  | .badArgument => .badArgument
  | .noCodeword => .noCodeword

end Sys2Proof.Machine
end

