-- ==== Sys2Proof/Machine/Step.lean ====
section
/-! DEFINITION. One step of the machine, and where it fetches its next instruction. -/

namespace Sys2Proof.Machine

/-- One step. While a parse is in progress the next payload element is fetched at the working cursor and run
(`10_state.md` R27; only inside READ_DATA, log 9). Otherwise the oldest host event happens: a command is decoded and
run, or the host acts on its own memory. With no event left the machine waits (`70_reset_and_hazards.md` R362). -/
def step (s : State) : Host.Outcome State Fault Refusal :=
  match s.parse with
  | some p =>
    match fetchElement s p with
    | .ok (i, _) => exec i s
    | .error _ => .refused .noCodeword
  | none =>
    match s.host.inputs with
    | [] => .next s
    | .issue w :: rest =>
      match decodeCommand w with
      | .ok i => exec i (s.popInput rest)
      | .error e => .refused (commandRefusal e)
    | .writeByte a b :: rest => hostWriteByte a b (s.popInput rest)
    | .setCursor n :: rest => hostSetCursor n (s.popInput rest)
    | .supply b x :: rest => hostSupply b x (s.popInput rest)

/-- The 4-bit command code of a word; a word that does not fit in four bits is no command and takes an unassigned code
(`30_encoding.md` R119). -/
def wordCode (w : Nat) : BitVec 4 := if w < 16 then BitVec.ofNat 4 w else 15

/-- The state with the command of code `w` issued next, all its arguments zero. The host's start-up
(`70_reset_and_hazards.md` R362) has been done: for a command other than INIT_TABLES the tables are ready (log 15). -/
def State.withFetchWord (s : State) (_nbits w : Nat) : State :=
  { s with
    host := { s.host with inputs := .issue ⟨wordCode w, []⟩ :: s.host.inputs }
    tablesReady := s.tablesReady || decide (w ≠ 0)
    parse := none }

end Sys2Proof.Machine
end

