-- ==== Sys2Proof/WellFormed.lean ====
section
/-! DEFINITION. Which instructions are well formed in a configuration, and which configurations are a PS core. -/

namespace Sys2Proof

/-- The delta has a codeword in the table. -/
def inTable (t : HuffTable) (delta : Int) : Bool := (codewordOf t delta).isSome

/-- The delta has a codeword in one of the tables of its family (`40_entropy_delta.md` R142). -/
def inFamilyTable (c : Config) (f : Family) (delta : Int) : Bool :=
  [false, true].any fun dt => [false, true].any fun q => inTable (tableFor c f dt q) delta

/-- A well-formed instruction: the delta of a `VLC` element has a codeword (R141); `topBand` is in 0..64
(`46_frame_driver.md` R290, decision D25). Every other operand is well formed by its type; the remap commands check
nothing (`42_band_remap.md` R211). -/
def Instr.wf (c : Config) : Instr → Bool
  | .iidData d => inFamilyTable c .iid d
  | .iccData d => inFamilyTable c .icc d
  | .ipdData d => inFamilyTable c .ipd d
  | .opdData d => inFamilyTable c .opd d
  | .apply t => decide (0 ≤ t) && decide (t ≤ 64)
  | .psHeader _ | .enableIid _ | .iidMode _ | .enableIcc _ | .iccMode _ | .enableExt _ | .frameClass _
  | .numEnvIdx _ | .borderPosition _ | .iidDt _ | .iccDt _ | .extSize _ | .extEsc _ | .extId _ | .extFill
  | .enableIpdopd _ | .ipdDt _ | .opdDt _ | .reservedPs _ | .initTables | .reset | .readData _
  | .remap20 _ _ _ _ | .remap34 _ _ _ _ | .remapVal20 _ | .remapVal34 _
  | .hybridAnalysis _ | .decorrelate _ _ | .stereoProcess _ | .hybridSynthesis _ _ _ => true

/-! ## Conforming configurations (`93_implementation_defined.md` U7) -/

/-- Codeword `a` is a prefix of codeword `b` (as bit strings, first bit most significant). -/
def isPrefixOf (a b : Nat × Nat) : Bool := decide (a.2 ≤ b.2) && (b.1 / 2 ^ (b.2 - a.2) == a.1)

/-- No codeword of the list is a prefix of another one (R303 (b)). -/
def prefixFree : List (Nat × Nat) → Bool
  | [] => true
  | a :: l => l.all (fun b => !isPrefixOf a b && !isPrefixOf b a) && prefixFree l

/-- The Kraft sum of the list, in units of `2^-27` (R303 (c), (d)). -/
def kraftSum (l : List (Nat × Nat)) : Nat := (l.map fun cw => 2 ^ (27 - cw.2)).sum

/-- The constraints (a) to (e) of `47_constant_tables.md` R303. -/
def HuffTable.wf (t : HuffTable) : Bool :=
  t.code.all (fun cw => decide (1 ≤ cw.2) && decide (cw.1 < 2 ^ cw.2) && decide (cw.2 ≤ 27))
    && prefixFree t.code && (kraftSum t.code == 2 ^ 27) && decide (t.offset < t.code.length)

/-- A two-dimensional table has `n` rows of `m` entries. -/
def shape2 {α : Type} (n m : Nat) (l : List (List α)) : Bool := (l.length == n) && l.all fun r => r.length == m

/-- The constraints of `47_constant_tables.md` R302, R303, R306, R308 to R312. -/
def Tables.wf (t : Tables) : Bool :=
  (t.nrIidIcc.length == 6) && t.nrIidIcc.all (fun n => [10, 20, 34].contains n) && (t.nrIidIcc.getD 0 0 == 10)
    && (t.nrIpdOpd.length == 6) && t.nrIpdOpd.all (fun n => [5, 11, 17].contains n)
    && (t.iidQuant.length == 6) && (t.iidQuant.getD 0 true == false)
    && (t.huff.length == 10) && t.huff.all HuffTable.wf
    && (t.kToI20.length == 71) && t.kToI20.all (fun k => decide (k < 20))
    && (t.kToI34.length == 91) && t.kToI34.all (fun k => decide (k < 34))
    && shape2 8 7 t.f20_0_8 && shape2 12 7 t.f34_0_12 && shape2 8 7 t.f34_1_8 && shape2 4 7 t.f34_2_4
    && (t.g1Q2.length == 7)
    && (t.ha.length == 46) && t.ha.all (shape2 8 4) && (t.hb.length == 46) && t.hb.all (shape2 8 4)
    && (t.pdRe.length == 512) && (t.pdIm.length == 512)
    && shape2 30 3 t.qFract20 && shape2 50 3 t.qFract34
    && (t.phiFract20.length == 30) && (t.phiFract34.length == 50)

/-- A number strictly between 0 and 1. -/
def PsNum.inUnit : PsNum → Bool
  | .fin q => decide (0 < q) && decide (q < 1)
  | .inf _ => false
  | .nan => false

/-- A binary format can represent 1, and its smallest exponent is no larger than its largest; of a custom format nothing
is known. -/
def NumFormat.wf : NumFormat → Bool
  | .exact => true
  | .binary prec emin emax => decide (1 ≤ prec) && decide (emin ≤ 0) && decide (0 ≤ emax)
  | .custom _ => true

/-- `THIRD` (`42_band_remap.md` R209): one third over the reals; in another format one third or the candidate's
0.33333333, rounded. -/
def Config.thirdOk (c : Config) : Bool :=
  c.third == c.fmt.rnd (1 / 3) || (c.fmt != .exact && c.third == c.fmt.rnd (33333333 / 100000000))

/-- The bounds of `00_scope.md` R9 and the constraints on the tables: the configurations that are a PS core. -/
def Config.wf (c : Config) : Bool :=
  c.fmt.wf && decide (5 ≤ c.maxNumEnv) && decide (14 ≤ c.maxDelay)
    && (c.apLinkDelay.length == 3) && c.apLinkDelay.all (fun d => decide (d ≤ c.maxApDelay))
    && (c.apCoeff.length == 3)
    && decide (30 ≤ c.shortDelayBand20) && decide (c.shortDelayBand20 ≤ 71)
    && decide (50 ≤ c.shortDelayBand34) && decide (c.shortDelayBand34 ≤ 91)
    && c.peakDecayFactor.inUnit && decide (34 ≤ c.maxNrIidIcc) && decide (17 ≤ c.maxNrIpdOpd)
    && c.thirdOk && c.tables.wf

end Sys2Proof
end

