-- ==== Sys2Proof/Safety.lean ====
section
/-! DEFINITION. The terms claims are stated in: when a command or an element may run, what READ_DATA may not touch,
and the invariant of the machine. -/

namespace Sys2Proof

/-- The payload elements (`30_encoding.md` R101); the other instructions are commands. -/
def Instr.isElement : Instr → Bool
  | .psHeader _ | .enableIid _ | .iidMode _ | .enableIcc _ | .iccMode _ | .enableExt _ | .frameClass _
  | .numEnvIdx _ | .borderPosition _ | .iidDt _ | .iidData _ | .iccDt _ | .iccData _ | .extSize _ | .extEsc _
  | .extId _ | .extFill | .enableIpdopd _ | .ipdDt _ | .ipdData _ | .opdDt _ | .opdData _ | .reservedPs _ => true
  | .initTables | .reset | .readData _ | .apply _ | .remap20 _ _ _ _ | .remap34 _ _ _ _ | .remapVal20 _
  | .remapVal34 _ | .hybridAnalysis _ | .decorrelate _ _ | .stereoProcess _ | .hybridSynthesis _ _ _ => false

/-- Whether a place of the grammar comes before the IID block (`30_encoding.md` R102). -/
def Phase.beforeIid : Phase → Bool
  | .psHeader | .enableIid | .iidMode | .enableIcc | .iccMode | .enableExt | .frameClass | .numEnvIdx
  | .border _ => true
  | .iidDt _ | .iidData _ _ _ | .iccDt _ | .iccData _ _ _ | .extSize | .extEsc | .extId | .extFill | .enableIpdopd
  | .ipdDt _ | .ipdData _ _ _ | .opdDt _ | .opdData _ _ _ | .reservedPs => false

/-- Whether a place of the grammar comes before the ICC block. -/
def Phase.beforeIcc : Phase → Bool
  | .psHeader | .enableIid | .iidMode | .enableIcc | .iccMode | .enableExt | .frameClass | .numEnvIdx
  | .border _ | .iidDt _ | .iidData _ _ _ => true
  | .iccDt _ | .iccData _ _ _ | .extSize | .extEsc | .extId | .extFill | .enableIpdopd
  | .ipdDt _ | .ipdData _ _ _ | .opdDt _ | .opdData _ _ _ | .reservedPs => false

end Sys2Proof

namespace Sys2Proof.Machine

/-- A command other than INIT_TABLES may run: the tables are ready and no other command is running
(`70_reset_and_hazards.md` R366, R367). -/
def State.ready (s : State) : Prop := s.tablesReady = true ∧ s.parse = none

/-- The element `i` is one that can stand next: the parse `p` is in progress, the grammar has `i` at its place, and a
`VLC` element has a codeword in the table selected there (`30_encoding.md` R102, R116). -/
def State.admits (s : State) (p : Parse) (i : Instr) : Prop :=
  s.parse = some p ∧ (encodeElement s.cfg (elemCtx s p) i).isSome = true

/-- The two memories of the host hold the same: every byte of the bitstream and every sample of `L` and `R`
(`20_memory.md` R70). -/
def sameMemory (s t : State) : Prop :=
  (∀ a, t.byte a = s.byte a)
    ∧ (∀ p r q, cellN3 t.host.bufL p r q = cellN3 s.host.bufL p r q)
    ∧ (∀ p r q, cellN3 t.host.bufR p r q = cellN3 s.host.bufR p r q)

/-- Two states agree on everything READ_DATA may not touch (`41_parameter_decoder.md` R160): all but PSParameters,
the host cursor, the status and the parse. -/
def sameOutside (s t : State) : Prop :=
  t.cfg = s.cfg ∧ t.dsp = s.dsp ∧ t.work = s.work ∧ t.tablesReady = s.tablesReady
    ∧ t.draws = s.draws ∧ t.host = { s.host with hostpos := t.host.hostpos }

/-- Every cell of an integer array is zero. -/
def allZero (rows : List (List Int)) : Bool := rows.all fun r => r.all fun v => v == 0

/-- Every cell of an integer array satisfies a predicate. -/
def allCells (f : Int → Bool) (rows : List (List Int)) : Bool := rows.all fun r => r.all f

/-- The four parameter arrays are all zero (`60_exceptions.md` R333). -/
def Params.arraysZero (q : Params) : Prop :=
  allZero q.iidPar = true ∧ allZero q.iccPar = true ∧ allZero q.ipdPar = true ∧ allZero q.opdPar = true

/-- The postconditions of a successful READ_DATA on PSParameters (`41_parameter_decoder.md` R183). -/
def Params.parsed (c : Config) (q : Params) : Prop :=
  (1 ≤ q.numEnv ∧ q.numEnv ≤ 5)
    ∧ cell 0 q.borderPosition 0 = -1
    ∧ (∀ e, e < q.numEnv → cell 0 q.borderPosition e ≤ cell 0 q.borderPosition (e + 1))
    ∧ cell 0 q.borderPosition q.numEnv = 31
    ∧ (∀ e b, e < q.numEnv → b < q.nrIidPar → iidOk q.iidQuant (cellI q.iidPar e b) = true)
    ∧ (∀ e b, e < q.numEnv → b < q.nrIccPar → iccOk (cellI q.iccPar e b) = true)
    ∧ (∀ e b, iccOk (cellI q.ipdPar e b) = true ∧ iccOk (cellI q.opdPar e b) = true)
    ∧ (q.enableIid = false → allZero q.iidPar = true)
    ∧ (q.enableIcc = false → allZero q.iccPar = true)
    ∧ (q.enableIpdopd = false → allZero q.ipdPar = true ∧ allZero q.opdPar = true)
    ∧ (c.baseline = true → q.enableIpdopd = false ∧ q.is34bands = false)

/-! ## The terms statements are written with -/

/-- The state after an element that lets the parse go on: new parameters and a new parse, nothing else. -/
def afterElement (s : State) (q : Params) (p : Parse) : State := { s with params := q, parse := some p }

/-- The state the error path leaves (`60_exceptions.md` R333): `q` are PSParameters when the error is raised. -/
def afterError (s : State) (q : Params) (c : Cause) (bitsAvailable : Nat) : State :=
  { s with
    params := { q with
      iidPar := zeroI q.iidPar
      iccPar := zeroI q.iccPar
      ipdPar := zeroI q.ipdPar
      opdPar := zeroI q.opdPar
      start := false }
    host := { s.host with hostpos := s.host.hostpos + bitsAvailable }
    status := .invalidData c
    parse := none }

/-- The `dt` element of a family. -/
def dtInstr : Family → Bool → Instr
  | .iid => .iidDt
  | .icc => .iccDt
  | .ipd => .ipdDt
  | .opd => .opdDt

/-- The place of the `dt` element of row `e`. -/
def dtPhase : Family → Nat → Phase
  | .iid => .iidDt
  | .icc => .iccDt
  | .ipd => .ipdDt
  | .opd => .opdDt

/-- The `VLC` element of a family. -/
def dataInstr : Family → Int → Instr
  | .iid => .iidData
  | .icc => .iccData
  | .ipd => .ipdData
  | .opd => .opdData

/-- The place of the value `[e][b]` of a row with flag `dt`. -/
def dataPhase : Family → Nat → Nat → Bool → Phase
  | .iid => .iidData
  | .icc => .iccData
  | .ipd => .ipdData
  | .opd => .opdData

/-- The end of the parse in a payload without an extension container (`41_parameter_decoder.md` R174): what an EXT_FILL
of no bits does with PSParameters `q` at the working cursor of `p` (Obligations.EndOfParse, Obligations.EnvelopeFixUp say
what that is). -/
def endOfParse (s : State) (q : Params) (p : Parse) : Out :=
  exec .extFill (afterElement s q { p with cnt := 0, phase := .extFill })

/-- What comes after the ICC block (R170, R174). -/
def afterIcc (s : State) (q : Params) (p : Parse) : Out :=
  if q.enableExt then .next (afterElement s q { p with phase := .extSize }) else endOfParse s q p

/-- What comes after the IID block (R168, R169). -/
def afterIid (s : State) (q : Params) (p : Parse) : Out :=
  if q.enableIcc = false then afterIcc s { q with iccPar := zeroI q.iccPar } p
  else if 0 < q.numEnv then .next (afterElement s q { p with phase := .iccDt 0 })
  else afterIcc s q p

/-- What comes after the borders (R166, R167). -/
def afterBorders (s : State) (q : Params) (p : Parse) : Out :=
  if q.enableIid = false then afterIid s { q with iidPar := zeroI q.iidPar } p
  else if 0 < q.numEnv then .next (afterElement s q { p with phase := .iidDt 0 })
  else afterIid s q p

/-- What comes after row `e` of a family (`30_encoding.md` R102): the next row, the row of OPD after that of IPD, or
what comes after the block. -/
def afterRow (f : Family) (e : Nat) (s : State) (q : Params) (p : Parse) : Out :=
  match f with
  | .iid => if e + 1 < q.numEnv then .next (afterElement s q { p with phase := .iidDt (e + 1) }) else afterIid s q p
  | .icc => if e + 1 < q.numEnv then .next (afterElement s q { p with phase := .iccDt (e + 1) }) else afterIcc s q p
  | .ipd => .next (afterElement s q { p with phase := .opdDt e })
  | .opd =>
    .next (afterElement s q { p with phase := if e + 1 < q.numEnv then .ipdDt (e + 1) else .reservedPs })

/-- Instructions one after the other. -/
def execAll : List Instr → State → Out
  | [], s => .next s
  | i :: l, s =>
    match exec i s with
    | .next t => execAll l t
    | .fault r => .fault r
    | .refused r => .refused r

/-- A sequence of assignments to the cells of one row, each computed from the row as it then stands. -/
def assignAll (h : List PsNum) (l : List (Nat × (List PsNum → PsNum))) : List PsNum :=
  l.foldl (fun h a => h.set a.1 (a.2 h)) h

/-- The cell `h[d]` of a row. -/
def rowCell (h : List PsNum) (d : Nat) : PsNum := cell .zero h d

/-! ## The invariant -/

/-- A three-dimensional array has `n` parts of `m` rows of `k` cells. -/
def shape3 {α : Type} (n m k : Nat) (l : List (List (List α))) : Bool := (l.length == n) && l.all (shape2 m k)

/-- The shapes of PSParameters (`10_state.md` R28 to R31). -/
def Params.shaped (c : Config) (q : Params) : Bool :=
  (q.borderPosition.length == c.maxNumEnv + 1)
    && shape2 c.maxNumEnv c.maxNrIidIcc q.iidPar && shape2 c.maxNumEnv c.maxNrIidIcc q.iccPar
    && shape2 c.maxNumEnv c.maxNrIpdOpd q.ipdPar && shape2 c.maxNumEnv c.maxNrIpdOpd q.opdPar

/-- The values PSParameters can hold at any time: the band counts of R23, the envelope counts of R24, borders in
-1..31 (R28), IID values of magnitude at most 15 (R29), ICC, IPD and OPD values in 0..7 (R30, R31). -/
def Params.ranged (q : Params) : Bool :=
  [0, 10, 20, 34].contains q.nrIidPar && [0, 10, 20, 34].contains q.nrIccPar
    && [0, 5, 11, 17].contains q.nrIpdopdPar && decide (q.numEnv ≤ 5) && decide (q.numEnvOld ≤ 5)
    && q.borderPosition.all (fun v => decide (-1 ≤ v) && decide (v ≤ 31))
    && allCells (iidOk true) q.iidPar && allCells iccOk q.iccPar && allCells iccOk q.ipdPar
    && allCells iccOk q.opdPar

/-- The shapes of the DSP state (`10_state.md` R36 to R41). -/
def Dsp.shaped (c : Config) (d : Dsp) : Bool :=
  shape3 2 (c.maxNumEnv + 1) c.maxNrIidIcc d.h11 && shape3 2 (c.maxNumEnv + 1) c.maxNrIidIcc d.h12
    && shape3 2 (c.maxNumEnv + 1) c.maxNrIidIcc d.h21 && shape3 2 (c.maxNumEnv + 1) c.maxNrIidIcc d.h22
    && (d.ipdHist.length == c.maxNrIpdOpd) && (d.opdHist.length == c.maxNrIpdOpd)
    && shape2 hybMax (c.maxDelay + 32) d.delay && shape3 50 apLinks (c.maxApDelay + 32) d.apDelay
    && (d.peakDecayNrg.length == 34) && (d.powerSmooth.length == 34) && (d.peakDecayDiffSmooth.length == 34)
    && shape2 inBufClasses inBufLen d.inBuf

/-- The shapes of the working buffers (`10_state.md` R43). -/
def Work.shaped (w : Work) : Bool := shape2 hybMax numSlots w.lbuf && shape2 hybMax numSlots w.rbuf

/-- The array of a family is settled: its family is on, or it is all zero (`41_parameter_decoder.md` R167, R169). -/
def Params.iidSettled (q : Params) : Prop := q.enableIid = false → allZero q.iidPar = true

/-- The same for ICC. -/
def Params.iccSettled (q : Params) : Prop := q.enableIcc = false → allZero q.iccPar = true

/-- The same for IPD and OPD (R179). -/
def Params.ipdOpdSettled (q : Params) : Prop :=
  q.enableIpdopd = false → allZero q.ipdPar = true ∧ allZero q.opdPar = true

/-- What holds at a place inside the extension container (R170, R171). -/
def Params.inExtension (q : Params) : Prop :=
  q.numEnv ≤ 4 ∧ q.iidSettled ∧ q.iccSettled ∧ q.enableExt = true

/-- What holds while a parse stands at a place of the grammar: the element is one whose condition in
`30_encoding.md` R102 holds, and what its block relies on is settled. -/
def Parse.placed (q : Params) (p : Parse) : Prop :=
  match p.phase with
  | .psHeader | .enableIid | .enableIcc | .enableExt | .frameClass | .numEnvIdx => True
  | .iidMode => q.enableIid = true
  | .iccMode => q.enableIcc = true
  | .border e => q.frameClass = true ∧ q.numEnv ≤ 4 ∧ 1 ≤ e ∧ e ≤ q.numEnv
  | .iidDt e => q.numEnv ≤ 4 ∧ q.enableIid = true ∧ e < q.numEnv
  | .iidData e b _ => q.numEnv ≤ 4 ∧ q.enableIid = true ∧ e < q.numEnv ∧ b < q.nrIidPar
  | .iccDt e => q.numEnv ≤ 4 ∧ q.iidSettled ∧ q.enableIcc = true ∧ e < q.numEnv
  | .iccData e b _ => q.numEnv ≤ 4 ∧ q.iidSettled ∧ q.enableIcc = true ∧ e < q.numEnv ∧ b < q.nrIccPar
  | .extSize => q.inExtension
  | .extEsc => q.inExtension ∧ p.cnt = 15
  | .extId => q.inExtension ∧ 7 < p.cnt
  | .extFill => q.inExtension ∧ 0 ≤ p.cnt ∧ p.cnt ≤ 7
  | .enableIpdopd => q.inExtension ∧ 7 < p.cnt ∧ p.extStart ≤ p.pos
  | .ipdDt e => q.inExtension ∧ 7 < p.cnt ∧ p.extStart ≤ p.pos ∧ q.enableIpdopd = true ∧ e < q.numEnv
  | .ipdData e b _ =>
    q.inExtension ∧ 7 < p.cnt ∧ p.extStart ≤ p.pos ∧ q.enableIpdopd = true ∧ e < q.numEnv ∧ b < q.nrIpdopdPar
  | .opdDt e => q.inExtension ∧ 7 < p.cnt ∧ p.extStart ≤ p.pos ∧ q.enableIpdopd = true ∧ e < q.numEnv
  | .opdData e b _ =>
    q.inExtension ∧ 7 < p.cnt ∧ p.extStart ≤ p.pos ∧ q.enableIpdopd = true ∧ e < q.numEnv ∧ b < q.nrIpdopdPar
  | .reservedPs => q.inExtension ∧ 7 < p.cnt ∧ p.extStart ≤ p.pos

/-- What holds of the parse in progress, and between two commands when there is none. -/
def State.parseInv (s : State) : Prop :=
  match s.parse with
  | none => s.params.iidSettled ∧ s.params.iccSettled ∧ s.params.ipdOpdSettled
  | some p => p.placed s.params ∧ s.host.hostpos ≤ p.pos ∧ p.cnt ≤ 2160

/-- The invariant of the machine: a conforming configuration, the bitstream in canonical form, every array in its
shape, every parameter in its range, the array of an absent family zero between two commands, no 34-band resolution
under `BASELINE` (`41_parameter_decoder.md` R178), and a parse in progress at a legal place. -/
def Inv (s : State) : Prop :=
  s.cfg.wf = true
    ∧ Memory.wf s.cfg.pad s.host.bitstream = true ∧ hostShape s.host.bufL = true ∧ hostShape s.host.bufR = true
    ∧ s.params.shaped s.cfg = true ∧ s.params.ranged = true
    ∧ s.dsp.shaped s.cfg = true ∧ s.work.shaped = true
    ∧ (s.cfg.baseline = true → s.params.is34bands = false ∧ s.params.is34bandsOld = false)
    ∧ s.parseInv

end Sys2Proof.Machine
end

