-- ==== Sys2Proof/Certificates/Slice0/Obligations.lean ====
section
/-! DEFINITION. The statements about the model. Each docstring names the rules of spec/ it formalises; OBLIGATIONS.json
lists them. -/

section

open Sys2Proof Sys2Proof.Machine

/-! ## The step -/

/-- While a parse is in progress the step runs the element that stands at the working cursor (`10_state.md` R27,
`30_encoding.md` R102; that one element is one step is the model's choice, log 9); otherwise a command the host has issued
is decoded and run (`30_encoding.md` R119; that commands come off a list of host events is the model's choice, log 13). -/
def Obligations.StepRunsInstruction : Prop :=
  (∀ (s : State) (p : Parse) (i : Instr) (n : Nat), s.parse = some p →
    decodeElement s.cfg ⟨p.phase, s.params.iidQuant, p.cnt⟩
      (fun j => memBit s.cfg.pad s.host.bitstream (p.pos + j)) = .ok (i, n) →
    step s = exec i s)
  ∧ ∀ (s : State) (w : CommandWord) (rest : List HostEvent) (i : Instr), s.parse = none →
    s.host.inputs = .issue w :: rest → decodeCommand w = .ok i →
    step s = exec i { s with host := { s.host with inputs := rest } }

/-- What the host does between two commands (`20_memory.md` R70, R71, R88; log 13): a written byte is read back and no
other byte changes, a byte nothing has written reads as `PAD` has it (R80), the cursor stands where it is put, a buffer
holds what is supplied if that is a buffer of `Num` (`00_scope.md` R12; log 28), and with no event left nothing
happens. -/
def Obligations.StepHostActs : Prop :=
  (∀ (s : State) (a : Nat) (b : Byte) (rest : List HostEvent), s.parse = none →
    s.host.inputs = .writeByte a b :: rest → Memory.wf s.cfg.pad s.host.bitstream = true →
    ∃ m, step s = .next { s with host := { s.host with bitstream := m, inputs := rest } }
      ∧ Memory.wf s.cfg.pad m = true
      ∧ ∀ x, memRead s.cfg.pad m x = if x = a then b else memRead s.cfg.pad s.host.bitstream x)
  ∧ (∀ (s : State) (a : Nat), (∀ x ∈ s.host.bitstream, x.1 ≠ a) → s.byte a = padByte s.cfg.pad a)
  ∧ (∀ (s : State) (n : Nat) (rest : List HostEvent), s.parse = none → s.host.inputs = .setCursor n :: rest →
    step s = .next { s with host := { s.host with hostpos := n, inputs := rest } })
  ∧ (∀ (s : State) (d : HostBuf) (x : List (List (List PsNum))) (rest : List HostEvent), s.parse = none →
    s.host.inputs = .supply d x :: rest →
    step s = if hostShape x = true ∧ ∀ part ∈ x, ∀ row ∈ part, ∀ v ∈ row, s.cfg.fmt.holds v = true then
        .next { s with host := { s.host.setBuf d x with inputs := rest } }
      else .refused .badBuffer)
  ∧ ∀ s : State, s.parse = none → s.host.inputs = [] → step s = .next s

/-- What the model refuses by name: codes 1100 to 1111 (`30_encoding.md` R119, U4), and `topBand` outside 0..64
(`46_frame_driver.md` R290, U3). -/
def Obligations.OperandRefusals : Prop :=
  (∀ (s : State) (w : CommandWord) (rest : List HostEvent), s.parse = none → s.host.inputs = .issue w :: rest →
    12 ≤ w.code.toNat → step s = .refused .unassignedCode)
  ∧ ∀ (s : State) (k : Int), s.ready → k < 0 ∨ 64 < k → exec (.apply k) s = .refused .topBandOutOfRange

/-- Every command is refused while a parse is in progress (U2 says that this is not defined; the refusal is the model's
choice, log 11), and every command but INIT_TABLES while `tables_ready = 0` (`10_state.md` R44,
`70_reset_and_hazards.md` R367, U1). -/
def Obligations.CommandGuards : Prop :=
  ∀ (i : Instr) (s : State), i.isElement = false →
    (s.parse.isSome = true → exec i s = .refused .commandInProgress)
    ∧ (s.parse = none → s.tablesReady = false → i ≠ .initTables → exec i s = .refused .tablesNotReady)

/-! ## Encoding -/

/-- The command codes (`30_encoding.md` R119); the order and coding of the arguments, and that arguments beyond those a
command takes are ignored, are the model's choice (log 14). -/
def Obligations.CommandCodes : Prop :=
  ∀ (l : List Int) (n e : Nat) (t : Int),
    decodeCommand ⟨0b0000, l⟩ = .ok .initTables ∧ decodeCommand ⟨0b0001, l⟩ = .ok .reset
    ∧ decodeCommand ⟨0b0010, [(n : Int)]⟩ = .ok (.readData n) ∧ decodeCommand ⟨0b0011, [t]⟩ = .ok (.apply t)
    ∧ decodeCommand ⟨0b0100, [0, n, e, 1]⟩ = .ok (.remap20 .iid n e true)
    ∧ decodeCommand ⟨0b0101, [3, n, e, 0]⟩ = .ok (.remap34 .opd n e false)
    ∧ decodeCommand ⟨0b0110, [1, 1, e]⟩ = .ok (.remapVal20 ⟨.h12, .im, e⟩)
    ∧ decodeCommand ⟨0b0111, [2, 0, e]⟩ = .ok (.remapVal34 ⟨.h21, .re, e⟩)
    ∧ decodeCommand ⟨0b1000, [1]⟩ = .ok (.hybridAnalysis true)
    ∧ decodeCommand ⟨0b1001, [0, 1]⟩ = .ok (.decorrelate .lbuf true)
    ∧ decodeCommand ⟨0b1010, [0]⟩ = .ok (.stereoProcess false)
    ∧ decodeCommand ⟨0b1011, [1, 0, 1]⟩ = .ok (.hybridSynthesis .rbuf false .right)

/-- Words of the spec decode to the elements they stand for: `IID_MODE` 5, `NUM_ENV_IDX` 2, `EXT_SIZE` 9 written most
significant bit first (`20_memory.md` R74), and the codewords the spec prints: `101` of `huff_iid_df0` is -1
(`40_entropy_delta.md` R141), `110` of `huff_icc_dt` is -1 (R144), `01111111100` of `huff_iid_df1` is +9
(`95_test_vectors.md` P3). The tables are the candidate ones (log 6). -/
def Obligations.ElementWords : Prop :=
  decodeElement Config.candidate ⟨.iidMode, false, 0⟩ (bitAt [true, false, true]) = .ok (.iidMode 5, 3)
  ∧ decodeElement Config.candidate ⟨.numEnvIdx, false, 0⟩ (bitAt [true, false]) = .ok (.numEnvIdx 2, 2)
  ∧ decodeElement Config.candidate ⟨.extSize, false, 0⟩ (bitAt [true, false, false, true]) = .ok (.extSize 9, 4)
  ∧ decodeElement Config.candidate ⟨.iidData 0 0 false, false, 0⟩ (bitAt [true, false, true]) = .ok (.iidData (-1), 3)
  ∧ decodeElement Config.candidate ⟨.iccData 1 0 true, false, 0⟩ (bitAt [true, true, false]) = .ok (.iccData (-1), 3)
  ∧ decodeElement Config.candidate ⟨.iidData 0 0 false, true, 0⟩
      (bitAt [false, true, true, true, true, true, true, true, true, false, false]) = .ok (.iidData 9, 11)

/-- Decode and encode agree (`30_encoding.md` R101, R102, R116, R119): in a conforming configuration every well-formed
instruction has words, and whatever words it has at whatever place decode to it: the command word, or the payload
bits whatever bits follow them, with their number. -/
def Obligations.EncodeDecode : Prop :=
  ∀ c : Config, c.wf = true → ∀ i : Instr, i.wf c = true →
    (∃ x w, encode c x i = some w)
    ∧ (∀ x w, encode c x i = some (.command w) → decodeCommand w = .ok i)
    ∧ ∀ x l, encode c x i = some (.payload l) →
      ∀ bit : Nat → Bool, (∀ j, j < l.length → bit j = bitAt l j) → decodeElement c x bit = .ok (i, l.length)

/-- A conforming Huffman table decodes every bit sequence: exactly one codeword is a prefix of it, and that is the one
the decoder answers (`30_encoding.md` R116, `40_entropy_delta.md` R141, `47_constant_tables.md` R303). -/
def Obligations.HuffmanDecodesEverything : Prop :=
  ∀ t : HuffTable, t.wf = true → ∀ (bit : Nat → Bool) (pos : Nat), ∃ k, k < t.code.length
    ∧ codewordAt bit pos (t.code.getD k (0, 0)) = true
    ∧ (∀ j, j < t.code.length → codewordAt bit pos (t.code.getD j (0, 0)) = true → j = k)
    ∧ huffDecode t bit pos = some ((k : Int) - t.offset, (t.code.getD k (0, 0)).2)

/-! ## The elements -/

/-- The one-bit elements before the borders (`41_parameter_decoder.md` R162, R163): each stores its bit, moves the
working cursor by one and changes nothing else; which element follows is the grammar's. -/
def Obligations.HeaderFlagElements : Prop :=
  ∀ (s : State) (p : Parse) (v : Bool), s.parse = some p →
    (p.phase = .psHeader → exec (.psHeader v) s = .next (afterElement s s.params
      { p with pos := p.pos + 1, header := v, phase := if v then .enableIid else .frameClass }))
    ∧ (p.phase = .enableIid → exec (.enableIid v) s = .next (afterElement s { s.params with enableIid := v }
      { p with pos := p.pos + 1, phase := if v then .iidMode else .enableIcc }))
    ∧ (p.phase = .enableIcc → exec (.enableIcc v) s = .next (afterElement s { s.params with enableIcc := v }
      { p with pos := p.pos + 1, phase := if v then .iccMode else .enableExt }))
    ∧ (p.phase = .enableExt → exec (.enableExt v) s = .next (afterElement s { s.params with enableExt := v }
      { p with pos := p.pos + 1, phase := .frameClass }))
    ∧ (p.phase = .frameClass → exec (.frameClass v) s = .next (afterElement s { s.params with frameClass := v }
      { p with pos := p.pos + 1, phase := .numEnvIdx }))

/-- The mode elements with a legal value (`30_encoding.md` R104, R105): the lookups, and mode 0 means ten IID bands and
coarse quantisation in a conforming configuration. -/
def Obligations.ModeLookups : Prop :=
  ∀ (s : State) (p : Parse) (m : BitVec 3), s.parse = some p → m.toNat ≤ 5 →
    (p.phase = .iidMode → exec (.iidMode m) s = .next (afterElement s
      { s.params with
        nrIidPar := s.cfg.tables.nrIidIcc.getD m.toNat 0
        iidQuant := s.cfg.tables.iidQuant.getD m.toNat false
        nrIpdopdPar := s.cfg.tables.nrIpdOpd.getD m.toNat 0 }
      { p with pos := p.pos + 3, phase := .enableIcc }))
    ∧ (p.phase = .iccMode → exec (.iccMode m) s = .next (afterElement s
      { s.params with iccMode := m, nrIccPar := s.cfg.tables.nrIidIcc.getD m.toNat 0 }
      { p with pos := p.pos + 3, phase := .enableExt }))
    ∧ (p.phase = .iidMode → m = 0 → s.cfg.wf = true →
      ∃ t, exec (.iidMode m) s = .next t ∧ t.params.nrIidPar = 10 ∧ t.params.iidQuant = false)

/-- The mode elements with a reserved value (`30_encoding.md` R114 (a), (b), `60_exceptions.md` R331, R333; that
`icc_mode` keeps the reserved value is decision D14 of the spec): the error path. -/
def Obligations.ReservedModes : Prop :=
  ∀ (s : State) (p : Parse) (m : BitVec 3), s.parse = some p → 5 < m.toNat →
    (p.phase = .iidMode → exec (.iidMode m) s = .next (afterError s s.params .iidModeReserved p.budget))
    ∧ (p.phase = .iccMode →
      exec (.iccMode m) s = .next (afterError s { s.params with iccMode := m } .iccModeReserved p.budget))

/-- Explicit borders (`41_parameter_decoder.md` R163, R164; that `num_env_old` is assigned first is the spec's decision
D9). After NUM_ENV_IDX the border 0 is -1 and border 1 follows; a border smaller than the one before it raises
BORDER_ORDER; otherwise, equal neighbours included, it is stored as read and the next border follows, or what comes after
the borders. Border 0 is -1 in both frame classes. -/
def Obligations.ExplicitBorders : Prop :=
  (∀ (s : State) (p : Parse) (n : BitVec 2), s.parse = some p → p.phase = .numEnvIdx →
    1 ≤ s.params.borderPosition.length →
    ∃ t, exec (.numEnvIdx n) s = .next t ∧ cell 0 t.params.borderPosition 0 = -1)
  ∧ (∀ (s : State) (p : Parse) (n : BitVec 2), s.parse = some p → p.phase = .numEnvIdx → s.params.frameClass = true →
    exec (.numEnvIdx n) s = .next (afterElement s
      { s.params with
        numEnvOld := s.params.numEnv
        numEnv := n.toNat + 1
        borderPosition := s.params.borderPosition.set 0 (-1) }
      { p with pos := p.pos + 2, phase := .border 1 }))
  ∧ ∀ (s : State) (p : Parse) (e : Nat) (b : BitVec 5), s.parse = some p → p.phase = .border e →
    let q := { s.params with borderPosition := s.params.borderPosition.set e (b.toNat : Int) }
    let before := cell 0 s.params.borderPosition (e - 1)
    ((b.toNat : Int) < before → exec (.borderPosition b) s = .next (afterError s q .borderOrder p.budget))
    ∧ (before ≤ (b.toNat : Int) → e < s.params.numEnv →
      exec (.borderPosition b) s
        = .next (afterElement s q { p with pos := p.pos + 5, phase := .border (e + 1) }))
    ∧ (before ≤ (b.toNat : Int) → s.params.numEnv ≤ e →
      exec (.borderPosition b) s = afterBorders s q { p with pos := p.pos + 5 }
      ∧ ∃ t, exec (.borderPosition b) s = .next t
        ∧ ∀ j, j ≤ s.params.numEnv → cell 0 t.params.borderPosition j = cell 0 q.borderPosition j)

/-- Fixed borders (`41_parameter_decoder.md` R163, R165; that `num_env_old` is assigned first is the spec's decision D9):
NUM_ENV_IDX with `frame_class = 0` keeps the old `num_env`, computes border 0 and the borders up to the envelope count
with no bit read but its own two, and goes on with what comes after the borders. -/
def Obligations.FixedBorders : Prop :=
  ∀ (s : State) (p : Parse) (n : BitVec 2), s.parse = some p → p.phase = .numEnvIdx → s.params.frameClass = false →
    5 ≤ s.params.borderPosition.length →
    let count := [0, 1, 2, 4].getD n.toNat 0
    (∃ borders, exec (.numEnvIdx n) s = afterBorders s
        { s.params with numEnvOld := s.params.numEnv, numEnv := count, borderPosition := borders }
        { p with pos := p.pos + 2 }
      ∧ borders.length = s.params.borderPosition.length
      ∧ cell 0 borders 0 = -1
      ∧ (∀ e, 1 ≤ e → e ≤ count → cell 0 borders e = (((e * 32) >>> Nat.log2 count : Nat) : Int) - 1)
      ∧ ∀ e, count < e → cell 0 borders e = cell 0 s.params.borderPosition e)
    ∧ ∃ t, exec (.numEnvIdx n) s = .next t ∧ t.params.numEnvOld = s.params.numEnv
      ∧ (∀ p', t.parse = some p' → p'.pos = p.pos + 2)
      ∧ cell 0 t.params.borderPosition 0 = -1
      ∧ (∀ e, 1 ≤ e → e ≤ count →
        cell 0 t.params.borderPosition e = (((e * 32) >>> Nat.log2 count : Nat) : Int) - 1)
      ∧ (n = 1 → cell 0 t.params.borderPosition 1 = 31)
      ∧ (n = 2 → cell 0 t.params.borderPosition 1 = 15 ∧ cell 0 t.params.borderPosition 2 = 31)
      ∧ (n = 3 → cell 0 t.params.borderPosition 1 = 7 ∧ cell 0 t.params.borderPosition 2 = 15
        ∧ cell 0 t.params.borderPosition 3 = 23 ∧ cell 0 t.params.borderPosition 4 = 31)

/-- The `dt` flags of the four families (`41_parameter_decoder.md` R166, R168, R171): the row's first value follows
with the running value at 0 (`40_entropy_delta.md` R145), or, with no band, what follows the row. -/
def Obligations.RowFlags : Prop :=
  ∀ (f : Family) (s : State) (p : Parse) (e : Nat) (dt : Bool), s.parse = some p → p.phase = dtPhase f e →
    (0 < s.params.nrPar f → exec (dtInstr f dt) s
      = .next (afterElement s s.params { p with pos := p.pos + 1, acc := 0, phase := dataPhase f e 0 dt }))
    ∧ (s.params.nrPar f = 0 →
      exec (dtInstr f dt) s = afterRow f e s s.params { p with pos := p.pos + 1, acc := 0 })
    ∧ ∃ t, exec (dtInstr f dt) s = .next t

/-- One value of a row (`40_entropy_delta.md` R143 to R148): predicted from the row `e_prev` or from the running value,
masked to three bits for IPD and OPD, stored at `[e][b]`, and checked; a value out of range raises the family's
cause. The next value of the row follows, or after its last one what follows the row. -/
def Obligations.RowValues : Prop :=
  ∀ (f : Family) (s : State) (p : Parse) (e b : Nat) (dt : Bool) (d : Int) (cw : Nat × Nat), s.parse = some p →
    p.phase = dataPhase f e b dt → codewordOf (tableFor s.cfg f dt s.params.iidQuant) d = some cw →
    let before := if dt then cellI (s.params.par f) (if 0 < e then e - 1 else s.params.numEnvOld - 1) b else p.acc
    let v := if f = .iid ∨ f = .icc then before + d else (before + d) % 8
    let q := s.params.setPar f (storeI (s.params.par f) e b v)
    let inRange := (f = .iid → |v| ≤ 7 + 8 * (if s.params.iidQuant then 1 else 0)) ∧ (f = .icc → 0 ≤ v ∧ v ≤ 7)
    (inRange → b + 1 < s.params.nrPar f → exec (dataInstr f d) s
      = .next (afterElement s q { p with pos := p.pos + cw.2, acc := v, phase := dataPhase f e (b + 1) dt }))
    ∧ (inRange → s.params.nrPar f ≤ b + 1 →
      exec (dataInstr f d) s = afterRow f e s q { p with pos := p.pos + cw.2, acc := v })
    ∧ (¬inRange → exec (dataInstr f d) s
      = .next (afterError s q (if f = .iid then .iidRange else .iccRange) p.budget))
    ∧ ∃ t, exec (dataInstr f d) s = .next t

/-- A frequency-delta row (`40_entropy_delta.md` R145): after its flag and its deltas, band `b` holds the sum of the
deltas up to `b` (modulo 8 for IPD and OPD, R146), no other cell has changed, the working cursor has moved by the
lengths of the elements, and what follows the row is next. -/
def Obligations.FrequencyDeltaRow : Prop :=
  ∀ (f : Family) (s : State) (p : Parse) (e : Nat) (ds : List Int), s.parse = some p → p.phase = dtPhase f e →
    ds.length = s.params.nrPar f →
    e < (s.params.par f).length → ds.length ≤ (cell [] (s.params.par f) e).length →
    (∀ d ∈ ds, (codewordOf (tableFor s.cfg f false s.params.iidQuant) d).isSome = true) →
    (∀ b, b < ds.length → rangeOk s.params.iidQuant f ((ds.take (b + 1)).sum) = true) →
    let value := fun v : Int => if f = .iid ∨ f = .icc then v else v % 8
    let len := fun d => ((codewordOf (tableFor s.cfg f false s.params.iidQuant) d).getD (0, 0)).2
    ∃ rows, execAll (dtInstr f false :: ds.map (dataInstr f)) s
        = afterRow f e s (s.params.setPar f rows)
          { p with pos := p.pos + 1 + (ds.map len).sum, acc := value ds.sum }
      ∧ (∀ b, b < ds.length → cellI rows e b = value (ds.take (b + 1)).sum)
      ∧ ∀ e' b, e' ≠ e ∨ ds.length ≤ b → cellI rows e' b = cellI (s.params.par f) e' b

/-- The size of the extension container (`30_encoding.md` R110, `41_parameter_decoder.md` R170): 15 announces EXT_ESC,
the budget is eight times the size, and an empty container has no id. -/
def Obligations.ExtensionSize : Prop :=
  ∀ (s : State) (p : Parse), s.parse = some p →
    (∀ n : BitVec 4, p.phase = .extSize → exec (.extSize n) s = .next (afterElement s s.params
      (if n.toNat = 15 then { p with pos := p.pos + 4, cnt := 15, phase := .extEsc }
      else { p with pos := p.pos + 4, cnt := 8 * n.toNat, phase := if n.toNat = 0 then .extFill else .extId })))
    ∧ ∀ n : BitVec 8, p.phase = .extEsc → p.cnt = 15 → exec (.extEsc n) s = .next (afterElement s s.params
      { p with pos := p.pos + 8, cnt := 8 * (15 + n.toNat), phase := .extId })

/-- The loop of the extension container (`41_parameter_decoder.md` R170 to R172): id 0 opens an IPD/OPD extension; any
other id costs two bits; RESERVED_PS ends the extension, which is charged with its id; then comes the next id, the
fill, or EXT_UNDERFLOW. -/
def Obligations.ExtensionLoop : Prop :=
  ∀ (s : State) (p : Parse), s.parse = some p →
    let goesOn := fun (i : Instr) (pos : Nat) (cnt : Int) =>
      (7 < cnt → exec i s = .next (afterElement s s.params { p with pos := pos, cnt := cnt, phase := .extId }))
      ∧ (0 ≤ cnt → cnt ≤ 7 →
        exec i s = .next (afterElement s s.params { p with pos := pos, cnt := cnt, phase := .extFill }))
      ∧ (cnt < 0 → exec i s = .next (afterError s s.params .extUnderflow p.budget))
    (p.phase = .extId → exec (.extId 0) s
      = .next (afterElement s s.params { p with pos := p.pos + 2, extStart := p.pos + 2, phase := .enableIpdopd }))
    ∧ (∀ id : BitVec 2, p.phase = .extId → id ≠ 0 → goesOn (.extId id) (p.pos + 2) (p.cnt - 2))
    ∧ (∀ v : Bool, p.phase = .enableIpdopd → exec (.enableIpdopd v) s
      = .next (afterElement s { s.params with enableIpdopd := v }
        { p with
          pos := p.pos + 1
          phase := if v = true ∧ 0 < s.params.numEnv then .ipdDt 0 else .reservedPs }))
    ∧ ∀ v : Bool, p.phase = .reservedPs →
      goesOn (.reservedPs v) (p.pos + 1) (p.cnt - 2 - ((p.pos : Int) + 1 - p.extStart))

/-- EXT_FILL in a frame whose last border is slot 31 (`41_parameter_decoder.md` R173, R177 to R181; where the spec
assigns `is34bands_old` and gates the zeroing is its decisions D10 and D12): the resolution, the baseline rule,
`start`, and the comparison of the bits consumed with the budget. A payload without extension ends in the same way,
wherever it ends (R174; `endOfParse`). -/
def Obligations.EndOfParse : Prop :=
  ∀ (s : State) (p : Parse), s.parse = some p → p.phase = .extFill → s.params.numEnv ≠ 0 →
    31 ≤ cell 0 s.params.borderPosition s.params.numEnv → s.host.hostpos ≤ p.pos →
    let on := s.params.enableIpdopd && !s.cfg.baseline
    let q := { s.params with
      is34bandsOld := s.params.is34bands
      is34bands :=
        if s.cfg.baseline = false ∧ (s.params.enableIid = true ∨ s.params.enableIcc = true) then
          decide ((s.params.enableIid = true ∧ s.params.nrIidPar = 34)
            ∨ (s.params.enableIcc = true ∧ s.params.nrIccPar = 34))
        else s.params.is34bands
      enableIpdopd := on
      ipdPar := if on then s.params.ipdPar else zeroI s.params.ipdPar
      opdPar := if on then s.params.opdPar else zeroI s.params.opdPar
      start := if p.header then true else s.params.start }
    let consumed := p.pos + p.cnt.toNat - s.host.hostpos
    exec .extFill s =
      if consumed ≤ p.budget then
        .next { s with
          params := q
          host := { s.host with hostpos := s.host.hostpos + consumed }
          status := .okBits consumed
          parse := none }
      else .next (afterError s q .bitOverrun p.budget)

/-- The envelope fix-up (`41_parameter_decoder.md` R175, R176; the choice of the source row is the spec's decision
D13), seen at EXT_FILL: the source row of each enabled family is copied; a value of IID out of range raises
FIXUP_IID_RANGE, a value of ICC FIXUP_ICC_RANGE; otherwise there is one envelope more, which ends at slot 31, and the
parse ends as it does in a frame whose last border is slot 31 (EndOfParse). -/
def Obligations.EnvelopeFixUp : Prop :=
  ∀ (s : State) (p : Parse), s.parse = some p → p.phase = .extFill →
    s.params.numEnv = 0 ∨ cell 0 s.params.borderPosition s.params.numEnv < 31 →
    s.params.numEnv + 1 < s.params.borderPosition.length →
    let n := s.params.numEnv
    let source := if 0 < n then n - 1 else if 0 < s.params.numEnvOld then s.params.numEnvOld - 1 else n
    let copied := fun rows : List (List Int) => rows.set n (cell [] rows source)
    let q := { s.params with
      iidPar := if s.params.enableIid then copied s.params.iidPar else s.params.iidPar
      iccPar := if s.params.enableIcc then copied s.params.iccPar else s.params.iccPar
      ipdPar := if s.params.enableIpdopd then copied s.params.ipdPar else s.params.ipdPar
      opdPar := if s.params.enableIpdopd then copied s.params.opdPar else s.params.opdPar }
    let closed := { q with numEnv := n + 1, borderPosition := s.params.borderPosition.set (n + 1) 31 }
    let badIid := s.params.enableIid = true
      ∧ ∃ b, b < s.params.nrIidPar ∧ iidOk s.params.iidQuant (cellI q.iidPar n b) = false
    let badIcc := s.params.enableIcc = true ∧ ∃ b, b < s.params.nrIccPar ∧ iccOk (cellI q.iccPar n b) = false
    (badIid → exec .extFill s = .next (afterError s q .fixupIidRange p.budget))
    ∧ (¬badIid → badIcc → exec .extFill s = .next (afterError s q .fixupIccRange p.budget))
    ∧ (¬badIid → ¬badIcc → cell 0 closed.borderPosition closed.numEnv = 31
      ∧ exec .extFill s = exec .extFill (afterElement s closed p)
      ∧ (s.host.hostpos ≤ p.pos → p.pos + p.cnt.toNat - s.host.hostpos ≤ p.budget →
        ∃ t, exec .extFill s = .next t ∧ t.status = .okBits (p.pos + p.cnt.toNat - s.host.hostpos)
          ∧ t.params.numEnv = n + 1))

/-- An absent family is zeroed (`41_parameter_decoder.md` R167, R169): once the parse has passed the IID block with
`enable_iid = 0` the whole `iid_par` is zero, and the same of ICC. -/
def Obligations.AbsentFamilies : Prop :=
  ∀ (i : Instr) (s t : State) (p : Parse), i.isElement = true → s.parse = some p → exec i s = .next t →
    (p.phase.beforeIid = true → (∀ p', t.parse = some p' → p'.phase.beforeIid = false) →
      t.params.enableIid = false → allZero t.params.iidPar = true)
    ∧ (p.phase.beforeIcc = true → (∀ p', t.parse = some p' → p'.phase.beforeIcc = false) →
      t.params.enableIcc = false → allZero t.params.iccPar = true)

/-- Every element runs where the grammar has it next (`30_encoding.md` R102), and it changes nothing but PSParameters
and the parse; when it ends the parse, also the host cursor and the status (`41_parameter_decoder.md` R160, R181,
R182). -/
def Obligations.ElementsComplete : Prop :=
  ∀ (i : Instr) (s : State) (p : Parse), s.admits p i →
    ∃ t, exec i s = .next t ∧ sameOutside s t ∧ sameMemory s t
      ∧ ((∃ p', t.parse = some p' ∧ p'.budget = p.budget ∧ p.pos ≤ p'.pos ∧ t.host = s.host ∧ t.status = s.status)
        ∨ (t.parse = none ∧ ((∃ n, n ≤ p.budget ∧ t.status = .okBits n ∧ t.host.hostpos = s.host.hostpos + n)
          ∨ (∃ c, t.status = .invalidData c ∧ t.host.hostpos = s.host.hostpos + p.budget ∧ t.params.arraysZero
            ∧ t.params.start = false))))

/-- An element that is not the one the grammar has next is refused by name (log 10): outside READ_DATA always. -/
def Obligations.ElementsOutOfPlace : Prop :=
  ∀ (i : Instr) (s : State), i.isElement = true →
    (s.parse = none → exec i s = .refused .elementOutOfPlace)
    ∧ ∀ p, s.parse = some p → encodeElement s.cfg (elemCtx s p) i = none →
      exec i s = .refused .elementOutOfPlace ∨ exec i s = .refused .noCodeword

/-! ## READ_DATA -/

/-- READ_DATA always runs to its end, from every state that meets the invariant (`41_parameter_decoder.md` R160, R182,
`20_memory.md` R79): committed within the budget, or on the error path, never with FIXUP_ICC_RANGE
(`60_exceptions.md` R335). It changes PSParameters, the host cursor and the status only. The shortest payload (no
header, fixed borders, no family enabled: four bits) succeeds exactly when the budget holds it. -/
def Obligations.ReadDataCompletes : Prop :=
  ∀ (s : State) (n : Nat), Inv s → s.ready →
    ∃ t, exec (.readData n) s = .next t ∧ t.parse = none ∧ sameOutside s t ∧ sameMemory s t
      ∧ (s.params.enableIid = false → s.params.enableIcc = false → s.params.enableExt = false →
        s.bit s.host.hostpos = false → s.bit (s.host.hostpos + 1) = false →
        t.status = if 4 ≤ n then .okBits 4 else .invalidData .bitOverrun)
      ∧ ((∃ k, k ≤ n ∧ t.status = .okBits k ∧ t.host.hostpos = s.host.hostpos + k)
        ∨ (∃ c, c ≠ .fixupIccRange ∧ t.status = .invalidData c ∧ t.host.hostpos = s.host.hostpos + n
          ∧ t.params.arraysZero ∧ t.params.start = false))

/-- The postconditions of READ_DATA (`41_parameter_decoder.md` R183). -/
def Obligations.ReadDataPostconditions : Prop :=
  ∀ (s t : State) (n : Nat), Inv s → exec (.readData n) s = .next t →
    (∀ k, t.status = .okBits k → k ≤ n ∧ t.host.hostpos = s.host.hostpos + k ∧ t.params.parsed s.cfg
      ∧ (s.bit s.host.hostpos = true → t.params.start = true))
    ∧ ∀ c, t.status = .invalidData c →
      t.host.hostpos = s.host.hostpos + n ∧ t.params.arraysZero ∧ t.params.start = false

/-- READ_DATA in one step is the run of its elements, one step each (log 9; `41_parameter_decoder.md` R161, R184,
`00_scope.md` R7). -/
def Obligations.ReadDataStepwise : Prop :=
  ∀ (s t : State) (n : Nat), exec (.readData n) s = .next t →
    ∃ k, Host.Core.run Sys2Proof.core k (beginParse n s) = .next t

/-- Only READ_DATA fails (`60_exceptions.md` R330, `46_frame_driver.md` R293): any other command that runs answers
`Ok`, leaves no parse in progress, and does not move the host cursor (`20_memory.md` R79). -/
def Obligations.CommandsNeverFail : Prop :=
  ∀ (i : Instr) (s t : State), i.isElement = false → (∀ n, i ≠ .readData n) → exec i s = .next t →
    t.status = .ok ∧ t.parse = none ∧ t.host.hostpos = s.host.hostpos

/-- The configuration never changes and `tables_ready` is never cleared (`10_state.md` R44, R47, `20_memory.md` R85,
R90). -/
def Obligations.ConfigurationFixed : Prop :=
  ∀ s t : State, step s = .next t → t.cfg = s.cfg ∧ (s.tablesReady = true → t.tablesReady = true)

/-! ## The band remapper -/

/-- REMAP20 and REMAP34 (`42_band_remap.md` R201, R202; they cannot fail, R211): the rows of the family go through the map
that the source band count selects, into the working rows of the family (that they are kept there is the model's choice,
log 19), and nothing else changes but the model's own counter of draws (log 29). A cell the array has not is free
(log 23). -/
def Obligations.RemapCommands : Prop :=
  ∀ (s : State) (f : Family) (n e : Nat) (full : Bool), s.ready →
    let src := s.params.par f
    let row := sourceRow s.draws src
    let wide := fun (map : List Int → Bool → List Int) (x : List (List Int)) => x.length = e
      ∧ (∀ j, j < e → cell [] x j = map (row j) full)
      ∧ ∀ j, j < e → (if full then 34 else 17) ≤ (cell [] src j).length → cell [] x j = map (cell [] src j) full
    (∀ j b, b < (cell [] src j).length → cell 0 (row j) b = cellI src j b)
    ∧ (∃ x, exec (.remap20 f n e full) s = .next { s with
          work := { s.work with mapped := s.work.mapped.setRows f x }, status := .ok, draws := s.draws + 1 }
      ∧ (n = 34 ∨ n = 17 → wide map34to20 x) ∧ (n = 10 ∨ n = 5 → wide map10to20 x)
      ∧ (n ≠ 34 → n ≠ 17 → n ≠ 10 → n ≠ 5 → x = src))
    ∧ ∃ x, exec (.remap34 f n e full) s = .next { s with
          work := { s.work with mapped := s.work.mapped.setRows f x }, status := .ok, draws := s.draws + 1 }
      ∧ (n = 20 ∨ n = 11 → wide map20to34 x) ∧ (n = 10 ∨ n = 5 → wide map10to34 x)
      ∧ (n ≠ 20 → n ≠ 11 → n ≠ 10 → n ≠ 5 → x = src)

/-- The cells of the four maps (`42_band_remap.md` R204 to R207; that a quotient is truncated toward zero, R212, is the
spec's decision D19), and their composition (its introduction: the 10-to-34 map equals the 10-to-20 map followed by the
20-to-34 map). -/
def Obligations.RemapComposition : Prop :=
  let quotient := fun n d q : Int => (0 ≤ n → d * q ≤ n ∧ n < d * q + d) ∧ (n ≤ 0 → n ≤ d * q ∧ d * q - d < n)
  (∀ (p : List Int) (full : Bool) (b : Nat), b ≤ (if full then 9 else 4) →
    cell 0 (map10to20 p full) (2 * b) = cell 0 p b ∧ cell 0 (map10to20 p full) (2 * b + 1) = cell 0 p b)
  ∧ (∀ p : List Int, cell 0 (map10to20 p false) 10 = 0 ∧ cell 0 (map10to34 p false) 16 = 0)
  ∧ (∀ (p : List Int) (full : Bool),
    let a := cell 0 p
    let m := cell 0 (map34to20 p full)
    quotient (2 * a 0 + a 1) 3 (m 0) ∧ quotient (a 1 + 2 * a 2) 3 (m 1) ∧ quotient (2 * a 3 + a 4) 3 (m 2)
      ∧ quotient (a 4 + 2 * a 5) 3 (m 3) ∧ quotient (a 6 + a 7) 2 (m 4) ∧ quotient (a 8 + a 9) 2 (m 5)
      ∧ m 6 = a 10 ∧ m 7 = a 11 ∧ quotient (a 12 + a 13) 2 (m 8) ∧ quotient (a 14 + a 15) 2 (m 9) ∧ m 10 = a 16
      ∧ (full = true → m 11 = a 17 ∧ m 12 = a 18 ∧ m 13 = a 19 ∧ quotient (a 20 + a 21) 2 (m 14)
        ∧ quotient (a 22 + a 23) 2 (m 15) ∧ quotient (a 24 + a 25) 2 (m 16) ∧ quotient (a 26 + a 27) 2 (m 17)
        ∧ quotient (a 28 + a 29 + a 30 + a 31) 4 (m 18) ∧ quotient (a 32 + a 33) 2 (m 19)))
  ∧ (∀ (p : List Int) (full : Bool),
    let a := cell 0 p
    let m := cell 0 (map20to34 p full)
    (∀ x ∈ [(0, 0), (2, 1), (3, 2), (5, 3), (6, 4), (7, 4), (8, 5), (9, 5), (10, 6), (11, 7), (12, 8), (13, 8), (14, 9),
        (15, 9), (16, 10)], m x.1 = a x.2)
      ∧ quotient (a 0 + a 1) 2 (m 1) ∧ quotient (a 2 + a 3) 2 (m 4)
      ∧ (full = true → ∀ x ∈ [(17, 11), (18, 12), (19, 13), (20, 14), (21, 14), (22, 15), (23, 15), (24, 16), (25, 16),
        (26, 17), (27, 17), (28, 18), (29, 18), (30, 18), (31, 18), (32, 19), (33, 19)], m x.1 = a x.2))
  ∧ (∀ (p : List Int) (full : Bool),
    let a := cell 0 p
    let m := cell 0 (map10to34 p full)
    (∀ x ∈ [(0, 0), (1, 0), (2, 0), (3, 1), (4, 1), (5, 1), (6, 2), (7, 2), (8, 2), (9, 2), (10, 3), (11, 3), (12, 4),
        (13, 4), (14, 4), (15, 4)], m x.1 = a x.2)
      ∧ (full = true → ∀ x ∈ [(16, 5), (17, 5), (18, 6), (19, 6), (20, 7), (21, 7), (22, 7), (23, 7), (24, 8), (25, 8),
        (26, 8), (27, 8), (28, 9), (29, 9), (30, 9), (31, 9), (32, 9), (33, 9)], m x.1 = a x.2))
  ∧ ∀ (p : List Int) (full : Bool), map20to34 (map10to20 p full) full = map10to34 p full

/-- Every map stays within the range of its inputs, for a range that holds 0 (`42_band_remap.md` R212), and has the
target's number of bands (R200, R208). -/
def Obligations.RemapRange : Prop :=
  ∀ (p : List Int) (full : Bool) (lo hi : Int), lo ≤ 0 → 0 ≤ hi → (∀ v ∈ p, lo ≤ v ∧ v ≤ hi) →
    (∀ v ∈ map10to20 p full ++ map34to20 p full ++ map10to34 p full ++ map20to34 p full, lo ≤ v ∧ v ≤ hi)
    ∧ (map10to20 p full).length = (if full then 20 else 11) ∧ (map34to20 p full).length = (if full then 20 else 11)
    ∧ (map10to34 p full).length = (if full then 34 else 17) ∧ (map20to34 p full).length = (if full then 34 else 17)

/-- REMAPVAL20 is the sequence of assignments of `42_band_remap.md` R209, made in place in their order, on the row the
command names; every other row, and everything else, is unchanged. A row that does not exist has no cell to change
(log 23). -/
def Obligations.RemapVal20Assigns : Prop :=
  ∀ (s : State) (r : RowRef), s.ready →
    let third := fun a b => fun h => rnd s.cfg (((two.mul (rowCell h a)).add (rowCell h b)).mul s.cfg.third)
    let third' := fun a b => fun h => rnd s.cfg (((rowCell h a).add (two.mul (rowCell h b))).mul s.cfg.third)
    let mean := fun a b => fun h => rnd s.cfg (((rowCell h a).add (rowCell h b)).mul half)
    let copy := fun a => fun h => rowCell h a
    let sum4 := fun h => rnd s.cfg
      (((((rowCell h 28).add (rowCell h 29)).add (rowCell h 30)).add (rowCell h 31)).mul quarter)
    ((cell [] (s.dsp.mat r.mat) (partIx r.part)).length ≤ r.env →
      exec (.remapVal20 r) s = .next { s with status := .ok })
    ∧ (34 ≤ (s.dsp.row r).length → ∃ d : Dsp, exec (.remapVal20 r) s = .next { s with dsp := d, status := .ok }
      ∧ d = s.dsp.setMat r.mat (d.mat r.mat)
      ∧ (∀ part e, (part ≠ partIx r.part ∨ e ≠ r.env) →
        cell [] (cell [] (d.mat r.mat) part) e = cell [] (cell [] (s.dsp.mat r.mat) part) e)
      ∧ d.row r = assignAll (s.dsp.row r)
        [(0, third 0 1), (1, third' 1 2), (2, third 3 4), (3, third' 4 5), (4, mean 6 7), (5, mean 8 9),
          (6, copy 10), (7, copy 11), (8, mean 12 13), (9, mean 14 15), (10, copy 16), (11, copy 17), (12, copy 18),
          (13, copy 19), (14, mean 20 21), (15, mean 22 23), (16, mean 24 25), (17, mean 26 27), (18, sum4),
          (19, mean 32 33)])

/-- REMAPVAL34 is the sequence of assignments of `42_band_remap.md` R210, made in place in their order, on the row the
command names; every other row, and everything else, is unchanged. A row that does not exist has no cell to change
(log 23). -/
def Obligations.RemapVal34Assigns : Prop :=
  ∀ (s : State) (r : RowRef), s.ready →
    let mean := fun a b => fun h => rnd s.cfg (((rowCell h a).add (rowCell h b)).mul half)
    let copy := fun a => fun h => rowCell h a
    ((cell [] (s.dsp.mat r.mat) (partIx r.part)).length ≤ r.env →
      exec (.remapVal34 r) s = .next { s with status := .ok })
    ∧ (34 ≤ (s.dsp.row r).length → ∃ d : Dsp, exec (.remapVal34 r) s = .next { s with dsp := d, status := .ok }
      ∧ d = s.dsp.setMat r.mat (d.mat r.mat)
      ∧ (∀ part e, (part ≠ partIx r.part ∨ e ≠ r.env) →
        cell [] (cell [] (d.mat r.mat) part) e = cell [] (cell [] (s.dsp.mat r.mat) part) e)
      ∧ d.row r = assignAll (s.dsp.row r)
        [(33, copy 19), (32, copy 19), (31, copy 18), (30, copy 18), (29, copy 18), (28, copy 18), (27, copy 17),
          (26, copy 17), (25, copy 16), (24, copy 16), (23, copy 15), (22, copy 15), (21, copy 14), (20, copy 14),
          (19, copy 13), (18, copy 12), (17, copy 11), (16, copy 10), (15, copy 9), (14, copy 9), (13, copy 8),
          (12, copy 8), (11, copy 7), (10, copy 6), (9, copy 5), (8, copy 5), (7, copy 4), (6, copy 4), (5, copy 3),
          (4, mean 2 3), (3, copy 2), (2, copy 1), (1, mean 0 1)])

/-! ## The hybrid filterbank -/

/-- HYBRID_ANALYSIS (`43_hybrid_filterbank.md` R220 to R226): the split subbands are the filter outputs of R222 and R223
over the six samples of history and the rows of `L` (where the outputs folded in R222 are rounded is the model's choice,
log 4), the unsplit subbands pass through, the last six rows of the frame become the history (which six is the spec's
decision D31), and the rows from `NR_BANDS` on and everything but `Lbuf` and `in_buf` are unchanged. -/
def Obligations.HybridAnalysisResult : Prop :=
  ∀ (s : State) (b : Bool), s.ready →
    let x := fun c t => if t < 6 then cellC s.dsp.inBuf c t else hostSample s.host.bufL (t - 6) c
    let y := fun (f : List (List Cx)) q c n => filterOut (cell [] f q) (tab 44 (x c)) n
    let folded := fun q n => Cx.rndIf s.cfg.round.fold s.cfg (y s.cfg.tables.f20_0_8 q 0 n)
    let g := fun j => cell .zero s.cfg.tables.g1Q2 j
    let centre := fun c n => Cx.scale (g 6) (x c (n + 6))
    let side := fun c n => ((Cx.scale (g 1) ((x c (n + 1)).add (x c (n + 11)))).add
      (Cx.scale (g 3) ((x c (n + 3)).add (x c (n + 9))))).add (Cx.scale (g 5) ((x c (n + 5)).add (x c (n + 7))))
    ∃ t, exec (.hybridAnalysis b) s = .next t ∧ sameMemory s t
      ∧ t = { s with
        work := { s.work with lbuf := t.work.lbuf }, dsp := { s.dsp with inBuf := t.dsp.inBuf }, status := .ok }
      ∧ (∀ n q, n < 32 → q < 64 → (b = false → 3 ≤ q → cellC t.work.lbuf (q + 7) n = hostSample s.host.bufL n q)
        ∧ (b = true → 5 ≤ q → cellC t.work.lbuf (q + 27) n = hostSample s.host.bufL n q))
      ∧ (∀ n, n < 32 → b = false →
        let out := fun k => cellC t.work.lbuf k n
        let stored := fun v => Cx.rnd s.cfg v
        out 0 = stored (folded 6 n) ∧ out 1 = stored (folded 7 n) ∧ out 2 = stored (folded 0 n)
          ∧ out 3 = stored (folded 1 n) ∧ out 4 = stored ((folded 2 n).add (folded 5 n))
          ∧ out 5 = stored ((folded 3 n).add (folded 4 n))
          ∧ out 6 = stored ((centre 1 n).sub (side 1 n)) ∧ out 7 = stored ((centre 1 n).add (side 1 n))
          ∧ out 8 = stored ((centre 2 n).add (side 2 n)) ∧ out 9 = stored ((centre 2 n).sub (side 2 n)))
      ∧ (∀ n, n < 32 → b = true →
        let out := fun k => cellC t.work.lbuf k n
        (∀ q, q < 12 → out q = Cx.rnd s.cfg (y s.cfg.tables.f34_0_12 q 0 n))
          ∧ (∀ q, q < 8 → out (12 + q) = Cx.rnd s.cfg (y s.cfg.tables.f34_1_8 q 1 n))
          ∧ (∀ q, q < 4 → out (20 + q) = Cx.rnd s.cfg (y s.cfg.tables.f34_2_4 q 2 n)
            ∧ out (24 + q) = Cx.rnd s.cfg (y s.cfg.tables.f34_2_4 q 3 n)
            ∧ out (28 + q) = Cx.rnd s.cfg (y s.cfg.tables.f34_2_4 q 4 n)))
      ∧ (∀ c j, c < 5 → j < 6 → cellC t.dsp.inBuf c j = hostSample s.host.bufL (26 + j) c)
      ∧ ∀ k n, nrBands b ≤ k → s.work.lbuf.length ≤ 91 → cellC t.work.lbuf k n = cellC s.work.lbuf k n

/-- The filter kernel is the convolution of `43_hybrid_filterbank.md` R225: on finite numbers, the folded form the
model computes is the sum of the thirteen complex products of the conjugate-symmetric taps with the samples. -/
def Obligations.FilterIsConvolution : Prop :=
  ∀ (f x : Nat → Rat × Rat) (n : Nat), (f 6).2 = 0 →
    let toCx := fun a : Rat × Rat => (⟨.fin a.1, .fin a.2⟩ : Cx)
    let tap := fun t => if t ≤ 6 then f t else ((f (12 - t)).1, -(f (12 - t)).2)
    let term := fun t => (((tap t).1 * (x (n + t)).1 - (tap t).2 * (x (n + t)).2,
      (tap t).1 * (x (n + t)).2 + (tap t).2 * (x (n + t)).1) : Rat × Rat)
    filterOut (tab 7 fun t => toCx (f t)) (tab (n + 13) fun t => toCx (x t)) n
      = toCx (((List.range 13).map fun t => (term t).1).sum, ((List.range 13).map fun t => (term t).2).sum)

/-- HYBRID_SYNTHESIS (`43_hybrid_filterbank.md` R228 to R231; that each partial sum is rounded is what the spec takes from
general knowledge in R229): rows 32 to 37 of the destination are not written, the unsplit subbands pass through, each
split subband is the sum of its parts, taken left to right, and nothing but the destination changes. -/
def Obligations.HybridSynthesisResult : Prop :=
  ∀ (s : State) (x : HybBuf) (b : Bool) (d : HostBuf), s.ready → hostShape (s.host.buf d) = true →
    let v := fun k n => cellC (s.work.buf x) k n
    let sum := fun n (start : Cx) (l : List Nat) => l.foldl (fun acc k => Cx.rnd s.cfg (acc.add (v k n))) start
    ∃ y, exec (.hybridSynthesis x b d) s = .next { s with host := s.host.setBuf d y, status := .ok }
      ∧ (∀ p r q, 32 ≤ r → cellN3 y p r q = cellN3 (s.host.buf d) p r q)
      ∧ (∀ n q, n < 32 → q < 64 → (b = false → 3 ≤ q → hostSample y n q = v (q + 7) n)
        ∧ (b = true → 5 ≤ q → hostSample y n q = v (q + 27) n))
      ∧ (∀ n, n < 32 → b = false →
        hostSample y n 0 = sum n (v 0 n) [1, 2, 3, 4, 5]
        ∧ hostSample y n 1 = Cx.rnd s.cfg ((v 6 n).add (v 7 n))
        ∧ hostSample y n 2 = Cx.rnd s.cfg ((v 8 n).add (v 9 n)))
      ∧ ∀ n, n < 32 → b = true →
        hostSample y n 0 = sum n Cx.zero [0, 1, 2, 3, 4, 5, 6, 7, 8, 9, 10, 11]
        ∧ hostSample y n 1 = sum n Cx.zero [12, 13, 14, 15, 16, 17, 18, 19]
        ∧ hostSample y n 2 = sum n Cx.zero [20, 21, 22, 23]
        ∧ hostSample y n 3 = sum n Cx.zero [24, 25, 26, 27]
        ∧ hostSample y n 4 = sum n Cx.zero [28, 29, 30, 31]

/-- Analysis followed by synthesis returns the unsplit subbands of the frame (`43_hybrid_filterbank.md` R231). -/
def Obligations.AnalysisThenSynthesis : Prop :=
  ∀ (s : State) (b : Bool) (d : HostBuf), s.ready →
    ∃ t, execAll [.hybridAnalysis b, .hybridSynthesis .lbuf b d] s = .next t
      ∧ ∀ p n q, p < 2 → n < 32 → q < 64 → (if b then 5 else 3) ≤ q →
        cellN3 (t.host.buf d) p n q = cellN3 s.host.bufL p n q

/-! ## The decorrelator -/

/-- What DECORRELATE may change (`44_decorrelation.md` R240; that its result goes to `Rbuf` is log 19): `Rbuf` below
`NR_BANDS`, the delay lines and the three arrays of the transient detector. The arrays take the values of R242 to R244
over the 32 slots, from zero on a change of resolution (R241), and R245 gives the gain of each slot; where they are
rounded is the model's choice (log 4). -/
def Obligations.DecorrelateFrame : Prop :=
  ∀ (s : State) (x : HybBuf) (b : Bool), s.ready →
    let kept := b = s.params.is34bandsOld
    let stored := fun v => rnd s.cfg v
    let power := fun i n => ((List.range (nrBands b)).filter fun k => kToI s.cfg b k = i).foldl
      (fun acc k =>
        let z := cellC (s.work.buf x) k n
        rndIf s.cfg.round.power s.cfg (acc.add ((z.re.mul z.re).add (z.im.mul z.im)))) PsNum.zero
    let gain := fun i n => cell .one
      (bandTransient s.cfg b (s.work.buf x) (if kept then s.dsp else s.dsp.resetDecorrelation) i).2 n
    ∃ t, exec (.decorrelate x b) s = .next t ∧ sameMemory s t
      ∧ t = { s with
        work := { s.work with rbuf := t.work.rbuf }
        dsp := { s.dsp with
          delay := t.dsp.delay
          apDelay := t.dsp.apDelay
          peakDecayNrg := t.dsp.peakDecayNrg
          powerSmooth := t.dsp.powerSmooth
          peakDecayDiffSmooth := t.dsp.peakDecayDiffSmooth }
        status := .ok }
      ∧ (∀ k n, nrBands b ≤ k → s.work.rbuf.length ≤ 91 → cellC t.work.rbuf k n = cellC s.work.rbuf k n)
      ∧ (∀ i, i < nrParBands b → ∃ peak smooth diff : Nat → PsNum,
        (kept → peak 0 = cell .zero s.dsp.peakDecayNrg i ∧ smooth 0 = cell .zero s.dsp.powerSmooth i
          ∧ diff 0 = cell .zero s.dsp.peakDecayDiffSmooth i)
        ∧ (¬kept → peak 0 = .zero ∧ smooth 0 = .zero ∧ diff 0 = .zero)
        ∧ (∀ n, n < 32 →
          peak (n + 1) = stored (PsNum.max (s.cfg.peakDecayFactor.mul (peak n)) (power i n))
          ∧ smooth (n + 1) = stored ((smooth n).add (PsNum.mul (.fin (1 / 4)) ((power i n).sub (smooth n))))
          ∧ diff (n + 1) = stored ((diff n).add
            (PsNum.mul (.fin (1 / 4)) (((peak (n + 1)).sub (power i n)).sub (diff n))))
          ∧ gain i n = (let denom := stored (PsNum.mul (.fin (3 / 2)) (diff (n + 1)))
            if denom.gt (smooth (n + 1)) then stored ((smooth (n + 1)).div denom) else .one))
        ∧ cell .zero t.dsp.peakDecayNrg i = peak 32 ∧ cell .zero t.dsp.powerSmooth i = smooth 32
        ∧ cell .zero t.dsp.peakDecayDiffSmooth i = diff 32)
      ∧ ∀ i, nrParBands b ≤ i → i < 34 →
        cell .zero t.dsp.peakDecayNrg i = (if kept then cell .zero s.dsp.peakDecayNrg i else .zero)
        ∧ cell .zero t.dsp.powerSmooth i = (if kept then cell .zero s.dsp.powerSmooth i else .zero)
        ∧ cell .zero t.dsp.peakDecayDiffSmooth i = if kept then cell .zero s.dsp.peakDecayDiffSmooth i else .zero

/-- The `delay` lines after DECORRELATE (`44_decorrelation.md` R247, and R241 on a change of resolution): shifted by 32,
the input appended, in every subband below `NR_BANDS`; the other rows are not touched, or are zeroed by R241. -/
def Obligations.DelayLines : Prop :=
  ∀ (s : State) (x : HybBuf) (b : Bool), s.ready → s.dsp.delay.length = 91 →
    ∃ t, exec (.decorrelate x b) s = .next t
      ∧ (∀ k, k < nrBands b →
        (∀ j, j < s.cfg.maxDelay → cellC t.dsp.delay k j
          = if b = s.params.is34bandsOld then cellC s.dsp.delay k (j + 32) else Cx.zero)
        ∧ ∀ n, n < 32 → cellC t.dsp.delay k (s.cfg.maxDelay + n) = cellC (s.work.buf x) k n)
      ∧ ∀ k j, nrBands b ≤ k → cellC t.dsp.delay k j
        = if b = s.params.is34bandsOld then cellC s.dsp.delay k j else Cx.zero

/-- The all-pass subbands after DECORRELATE (`44_decorrelation.md` R248 to R250, and R241 on a change of resolution). The
delay lines are shifted by 32 in every all-pass subband and link, also where the decay slope is 0; the other rows are not
touched, or are zeroed. In a conforming configuration the cells of this frame and the outputs are those of the cascade of
three links (its equations are the spec's general knowledge; where they are rounded is the model's choice, log 4). -/
def Obligations.AllpassHistory : Prop :=
  ∀ (s : State) (x : HybBuf) (b : Bool), s.ready → s.dsp.shaped s.cfg = true →
    let old := fun k m j => if b = s.params.is34bandsOld then cellC (cell [] s.dsp.apDelay k) m j else Cx.zero
    ∃ t, exec (.decorrelate x b) s = .next t
      ∧ (∀ k m j, k < nrAllpassBands b → m < 3 → j < s.cfg.maxApDelay →
        cellC (cell [] t.dsp.apDelay k) m j = old k m (j + 32))
      ∧ (∀ k m j, nrAllpassBands b ≤ k → cellC (cell [] t.dsp.apDelay k) m j = old k m j)
      ∧ (s.cfg.wf = true → ∀ k n, k < nrAllpassBands b → n < 32 →
        let slope : Rat := max 0 (min 1 (1 - ((k : Rat) - (decayCutoff s.cfg b : Rat)) / 20))
        let ag := fun m => (cell .zero s.cfg.apCoeff m).mul (.fin slope)
        let ap := fun m j => cellC (cell [] t.dsp.apDelay k) m j
        let now := s.cfg.maxApDelay + n
        let delayed := fun m =>
          if cell 0 s.cfg.apLinkDelay m = 0 then old k m now else ap m (now - cell 0 s.cfg.apLinkDelay m)
        let link := fun m z =>
          Cx.rnd s.cfg ((Cx.rnd s.cfg ((delayed m).mul (qFract s.cfg b k m))).sub (Cx.scale (ag m) z))
        let stored := fun m z y => Cx.rnd s.cfg (Cx.add z (Cx.scale (ag m) y))
        let x0 := Cx.rnd s.cfg ((cellC t.dsp.delay k (s.cfg.maxDelay + n - 2)).mul (phiFract s.cfg b k))
        let x1 := link 0 x0
        let x2 := link 1 x1
        let x3 := link 2 x2
        let d := if b = s.params.is34bandsOld then s.dsp else s.dsp.resetDecorrelation
        let gain := cell .one (bandTransient s.cfg b (s.work.buf x) d (kToI s.cfg b k)).2 n
        ap 0 now = stored 0 x0 x1 ∧ ap 1 now = stored 1 x1 x2 ∧ ap 2 now = stored 2 x2 x3
          ∧ cellC t.work.rbuf k n = Cx.rnd s.cfg (Cx.scale gain x3))

/-- The long-delay and the short-delay subbands (`44_decorrelation.md` R251, R252): the input 14 slots, or one slot,
earlier, times the transient gain of the parameter band; the gain is that of R242 to R245 over the 32
slots (DecorrelateFrame says what it is). -/
def Obligations.DelayedClasses : Prop :=
  ∀ (s : State) (x : HybBuf) (b : Bool), s.ready → s.cfg.wf = true →
    let d := if b = s.params.is34bandsOld then s.dsp else s.dsp.resetDecorrelation
    let gain := fun k n => cell .one (bandTransient s.cfg b (s.work.buf x) d (kToI s.cfg b k)).2 n
    ∃ t, exec (.decorrelate x b) s = .next t
      ∧ ∀ k n, n < 32 → nrAllpassBands b ≤ k → k < nrBands b →
        cellC t.work.rbuf k n = Cx.rnd s.cfg (Cx.scale (gain k n) (cellC t.dsp.delay k
          (s.cfg.maxDelay + n - if k < shortDelayBand s.cfg b then 14 else 1)))

/-- The transient detector over the reals (`44_decorrelation.md` R243 to R246): from a non-negative state and
non-negative powers every gain lies in 0..1 and the state stays non-negative. -/
def Obligations.TransientBounds : Prop :=
  ∀ (c : Config) (f a b d : Rat) (ps : List Rat), c.fmt = .exact → c.peakDecayFactor = .fin f → 0 ≤ f →
    0 ≤ a → 0 ≤ b → 0 ≤ d → (∀ p ∈ ps, 0 ≤ p) →
    let r := transientBand c ⟨.fin a, .fin b, .fin d⟩ (ps.map PsNum.fin)
    (∀ g ∈ r.2, ∃ q : Rat, g = .fin q ∧ 0 ≤ q ∧ q ≤ 1)
    ∧ ∃ a' b' d' : Rat, r.1 = ⟨.fin a', .fin b', .fin d'⟩ ∧ 0 ≤ a' ∧ 0 ≤ b' ∧ 0 ≤ d'

/-- The transient gain in any conforming number format (`44_decorrelation.md` R245, R246): it lies in 0..1 whenever the
smoothed power is a non-negative number and the denominator a number, if rounding keeps 0..1; every conforming format but
a custom one, of which nothing is known (log 3), does. -/
def Obligations.GainEveryFormat : Prop :=
  let keepsUnit := fun f : NumFormat => ∀ q : Rat, 0 ≤ q → q ≤ 1 → ∃ r : Rat, f.rnd q = .fin r ∧ 0 ≤ r ∧ r ≤ 1
  (∀ f : NumFormat, f.wf = true → (∀ id, f ≠ .custom id) → keepsUnit f)
  ∧ ∀ (c : Config) (t : Transient) (a d : Rat), keepsUnit c.fmt → t.smooth = .fin a → 0 ≤ a →
    rnd c (transientImpact.mul t.diff) = .fin d →
    ∃ q : Rat, transientGain c t = .fin q ∧ 0 ≤ q ∧ q ≤ 1 ∧ (d ≤ a → q = 1)

/-- On a change of resolution DECORRELATE zeroes all decorrelation state before it computes (`44_decorrelation.md`
R241): it does what it would do with no change of resolution and all of that state zero. -/
def Obligations.DecorrelateReset : Prop :=
  ∀ (s : State) (x : HybBuf) (b : Bool), s.ready → b ≠ s.params.is34bandsOld →
    ∃ t, exec (.decorrelate x b) s = .next t
      ∧ exec (.decorrelate x b) { s with
        params := { s.params with is34bandsOld := b }
        dsp := { s.dsp with
          peakDecayNrg := s.dsp.peakDecayNrg.map fun _ => .zero
          powerSmooth := s.dsp.powerSmooth.map fun _ => .zero
          peakDecayDiffSmooth := s.dsp.peakDecayDiffSmooth.map fun _ => .zero
          delay := s.dsp.delay.map fun row => row.map fun _ => Cx.zero
          apDelay := s.dsp.apDelay.map fun links => links.map fun row => row.map fun _ => Cx.zero } }
        = .next { t with params := { t.params with is34bandsOld := b } }

/-! ## The stereo mixer -/

/-- What STEREO_PROCESS may change (`45_stereo_mixing.md` R260, R262, R278): the two buffers below `NR_BANDS`, the working
rows of R262, the four matrices and the two histories; of the matrices slot 0 (MatrixCarryOver says to what) and the bands
below `NR_PAR_BANDS` of the slots of the frame's envelopes. The working rows are `num_env` rows of the family through the
map that its band count selects, over the full range for IID and ICC only, or the family's own array; they are zero for
IPD and OPD where those are off. -/
def Obligations.StereoFrame : Prop :=
  ∀ (s : State) (b : Bool), s.ready →
    let q := s.params
    let through := fun (map : List Int → Bool → List Int) (src : List (List Int)) (full : Bool) =>
      tab q.numEnv fun e => map (cell [] src e) full
    let remapped := fun (src : List (List Int)) (n : Nat) (full : Bool) (rows : List (List Int)) =>
      (b = false → (n = 34 ∨ n = 17 → rows = through map34to20 src full)
        ∧ (n = 10 ∨ n = 5 → rows = through map10to20 src full)
        ∧ (n ≠ 34 → n ≠ 17 → n ≠ 10 → n ≠ 5 → rows = src))
      ∧ (b = true → (n = 20 ∨ n = 11 → rows = through map20to34 src full)
        ∧ (n = 10 ∨ n = 5 → rows = through map10to34 src full)
        ∧ (n ≠ 20 → n ≠ 11 → n ≠ 10 → n ≠ 5 → rows = src))
    ∃ t, exec (.stereoProcess b) s = .next t ∧ sameMemory s t
      ∧ t = { s with
        work := t.work
        dsp := { s.dsp with
          h11 := t.dsp.h11, h12 := t.dsp.h12, h21 := t.dsp.h21, h22 := t.dsp.h22
          ipdHist := t.dsp.ipdHist, opdHist := t.dsp.opdHist }
        status := .ok }
      ∧ (∀ k n, nrBands b ≤ k →
        cellC t.work.lbuf k n = cellC s.work.lbuf k n ∧ cellC t.work.rbuf k n = cellC s.work.rbuf k n)
      ∧ t.work.mapped = mapParams q b
      ∧ remapped q.iidPar q.nrIidPar true t.work.mapped.iid ∧ remapped q.iccPar q.nrIccPar true t.work.mapped.icc
      ∧ (q.enableIpdopd = true → remapped q.ipdPar q.nrIpdopdPar false t.work.mapped.ipd
        ∧ remapped q.opdPar q.nrIpdopdPar false t.work.mapped.opd)
      ∧ (q.enableIpdopd = false → ∀ e k, cellI t.work.mapped.ipd e k = 0 ∧ cellI t.work.mapped.opd e k = 0)
      ∧ ∀ (x : Mat) (part slot k : Nat), 1 ≤ slot → q.numEnv < slot ∨ nrParBands b ≤ k →
        cellN3 (t.dsp.mat x) part slot k = cellN3 (s.dsp.mat x) part slot k

/-- Slot 0 of every matrix after STEREO_PROCESS (`45_stereo_mixing.md` R261, R263; that only slot 0 is remapped is the
spec's decision D23): in both parts the row `num_env_old` (slot 0 itself when that is 0), remapped on a change of
resolution. -/
def Obligations.MatrixCarryOver : Prop :=
  ∀ (s : State) (b : Bool) (x : Mat) (part : Nat), s.ready → s.dsp.shaped s.cfg = true → part < 2 →
    s.params.numEnvOld ≤ s.cfg.maxNumEnv →
    let row := cell [] (cell [] (s.dsp.mat x) part) s.params.numEnvOld
    ∃ t, exec (.stereoProcess b) s = .next t
      ∧ cell [] (cell [] (t.dsp.mat x) part) 0
        = if b = s.params.is34bandsOld then row
          else if b then remapRow34 s.cfg row else remapRow20 s.cfg row

/-- On a change of resolution STEREO_PROCESS zeroes the phase histories and remaps the matrices it carries over
(`45_stereo_mixing.md` R261, R263, R264; that only slot 0 is remapped is the spec's decision D23): it does what it would
do with no change of resolution, the histories zero, and slot 0 of every matrix already the remapped row of the frame
before. In a frame without envelope the histories stay zero. -/
def Obligations.PhaseHistoryReset : Prop :=
  ∀ (s : State) (b : Bool), s.ready → b ≠ s.params.is34bandsOld →
    let carried := fun h : List (List (List PsNum)) => h.map fun rows =>
      rows.set 0 ((if b then remapRow34 s.cfg else remapRow20 s.cfg) (cell [] rows s.params.numEnvOld))
    let q := { s.params with is34bandsOld := b, numEnvOld := 0 }
    ∃ t, exec (.stereoProcess b) s = .next t
      ∧ exec (.stereoProcess b) { s with
        params := q
        dsp := { s.dsp with
          h11 := carried s.dsp.h11, h12 := carried s.dsp.h12, h21 := carried s.dsp.h21, h22 := carried s.dsp.h22
          ipdHist := s.dsp.ipdHist.map fun _ => 0, opdHist := s.dsp.opdHist.map fun _ => 0 } }
        = .next { t with params := q }
      ∧ (s.params.numEnv = 0 → ∀ k, cell 0 t.dsp.ipdHist k = 0 ∧ cell 0 t.dsp.opdHist k = 0)

/-- The phase histories after STEREO_PROCESS (`45_stereo_mixing.md` R268, `10_state.md` R37), whether or not IPD/OPD is
enabled: with two envelopes or more, a history holds the phases of the last two envelopes, the older one in bits 5:3;
with one envelope its phase follows the youngest phase of the history; with none, and in the bands outside the IPD/OPD
range, the history is kept. On a change of resolution the history starts from zero (R264). -/
def Obligations.PhaseHistory : Prop :=
  ∀ (s : State) (b : Bool) (k : Nat), s.ready →
    k < s.dsp.ipdHist.length → k < s.dsp.opdHist.length →
    let m := mapParams s.params b
    let before := fun hist : List (BitVec 6) => if b = s.params.is34bandsOld then cell 0 hist k else 0
    let updated := fun (hist : List (BitVec 6)) (rows : List (List Int)) (new : BitVec 6) =>
      (s.params.numEnv = 0 → new = before hist)
      ∧ (s.params.numEnv = 1 → (new.toNat : Int) = 8 * ((before hist).toNat % 8 : Nat) + cellI rows 0 k)
      ∧ (2 ≤ s.params.numEnv →
        (new.toNat : Int) = 8 * cellI rows (s.params.numEnv - 2) k + cellI rows (s.params.numEnv - 1) k)
    (∀ e j, iccOk (cellI m.ipd e j) = true ∧ iccOk (cellI m.opd e j) = true) →
    ∃ t, exec (.stereoProcess b) s = .next t
      ∧ (k < nrIpdOpdBands b → updated s.dsp.ipdHist m.ipd (cell 0 t.dsp.ipdHist k)
        ∧ updated s.dsp.opdHist m.opd (cell 0 t.dsp.opdHist k))
      ∧ (nrIpdOpdBands b ≤ k →
        cell 0 t.dsp.ipdHist k = before s.dsp.ipdHist ∧ cell 0 t.dsp.opdHist k = before s.dsp.opdHist)

/-- The target matrices where nothing is turned (`45_stereo_mixing.md` R266, R267, R270, R271; the offset of the row is the
spec's general knowledge): without IPD/OPD, and with it in the bands from `NR_IPDOPD_BANDS` on, slot `e + 1` of band `k`
holds the table entry of the remapped IID and ICC values (StereoFrame says which those are), and the imaginary parts are
not written and keep what they held (for the bands from `NR_IPDOPD_BANDS` on the spec's prose says 0, and that the model
follows its pseudocode is log 30). -/
def Obligations.TargetMatrices : Prop :=
  ∀ (s : State) (b : Bool) (e k : Nat), s.ready → s.cfg.wf = true → s.dsp.shaped s.cfg = true →
    s.params.numEnv ≤ s.cfg.maxNumEnv →
    s.cfg.baseline = true ∨ s.params.enableIpdopd = false ∨ nrIpdOpdBands b ≤ k →
    e < s.params.numEnv → k < nrParBands b →
    let m := mapParams s.params b
    let lut := if s.cfg.baseline = true ∨ s.params.iccMode.toNat < 3 then s.cfg.tables.ha else s.cfg.tables.hb
    let entry := cellN3 lut (cellI m.iid e k + 7 + 23 * (if s.params.iidQuant then 1 else 0)).toNat
      (cellI m.icc e k).toNat
    ∃ t, exec (.stereoProcess b) s = .next t
      ∧ cellN3 t.dsp.h11 0 (e + 1) k = entry 0 ∧ cellN3 t.dsp.h12 0 (e + 1) k = entry 1
      ∧ cellN3 t.dsp.h21 0 (e + 1) k = entry 2 ∧ cellN3 t.dsp.h22 0 (e + 1) k = entry 3
      ∧ ∀ x : Mat, cellN3 (t.dsp.mat x) 1 (e + 1) k = cellN3 (s.dsp.mat x) 1 (e + 1) k

/-- The target matrices with IPD/OPD (`45_stereo_mixing.md` R268 to R271; the formula of the rotation is the spec's general
knowledge; that `adj` is rounded once in each part is the model's choice, log 4): in every envelope the coefficients are
turned by the smoothed OPD, and by the smoothed OPD minus the smoothed IPD, where the history of an envelope holds the
last two phases before it. -/
def Obligations.PhaseRotation : Prop :=
  ∀ (s : State) (b : Bool) (e k : Nat), s.ready → s.cfg.wf = true → s.dsp.shaped s.cfg = true →
    e < s.params.numEnv → s.params.numEnv ≤ s.cfg.maxNumEnv → s.cfg.baseline = false →
    s.params.enableIpdopd = true → k < nrIpdOpdBands b →
    let m := mapParams s.params b
    let lut := if s.params.iccMode.toNat < 3 then s.cfg.tables.ha else s.cfg.tables.hb
    let entry := cellN3 lut (cellI m.iid e k + 7 + 23 * (if s.params.iidQuant then 1 else 0)).toNat
      (cellI m.icc e k).toNat
    let history := fun (hist : List (BitVec 6)) (rows : List (List Int)) =>
      (List.range e).foldl (fun h j => (h * 8 + (cellI rows j k).toNat) % 64)
        (if b = s.params.is34bandsOld then (cell 0 hist k).toNat else 0)
    let index := fun hist rows => history hist rows * 8 + (cellI rows e k).toNat
    let pd := fun i => (⟨cell .zero s.cfg.tables.pdRe i, cell .zero s.cfg.tables.pdIm i⟩ : Cx)
    let opd := pd (index s.dsp.opdHist m.opd)
    let ipd := pd (index s.dsp.ipdHist m.ipd)
    let adj := Cx.rnd s.cfg
      ⟨(opd.re.mul ipd.re).add (opd.im.mul ipd.im), (opd.im.mul ipd.re).sub (opd.re.mul ipd.im)⟩
    let prod := fun x y => rnd s.cfg (PsNum.mul x y)
    ∃ t, exec (.stereoProcess b) s = .next t
      ∧ cellN3 t.dsp.h11 0 (e + 1) k = prod (entry 0) opd.re ∧ cellN3 t.dsp.h11 1 (e + 1) k = prod (entry 0) opd.im
      ∧ cellN3 t.dsp.h12 0 (e + 1) k = prod (entry 1) adj.re ∧ cellN3 t.dsp.h12 1 (e + 1) k = prod (entry 1) adj.im
      ∧ cellN3 t.dsp.h21 0 (e + 1) k = prod (entry 2) opd.re ∧ cellN3 t.dsp.h21 1 (e + 1) k = prod (entry 2) opd.im
      ∧ cellN3 t.dsp.h22 0 (e + 1) k = prod (entry 3) adj.re ∧ cellN3 t.dsp.h22 1 (e + 1) k = prod (entry 3) adj.im

/-- A sample in no envelope is not mixed (`45_stereo_mixing.md` R272, R275 to R277): in particular an envelope of zero
span touches none, and with no envelope both buffers come back as they were. No border lies below -1
(`10_state.md` R28; the invariant says so). -/
def Obligations.SamplesOutsideEnvelopes : Prop :=
  ∀ (s : State) (b : Bool), s.ready → (∀ e, -1 ≤ cell 0 s.params.borderPosition e) →
    ∃ t, exec (.stereoProcess b) s = .next t
      ∧ ∀ k n : Nat, (∀ e, e < s.params.numEnv → ¬(cell 0 s.params.borderPosition e < (n : Int)
          ∧ (n : Int) ≤ cell 0 s.params.borderPosition (e + 1))) →
        cellC t.work.lbuf k n = cellC s.work.lbuf k n ∧ cellC t.work.rbuf k n = cellC s.work.rbuf k n

/-- The samples of an envelope (`45_stereo_mixing.md` R272 to R277; which coefficient multiplies which input is the spec's
general knowledge; where the sums of R275 and R276 are rounded is the model's choice, log 4). First over the reals, with
real matrices: sample `j` is mixed with the start value plus `j + 1` steps, both outputs from the old pair, and the
samples outside the envelope are not touched. Then STEREO_PROCESS in every format, on the real and on the complex path:
a sample `n` of envelope `e` in subband `k` is the mix of the old pair with the coefficients that have walked from slot
`e` to slot `e + 1` of the matrices, the imaginary start negated where R273 says so. -/
def Obligations.LinearInterpolation : Prop :=
  (∀ (c : Config) (count n : Nat) (h g : Fin 4 → Rat) (l r : Nat → Rat × Rat) (len : Nat), c.fmt = .exact →
    n + count ≤ len →
    let toCx := fun a : Rat × Rat => (⟨.fin a.1, .fin a.2⟩ : Cx)
    let coef := fun x : Fin 4 → Rat => (⟨.fin (x 0), .fin (x 1), .fin (x 2), .fin (x 3)⟩ : Coef)
    let out := mixSamples c count n (coef h, coef g) none (tab len fun i => toCx (l i)) (tab len fun i => toCx (r i))
    (∀ j, j < count →
      let x := fun i => h i + (j + 1 : Nat) * g i
      cell Cx.zero out.1 (n + j)
          = toCx (x 0 * (l (n + j)).1 + x 2 * (r (n + j)).1, x 0 * (l (n + j)).2 + x 2 * (r (n + j)).2)
        ∧ cell Cx.zero out.2 (n + j)
          = toCx (x 1 * (l (n + j)).1 + x 3 * (r (n + j)).1, x 1 * (l (n + j)).2 + x 3 * (r (n + j)).2))
    ∧ ∀ i, i < len → i < n ∨ n + count ≤ i → cell Cx.zero out.1 i = toCx (l i) ∧ cell Cx.zero out.2 i = toCx (r i))
  ∧ ∀ (s : State) (b : Bool), s.ready → s.work.shaped = true →
    let border := fun e => cell 0 s.params.borderPosition e
    (∀ e, -1 ≤ border e) → (∀ e, e < s.params.numEnv → border e ≤ border (e + 1)) →
    ∃ t, exec (.stereoProcess b) s = .next t
      ∧ ∀ e k n : Nat, e < s.params.numEnv → k < nrBands b → n < 32 → border e < (n : Int) → (n : Int) ≤ border (e + 1) →
        let i := kToI s.cfg b k
        let steps := ((n : Int) - border e).toNat
        let width := rnd s.cfg (.fin (1 / ((border (e + 1) - border e : Int) : Rat)))
        let walk := fun start target : PsNum =>
          (fun v : PsNum => rnd s.cfg (v.add (rnd s.cfg ((rnd s.cfg (target.sub start)).mul width))))^[steps] start
        let slot := fun (x : Mat) part e => cellN3 (t.dsp.mat x) part e i
        let flip := if b then 9 ≤ k ∧ k ≤ 13 else k ≤ 1
        let re := fun x : Mat => walk (slot x 0 e) (slot x 0 (e + 1))
        let im := fun x : Mat => walk (if flip then (slot x 1 e).neg else slot x 1 e) (slot x 1 (e + 1))
        let l := cellC s.work.lbuf k n
        let r := cellC s.work.rbuf k n
        let sum := mixSum s.cfg
        let mixRe := fun x y : Mat => (⟨sum [(re x, l.re), (re y, r.re)], sum [(re x, l.im), (re y, r.im)]⟩ : Cx)
        let mixCx := fun x y : Mat =>
          (⟨sum [(re x, l.re), (re y, r.re), ((im x).neg, l.im), ((im y).neg, r.im)],
            sum [(re x, l.im), (re y, r.im), (im x, l.re), (im y, r.re)]⟩ : Cx)
        (s.cfg.baseline = true ∨ s.params.enableIpdopd = false →
          cellC t.work.lbuf k n = mixRe .h11 .h21 ∧ cellC t.work.rbuf k n = mixRe .h12 .h22)
        ∧ (s.cfg.baseline = false → s.params.enableIpdopd = true →
          cellC t.work.lbuf k n = mixCx .h11 .h21 ∧ cellC t.work.rbuf k n = mixCx .h12 .h22)

/-! ## The frame driver -/

/-- APPLY cannot fail (`46_frame_driver.md` R293): from every ready state, whatever READ_DATA left, it ends with `Ok`
and changes neither PSParameters nor the host cursor; and of the host's memory it changes rows 0 to 31 of `L` and `R`
only. -/
def Obligations.ApplyCompletes : Prop :=
  ∀ (s : State) (k : Int), s.ready → 0 ≤ k → k ≤ 64 →
    ∃ t, exec (.apply k) s = .next t ∧ t.status = .ok ∧ t.params = s.params ∧ t.host.hostpos = s.host.hostpos
      ∧ t.cfg = s.cfg ∧ t.tablesReady = s.tablesReady ∧ t.parse = none ∧ t.host.inputs = s.host.inputs
      ∧ t.draws = s.draws ∧ (∀ a, t.byte a = s.byte a)
      ∧ ∀ p r q, 32 ≤ r → hostShape s.host.bufL = true → hostShape s.host.bufR = true →
        cellN3 t.host.bufL p r q = cellN3 s.host.bufL p r q ∧ cellN3 t.host.bufR p r q = cellN3 s.host.bufR p r q

/-- APPLY is its engines in order (`46_frame_driver.md` R291, R292): the histories above `top` cleared, then the
analysis of `L`, the decorrelation of `Lbuf`, the mixing, and the two syntheses. -/
def Obligations.ApplyIsItsEngines : Prop :=
  ∀ (s : State) (k : Int), s.ready → 0 ≤ k → k ≤ 64 →
    let is34 := s.params.is34bands
    exec (.apply k) s = execAll
      [.hybridAnalysis is34, .decorrelate .lbuf is34, .stereoProcess is34, .hybridSynthesis .lbuf is34 .left,
        .hybridSynthesis .rbuf is34 .right]
      { s with dsp := s.dsp.clearAbove is34 (k + nrBands is34 - 64) }

/-- What step 1 of APPLY clears (`46_frame_driver.md` R291; the formula of `top` is the spec's general knowledge): APPLY
with `topBand = k` is APPLY with `topBand = 64`, which clears nothing, on the state with the delay lines of the
subbands from `top` on zeroed. -/
def Obligations.ApplyClears : Prop :=
  ∀ (s : State) (k : Int), s.ready → 0 ≤ k → k ≤ 64 → s.dsp.shaped s.cfg = true →
    let is34 := s.params.is34bands
    let top := k + nrBands is34 - 64
    ∃ t, exec (.apply k) s = .next t ∧ exec (.apply 64) { s with dsp := { s.dsp with
      delay := s.dsp.delay.mapIdx fun i row =>
        if top ≤ (i : Int) ∧ i < nrBands is34 then row.map fun _ => Cx.zero else row
      apDelay := s.dsp.apDelay.mapIdx fun i links =>
        if top ≤ (i : Int) ∧ i < nrAllpassBands is34 then links.map fun row => row.map fun _ => Cx.zero
        else links } } = .next t

/-- The content of `R` on entry is never read (`46_frame_driver.md` R292, `20_memory.md` R84): two runs of APPLY that
differ only in `R` end in states that differ only in the rows 32 to 37 of `R` they were given. -/
def Obligations.ApplyIgnoresRight : Prop :=
  ∀ (s : State) (k : Int) (other : List (List (List PsNum))), s.ready → 0 ≤ k → k ≤ 64 →
    ∃ t t', exec (.apply k) s = .next t ∧ exec (.apply k) { s with host := { s.host with bufR := other } } = .next t'
      ∧ t' = { t with host := { t.host with bufR := t'.host.bufR } }
      ∧ ∀ p r q, p < 2 → q < 64 → (r < 32 → cellN3 t'.host.bufR p r q = cellN3 t.host.bufR p r q)
        ∧ (32 ≤ r → r < 38 → cellN3 t.host.bufR p r q = cellN3 s.host.bufR p r q
          ∧ cellN3 t'.host.bufR p r q = cellN3 other p r q)

/-- INIT_TABLES (`46_frame_driver.md` R294): it sets `tables_ready`, touches no instance, and repeated changes
nothing. -/
def Obligations.InitTablesResult : Prop :=
  ∀ s : State, s.parse = none →
    exec .initTables s = .next { s with tablesReady := true, status := .ok }
    ∧ execAll [.initTables, .initTables] s = exec .initTables s

/-- RESET (`46_frame_driver.md` R295, `10_state.md` R46; zero for the DSP state is the spec's decision D18, for the
working buffers log 17): every field of the instance takes its reset value; `hostpos`, the host's memory and
`tables_ready` are not touched, and what came before leaves no trace in the instance. -/
def Obligations.ResetResult : Prop :=
  ∀ s : State, s.ready →
    ∃ t, exec .reset s = .next t ∧ t.cfg = s.cfg ∧ t.host = s.host ∧ sameMemory s t ∧ t.tablesReady = true
      ∧ t.parse = none ∧ t.status = .ok ∧ t.draws = s.draws
      ∧ t.params.arraysZero ∧ t.params.enableIid = false ∧ t.params.enableIcc = false ∧ t.params.enableExt = false
      ∧ t.params.enableIpdopd = false ∧ t.params.iidQuant = false ∧ t.params.iccMode = 0
      ∧ t.params.frameClass = false ∧ t.params.nrIidPar = 0 ∧ t.params.nrIccPar = 0 ∧ t.params.nrIpdopdPar = 0
      ∧ t.params.numEnv = 0 ∧ t.params.numEnvOld = 0 ∧ (∀ e, cell 0 t.params.borderPosition e = 0)
      ∧ t.params.is34bands = false ∧ t.params.is34bandsOld = false ∧ t.params.start = false
      ∧ (∀ x p e b, cellN3 (t.dsp.mat x) p e b = .zero)
      ∧ (∀ b, cell 0 t.dsp.ipdHist b = 0 ∧ cell 0 t.dsp.opdHist b = 0)
      ∧ (∀ k j, cellC t.dsp.delay k j = Cx.zero ∧ cellC t.dsp.inBuf k j = Cx.zero)
      ∧ (∀ k m j, cellC (cell [] t.dsp.apDelay k) m j = Cx.zero)
      ∧ (∀ i, cell .zero t.dsp.peakDecayNrg i = .zero ∧ cell .zero t.dsp.powerSmooth i = .zero
        ∧ cell .zero t.dsp.peakDecayDiffSmooth i = .zero)
      ∧ ∀ s' t', s'.ready → s'.cfg = s.cfg → exec .reset s' = .next t' →
        t'.params = t.params ∧ t'.dsp = t.dsp ∧ t'.work = t.work

/-! ## The whole machine -/

/-- The machine right after reset meets the invariant, with the tables not ready and no parse in progress
(`10_state.md` R44, R46, `70_reset_and_hazards.md` R361; the configuration at reset is log 6). -/
def Obligations.InvAtReset : Prop :=
  Inv State.reset ∧ State.reset.tablesReady = false ∧ State.reset.parse = none

/-- Every step keeps the invariant, from every state that has it: the canonical form of the bitstream, the shape of
every array, the range of every parameter (`10_state.md` R23 to R31), the zeroed arrays of absent families between
two commands (`41_parameter_decoder.md` R167, R169, R179), the 20-band resolution under `BASELINE` (R178), and the
place of the parse (`30_encoding.md` R102). -/
def Obligations.InvKept : Prop :=
  ∀ s t : State, Inv s → step s = .next t → Inv t

end
end

