-- ==== Sys2Proof/Laws/Config.lean ====
section
/-! SUPPORT. What a conforming configuration gives, one lemma per fact. -/

namespace Sys2Proof

/-- The parts of `Config.wf`. -/
theorem Config.wf_iff (c : Config) : c.wf = true ↔ c.fmt.wf = true ∧ 5 ≤ c.maxNumEnv ∧ 14 ≤ c.maxDelay
    ∧ c.apLinkDelay.length = 3 ∧ (∀ d ∈ c.apLinkDelay, d ≤ c.maxApDelay) ∧ c.apCoeff.length = 3
    ∧ 30 ≤ c.shortDelayBand20 ∧ c.shortDelayBand20 ≤ 71 ∧ 50 ≤ c.shortDelayBand34 ∧ c.shortDelayBand34 ≤ 91
    ∧ c.peakDecayFactor.inUnit = true ∧ 34 ≤ c.maxNrIidIcc ∧ 17 ≤ c.maxNrIpdOpd ∧ c.thirdOk = true ∧ c.tables.wf = true := by
  simp only [Config.wf, Bool.and_eq_true, decide_eq_true_eq, beq_iff_eq, List.all_eq_true, and_assoc]

/-- The parts of `Tables.wf`. -/
theorem Tables.wf_iff (t : Tables) : t.wf = true ↔ t.nrIidIcc.length = 6
    ∧ (∀ n ∈ t.nrIidIcc, [10, 20, 34].contains n = true) ∧ t.nrIidIcc.getD 0 0 = 10 ∧ t.nrIpdOpd.length = 6
    ∧ (∀ n ∈ t.nrIpdOpd, [5, 11, 17].contains n = true) ∧ t.iidQuant.length = 6 ∧ t.iidQuant.getD 0 true = false
    ∧ t.huff.length = 10 ∧ (∀ h ∈ t.huff, h.wf = true) ∧ t.kToI20.length = 71 ∧ (∀ k ∈ t.kToI20, k < 20)
    ∧ t.kToI34.length = 91 ∧ (∀ k ∈ t.kToI34, k < 34) ∧ shape2 8 7 t.f20_0_8 = true ∧ shape2 12 7 t.f34_0_12 = true
    ∧ shape2 8 7 t.f34_1_8 = true ∧ shape2 4 7 t.f34_2_4 = true ∧ t.g1Q2.length = 7 ∧ t.ha.length = 46
    ∧ (∀ r ∈ t.ha, shape2 8 4 r = true) ∧ t.hb.length = 46 ∧ (∀ r ∈ t.hb, shape2 8 4 r = true)
    ∧ t.pdRe.length = 512 ∧ t.pdIm.length = 512 ∧ shape2 30 3 t.qFract20 = true ∧ shape2 50 3 t.qFract34 = true
    ∧ t.phiFract20.length = 30 ∧ t.phiFract34.length = 50 := by
  simp only [Tables.wf, Bool.and_eq_true, decide_eq_true_eq, beq_iff_eq, List.all_eq_true, and_assoc]

/-- The parts of `HuffTable.wf`. -/
theorem HuffTable.wf_iff (t : HuffTable) : t.wf = true ↔
    (∀ cw ∈ t.code, 1 ≤ cw.2 ∧ cw.1 < 2 ^ cw.2 ∧ cw.2 ≤ 27) ∧ prefixFree t.code = true
    ∧ kraftSum t.code = 2 ^ 27 ∧ t.offset < t.code.length := by
  simp only [HuffTable.wf, Bool.and_eq_true, decide_eq_true_eq, beq_iff_eq, List.all_eq_true, and_assoc]

theorem Config.wf_tables {c : Config} (h : c.wf = true) : c.tables.wf = true := by
  have := (Config.wf_iff c).mp h
  tauto

/-- Every table a family uses is conforming. -/
theorem tableFor_wf {c : Config} (h : c.wf = true) (f : Family) (dt q : Bool) : (tableFor c f dt q).wf = true := by
  have ht := (Tables.wf_iff _).mp (Config.wf_tables h)
  obtain ⟨_, _, _, _, _, _, _, hl, hw, _⟩ := ht
  unfold tableFor
  have : tableId f dt q < 10 := by cases f <;> cases dt <;> cases q <;> decide
  rw [List.getD_eq_getElem _ _ (by omega)]
  exact hw _ (List.getElem_mem _)

/-- A parameter band of a hybrid subband is one of the resolution. -/
theorem kToI_lt {c : Config} (h : c.wf = true) (is34 : Bool) {k : Nat} (hk : k < nrBands is34) :
    kToI c is34 k < nrParBands is34 := by
  have ht := (Tables.wf_iff _).mp (Config.wf_tables h)
  obtain ⟨_, _, _, _, _, _, _, _, _, l20, w20, l34, w34, _⟩ := ht
  unfold kToI
  cases is34
  · simp only [nrBands, nrParBands, Bool.false_eq_true, if_false] at hk ⊢
    rw [List.getD_eq_getElem _ _ (by omega)]
    exact w20 _ (List.getElem_mem _)
  · simp only [nrBands, nrParBands, if_true] at hk ⊢
    rw [List.getD_eq_getElem _ _ (by omega)]
    exact w34 _ (List.getElem_mem _)

/-- The band counts of the legal modes. -/
theorem mode_counts {c : Config} (h : c.wf = true) {m : Nat} (hm : m ≤ 5) :
    [10, 20, 34].contains (c.tables.nrIidIcc.getD m 0) = true ∧ [5, 11, 17].contains (c.tables.nrIpdOpd.getD m 0) = true := by
  have ht := (Tables.wf_iff _).mp (Config.wf_tables h)
  obtain ⟨l1, w1, _, l2, w2, _⟩ := ht
  rw [List.getD_eq_getElem _ _ (by omega), List.getD_eq_getElem _ _ (by omega)]
  exact ⟨w1 _ (List.getElem_mem _), w2 _ (List.getElem_mem _)⟩

/-- Mode 0 is ten bands, coarse. -/
theorem mode_zero {c : Config} (h : c.wf = true) :
    c.tables.nrIidIcc.getD 0 0 = 10 ∧ c.tables.iidQuant.getD 0 false = false := by
  have ht := (Tables.wf_iff _).mp (Config.wf_tables h)
  obtain ⟨_, _, h0, _, _, l, hq, _⟩ := ht
  refine ⟨h0, ?_⟩
  rw [List.getD_eq_getElem _ _ (by omega)] at hq ⊢
  exact hq

end Sys2Proof
end

