-- ==== Sys2Proof/Laws/Memory.lean ====
section
/-! SUPPORT. The laws of the bitstream memory and of the arrays. -/

namespace Sys2Proof.Machine

/-! ## Bytes -/

/-- A read after a write: the written byte at its address, the old one elsewhere. -/
theorem memRead_memWrite (pad : Pad) (m : Memory) (a b : Nat) (v : Byte) (h : Memory.wf pad m = true) :
    memRead pad (memWrite pad m a v) b = if b = a then v else memRead pad m b := by
  induction m with
  | nil =>
    by_cases hb : b = a
    · subst hb
      by_cases hv : v = padByte pad b <;> simp [memWrite, memRead, hv]
    · by_cases hv : v = padByte pad a <;> simp [memWrite, memRead, hv, hb, Ne.symm hb]
  | cons x m ih =>
    obtain ⟨k, w⟩ := x
    simp only [Memory.wf, Bool.and_eq_true, decide_eq_true_eq] at h
    obtain ⟨⟨hw, hk⟩, hm⟩ := h
    have above : ∀ c, c ≤ k → memRead pad m c = padByte pad c := by
      intro c hc
      clear ih hm
      induction m with
      | nil => rfl
      | cons y m ih =>
        simp only [memAbove, List.all_cons, Bool.and_eq_true, decide_eq_true_eq] at hk
        have : y.1 ≠ c := by omega
        simp only [memRead, this, if_false]
        exact ih (by simpa [memAbove] using hk.2)
    simp only [memWrite]
    split
    · next hlt =>
      by_cases hb : b = a
      · subst hb
        by_cases hv : v = padByte pad b
        · have : k ≠ b := by omega
          simp [hv, memRead, this, above b (by omega)]
        · simp [hv, memRead]
      · by_cases hv : v = padByte pad a
        · simp [hv, memRead, hb]
        · simp [hv, memRead, hb, Ne.symm hb]
    · split
      · next h1 h2 =>
        subst h2
        by_cases hb : b = a
        · subst hb
          by_cases hv : v = padByte pad b
          · simp [hv, above b (le_refl b)]
          · simp [hv, memRead]
        · by_cases hv : v = padByte pad a <;> simp [hv, memRead, hb, Ne.symm hb]
      · next h1 h2 =>
        by_cases hb : k = b
        · subst hb
          simp [memRead, Ne.symm h2]
        · simp [memRead, hb, ih hm]

theorem memAbove_cons (k : Nat) (x : Host.Cell) (m : Memory) :
    memAbove k (x :: m) = true ↔ k < x.1 ∧ memAbove k m = true := by
  unfold memAbove
  rw [List.all_cons, Bool.and_eq_true, decide_eq_true_eq]

/-- What a write leaves above an address. -/
theorem memAbove_memWrite (pad : Pad) (m : Memory) (a k : Nat) (v : Byte) (hk : memAbove k m = true) (ha : k < a) :
    memAbove k (memWrite pad m a v) = true := by
  induction m with
  | nil => by_cases hv : v = padByte pad a <;> simp [memWrite, memAbove, hv, ha]
  | cons x m ih =>
    obtain ⟨j, w⟩ := x
    rw [memAbove_cons] at hk
    simp only [memWrite]
    split_ifs <;> simp only [memAbove_cons, hk.1, hk.2, ha, ih hk.2, and_self]

/-- A write keeps the canonical form. -/
theorem memWrite_wf (pad : Pad) (m : Memory) (a : Nat) (v : Byte) (h : Memory.wf pad m = true) :
    Memory.wf pad (memWrite pad m a v) = true := by
  induction m with
  | nil => by_cases hv : v = padByte pad a <;> simp [memWrite, Memory.wf, memAbove, hv]
  | cons x m ih =>
    obtain ⟨k, w⟩ := x
    simp only [Memory.wf, Bool.and_eq_true, decide_eq_true_eq] at h
    obtain ⟨⟨hw, hk⟩, hm⟩ := h
    have trans : ∀ j, j ≤ k → memAbove j m = true := by
      intro j hj
      simp only [memAbove, List.all_eq_true, decide_eq_true_eq] at hk ⊢
      intro y hy
      have := hk y hy
      omega
    simp only [memWrite]
    split
    · next hlt =>
      by_cases hv : v = padByte pad a
      · simp [hv, Memory.wf, hw, hk, hm]
      · have := trans a (by omega)
        simp only [memAbove] at this hk
        simp [hv, Memory.wf, hw, hk, hm, memAbove, hlt, this]
    · split
      · next h1 h2 =>
        subst h2
        by_cases hv : v = padByte pad a <;> simp [hv, Memory.wf, hk, hm]
      · next h1 h2 =>
        simp [Memory.wf, hw, ih hm, memAbove_memWrite pad m a k v hk (by omega)]

/-- Memory after reset has the canonical form. -/
theorem reset_memory_wf (c : Config) : Memory.wf c.pad (State.resetWith c).host.bitstream = true := rfl

/-! ## Arrays -/

@[simp] theorem tab_length {α : Type} (n : Nat) (f : Nat → α) : (tab n f).length = n := by simp [tab]

/-- A cell of a computed array. -/
theorem cell_tab {α : Type} (d : α) (n : Nat) (f : Nat → α) (k : Nat) :
    cell d (tab n f) k = if k < n then f k else d := by
  unfold cell tab
  split_ifs with h
  · simp [List.getD, h]
  · simp [List.getD, h]

/-- A cell of an array of equal cells. -/
theorem cell_rep {α : Type} (d x : α) (n k : Nat) : cell d (rep n x) k = if k < n then x else d := by
  unfold cell rep
  split_ifs with h <;> simp [List.getD, h]

/-- A cell after one cell is set. -/
theorem cell_set {α : Type} (d : α) (l : List α) (j k : Nat) (x : α) :
    cell d (l.set j x) k = if j = k ∧ j < l.length then x else cell d l k := by
  unfold cell
  simp only [List.getD, List.getElem?_set]
  by_cases h : j = k
  · subst h
    by_cases hl : j < l.length <;> simp [hl]
  · simp [h]

/-- A cell after every cell is mapped. -/
theorem cell_map {α β : Type} (d : α) (d' : β) (f : α → β) (l : List α) (k : Nat) :
    cell d' (l.map f) k = if k < l.length then f (cell d l k) else d' := by
  unfold cell
  split_ifs with h
  · simp [List.getD, h]
  · simp [List.getD, h]

/-- A cell after one cell is changed. -/
theorem cell_upd {α : Type} (d : α) (l : List α) (j k : Nat) (f : α → α) :
    cell d (upd l j f) k = if j = k ∧ j < l.length then f (cell d l k) else cell d l k := by
  unfold cell upd
  simp only [List.getD, List.getElem?_modify]
  by_cases h : j = k
  · subst h
    by_cases hl : j < l.length
    · simp [hl]
    · simp [hl]
  · simp [h]

@[simp] theorem upd_length {α : Type} (l : List α) (k : Nat) (f : α → α) : (upd l k f).length = l.length := by
  simp [upd]

/-- A cell outside an array. -/
theorem cell_out {α : Type} (d : α) (l : List α) (k : Nat) (h : l.length ≤ k) : cell d l k = d := by
  simp [cell, List.getD, List.getElem?_eq_none h]

/-- A cell inside an array. -/
theorem cell_in {α : Type} (d : α) (l : List α) (k : Nat) (h : k < l.length) : cell d l k = l[k] := by
  simp [cell, List.getD, h]

/-- The value of a cell after a store into an integer array. -/
theorem cellI_storeI (l : List (List Int)) (e b e' b' : Nat) (v : Int) :
    cellI (storeI l e b v) e' b' =
      if e = e' ∧ b = b' ∧ e < l.length ∧ b < (cell [] l e).length then v else cellI l e' b' := by
  unfold cellI storeI
  rw [cell_upd]
  by_cases h : e = e' ∧ e < l.length
  · obtain ⟨rfl, hl⟩ := h
    simp only [hl, and_self, if_true, cell_set, true_and]
  · rw [if_neg h, if_neg (by tauto)]

/-- Every cell of a zeroed array is zero. -/
theorem cellI_zeroI (l : List (List Int)) (e b : Nat) : cellI (zeroI l) e b = 0 := by
  unfold cellI zeroI
  rw [cell_map (d := [])]
  split_ifs with h
  · rw [cell_map (d := 0)]
    split_ifs <;> rfl
  · rfl

@[simp] theorem storeI_length (l : List (List Int)) (e b : Nat) (v : Int) : (storeI l e b v).length = l.length := by
  simp [storeI]

@[simp] theorem zeroI_length (l : List (List Int)) : (zeroI l).length = l.length := by simp [zeroI]

/-- The length of a row is kept by a store. -/
theorem storeI_row_length (l : List (List Int)) (e b e' : Nat) (v : Int) :
    (cell [] (storeI l e b v) e').length = (cell [] l e').length := by
  unfold storeI
  rw [cell_upd]
  split_ifs <;> simp

/-- The length of a row is kept by zeroing. -/
theorem zeroI_row_length (l : List (List Int)) (e : Nat) : (cell [] (zeroI l) e).length = (cell [] l e).length := by
  unfold zeroI
  rw [cell_map (d := [])]
  split_ifs with h
  · simp
  · simp [cell_out _ _ _ (Nat.le_of_not_lt h)]

end Sys2Proof.Machine
end

