-- ==== Sys2Proof/Laws/State.lean ====
section
/-! SUPPORT. One lemma per field per update of the state record, and of the records inside it. -/

namespace Sys2Proof.Machine

/-! ## withParams -/

@[simp] theorem withParams_cfg (s : State) (q : Params) : (s.withParams q).cfg = s.cfg := rfl
@[simp] theorem withParams_params (s : State) (q : Params) : (s.withParams q).params = q := rfl
@[simp] theorem withParams_dsp (s : State) (q : Params) : (s.withParams q).dsp = s.dsp := rfl
@[simp] theorem withParams_work (s : State) (q : Params) : (s.withParams q).work = s.work := rfl
@[simp] theorem withParams_host (s : State) (q : Params) : (s.withParams q).host = s.host := rfl
@[simp] theorem withParams_tablesReady (s : State) (q : Params) : (s.withParams q).tablesReady = s.tablesReady := rfl
@[simp] theorem withParams_status (s : State) (q : Params) : (s.withParams q).status = s.status := rfl
@[simp] theorem withParams_parse (s : State) (q : Params) : (s.withParams q).parse = s.parse := rfl
@[simp] theorem withParams_draws (s : State) (q : Params) : (s.withParams q).draws = s.draws := rfl

/-! ## withDsp -/

@[simp] theorem withDsp_cfg (s : State) (d : Dsp) : (s.withDsp d).cfg = s.cfg := rfl
@[simp] theorem withDsp_params (s : State) (d : Dsp) : (s.withDsp d).params = s.params := rfl
@[simp] theorem withDsp_dsp (s : State) (d : Dsp) : (s.withDsp d).dsp = d := rfl
@[simp] theorem withDsp_work (s : State) (d : Dsp) : (s.withDsp d).work = s.work := rfl
@[simp] theorem withDsp_host (s : State) (d : Dsp) : (s.withDsp d).host = s.host := rfl
@[simp] theorem withDsp_tablesReady (s : State) (d : Dsp) : (s.withDsp d).tablesReady = s.tablesReady := rfl
@[simp] theorem withDsp_status (s : State) (d : Dsp) : (s.withDsp d).status = s.status := rfl
@[simp] theorem withDsp_parse (s : State) (d : Dsp) : (s.withDsp d).parse = s.parse := rfl
@[simp] theorem withDsp_draws (s : State) (d : Dsp) : (s.withDsp d).draws = s.draws := rfl

/-! ## withWork -/

@[simp] theorem withWork_cfg (s : State) (w : Work) : (s.withWork w).cfg = s.cfg := rfl
@[simp] theorem withWork_params (s : State) (w : Work) : (s.withWork w).params = s.params := rfl
@[simp] theorem withWork_dsp (s : State) (w : Work) : (s.withWork w).dsp = s.dsp := rfl
@[simp] theorem withWork_work (s : State) (w : Work) : (s.withWork w).work = w := rfl
@[simp] theorem withWork_host (s : State) (w : Work) : (s.withWork w).host = s.host := rfl
@[simp] theorem withWork_tablesReady (s : State) (w : Work) : (s.withWork w).tablesReady = s.tablesReady := rfl
@[simp] theorem withWork_status (s : State) (w : Work) : (s.withWork w).status = s.status := rfl
@[simp] theorem withWork_parse (s : State) (w : Work) : (s.withWork w).parse = s.parse := rfl
@[simp] theorem withWork_draws (s : State) (w : Work) : (s.withWork w).draws = s.draws := rfl

/-! ## withHost -/

@[simp] theorem withHost_cfg (s : State) (h : HostSide) : (s.withHost h).cfg = s.cfg := rfl
@[simp] theorem withHost_params (s : State) (h : HostSide) : (s.withHost h).params = s.params := rfl
@[simp] theorem withHost_dsp (s : State) (h : HostSide) : (s.withHost h).dsp = s.dsp := rfl
@[simp] theorem withHost_work (s : State) (h : HostSide) : (s.withHost h).work = s.work := rfl
@[simp] theorem withHost_host (s : State) (h : HostSide) : (s.withHost h).host = h := rfl
@[simp] theorem withHost_tablesReady (s : State) (h : HostSide) : (s.withHost h).tablesReady = s.tablesReady := rfl
@[simp] theorem withHost_status (s : State) (h : HostSide) : (s.withHost h).status = s.status := rfl
@[simp] theorem withHost_parse (s : State) (h : HostSide) : (s.withHost h).parse = s.parse := rfl
@[simp] theorem withHost_draws (s : State) (h : HostSide) : (s.withHost h).draws = s.draws := rfl

/-! ## withStatus -/

@[simp] theorem withStatus_cfg (s : State) (x : Status) : (s.withStatus x).cfg = s.cfg := rfl
@[simp] theorem withStatus_params (s : State) (x : Status) : (s.withStatus x).params = s.params := rfl
@[simp] theorem withStatus_dsp (s : State) (x : Status) : (s.withStatus x).dsp = s.dsp := rfl
@[simp] theorem withStatus_work (s : State) (x : Status) : (s.withStatus x).work = s.work := rfl
@[simp] theorem withStatus_host (s : State) (x : Status) : (s.withStatus x).host = s.host := rfl
@[simp] theorem withStatus_tablesReady (s : State) (x : Status) : (s.withStatus x).tablesReady = s.tablesReady := rfl
@[simp] theorem withStatus_status (s : State) (x : Status) : (s.withStatus x).status = x := rfl
@[simp] theorem withStatus_parse (s : State) (x : Status) : (s.withStatus x).parse = s.parse := rfl
@[simp] theorem withStatus_draws (s : State) (x : Status) : (s.withStatus x).draws = s.draws := rfl

/-! ## withParse -/

@[simp] theorem withParse_cfg (s : State) (p : Option Parse) : (s.withParse p).cfg = s.cfg := rfl
@[simp] theorem withParse_params (s : State) (p : Option Parse) : (s.withParse p).params = s.params := rfl
@[simp] theorem withParse_dsp (s : State) (p : Option Parse) : (s.withParse p).dsp = s.dsp := rfl
@[simp] theorem withParse_work (s : State) (p : Option Parse) : (s.withParse p).work = s.work := rfl
@[simp] theorem withParse_host (s : State) (p : Option Parse) : (s.withParse p).host = s.host := rfl
@[simp] theorem withParse_tablesReady (s : State) (p : Option Parse) : (s.withParse p).tablesReady = s.tablesReady := rfl
@[simp] theorem withParse_status (s : State) (p : Option Parse) : (s.withParse p).status = s.status := rfl
@[simp] theorem withParse_parse (s : State) (p : Option Parse) : (s.withParse p).parse = p := rfl
@[simp] theorem withParse_draws (s : State) (p : Option Parse) : (s.withParse p).draws = s.draws := rfl

/-! ## goto, popInput -/

@[simp] theorem goto_cfg (s : State) (p : Parse) (ph : Phase) : (s.goto p ph).cfg = s.cfg := rfl
@[simp] theorem goto_params (s : State) (p : Parse) (ph : Phase) : (s.goto p ph).params = s.params := rfl
@[simp] theorem goto_dsp (s : State) (p : Parse) (ph : Phase) : (s.goto p ph).dsp = s.dsp := rfl
@[simp] theorem goto_work (s : State) (p : Parse) (ph : Phase) : (s.goto p ph).work = s.work := rfl
@[simp] theorem goto_host (s : State) (p : Parse) (ph : Phase) : (s.goto p ph).host = s.host := rfl
@[simp] theorem goto_tablesReady (s : State) (p : Parse) (ph : Phase) : (s.goto p ph).tablesReady = s.tablesReady := rfl
@[simp] theorem goto_status (s : State) (p : Parse) (ph : Phase) : (s.goto p ph).status = s.status := rfl
@[simp] theorem goto_parse (s : State) (p : Parse) (ph : Phase) : (s.goto p ph).parse = some { p with phase := ph } := rfl
@[simp] theorem goto_draws (s : State) (p : Parse) (ph : Phase) : (s.goto p ph).draws = s.draws := rfl

@[simp] theorem popInput_cfg (s : State) (l : List HostEvent) : (s.popInput l).cfg = s.cfg := rfl
@[simp] theorem popInput_params (s : State) (l : List HostEvent) : (s.popInput l).params = s.params := rfl
@[simp] theorem popInput_dsp (s : State) (l : List HostEvent) : (s.popInput l).dsp = s.dsp := rfl
@[simp] theorem popInput_work (s : State) (l : List HostEvent) : (s.popInput l).work = s.work := rfl
@[simp] theorem popInput_host (s : State) (l : List HostEvent) : (s.popInput l).host = { s.host with inputs := l } := rfl
@[simp] theorem popInput_tablesReady (s : State) (l : List HostEvent) : (s.popInput l).tablesReady = s.tablesReady := rfl
@[simp] theorem popInput_status (s : State) (l : List HostEvent) : (s.popInput l).status = s.status := rfl
@[simp] theorem popInput_parse (s : State) (l : List HostEvent) : (s.popInput l).parse = s.parse := rfl
@[simp] theorem popInput_draws (s : State) (l : List HostEvent) : (s.popInput l).draws = s.draws := rfl

/-! ## advance, moveCursor -/

@[simp] theorem advance_pos (p : Parse) (n : Nat) : (p.advance n).pos = p.pos + n := rfl
@[simp] theorem advance_budget (p : Parse) (n : Nat) : (p.advance n).budget = p.budget := rfl
@[simp] theorem advance_header (p : Parse) (n : Nat) : (p.advance n).header = p.header := rfl
@[simp] theorem advance_cnt (p : Parse) (n : Nat) : (p.advance n).cnt = p.cnt := rfl
@[simp] theorem advance_extStart (p : Parse) (n : Nat) : (p.advance n).extStart = p.extStart := rfl
@[simp] theorem advance_acc (p : Parse) (n : Nat) : (p.advance n).acc = p.acc := rfl
@[simp] theorem advance_phase (p : Parse) (n : Nat) : (p.advance n).phase = p.phase := rfl

@[simp] theorem moveCursor_hostpos (h : HostSide) (n : Nat) : (h.moveCursor n).hostpos = h.hostpos + n := rfl
@[simp] theorem moveCursor_bitstream (h : HostSide) (n : Nat) : (h.moveCursor n).bitstream = h.bitstream := rfl
@[simp] theorem moveCursor_bufL (h : HostSide) (n : Nat) : (h.moveCursor n).bufL = h.bufL := rfl
@[simp] theorem moveCursor_bufR (h : HostSide) (n : Nat) : (h.moveCursor n).bufR = h.bufR := rfl
@[simp] theorem moveCursor_inputs (h : HostSide) (n : Nat) : (h.moveCursor n).inputs = h.inputs := rfl

/-! ## The error path, RESET, the start of READ_DATA -/

@[simp] theorem errorPath_cfg (c : Cause) (p : Parse) (s : State) : (errorPath c p s).cfg = s.cfg := rfl
@[simp] theorem errorPath_params (c : Cause) (p : Parse) (s : State) : (errorPath c p s).params = { s.params.zeroArrays with start := false } := rfl
@[simp] theorem errorPath_dsp (c : Cause) (p : Parse) (s : State) : (errorPath c p s).dsp = s.dsp := rfl
@[simp] theorem errorPath_work (c : Cause) (p : Parse) (s : State) : (errorPath c p s).work = s.work := rfl
@[simp] theorem errorPath_host (c : Cause) (p : Parse) (s : State) : (errorPath c p s).host = s.host.moveCursor p.budget := rfl
@[simp] theorem errorPath_tablesReady (c : Cause) (p : Parse) (s : State) : (errorPath c p s).tablesReady = s.tablesReady := rfl
@[simp] theorem errorPath_status (c : Cause) (p : Parse) (s : State) : (errorPath c p s).status = .invalidData c := rfl
@[simp] theorem errorPath_parse (c : Cause) (p : Parse) (s : State) : (errorPath c p s).parse = none := rfl
@[simp] theorem errorPath_draws (c : Cause) (p : Parse) (s : State) : (errorPath c p s).draws = s.draws := rfl

@[simp] theorem resetInstance_cfg (s : State) : s.resetInstance.cfg = s.cfg := rfl
@[simp] theorem resetInstance_params (s : State) : s.resetInstance.params = Params.zero s.cfg := rfl
@[simp] theorem resetInstance_dsp (s : State) : s.resetInstance.dsp = Dsp.zero s.cfg := rfl
@[simp] theorem resetInstance_work (s : State) : s.resetInstance.work = Work.zero := rfl
@[simp] theorem resetInstance_host (s : State) : s.resetInstance.host = s.host := rfl
@[simp] theorem resetInstance_tablesReady (s : State) : s.resetInstance.tablesReady = s.tablesReady := rfl
@[simp] theorem resetInstance_status (s : State) : s.resetInstance.status = .ok := rfl
@[simp] theorem resetInstance_parse (s : State) : s.resetInstance.parse = s.parse := rfl
@[simp] theorem resetInstance_draws (s : State) : s.resetInstance.draws = s.draws := rfl

@[simp] theorem beginParse_cfg (n : Nat) (s : State) : (beginParse n s).cfg = s.cfg := rfl
@[simp] theorem beginParse_params (n : Nat) (s : State) : (beginParse n s).params = s.params := rfl
@[simp] theorem beginParse_dsp (n : Nat) (s : State) : (beginParse n s).dsp = s.dsp := rfl
@[simp] theorem beginParse_work (n : Nat) (s : State) : (beginParse n s).work = s.work := rfl
@[simp] theorem beginParse_host (n : Nat) (s : State) : (beginParse n s).host = s.host := rfl
@[simp] theorem beginParse_tablesReady (n : Nat) (s : State) : (beginParse n s).tablesReady = s.tablesReady := rfl
@[simp] theorem beginParse_status (n : Nat) (s : State) : (beginParse n s).status = s.status := rfl
@[simp] theorem beginParse_draws (n : Nat) (s : State) : (beginParse n s).draws = s.draws := rfl
@[simp] theorem beginParse_parse (n : Nat) (s : State) :
    (beginParse n s).parse = some ⟨s.host.hostpos, n, false, 0, 0, 0, .psHeader⟩ := rfl

/-! ## The remap commands -/

@[simp] theorem remap_cfg (s : State) (map : Option (List Int → Bool → List Int)) (f : Family) (n : Nat)
    (full : Bool) : (s.remap map f n full).cfg = s.cfg := rfl
@[simp] theorem remap_params (s : State) (map : Option (List Int → Bool → List Int)) (f : Family) (n : Nat)
    (full : Bool) : (s.remap map f n full).params = s.params := rfl
@[simp] theorem remap_dsp (s : State) (map : Option (List Int → Bool → List Int)) (f : Family) (n : Nat)
    (full : Bool) : (s.remap map f n full).dsp = s.dsp := rfl
@[simp] theorem remap_work (s : State) (map : Option (List Int → Bool → List Int)) (f : Family) (n : Nat)
    (full : Bool) : (s.remap map f n full).work =
    { s.work with
      mapped := s.work.mapped.setRows f
        (remapRows map (s.params.par f) (sourceRow s.draws (s.params.par f)) n full) } := rfl
@[simp] theorem remap_host (s : State) (map : Option (List Int → Bool → List Int)) (f : Family) (n : Nat)
    (full : Bool) : (s.remap map f n full).host = s.host := rfl
@[simp] theorem remap_tablesReady (s : State) (map : Option (List Int → Bool → List Int)) (f : Family) (n : Nat)
    (full : Bool) : (s.remap map f n full).tablesReady = s.tablesReady := rfl
@[simp] theorem remap_status (s : State) (map : Option (List Int → Bool → List Int)) (f : Family) (n : Nat)
    (full : Bool) : (s.remap map f n full).status = .ok := rfl
@[simp] theorem remap_parse (s : State) (map : Option (List Int → Bool → List Int)) (f : Family) (n : Nat)
    (full : Bool) : (s.remap map f n full).parse = s.parse := rfl
@[simp] theorem remap_draws (s : State) (map : Option (List Int → Bool → List Int)) (f : Family) (n : Nat)
    (full : Bool) : (s.remap map f n full).draws = s.draws + 1 := rfl

@[simp] theorem remapVal_cfg (s : State) (f : List PsNum → List PsNum) (r : RowRef) :
    (s.remapVal f r).cfg = s.cfg := rfl
@[simp] theorem remapVal_params (s : State) (f : List PsNum → List PsNum) (r : RowRef) :
    (s.remapVal f r).params = s.params := rfl
@[simp] theorem remapVal_dsp (s : State) (f : List PsNum → List PsNum) (r : RowRef) :
    (s.remapVal f r).dsp = s.dsp.setRow r (f (s.dsp.row r)) := rfl
@[simp] theorem remapVal_work (s : State) (f : List PsNum → List PsNum) (r : RowRef) :
    (s.remapVal f r).work = s.work := rfl
@[simp] theorem remapVal_host (s : State) (f : List PsNum → List PsNum) (r : RowRef) :
    (s.remapVal f r).host = s.host := rfl
@[simp] theorem remapVal_tablesReady (s : State) (f : List PsNum → List PsNum) (r : RowRef) :
    (s.remapVal f r).tablesReady = s.tablesReady := rfl
@[simp] theorem remapVal_status (s : State) (f : List PsNum → List PsNum) (r : RowRef) :
    (s.remapVal f r).status = .ok := rfl
@[simp] theorem remapVal_parse (s : State) (f : List PsNum → List PsNum) (r : RowRef) :
    (s.remapVal f r).parse = s.parse := rfl
@[simp] theorem remapVal_draws (s : State) (f : List PsNum → List PsNum) (r : RowRef) :
    (s.remapVal f r).draws = s.draws := rfl

/-! ## PSParameters by family -/

@[simp] theorem setPar_enableIid (q : Params) (f : Family) (x : List (List Int)) : (q.setPar f x).enableIid = q.enableIid := by
  cases f <;> rfl
@[simp] theorem setPar_enableIcc (q : Params) (f : Family) (x : List (List Int)) : (q.setPar f x).enableIcc = q.enableIcc := by
  cases f <;> rfl
@[simp] theorem setPar_enableExt (q : Params) (f : Family) (x : List (List Int)) : (q.setPar f x).enableExt = q.enableExt := by
  cases f <;> rfl
@[simp] theorem setPar_enableIpdopd (q : Params) (f : Family) (x : List (List Int)) : (q.setPar f x).enableIpdopd = q.enableIpdopd := by
  cases f <;> rfl
@[simp] theorem setPar_iidQuant (q : Params) (f : Family) (x : List (List Int)) : (q.setPar f x).iidQuant = q.iidQuant := by
  cases f <;> rfl
@[simp] theorem setPar_iccMode (q : Params) (f : Family) (x : List (List Int)) : (q.setPar f x).iccMode = q.iccMode := by
  cases f <;> rfl
@[simp] theorem setPar_frameClass (q : Params) (f : Family) (x : List (List Int)) : (q.setPar f x).frameClass = q.frameClass := by
  cases f <;> rfl
@[simp] theorem setPar_nrIidPar (q : Params) (f : Family) (x : List (List Int)) : (q.setPar f x).nrIidPar = q.nrIidPar := by
  cases f <;> rfl
@[simp] theorem setPar_nrIccPar (q : Params) (f : Family) (x : List (List Int)) : (q.setPar f x).nrIccPar = q.nrIccPar := by
  cases f <;> rfl
@[simp] theorem setPar_nrIpdopdPar (q : Params) (f : Family) (x : List (List Int)) : (q.setPar f x).nrIpdopdPar = q.nrIpdopdPar := by
  cases f <;> rfl
@[simp] theorem setPar_numEnv (q : Params) (f : Family) (x : List (List Int)) : (q.setPar f x).numEnv = q.numEnv := by
  cases f <;> rfl
@[simp] theorem setPar_numEnvOld (q : Params) (f : Family) (x : List (List Int)) : (q.setPar f x).numEnvOld = q.numEnvOld := by
  cases f <;> rfl
@[simp] theorem setPar_borderPosition (q : Params) (f : Family) (x : List (List Int)) : (q.setPar f x).borderPosition = q.borderPosition := by
  cases f <;> rfl
@[simp] theorem setPar_is34bands (q : Params) (f : Family) (x : List (List Int)) : (q.setPar f x).is34bands = q.is34bands := by
  cases f <;> rfl
@[simp] theorem setPar_is34bandsOld (q : Params) (f : Family) (x : List (List Int)) : (q.setPar f x).is34bandsOld = q.is34bandsOld := by
  cases f <;> rfl
@[simp] theorem setPar_start (q : Params) (f : Family) (x : List (List Int)) : (q.setPar f x).start = q.start := by
  cases f <;> rfl

@[simp] theorem setPar_par_same (q : Params) (f : Family) (x : List (List Int)) : (q.setPar f x).par f = x := by
  cases f <;> rfl

theorem setPar_par_other (q : Params) (f g : Family) (x : List (List Int)) (h : g ≠ f) :
    (q.setPar f x).par g = q.par g := by
  cases f <;> cases g <;> first | rfl | exact absurd rfl h

@[simp] theorem setPar_nrPar (q : Params) (f g : Family) (x : List (List Int)) :
    (q.setPar f x).nrPar g = q.nrPar g := by
  cases f <;> cases g <;> rfl

@[simp] theorem zeroArrays_enableIid (q : Params) : q.zeroArrays.enableIid = q.enableIid := rfl
@[simp] theorem zeroArrays_enableIcc (q : Params) : q.zeroArrays.enableIcc = q.enableIcc := rfl
@[simp] theorem zeroArrays_enableExt (q : Params) : q.zeroArrays.enableExt = q.enableExt := rfl
@[simp] theorem zeroArrays_enableIpdopd (q : Params) : q.zeroArrays.enableIpdopd = q.enableIpdopd := rfl
@[simp] theorem zeroArrays_iidQuant (q : Params) : q.zeroArrays.iidQuant = q.iidQuant := rfl
@[simp] theorem zeroArrays_iccMode (q : Params) : q.zeroArrays.iccMode = q.iccMode := rfl
@[simp] theorem zeroArrays_frameClass (q : Params) : q.zeroArrays.frameClass = q.frameClass := rfl
@[simp] theorem zeroArrays_nrIidPar (q : Params) : q.zeroArrays.nrIidPar = q.nrIidPar := rfl
@[simp] theorem zeroArrays_nrIccPar (q : Params) : q.zeroArrays.nrIccPar = q.nrIccPar := rfl
@[simp] theorem zeroArrays_nrIpdopdPar (q : Params) : q.zeroArrays.nrIpdopdPar = q.nrIpdopdPar := rfl
@[simp] theorem zeroArrays_numEnv (q : Params) : q.zeroArrays.numEnv = q.numEnv := rfl
@[simp] theorem zeroArrays_numEnvOld (q : Params) : q.zeroArrays.numEnvOld = q.numEnvOld := rfl
@[simp] theorem zeroArrays_borderPosition (q : Params) : q.zeroArrays.borderPosition = q.borderPosition := rfl
@[simp] theorem zeroArrays_is34bands (q : Params) : q.zeroArrays.is34bands = q.is34bands := rfl
@[simp] theorem zeroArrays_is34bandsOld (q : Params) : q.zeroArrays.is34bandsOld = q.is34bandsOld := rfl
@[simp] theorem zeroArrays_start (q : Params) : q.zeroArrays.start = q.start := rfl

@[simp] theorem zeroArrays_par (q : Params) (f : Family) : q.zeroArrays.par f = zeroI (q.par f) := by
  cases f <;> rfl

/-! ## Matrices, host buffers and remapped rows -/

@[simp] theorem setMat_same (d : Dsp) (x : Mat) (h : List (List (List PsNum))) : (d.setMat x h).mat x = h := by
  cases x <;> rfl

theorem setMat_other (d : Dsp) (x y : Mat) (h : List (List (List PsNum))) (hy : y ≠ x) :
    (d.setMat x h).mat y = d.mat y := by
  cases x <;> cases y <;> first | rfl | exact absurd rfl hy

@[simp] theorem setBuf_same (h : HostSide) (b : HostBuf) (x : List (List (List PsNum))) :
    (h.setBuf b x).buf b = x := by
  cases b <;> rfl

theorem setBuf_other (h : HostSide) (b b' : HostBuf) (x : List (List (List PsNum))) (hb : b' ≠ b) :
    (h.setBuf b x).buf b' = h.buf b' := by
  cases b <;> cases b' <;> first | rfl | exact absurd rfl hb

@[simp] theorem setBuf_hostpos (h : HostSide) (b : HostBuf) (x : List (List (List PsNum))) :
    (h.setBuf b x).hostpos = h.hostpos := by
  cases b <;> rfl
@[simp] theorem setBuf_bitstream (h : HostSide) (b : HostBuf) (x : List (List (List PsNum))) :
    (h.setBuf b x).bitstream = h.bitstream := by
  cases b <;> rfl
@[simp] theorem setBuf_inputs (h : HostSide) (b : HostBuf) (x : List (List (List PsNum))) :
    (h.setBuf b x).inputs = h.inputs := by
  cases b <;> rfl
@[simp] theorem setMat_ipdHist (d : Dsp) (x : Mat) (h : List (List (List PsNum))) :
    (d.setMat x h).ipdHist = d.ipdHist := by
  cases x <;> rfl
@[simp] theorem setMat_opdHist (d : Dsp) (x : Mat) (h : List (List (List PsNum))) :
    (d.setMat x h).opdHist = d.opdHist := by
  cases x <;> rfl
@[simp] theorem setMat_delay (d : Dsp) (x : Mat) (h : List (List (List PsNum))) :
    (d.setMat x h).delay = d.delay := by
  cases x <;> rfl
@[simp] theorem setMat_apDelay (d : Dsp) (x : Mat) (h : List (List (List PsNum))) :
    (d.setMat x h).apDelay = d.apDelay := by
  cases x <;> rfl
@[simp] theorem setMat_peakDecayNrg (d : Dsp) (x : Mat) (h : List (List (List PsNum))) :
    (d.setMat x h).peakDecayNrg = d.peakDecayNrg := by
  cases x <;> rfl
@[simp] theorem setMat_powerSmooth (d : Dsp) (x : Mat) (h : List (List (List PsNum))) :
    (d.setMat x h).powerSmooth = d.powerSmooth := by
  cases x <;> rfl
@[simp] theorem setMat_peakDecayDiffSmooth (d : Dsp) (x : Mat) (h : List (List (List PsNum))) :
    (d.setMat x h).peakDecayDiffSmooth = d.peakDecayDiffSmooth := by
  cases x <;> rfl
@[simp] theorem setMat_inBuf (d : Dsp) (x : Mat) (h : List (List (List PsNum))) :
    (d.setMat x h).inBuf = d.inBuf := by
  cases x <;> rfl
@[simp] theorem mapMats_ipdHist (d : Dsp) (f : List (List (List PsNum)) → List (List (List PsNum))) :
    (d.mapMats f).ipdHist = d.ipdHist := rfl
@[simp] theorem mapMats_opdHist (d : Dsp) (f : List (List (List PsNum)) → List (List (List PsNum))) :
    (d.mapMats f).opdHist = d.opdHist := rfl
@[simp] theorem mapMats_delay (d : Dsp) (f : List (List (List PsNum)) → List (List (List PsNum))) :
    (d.mapMats f).delay = d.delay := rfl
@[simp] theorem mapMats_apDelay (d : Dsp) (f : List (List (List PsNum)) → List (List (List PsNum))) :
    (d.mapMats f).apDelay = d.apDelay := rfl
@[simp] theorem mapMats_peakDecayNrg (d : Dsp) (f : List (List (List PsNum)) → List (List (List PsNum))) :
    (d.mapMats f).peakDecayNrg = d.peakDecayNrg := rfl
@[simp] theorem mapMats_powerSmooth (d : Dsp) (f : List (List (List PsNum)) → List (List (List PsNum))) :
    (d.mapMats f).powerSmooth = d.powerSmooth := rfl
@[simp] theorem mapMats_peakDecayDiffSmooth (d : Dsp) (f : List (List (List PsNum)) → List (List (List PsNum))) :
    (d.mapMats f).peakDecayDiffSmooth = d.peakDecayDiffSmooth := rfl
@[simp] theorem mapMats_inBuf (d : Dsp) (f : List (List (List PsNum)) → List (List (List PsNum))) :
    (d.mapMats f).inBuf = d.inBuf := rfl

@[simp] theorem mapMats_mat (d : Dsp) (f : List (List (List PsNum)) → List (List (List PsNum))) (x : Mat) :
    (d.mapMats f).mat x = f (d.mat x) := by
  cases x <;> rfl

@[simp] theorem setRows_same (m : Mapped) (f : Family) (x : List (List Int)) : (m.setRows f x).rows f = x := by
  cases f <;> rfl

theorem setRows_other (m : Mapped) (f g : Family) (x : List (List Int)) (h : g ≠ f) :
    (m.setRows f x).rows g = m.rows g := by
  cases f <;> cases g <;> first | rfl | exact absurd rfl h

end Sys2Proof.Machine
end

