-- ==== Sys2Proof/Laws/Ops.lean ====
section
/-! SUPPORT. For each shared operation, what it can do, said once. -/

namespace Sys2Proof.Machine

/-! ## The guards -/

theorem whenIdle_eq {s : State} {k : State → Out} (h : s.parse = none) : whenIdle s k = k s := by
  simp [whenIdle, h]

theorem whenIdle_busy {s : State} {k : State → Out} {p : Parse} (h : s.parse = some p) :
    whenIdle s k = .refused .commandInProgress := by
  simp [whenIdle, h]

theorem command_eq {s : State} {k : State → Out} (h : s.ready) : command s k = k s := by
  simp [command, whenIdle, h.1, h.2]

/-- What a command can do: it runs from a ready state, or is refused. -/
theorem command_cases (s : State) (k : State → Out) :
    (s.ready ∧ command s k = k s)
      ∨ (s.parse.isSome = true ∧ command s k = .refused .commandInProgress)
      ∨ (s.parse = none ∧ s.tablesReady = false ∧ command s k = .refused .tablesNotReady) := by
  unfold command whenIdle State.ready
  rcases hp : s.parse with _ | p <;> rcases ht : s.tablesReady <;> simp [ht]

theorem command_next {s t : State} {k : State → Out} (h : command s k = .next t) : s.ready ∧ k s = .next t := by
  rcases command_cases s k with ⟨hr, he⟩ | ⟨_, he⟩ | ⟨_, _, he⟩
  · exact ⟨hr, he ▸ h⟩
  · rw [he] at h; cases h
  · rw [he] at h; cases h

theorem element_eq {s : State} {k : Parse → Phase → Option Out} {p : Parse} {o : Out} (hp : s.parse = some p)
    (hk : k p p.phase = some o) : element s k = o := by
  simp [element, hp, hk]

/-- What an element can do: it runs at its place, or is refused. -/
theorem element_cases (s : State) (k : Parse → Phase → Option Out) :
    (∃ p o, s.parse = some p ∧ k p p.phase = some o ∧ element s k = o)
      ∨ element s k = .refused .elementOutOfPlace := by
  unfold element
  rcases s.parse with _ | p
  · exact .inr rfl
  · rcases h : k p p.phase with _ | o
    · exact .inr (by simp [h])
    · exact .inl ⟨p, o, rfl, h, by simp [h]⟩

theorem element_next {s t : State} {k : Parse → Phase → Option Out} (h : element s k = .next t) :
    ∃ p, s.parse = some p ∧ k p p.phase = some (.next t) := by
  rcases element_cases s k with ⟨p, o, hp, hk, he⟩ | he
  · exact ⟨p, hp, by rw [hk, ← he, h]⟩
  · rw [he] at h; cases h

/-! ## What READ_DATA may not touch -/

theorem sameOutside_refl (s : State) : sameOutside s s := ⟨rfl, rfl, rfl, rfl, rfl, rfl⟩

theorem sameOutside_trans {s t u : State} (h : sameOutside s t) (g : sameOutside t u) : sameOutside s u := by
  obtain ⟨h1, h2, h3, h4, h5, h6⟩ := h
  obtain ⟨g1, g2, g3, g4, g5, g6⟩ := g
  refine ⟨g1.trans h1, g2.trans h2, g3.trans h3, g4.trans h4, g5.trans h5, ?_⟩
  rw [g6, h6]

theorem sameOutside_withParams (s : State) (q : Params) : sameOutside s (s.withParams q) := ⟨rfl, rfl, rfl, rfl, rfl, rfl⟩

theorem sameOutside_goto (s : State) (p : Parse) (ph : Phase) : sameOutside s (s.goto p ph) :=
  ⟨rfl, rfl, rfl, rfl, rfl, rfl⟩

theorem sameOutside_errorPath (c : Cause) (p : Parse) (s : State) : sameOutside s (errorPath c p s) :=
  ⟨rfl, rfl, rfl, rfl, rfl, rfl⟩

theorem sameOutside_beginParse (n : Nat) (s : State) : sameOutside s (beginParse n s) := ⟨rfl, rfl, rfl, rfl, rfl, rfl⟩

/-! ## Zeroed arrays -/

theorem allZero_zeroI (l : List (List Int)) : allZero (zeroI l) = true := by
  simp [allZero, zeroI, List.all_eq_true]

theorem allZero_cellI {l : List (List Int)} (h : allZero l = true) (e b : Nat) : cellI l e b = 0 := by
  unfold cellI
  by_cases he : e < l.length
  · rw [cell_in _ _ _ he]
    by_cases hb : b < l[e].length
    · rw [cell_in _ _ _ hb]
      simp only [allZero, List.all_eq_true] at h
      simpa using h l[e] (List.getElem_mem _) _ (List.getElem_mem hb)
    · rw [cell_out _ _ _ (Nat.le_of_not_lt hb)]
  · rw [cell_out _ l _ (Nat.le_of_not_lt he)]
    rfl

/-! ## Where a parse can go -/

/-- The parse has ended: with a commit, or on the error path (`41_parameter_decoder.md` R181, R182). -/
def Ended (p : Parse) (s t : State) : Prop :=
  t.parse = none ∧ sameOutside s t
    ∧ ((∃ n, n ≤ p.budget ∧ t.status = .okBits n ∧ t.host.hostpos = s.host.hostpos + n)
      ∨ (∃ c, t.status = .invalidData c ∧ t.host.hostpos = s.host.hostpos + p.budget ∧ t.params.arraysZero
        ∧ t.params.start = false))

/-- The parse goes on: the working cursor has not moved back, budget, host and status are as they were. -/
def Continues (p : Parse) (s t : State) : Prop :=
  (∃ p', t.parse = some p' ∧ p'.budget = p.budget ∧ p.pos ≤ p'.pos) ∧ sameOutside s t ∧ t.host = s.host
    ∧ t.status = s.status

/-- What an element or a continuation of the parse can do. -/
def Proceeds (p : Parse) (s t : State) : Prop := Continues p s t ∨ Ended p s t

theorem errorPath_ended (c : Cause) (p : Parse) (s : State) : Ended p s (errorPath c p s) :=
  ⟨rfl, sameOutside_errorPath c p s, .inr ⟨c, rfl, rfl,
    ⟨allZero_zeroI _, allZero_zeroI _, allZero_zeroI _, allZero_zeroI _⟩, rfl⟩⟩

theorem commit_ended (p : Parse) (s : State) : Ended p s (commit p s) := by
  unfold commit
  simp only
  split_ifs with h
  · exact ⟨rfl, ⟨rfl, rfl, rfl, rfl, rfl, rfl⟩, .inl ⟨_, h, rfl, rfl⟩⟩
  · exact errorPath_ended _ _ _

theorem Ended_withParams {p : Parse} {s t : State} {q : Params} (h : Ended p (s.withParams q) t) : Ended p s t :=
  ⟨h.1, sameOutside_trans (sameOutside_withParams s q) h.2.1, h.2.2⟩

theorem Proceeds_withParams {p : Parse} {s t : State} {q : Params} (h : Proceeds p (s.withParams q) t) :
    Proceeds p s t := by
  rcases h with ⟨h1, h2, h3, h4⟩ | h
  · exact .inl ⟨h1, sameOutside_trans (sameOutside_withParams s q) h2, h3, h4⟩
  · exact .inr (Ended_withParams h)

/-- A change of the parse's own fields that does not move the cursor back. -/
theorem Proceeds_of {p p' : Parse} {s t : State} (h : Proceeds p' s t) (hb : p'.budget = p.budget)
    (hp : p.pos ≤ p'.pos) : Proceeds p s t := by
  rcases h with ⟨⟨r, h1, h2, h3⟩, h⟩ | h
  · exact .inl ⟨⟨r, h1, h2.trans hb, hp.trans h3⟩, h⟩
  · refine .inr ⟨h.1, h.2.1, ?_⟩
    rw [← hb]
    exact h.2.2

theorem goto_proceeds (p : Parse) (s : State) (ph : Phase) : Proceeds p s (s.goto p ph) :=
  .inl ⟨⟨_, rfl, rfl, le_refl _⟩, sameOutside_goto s p ph, rfl, rfl⟩

theorem concludeParse_ended (p : Parse) (s : State) : Ended p s (concludeParse p s) :=
  Ended_withParams (commit_ended _ _)

theorem finishParse_ended (p : Parse) (s : State) : Ended p s (finishParse p s) := by
  unfold finishParse
  simp only
  split_ifs
  · exact Ended_withParams (errorPath_ended _ _ _)
  · exact Ended_withParams (errorPath_ended _ _ _)
  · exact Ended_withParams (concludeParse_ended _ _)
  · exact concludeParse_ended _ _

theorem extLoop_proceeds (p : Parse) (s : State) : Proceeds p s (extLoop p s) := by
  unfold extLoop
  split_ifs
  · exact goto_proceeds _ _ _
  · exact .inr (errorPath_ended _ _ _)
  · exact goto_proceeds _ _ _

theorem enterExt_proceeds (p : Parse) (s : State) : Proceeds p s (enterExt p s) := by
  unfold enterExt
  split_ifs
  · exact goto_proceeds _ _ _
  · exact .inr (finishParse_ended _ _)

theorem enterIpdRow_proceeds (e : Nat) (p : Parse) (s : State) : Proceeds p s (enterIpdRow e p s) := by
  unfold enterIpdRow
  split_ifs <;> exact goto_proceeds _ _ _

theorem enterIccRow_proceeds (e : Nat) (p : Parse) (s : State) : Proceeds p s (enterIccRow e p s) := by
  unfold enterIccRow
  split_ifs
  · exact goto_proceeds _ _ _
  · exact enterExt_proceeds _ _

theorem enterIcc_proceeds (p : Parse) (s : State) : Proceeds p s (enterIcc p s) := by
  unfold enterIcc
  split_ifs
  · exact enterIccRow_proceeds _ _ _
  · exact Proceeds_withParams (enterExt_proceeds _ _)

theorem enterIidRow_proceeds (e : Nat) (p : Parse) (s : State) : Proceeds p s (enterIidRow e p s) := by
  unfold enterIidRow
  split_ifs
  · exact goto_proceeds _ _ _
  · exact enterIcc_proceeds _ _

theorem enterIid_proceeds (p : Parse) (s : State) : Proceeds p s (enterIid p s) := by
  unfold enterIid
  split_ifs
  · exact enterIidRow_proceeds _ _ _
  · exact Proceeds_withParams (enterIcc_proceeds _ _)

theorem rowDone_proceeds (f : Family) (e : Nat) (p : Parse) (s : State) : Proceeds p s (rowDone f e p s) := by
  cases f
  · exact enterIidRow_proceeds _ _ _
  · exact enterIccRow_proceeds _ _ _
  · exact goto_proceeds _ _ _
  · exact enterIpdRow_proceeds _ _ _

theorem enterBorders_proceeds (p : Parse) (s : State) : Proceeds p s (enterBorders p s) := by
  unfold enterBorders
  simp only
  split_ifs
  · exact Proceeds_withParams (goto_proceeds _ _ _)
  · exact enterIid_proceeds _ _
  · exact Proceeds_withParams (enterIid_proceeds _ _)

theorem startRow_proceeds (f : Family) (e : Nat) (mk : Nat → Phase) (p : Parse) (s : State) :
    Proceeds p s (startRow f e mk p s) := by
  unfold startRow
  simp only
  split_ifs
  · exact Proceeds_of (goto_proceeds _ _ _) rfl (by simp)
  · exact Proceeds_of (rowDone_proceeds _ _ _ _) rfl (by simp)

theorem storeValue_proceeds (f : Family) (e b : Nat) (mk : Nat → Phase) (len : Nat) (v : Int) (p : Parse)
    (s : State) : Proceeds p s (storeValue f e b mk len v p s) := by
  unfold storeValue
  simp only
  split_ifs
  · exact Proceeds_withParams (Proceeds_of (goto_proceeds _ _ _) rfl (by simp))
  · exact Proceeds_withParams (Proceeds_of (rowDone_proceeds _ _ _ _) rfl (by simp))
  · exact Proceeds_withParams (Proceeds_of (.inr (errorPath_ended _ _ _)) rfl (by simp))

/-- What a `VLC` element can do: proceed, or be refused where the table has no codeword for its delta. -/
theorem dataCell_cases (f : Family) (e b : Nat) (dt : Bool) (mk : Nat → Phase) (d : Int) (p : Parse) (s : State) :
    (∃ t, dataCell f e b dt mk d p s = .next t ∧ Proceeds p s t)
      ∨ (codewordOf (tableFor s.cfg f dt s.params.iidQuant) d = none
        ∧ dataCell f e b dt mk d p s = .refused .noCodeword) := by
  unfold dataCell
  rcases h : codewordOf (tableFor s.cfg f dt s.params.iidQuant) d with _ | cw
  · exact .inr ⟨rfl, rfl⟩
  · exact .inl ⟨_, rfl, storeValue_proceeds _ _ _ _ _ _ _ _⟩

end Sys2Proof.Machine
end

