-- ==== Sys2Proof/Laws/Dsp.lean ====
section
/-! SUPPORT. What the shared operations of the sample engines do, cell by cell. -/

namespace Sys2Proof.Machine

/-! ## Hybrid buffers -/

@[simp] theorem hybRows_length (is34 : Bool) (old : List (List Cx)) (f : Nat → Nat → Cx) :
    (hybRows is34 old f).length = hybMax := by simp [hybRows]

theorem nrBands_le (is34 : Bool) : nrBands is34 ≤ hybMax := by cases is34 <;> decide

/-- A row of a rewritten hybrid buffer: computed below `NR_BANDS`, untouched from there on. -/
theorem hybRows_row (is34 : Bool) (old : List (List Cx)) (f : Nat → Nat → Cx) (k : Nat) :
    cell [] (hybRows is34 old f) k
      = if k < nrBands is34 then tab numSlots (f k) else if k < hybMax then cell [] old k else [] := by
  unfold hybRows
  rw [cell_tab]
  have := nrBands_le is34
  split_ifs <;> first | rfl | omega

/-- A computed sample of a hybrid buffer. -/
theorem hybRows_cell (is34 : Bool) (old : List (List Cx)) (f : Nat → Nat → Cx) (k n : Nat)
    (hk : k < nrBands is34) (hn : n < numSlots) : cellC (hybRows is34 old f) k n = f k n := by
  unfold cellC
  rw [hybRows_row, if_pos hk, cell_tab, if_pos hn]

/-- A row of a hybrid buffer from `NR_BANDS` on keeps its content. -/
theorem hybRows_rest (is34 : Bool) (old : List (List Cx)) (f : Nat → Nat → Cx) (k : Nat)
    (hk : nrBands is34 ≤ k) (ho : old.length ≤ hybMax) : cell [] (hybRows is34 old f) k = cell [] old k := by
  rw [hybRows_row, if_neg (by omega)]
  split_ifs with h
  · rfl
  · exact (cell_out _ _ _ (by omega)).symm

/-! ## Delay lines -/

@[simp] theorem shiftDelay_length (c : Config) (row inp : List Cx) :
    (shiftDelay c row inp).length = c.maxDelay + 32 := by simp [shiftDelay]

/-- The old part of a shifted delay line (R247). -/
theorem shiftDelay_old (c : Config) (row inp : List Cx) (t : Nat) (ht : t < c.maxDelay) :
    cell Cx.zero (shiftDelay c row inp) t = cell Cx.zero row (t + 32) := by
  unfold shiftDelay
  rw [cell_tab, if_pos (by omega), if_pos ht]

/-- The new part of a shifted delay line (R247). -/
theorem shiftDelay_new (c : Config) (row inp : List Cx) (n : Nat) (hn : n < 32) :
    cell Cx.zero (shiftDelay c row inp) (c.maxDelay + n) = cell Cx.zero inp n := by
  unfold shiftDelay
  rw [cell_tab, if_pos (by omega), if_neg (by omega), Nat.add_sub_cancel_left]

@[simp] theorem shiftApDelay_length (c : Config) (row : List Cx) :
    (shiftApDelay c row).length = c.maxApDelay + 32 := by simp [shiftApDelay]

/-- The history part of a shifted all-pass delay line (R248). -/
theorem shiftApDelay_old (c : Config) (row : List Cx) (t : Nat) (ht : t < c.maxApDelay) :
    cell Cx.zero (shiftApDelay c row) t = cell Cx.zero row (t + 32) := by
  unfold shiftApDelay
  rw [cell_tab, if_pos (by omega), if_pos ht]

/-! ## The all-pass cascade -/

/-- One link writes one cell of its delay line. -/
theorem allpassLink_line (c : Config) (is34 : Bool) (k n m : Nat) (x : Cx) (line : List Cx) (t : Nat)
    (ht : t ≠ c.maxApDelay + n) :
    cell Cx.zero (allpassLink c is34 k n m x line).2 t = cell Cx.zero line t := by
  simp only [allpassLink]
  rw [cell_set, if_neg (by omega)]

@[simp] theorem allpassLink_length (c : Config) (is34 : Bool) (k n m : Nat) (x : Cx) (line : List Cx) :
    (allpassLink c is34 k n m x line).2.length = line.length := by simp [allpassLink]

/-- The links `ms` at one sample write only the cell of that sample in each delay line. -/
theorem allpassLinks_lines (c : Config) (is34 : Bool) (k n : Nat) (ms : List Nat) (a : Cx × List (List Cx)) :
    let r := ms.foldl (fun a m =>
      let r := allpassLink c is34 k n m a.1 (cell [] a.2 m)
      (r.1, a.2.set m r.2)) a
    r.2.length = a.2.length
      ∧ (∀ j, (cell [] r.2 j).length = (cell [] a.2 j).length)
      ∧ ∀ j t, t ≠ c.maxApDelay + n → cellC r.2 j t = cellC a.2 j t := by
  induction ms generalizing a with
  | nil => exact ⟨rfl, fun _ => rfl, fun _ _ _ => rfl⟩
  | cons m ms ih =>
    obtain ⟨h1, h2, h3⟩ := ih ((allpassLink c is34 k n m a.1 (cell [] a.2 m)).1,
      a.2.set m (allpassLink c is34 k n m a.1 (cell [] a.2 m)).2)
    refine ⟨?_, fun j => ?_, fun j t ht => ?_⟩
    · exact h1.trans (by simp)
    · refine (h2 j).trans ?_
      simp only [cell_set]
      split_ifs with hj
      · rw [← hj.1]; simp
      · rfl
    · refine (h3 j t ht).trans ?_
      unfold cellC
      simp only [cell_set]
      split_ifs with hj
      · rw [← hj.1]
        exact allpassLink_line c is34 k n m a.1 _ t ht
      · rfl

theorem allpassSample_lines (c : Config) (is34 : Bool) (k n : Nat) (row : List Cx) (lines : List (List Cx)) :
    (allpassSample c is34 k n row lines).2.length = lines.length
      ∧ (∀ j, (cell [] (allpassSample c is34 k n row lines).2 j).length = (cell [] lines j).length)
      ∧ ∀ j t, t ≠ c.maxApDelay + n → cellC (allpassSample c is34 k n row lines).2 j t = cellC lines j t :=
  allpassLinks_lines c is34 k n (List.range apLinks) (_, lines)

/-- The samples from slot `n` on leave the cells before it alone. -/
theorem allpassSamples_lines (c : Config) (is34 : Bool) (k : Nat) (row : List Cx) (fuel n : Nat)
    (lines : List (List Cx)) :
    (allpassSamples c is34 k row fuel n lines).1.length = fuel
      ∧ (allpassSamples c is34 k row fuel n lines).2.length = lines.length
      ∧ (∀ j, (cell [] (allpassSamples c is34 k row fuel n lines).2 j).length = (cell [] lines j).length)
      ∧ ∀ j t, t < c.maxApDelay + n →
        cellC (allpassSamples c is34 k row fuel n lines).2 j t = cellC lines j t := by
  induction fuel generalizing n lines with
  | zero => exact ⟨rfl, rfl, fun _ => rfl, fun _ _ _ => rfl⟩
  | succ f ih =>
    obtain ⟨h0, h1, h2, h3⟩ := ih (n + 1) (allpassSample c is34 k n row lines).2
    obtain ⟨g1, g2, g3⟩ := allpassSample_lines c is34 k n row lines
    simp only [allpassSamples]
    refine ⟨by simp [h0], h1.trans g1, fun j => (h2 j).trans (g2 j), fun j t ht => ?_⟩
    exact (h3 j t (by omega)).trans (g3 j t (by omega))

/-- The cascade of a subband: its outputs, and the shape and the history of its delay lines (R248, R250). -/
theorem allpassRow_lines (c : Config) (is34 : Bool) (k : Nat) (row : List Cx) (lines : List (List Cx)) :
    (allpassRow c is34 k row lines).1.length = numSlots
      ∧ (allpassRow c is34 k row lines).2.length = lines.length
      ∧ (∀ j, j < lines.length → (cell [] (allpassRow c is34 k row lines).2 j).length = c.maxApDelay + 32)
      ∧ ∀ j t, j < lines.length → t < c.maxApDelay →
        cellC (allpassRow c is34 k row lines).2 j t = cellC lines j (t + 32) := by
  obtain ⟨h0, h1, h2, h3⟩ := allpassSamples_lines c is34 k row numSlots 0 (lines.map (shiftApDelay c))
  refine ⟨h0, h1.trans (by simp), fun j hj => ?_, fun j t hj ht => ?_⟩
  · refine (h2 j).trans ?_
    rw [cell_map (d := []), if_pos hj]
    simp
  · refine (h3 j t (by omega)).trans ?_
    unfold cellC
    rw [cell_map (d := []), if_pos hj, shiftApDelay_old c _ t ht]

/-! ## The mixing matrices -/

/-- A cell of a matrix after a store into row `[part][slot]`: the new value where there is one (R270, R271). -/
theorem cellN3_storeBands (x : List (List (List PsNum))) (part slot n : Nat) (f : Nat → Option PsNum)
    (p e b : Nat) :
    cellN3 (storeBands x part slot n f) p e b =
      if part = p ∧ slot = e ∧ p < x.length ∧ e < (cell [] x p).length ∧ b < (cell [] (cell [] x p) e).length ∧ b < n
      then (f b).getD (cellN3 x p e b) else cellN3 x p e b := by
  unfold storeBands cellN3
  rw [cell_upd]
  by_cases h : part = p ∧ part < x.length
  · obtain ⟨rfl, hx⟩ := h
    simp only [hx, and_self, if_true, true_and]
    rw [cell_upd]
    by_cases g : slot = e ∧ slot < (cell [] x part).length
    · obtain ⟨rfl, hy⟩ := g
      simp only [hy, and_self, if_true, true_and]
      rw [cell_tab]
      by_cases hb : b < (cell [] (cell [] x part) slot).length
      · simp only [hb, if_true, true_and]
      · simp only [hb, if_false, false_and]
        exact (cell_out _ _ _ (Nat.le_of_not_lt hb)).symm
    · rw [if_neg g, if_neg]
      rintro ⟨rfl, hy, -⟩
      exact g ⟨rfl, hy⟩
  · rw [if_neg h, if_neg]
    rintro ⟨rfl, -, hx, -⟩
    exact h ⟨rfl, hx⟩

/-- The shape of a matrix is kept by a store. -/
theorem storeBands_shape (x : List (List (List PsNum))) (part slot n : Nat) (f : Nat → Option PsNum) :
    (storeBands x part slot n f).length = x.length
      ∧ (∀ p, (cell [] (storeBands x part slot n f) p).length = (cell [] x p).length)
      ∧ ∀ p e, (cell [] (cell [] (storeBands x part slot n f) p) e).length = (cell [] (cell [] x p) e).length := by
  unfold storeBands
  refine ⟨by simp, fun p => ?_, fun p e => ?_⟩
  · rw [cell_upd]
    split_ifs <;> simp
  · rw [cell_upd]
    split_ifs
    · rw [cell_upd]
      split_ifs <;> simp
    · rfl

/-- A matrix after the targets of envelope `e` are stored: only slot `e + 1` of the bands below `NR_PAR_BANDS`
changes. -/
theorem cellN3_storeCoef_other (is34 : Bool) (ts : List (Coef × Option Coef)) (e : Nat) (g : Coef → PsNum)
    (x : List (List (List PsNum))) (p e' b : Nat) (h : e' ≠ e + 1 ∨ nrParBands is34 ≤ b) :
    cellN3 (storeCoef is34 ts e g x) p e' b = cellN3 x p e' b := by
  unfold storeCoef
  simp only
  rw [cellN3_storeBands, if_neg (by omega), cellN3_storeBands, if_neg (by omega)]

/-! ## Envelopes -/

@[simp] theorem storeTargets_rest (c : Config) (q : Params) (is34 : Bool) (m : Mapped) (e : Nat) (d : Dsp) :
    (storeTargets c q is34 m e d).delay = d.delay ∧ (storeTargets c q is34 m e d).apDelay = d.apDelay
      ∧ (storeTargets c q is34 m e d).peakDecayNrg = d.peakDecayNrg
      ∧ (storeTargets c q is34 m e d).powerSmooth = d.powerSmooth
      ∧ (storeTargets c q is34 m e d).peakDecayDiffSmooth = d.peakDecayDiffSmooth
      ∧ (storeTargets c q is34 m e d).inBuf = d.inBuf := ⟨rfl, rfl, rfl, rfl, rfl, rfl⟩

/-- An envelope changes the DSP state by its targets alone. -/
@[simp] theorem mixEnvelope_dsp (c : Config) (q : Params) (is34 : Bool) (m : Mapped) (x : Mix) (e : Nat) :
    (mixEnvelope c q is34 m x e).dsp = storeTargets c q is34 m e x.dsp := rfl

/-- The DSP state after the envelopes `es`. -/
theorem mixEnvelopes_dsp (c : Config) (q : Params) (is34 : Bool) (m : Mapped) (es : List Nat) (x : Mix) :
    (es.foldl (mixEnvelope c q is34 m) x).dsp = es.foldl (fun d e => storeTargets c q is34 m e d) x.dsp := by
  induction es generalizing x with
  | nil => rfl
  | cons e es ih => simp [ih]

/-- The DSP state STEREO_PROCESS leaves. -/
theorem stereo_dsp (c : Config) (q : Params) (is34 : Bool) (m : Mapped) (x : Mix) :
    (stereo c q is34 m x).dsp
      = (List.range q.numEnv).foldl (fun d e => storeTargets c q is34 m e d) (carryOver c q is34 x.dsp) :=
  mixEnvelopes_dsp _ _ _ _ _ _

/-- The targets of the envelopes `es` change only their own slots, in the bands below `NR_PAR_BANDS`. -/
theorem storeTargets_other (c : Config) (q : Params) (is34 : Bool) (m : Mapped) (x : Mat) (part slot k : Nat)
    (es : List Nat) (d : Dsp) (h : ∀ e ∈ es, slot ≠ e + 1 ∨ nrParBands is34 ≤ k) :
    cellN3 ((es.foldl (fun d e => storeTargets c q is34 m e d) d).mat x) part slot k = cellN3 (d.mat x) part slot k := by
  induction es generalizing d with
  | nil => rfl
  | cons e es ih =>
    rw [List.foldl_cons, ih _ fun e' he => h e' (List.mem_cons_of_mem _ he)]
    cases x <;> exact cellN3_storeCoef_other _ _ _ _ _ _ _ _ (h e (List.mem_cons_self ..))

/-- A change of slot 0 in every part of a matrix. -/
theorem cellN3_setSlot0 (x : List (List (List PsNum))) (g : List (List PsNum) → List PsNum) (part slot k : Nat)
    (h : 1 ≤ slot) : cellN3 (x.map fun env => env.set 0 (g env)) part slot k = cellN3 x part slot k := by
  unfold cellN3
  rw [cell_map (d := [])]
  split_ifs with hp
  · rw [cell_set, if_neg (by omega)]
  · rw [cell_out [] x part (by omega)]

/-- The carry-over changes slot 0 of a matrix only (R261, R263). -/
theorem carryOver_other (c : Config) (q : Params) (is34 : Bool) (d : Dsp) (x : Mat) (part slot k : Nat)
    (h : 1 ≤ slot) : cellN3 ((carryOver c q is34 d).mat x) part slot k = cellN3 (d.mat x) part slot k := by
  have copied : ∀ d : Dsp, cellN3 ((d.mapMats (copyForward q.numEnvOld)).mat x) part slot k
      = cellN3 (d.mat x) part slot k := fun d => by
    rw [mapMats_mat]
    exact cellN3_setSlot0 _ (fun env => cell [] env q.numEnvOld) _ _ _ h
  have remapped : ∀ (d : Dsp) f, cellN3 ((d.mapMats (remapSlot0 f)).mat x) part slot k
      = cellN3 (d.mat x) part slot k := fun d f => by
    rw [mapMats_mat]
    exact cellN3_setSlot0 _ (fun env => f (cell [] env 0)) _ _ _ h
  have reset : ∀ (d : Dsp) a b, ({ d with ipdHist := a, opdHist := b } : Dsp).mat x = d.mat x := fun d a b => by
    cases x <;> rfl
  unfold carryOver
  simp only
  split_ifs <;> simp only [reset, remapped, copied]

/-! ## The commands on a ready state -/

theorem execHybridAnalysis_eq {s : State} (h : s.ready) (b : Bool) :
    execHybridAnalysis b s = .next ((s.analysis b).withStatus .ok) := command_eq h

theorem execDecorrelate_eq {s : State} (h : s.ready) (x : HybBuf) (b : Bool) :
    execDecorrelate x b s = .next ((s.decorrelate x b).withStatus .ok) := command_eq h

theorem execStereoProcess_eq {s : State} (h : s.ready) (b : Bool) :
    execStereoProcess b s = .next ((s.stereo b).withStatus .ok) := command_eq h

theorem execHybridSynthesis_eq {s : State} (h : s.ready) (x : HybBuf) (b : Bool) (d : HostBuf) :
    execHybridSynthesis x b d s = .next ((s.synthesis x b d).withStatus .ok) := command_eq h

theorem execApply_eq {s : State} (h : s.ready) (k : Int) :
    execApply k s = if 0 ≤ k ∧ k ≤ 64 then .next ((s.applyFrame k).withStatus .ok) else .refused .topBandOutOfRange :=
  command_eq h

theorem execReset_eq {s : State} (h : s.ready) : execReset s = .next s.resetInstance := command_eq h

end Sys2Proof.Machine
end

