-- ==== Sys2Proof/Laws/Elements.lean ====
section
/-! SUPPORT. What an element can do: it proceeds from the parse in progress, or is refused. -/

namespace Sys2Proof.Machine

/-- A meaning that answers at one place only: the outcome there has the property. -/
theorem element_proceeds {s t : State} {k : Parse → Phase → Option Out} (h : element s k = .next t)
    (hk : ∀ p ph t, k p ph = some (.next t) → Proceeds p s t) : ∃ p, s.parse = some p ∧ Proceeds p s t := by
  obtain ⟨p, hp, he⟩ := element_next h
  exact ⟨p, hp, hk p _ t he⟩

theorem execPsHeader_proceeds {v : Bool} {s t : State} (h : execPsHeader v s = .next t) :
    ∃ p, s.parse = some p ∧ Proceeds p s t := by
  refine element_proceeds h fun p ph u hu => ?_
  cases ph <;> simp only [reduceCtorEq, Option.some.injEq, Host.Outcome.next.injEq] at hu
  subst hu
  exact Proceeds_of (goto_proceeds _ _ _) rfl (by simp)

theorem execEnableIid_proceeds {v : Bool} {s t : State} (h : execEnableIid v s = .next t) :
    ∃ p, s.parse = some p ∧ Proceeds p s t := by
  refine element_proceeds h fun p ph u hu => ?_
  cases ph <;> simp only [reduceCtorEq, Option.some.injEq, Host.Outcome.next.injEq] at hu
  subst hu
  exact Proceeds_withParams (Proceeds_of (goto_proceeds _ _ _) rfl (by simp))

theorem execIidMode_proceeds {m : BitVec 3} {s t : State} (h : execIidMode m s = .next t) :
    ∃ p, s.parse = some p ∧ Proceeds p s t := by
  refine element_proceeds h fun p ph u hu => ?_
  cases ph <;> simp only [reduceCtorEq, Option.some.injEq, Host.Outcome.next.injEq] at hu
  subst hu
  split_ifs
  · exact .inr (errorPath_ended _ _ _)
  · exact Proceeds_withParams (Proceeds_of (goto_proceeds _ _ _) rfl (by simp))

theorem execEnableIcc_proceeds {v : Bool} {s t : State} (h : execEnableIcc v s = .next t) :
    ∃ p, s.parse = some p ∧ Proceeds p s t := by
  refine element_proceeds h fun p ph u hu => ?_
  cases ph <;> simp only [reduceCtorEq, Option.some.injEq, Host.Outcome.next.injEq] at hu
  subst hu
  exact Proceeds_withParams (Proceeds_of (goto_proceeds _ _ _) rfl (by simp))

theorem execIccMode_proceeds {m : BitVec 3} {s t : State} (h : execIccMode m s = .next t) :
    ∃ p, s.parse = some p ∧ Proceeds p s t := by
  refine element_proceeds h fun p ph u hu => ?_
  cases ph <;> simp only [reduceCtorEq, Option.some.injEq, Host.Outcome.next.injEq] at hu
  subst hu
  split_ifs
  · exact .inr (Ended_withParams (errorPath_ended _ _ _))
  · exact Proceeds_withParams (Proceeds_of (goto_proceeds _ _ _) rfl (by simp))

theorem execEnableExt_proceeds {v : Bool} {s t : State} (h : execEnableExt v s = .next t) :
    ∃ p, s.parse = some p ∧ Proceeds p s t := by
  refine element_proceeds h fun p ph u hu => ?_
  cases ph <;> simp only [reduceCtorEq, Option.some.injEq, Host.Outcome.next.injEq] at hu
  subst hu
  exact Proceeds_withParams (Proceeds_of (goto_proceeds _ _ _) rfl (by simp))

theorem execFrameClass_proceeds {v : Bool} {s t : State} (h : execFrameClass v s = .next t) :
    ∃ p, s.parse = some p ∧ Proceeds p s t := by
  refine element_proceeds h fun p ph u hu => ?_
  cases ph <;> simp only [reduceCtorEq, Option.some.injEq, Host.Outcome.next.injEq] at hu
  subst hu
  exact Proceeds_withParams (Proceeds_of (goto_proceeds _ _ _) rfl (by simp))

theorem execNumEnvIdx_proceeds {n : BitVec 2} {s t : State} (h : execNumEnvIdx n s = .next t) :
    ∃ p, s.parse = some p ∧ Proceeds p s t := by
  refine element_proceeds h fun p ph u hu => ?_
  cases ph <;> simp only [reduceCtorEq, Option.some.injEq, Host.Outcome.next.injEq] at hu
  subst hu
  exact Proceeds_withParams (Proceeds_of (enterBorders_proceeds _ _) rfl (by simp))

theorem execBorderPosition_proceeds {b : BitVec 5} {s t : State} (h : execBorderPosition b s = .next t) :
    ∃ p, s.parse = some p ∧ Proceeds p s t := by
  refine element_proceeds h fun p ph u hu => ?_
  cases ph <;> simp only [reduceCtorEq, Option.some.injEq, Host.Outcome.next.injEq] at hu
  subst hu
  split_ifs
  · exact .inr (Ended_withParams (errorPath_ended _ _ _))
  · exact Proceeds_withParams (Proceeds_of (goto_proceeds _ _ _) rfl (by simp))
  · exact Proceeds_withParams (Proceeds_of (enterIid_proceeds _ _) rfl (by simp))

theorem execIidDt_proceeds {dt : Bool} {s t : State} (h : execIidDt dt s = .next t) :
    ∃ p, s.parse = some p ∧ Proceeds p s t := by
  refine element_proceeds h fun p ph u hu => ?_
  cases ph <;> simp only [reduceCtorEq, Option.some.injEq, Host.Outcome.next.injEq] at hu
  subst hu
  exact startRow_proceeds _ _ _ _ _

theorem execIccDt_proceeds {dt : Bool} {s t : State} (h : execIccDt dt s = .next t) :
    ∃ p, s.parse = some p ∧ Proceeds p s t := by
  refine element_proceeds h fun p ph u hu => ?_
  cases ph <;> simp only [reduceCtorEq, Option.some.injEq, Host.Outcome.next.injEq] at hu
  subst hu
  exact startRow_proceeds _ _ _ _ _

theorem execIpdDt_proceeds {dt : Bool} {s t : State} (h : execIpdDt dt s = .next t) :
    ∃ p, s.parse = some p ∧ Proceeds p s t := by
  refine element_proceeds h fun p ph u hu => ?_
  cases ph <;> simp only [reduceCtorEq, Option.some.injEq, Host.Outcome.next.injEq] at hu
  subst hu
  exact startRow_proceeds _ _ _ _ _

theorem execOpdDt_proceeds {dt : Bool} {s t : State} (h : execOpdDt dt s = .next t) :
    ∃ p, s.parse = some p ∧ Proceeds p s t := by
  refine element_proceeds h fun p ph u hu => ?_
  cases ph <;> simp only [reduceCtorEq, Option.some.injEq, Host.Outcome.next.injEq] at hu
  subst hu
  exact startRow_proceeds _ _ _ _ _

/-- A codeword that is stored proceeds. -/
theorem dataCell_proceeds {f : Family} {e b : Nat} {dt : Bool} {mk : Nat → Phase} {d : Int} {p : Parse}
    {s t : State} (h : dataCell f e b dt mk d p s = .next t) : Proceeds p s t := by
  rcases dataCell_cases f e b dt mk d p s with ⟨u, hu, hp⟩ | ⟨_, hu⟩
  · rw [hu] at h; cases h; exact hp
  · rw [hu] at h; cases h

theorem execIidData_proceeds {d : Int} {s t : State} (h : execIidData d s = .next t) :
    ∃ p, s.parse = some p ∧ Proceeds p s t := by
  refine element_proceeds h fun p ph u hu => ?_
  cases ph <;> simp only [reduceCtorEq, Option.some.injEq] at hu
  exact dataCell_proceeds hu

theorem execIccData_proceeds {d : Int} {s t : State} (h : execIccData d s = .next t) :
    ∃ p, s.parse = some p ∧ Proceeds p s t := by
  refine element_proceeds h fun p ph u hu => ?_
  cases ph <;> simp only [reduceCtorEq, Option.some.injEq] at hu
  exact dataCell_proceeds hu

theorem execIpdData_proceeds {d : Int} {s t : State} (h : execIpdData d s = .next t) :
    ∃ p, s.parse = some p ∧ Proceeds p s t := by
  refine element_proceeds h fun p ph u hu => ?_
  cases ph <;> simp only [reduceCtorEq, Option.some.injEq] at hu
  exact dataCell_proceeds hu

theorem execOpdData_proceeds {d : Int} {s t : State} (h : execOpdData d s = .next t) :
    ∃ p, s.parse = some p ∧ Proceeds p s t := by
  refine element_proceeds h fun p ph u hu => ?_
  cases ph <;> simp only [reduceCtorEq, Option.some.injEq] at hu
  exact dataCell_proceeds hu

theorem execExtSize_proceeds {n : BitVec 4} {s t : State} (h : execExtSize n s = .next t) :
    ∃ p, s.parse = some p ∧ Proceeds p s t := by
  refine element_proceeds h fun p ph u hu => ?_
  cases ph <;> simp only [reduceCtorEq, Option.some.injEq, Host.Outcome.next.injEq] at hu
  subst hu
  split_ifs
  · exact Proceeds_of (goto_proceeds _ _ _) rfl (by simp)
  · exact Proceeds_of (extLoop_proceeds _ _) rfl (by simp)

theorem execExtEsc_proceeds {n : BitVec 8} {s t : State} (h : execExtEsc n s = .next t) :
    ∃ p, s.parse = some p ∧ Proceeds p s t := by
  refine element_proceeds h fun p ph u hu => ?_
  cases ph <;> simp only [reduceCtorEq, Option.some.injEq, Host.Outcome.next.injEq] at hu
  subst hu
  exact Proceeds_of (extLoop_proceeds _ _) rfl (by simp)

theorem execExtId_proceeds {id : BitVec 2} {s t : State} (h : execExtId id s = .next t) :
    ∃ p, s.parse = some p ∧ Proceeds p s t := by
  refine element_proceeds h fun p ph u hu => ?_
  cases ph <;> simp only [reduceCtorEq, Option.some.injEq, Host.Outcome.next.injEq] at hu
  subst hu
  split_ifs
  · exact Proceeds_of (goto_proceeds _ _ _) rfl (by simp)
  · exact Proceeds_of (extLoop_proceeds _ _) rfl (by simp)

theorem execExtFill_proceeds {s t : State} (h : execExtFill s = .next t) :
    ∃ p, s.parse = some p ∧ Proceeds p s t := by
  refine element_proceeds h fun p ph u hu => ?_
  cases ph <;> simp only [reduceCtorEq, Option.some.injEq, Host.Outcome.next.injEq] at hu
  subst hu
  exact Proceeds_of (.inr (finishParse_ended _ _)) rfl (by simp)

theorem execEnableIpdopd_proceeds {v : Bool} {s t : State} (h : execEnableIpdopd v s = .next t) :
    ∃ p, s.parse = some p ∧ Proceeds p s t := by
  refine element_proceeds h fun p ph u hu => ?_
  cases ph <;> simp only [reduceCtorEq, Option.some.injEq, Host.Outcome.next.injEq] at hu
  subst hu
  split_ifs
  · exact Proceeds_withParams (Proceeds_of (enterIpdRow_proceeds _ _ _) rfl (by simp))
  · exact Proceeds_withParams (Proceeds_of (goto_proceeds _ _ _) rfl (by simp))

theorem execReservedPs_proceeds {v : Bool} {s t : State} (h : execReservedPs v s = .next t) :
    ∃ p, s.parse = some p ∧ Proceeds p s t := by
  refine element_proceeds h fun p ph u hu => ?_
  cases ph <;> simp only [reduceCtorEq, Option.some.injEq, Host.Outcome.next.injEq] at hu
  subst hu
  exact Proceeds_of (extLoop_proceeds _ _) rfl (by simp)

/-- What any element can do. -/
theorem exec_element_proceeds {i : Instr} {s t : State} (hi : i.isElement = true) (h : exec i s = .next t) :
    ∃ p, s.parse = some p ∧ Proceeds p s t := by
  cases i with
  | psHeader v => exact execPsHeader_proceeds h
  | enableIid v => exact execEnableIid_proceeds h
  | iidMode m => exact execIidMode_proceeds h
  | enableIcc v => exact execEnableIcc_proceeds h
  | iccMode m => exact execIccMode_proceeds h
  | enableExt v => exact execEnableExt_proceeds h
  | frameClass v => exact execFrameClass_proceeds h
  | numEnvIdx n => exact execNumEnvIdx_proceeds h
  | borderPosition b => exact execBorderPosition_proceeds h
  | iidDt dt => exact execIidDt_proceeds h
  | iidData d => exact execIidData_proceeds h
  | iccDt dt => exact execIccDt_proceeds h
  | iccData d => exact execIccData_proceeds h
  | extSize n => exact execExtSize_proceeds h
  | extEsc n => exact execExtEsc_proceeds h
  | extId id => exact execExtId_proceeds h
  | extFill => exact execExtFill_proceeds h
  | enableIpdopd v => exact execEnableIpdopd_proceeds h
  | ipdDt dt => exact execIpdDt_proceeds h
  | ipdData d => exact execIpdData_proceeds h
  | opdDt dt => exact execOpdDt_proceeds h
  | opdData d => exact execOpdData_proceeds h
  | reservedPs v => exact execReservedPs_proceeds (v := v) h
  | _ => cases hi

/-- READ_DATA runs an element as the step does. -/
theorem runElement_eq (i : Instr) (s : State) (hi : i.isElement = true) : runElement i s = exec i s := by
  cases i <;> first | rfl | cases hi

/-- What the decoder answers at a place is an element. -/
theorem decodeElement_isElement {c : Config} {x : ElemCtx} {bit : Nat → Bool} {i : Instr} {n : Nat}
    (h : decodeElement c x bit = .ok (i, n)) : i.isElement = true := by
  unfold decodeElement decodeVlc at h
  split at h <;> (try split at h) <;> cases h <;> rfl

/-- What the command decoder answers is a command. -/
theorem decodeCommand_isCommand {w : CommandWord} {i : Instr} (h : decodeCommand w = .ok i) :
    i.isElement = false := by
  unfold decodeCommand remapArgs rowArgs at h
  split at h <;> (try split at h) <;> cases h <;> rfl

/-! ## READ_DATA -/

/-- The parse ends as its last element does, the host's side untouched until then. -/
theorem runParse_ended (fuel : Nat) (s t : State) (p : Parse) (hp : s.parse = some p)
    (h : runParse fuel s = .next t) : Ended p s t := by
  induction fuel generalizing s p with
  | zero => simp [runParse, hp] at h
  | succ n ih =>
    rw [runParse, hp] at h
    simp only [parseStep] at h
    rcases hf : fetchElement s p with e | ⟨i, len⟩
    · simp [hf] at h
    · simp only [hf] at h
      rw [runElement_eq _ _ (decodeElement_isElement hf)] at h
      rcases he : exec i s with u | r | r <;> rw [he] at h <;> simp only [reduceCtorEq] at h
      obtain ⟨q, hq, hpr⟩ := exec_element_proceeds (decodeElement_isElement hf) he
      rw [hp] at hq
      cases hq
      rcases hpr with ⟨⟨p', h1, h2, h3⟩, h4, h5, h6⟩ | hend
      · obtain ⟨g1, g2, g3⟩ := ih u p' h1 h
        refine ⟨g1, sameOutside_trans h4 g2, ?_⟩
        rw [h2, h5] at g3
        exact g3
      · cases n with
        | zero => simp only [runParse, hend.1, Option.isSome_none, Bool.false_eq_true, if_false] at h; cases h; exact hend
        | succ m => rw [runParse, hend.1] at h; cases h; exact hend

/-- What a READ_DATA that answers a next state can do: it ends, with a commit or on the error path. -/
theorem execReadData_ended {n : Nat} {s t : State} (h : execReadData n s = .next t) :
    s.ready ∧ Ended ⟨s.host.hostpos, n, false, 0, 0, 0, .psHeader⟩ s t := by
  obtain ⟨hr, h⟩ := command_next h
  have := runParse_ended _ _ _ _ (beginParse_parse n s) h
  exact ⟨hr, this.1, sameOutside_trans (sameOutside_beginParse n s) this.2.1, this.2.2⟩

end Sys2Proof.Machine
end

