-- ==== Sys2Proof/Laws/Grammar.lean ====
section
/-! SUPPORT. What comes after each part of the payload grammar, in the terms of Safety.lean. -/

namespace Sys2Proof.Machine

/-- The error path depends on the budget of the parse only. -/
theorem errorPath_congr (c : Cause) {p p' : Parse} (s : State) (o : Option Parse) (hb : p'.budget = p.budget) :
    errorPath c p' (s.withParse o) = errorPath c p s := by
  unfold errorPath
  rw [hb]
  rfl

/-- The commit depends on the working cursor and the budget only. -/
theorem commit_congr {p p' : Parse} (s : State) (o : Option Parse) (hp : p'.pos = p.pos)
    (hb : p'.budget = p.budget) : commit p' (s.withParse o) = commit p s := by
  unfold commit
  simp only [withParse_host, hp, hb]
  split_ifs
  · rfl
  · exact errorPath_congr _ s o hb

theorem concludeParse_congr {p p' : Parse} (s : State) (o : Option Parse) (hp : p'.pos = p.pos)
    (hb : p'.budget = p.budget) (hh : p'.header = p.header) :
    concludeParse p' (s.withParse o) = concludeParse p s := by
  unfold concludeParse
  rw [hh]
  exact commit_congr (s.withParams _) o hp hb

/-- The end of a parse depends on the working cursor, the budget and the header flag only. -/
theorem finishParse_congr {p p' : Parse} (s : State) (o : Option Parse) (hp : p'.pos = p.pos)
    (hb : p'.budget = p.budget) (hh : p'.header = p.header) :
    finishParse p' (s.withParse o) = finishParse p s := by
  unfold finishParse
  by_cases h1 : s.params.fixupNeeded = true
  · refine (if_pos h1).trans (Eq.trans ?_ (if_pos h1).symm)
    by_cases h2 : (!s.params.fixupCopy.fixupIidOk) = true
    · exact (if_pos h2).trans ((errorPath_congr _ (s.withParams _) o hb).trans (if_pos h2).symm)
    · refine (if_neg h2).trans (Eq.trans ?_ (if_neg h2).symm)
      by_cases h3 : (!s.params.fixupCopy.fixupIccOk) = true
      · exact (if_pos h3).trans ((errorPath_congr _ (s.withParams _) o hb).trans (if_pos h3).symm)
      · exact (if_neg h3).trans ((concludeParse_congr (s.withParams _) o hp hb hh).trans (if_neg h3).symm)
  · exact (if_neg h1).trans ((concludeParse_congr s o hp hb hh).trans (if_neg h1).symm)

/-- A payload without extension ends as `endOfParse` says. -/
theorem finishParse_eq (s : State) (q : Params) (p : Parse) :
    .next (finishParse p (s.withParams q)) = endOfParse s q p :=
  congrArg Host.Outcome.next
    (finishParse_congr (s.withParams q) (some { p with cnt := 0, phase := .extFill }) rfl rfl rfl).symm

theorem enterExt_eq (s : State) (q : Params) (p : Parse) : .next (enterExt p (s.withParams q)) = afterIcc s q p := by
  unfold enterExt afterIcc
  by_cases h : q.enableExt = true
  · exact (congrArg Host.Outcome.next (if_pos h)).trans (if_pos h).symm
  · exact (congrArg Host.Outcome.next (if_neg h)).trans ((finishParse_eq s q p).trans (if_neg h).symm)

theorem enterIcc_eq (s : State) (q : Params) (p : Parse) : .next (enterIcc p (s.withParams q)) = afterIid s q p := by
  unfold enterIcc enterIccRow afterIid
  by_cases h : q.enableIcc = false
  · have h' : ¬q.enableIcc = true := by simp [h]
    exact (congrArg Host.Outcome.next (if_neg h')).trans ((enterExt_eq s _ p).trans (if_pos h).symm)
  · have h' : q.enableIcc = true := by simpa using h
    refine (congrArg Host.Outcome.next (if_pos h')).trans (Eq.trans ?_ (if_neg h).symm)
    by_cases hn : 0 < q.numEnv
    · exact (congrArg Host.Outcome.next (if_pos hn)).trans (if_pos hn).symm
    · exact (congrArg Host.Outcome.next (if_neg hn)).trans ((enterExt_eq s q p).trans (if_neg hn).symm)

theorem enterIid_eq (s : State) (q : Params) (p : Parse) :
    .next (enterIid p (s.withParams q)) = afterBorders s q p := by
  unfold enterIid enterIidRow afterBorders
  by_cases h : q.enableIid = false
  · have h' : ¬q.enableIid = true := by simp [h]
    exact (congrArg Host.Outcome.next (if_neg h')).trans ((enterIcc_eq s _ p).trans (if_pos h).symm)
  · have h' : q.enableIid = true := by simpa using h
    refine (congrArg Host.Outcome.next (if_pos h')).trans (Eq.trans ?_ (if_neg h).symm)
    by_cases hn : 0 < q.numEnv
    · exact (congrArg Host.Outcome.next (if_pos hn)).trans (if_pos hn).symm
    · exact (congrArg Host.Outcome.next (if_neg hn)).trans ((enterIcc_eq s q p).trans (if_neg hn).symm)

/-- What follows a row. -/
theorem rowDone_eq (f : Family) (e : Nat) (s : State) (q : Params) (p : Parse) :
    .next (rowDone f e p (s.withParams q)) = afterRow f e s q p := by
  cases f
  · unfold rowDone enterIidRow afterRow
    by_cases h : e + 1 < q.numEnv
    · exact (congrArg Host.Outcome.next (if_pos h)).trans (if_pos h).symm
    · exact (congrArg Host.Outcome.next (if_neg h)).trans ((enterIcc_eq s q p).trans (if_neg h).symm)
  · unfold rowDone enterIccRow afterRow
    by_cases h : e + 1 < q.numEnv
    · exact (congrArg Host.Outcome.next (if_pos h)).trans (if_pos h).symm
    · exact (congrArg Host.Outcome.next (if_neg h)).trans ((enterExt_eq s q p).trans (if_neg h).symm)
  · rfl
  · show Host.Outcome.next (if e + 1 < q.numEnv then (s.withParams q).goto p (.ipdDt (e + 1))
      else (s.withParams q).goto p .reservedPs) = .next (afterElement s q _)
    by_cases h : e + 1 < q.numEnv
    · rw [if_pos h, if_pos h]
      rfl
    · rw [if_neg h, if_neg h]
      rfl

end Sys2Proof.Machine
end

