-- ==== Sys2Proof/Laws/Params.lean ====
section
/-! SUPPORT. What the steps between two elements keep of PSParameters: a property that every update of those steps keeps
is kept by each continuation of the parse. -/

namespace Sys2Proof.Machine

/-- A property of PSParameters that every update between two elements keeps. -/
def ParamsClosed (K : Params → Prop) : Prop :=
  (∀ q, K q → K (q.setPar .iid (zeroI q.iidPar))) ∧ (∀ q, K q → K (q.setPar .icc (zeroI q.iccPar)))
    ∧ (∀ q, K q → K q.fixupCopy) ∧ (∀ q, K q → K q.closeEnvelope) ∧ (∀ q b, K q → K (q.updateResolution b))
    ∧ (∀ q b, K q → K (q.baselineRule b)) ∧ (∀ q b, K q → K (q.startRule b))
    ∧ (∀ q : Params, K q → K { q.zeroArrays with start := false })

theorem commit_keeps {K : Params → Prop} (hK : ParamsClosed K) {p : Parse} {s : State} (h : K s.params) :
    K (commit p s).params := by
  unfold commit
  simp only
  split_ifs
  · exact h
  · exact hK.2.2.2.2.2.2.2 _ h

theorem concludeParse_keeps {K : Params → Prop} (hK : ParamsClosed K) {p : Parse} {s : State} (h : K s.params) :
    K (concludeParse p s).params :=
  commit_keeps hK (hK.2.2.2.2.2.2.1 _ _ (hK.2.2.2.2.2.1 _ _ (hK.2.2.2.2.1 _ _ h)))

theorem finishParse_keeps {K : Params → Prop} (hK : ParamsClosed K) {p : Parse} {s : State} (h : K s.params) :
    K (finishParse p s).params := by
  unfold finishParse
  simp only
  split_ifs
  · exact hK.2.2.2.2.2.2.2 _ (hK.2.2.1 _ h)
  · exact hK.2.2.2.2.2.2.2 _ (hK.2.2.1 _ h)
  · exact concludeParse_keeps hK (hK.2.2.2.1 _ (hK.2.2.1 _ h))
  · exact concludeParse_keeps hK h

theorem extLoop_keeps {K : Params → Prop} (hK : ParamsClosed K) {p : Parse} {s : State} (h : K s.params) :
    K (extLoop p s).params := by
  unfold extLoop
  split_ifs
  · exact h
  · exact hK.2.2.2.2.2.2.2 _ h
  · exact h

theorem enterExt_keeps {K : Params → Prop} (hK : ParamsClosed K) {p : Parse} {s : State} (h : K s.params) :
    K (enterExt p s).params := by
  unfold enterExt
  split_ifs
  · exact h
  · exact finishParse_keeps hK h

theorem enterIpdRow_keeps {K : Params → Prop} {e : Nat} {p : Parse} {s : State} (h : K s.params) :
    K (enterIpdRow e p s).params := by
  unfold enterIpdRow
  split_ifs <;> exact h

theorem enterIccRow_keeps {K : Params → Prop} (hK : ParamsClosed K) {e : Nat} {p : Parse} {s : State}
    (h : K s.params) : K (enterIccRow e p s).params := by
  unfold enterIccRow
  split_ifs
  · exact h
  · exact enterExt_keeps hK h

theorem enterIcc_keeps {K : Params → Prop} (hK : ParamsClosed K) {p : Parse} {s : State} (h : K s.params) :
    K (enterIcc p s).params := by
  unfold enterIcc
  split_ifs
  · exact enterIccRow_keeps hK h
  · exact enterExt_keeps hK (hK.2.1 _ h)

theorem enterIidRow_keeps {K : Params → Prop} (hK : ParamsClosed K) {e : Nat} {p : Parse} {s : State}
    (h : K s.params) : K (enterIidRow e p s).params := by
  unfold enterIidRow
  split_ifs
  · exact h
  · exact enterIcc_keeps hK h

theorem enterIid_keeps {K : Params → Prop} (hK : ParamsClosed K) {p : Parse} {s : State} (h : K s.params) :
    K (enterIid p s).params := by
  unfold enterIid
  split_ifs
  · exact enterIidRow_keeps hK h
  · exact enterIcc_keeps hK (hK.1 _ h)

theorem rowDone_keeps {K : Params → Prop} (hK : ParamsClosed K) {f : Family} {e : Nat} {p : Parse} {s : State}
    (h : K s.params) : K (rowDone f e p s).params := by
  cases f
  · exact enterIidRow_keeps hK h
  · exact enterIccRow_keeps hK h
  · exact h
  · exact enterIpdRow_keeps h

/-! ## The fields the fix-up does not touch -/

theorem fixupCopy_fields (q : Params) :
    q.fixupCopy.borderPosition = q.borderPosition ∧ q.fixupCopy.numEnv = q.numEnv
      ∧ q.fixupCopy.numEnvOld = q.numEnvOld ∧ q.fixupCopy.enableIid = q.enableIid
      ∧ q.fixupCopy.enableIcc = q.enableIcc ∧ q.fixupCopy.enableIpdopd = q.enableIpdopd
      ∧ q.fixupCopy.nrIidPar = q.nrIidPar ∧ q.fixupCopy.nrIccPar = q.nrIccPar
      ∧ q.fixupCopy.nrIpdopdPar = q.nrIpdopdPar ∧ q.fixupCopy.iidQuant = q.iidQuant
      ∧ q.fixupCopy.is34bands = q.is34bands ∧ q.fixupCopy.is34bandsOld = q.is34bandsOld
      ∧ q.fixupCopy.start = q.start := by
  unfold Params.fixupCopy
  simp only
  split_ifs <;> exact ⟨rfl, rfl, rfl, rfl, rfl, rfl, rfl, rfl, rfl, rfl, rfl, rfl, rfl⟩

/-- The borders up to `n` are kept while there are at least `n` envelopes. -/
theorem borders_closed (n : Nat) (f : Nat → Int) :
    ParamsClosed fun q => n ≤ q.numEnv ∧ ∀ j, j ≤ n → cell 0 q.borderPosition j = f j := by
  refine ⟨fun q h => h, fun q h => h, fun q h => ?_, fun q h => ⟨?_, fun j hj => ?_⟩, fun q b h => h, fun q b h => h,
    fun q b h => h, fun q h => h⟩
  · obtain ⟨h1, h2, _⟩ := fixupCopy_fields q
    simp only [h1, h2]
    exact h
  · exact Nat.le_succ_of_le h.1
  · simp only [Params.closeEnvelope]
    rw [cell_set, if_neg (by omega)]
    exact h.2 j hj

end Sys2Proof.Machine
end

