-- ==== Sys2Proof/Laws/PerInstr.lean ====
section
/-! SUPPORT. The families of lemmas made per instruction: `HasWords` says that a well-formed instruction has words, at
some place of the grammar if it is an element. -/

namespace Sys2Proof.Laws

/-- In every configuration, the instruction has words if it is well formed. -/
def HasWords.Statement (i : Instr) : Prop := ∀ c : Config, i.wf c = true → ∃ x w, encode c x i = some w

theorem encodeVlc_isSome {t : HuffTable} {d : Int} (h : (codewordOf t d).isSome = true) :
    ∃ l, encodeVlc t d = some l := by
  obtain ⟨cw, hcw⟩ := Option.isSome_iff_exists.mp h
  exact ⟨fieldBits cw.2 cw.1, by simp only [encodeVlc, hcw]⟩

/-- A delta that has a codeword in a table of its family has one for some `dt` flag and quantisation. -/
theorem HasWords.delta {c : Config} {f : Family} {d : Int} (h : inFamilyTable c f d = true) :
    ∃ dt q l, encodeVlc (tableFor c f dt q) d = some l := by
  simp only [inFamilyTable, List.any_cons, List.any_nil, Bool.or_false, Bool.or_eq_true, inTable] at h
  rcases h with (h | h) | (h | h) <;> exact ⟨_, _, encodeVlc_isSome h⟩

theorem HasWords.psHeader (v : Bool) : HasWords.Statement (.psHeader v) := fun _ _ => ⟨⟨.psHeader, false, 0⟩, _, rfl⟩
theorem HasWords.enableIid (v : Bool) : HasWords.Statement (.enableIid v) := fun _ _ => ⟨⟨.enableIid, false, 0⟩, _, rfl⟩
theorem HasWords.iidMode (m : BitVec 3) : HasWords.Statement (.iidMode m) := fun _ _ => ⟨⟨.iidMode, false, 0⟩, _, rfl⟩
theorem HasWords.enableIcc (v : Bool) : HasWords.Statement (.enableIcc v) := fun _ _ => ⟨⟨.enableIcc, false, 0⟩, _, rfl⟩
theorem HasWords.iccMode (m : BitVec 3) : HasWords.Statement (.iccMode m) := fun _ _ => ⟨⟨.iccMode, false, 0⟩, _, rfl⟩
theorem HasWords.enableExt (v : Bool) : HasWords.Statement (.enableExt v) := fun _ _ => ⟨⟨.enableExt, false, 0⟩, _, rfl⟩
theorem HasWords.frameClass (v : Bool) : HasWords.Statement (.frameClass v) := fun _ _ => ⟨⟨.frameClass, false, 0⟩, _, rfl⟩
theorem HasWords.numEnvIdx (n : BitVec 2) : HasWords.Statement (.numEnvIdx n) := fun _ _ => ⟨⟨.numEnvIdx, false, 0⟩, _, rfl⟩
theorem HasWords.borderPosition (b : BitVec 5) : HasWords.Statement (.borderPosition b) := fun _ _ => ⟨⟨(.border 0), false, 0⟩, _, rfl⟩
theorem HasWords.iidDt (dt : Bool) : HasWords.Statement (.iidDt dt) := fun _ _ => ⟨⟨(.iidDt 0), false, 0⟩, _, rfl⟩
theorem HasWords.iidData (d : Int) : HasWords.Statement (.iidData d) := fun _ h =>
  have ⟨dt, q, l, hl⟩ := HasWords.delta (f := .iid) h
  ⟨⟨.iidData 0 0 dt, q, 0⟩, .payload l, by simp only [encode, encodeCommand, encodeElement, hl]⟩
theorem HasWords.iccDt (dt : Bool) : HasWords.Statement (.iccDt dt) := fun _ _ => ⟨⟨(.iccDt 0), false, 0⟩, _, rfl⟩
theorem HasWords.iccData (d : Int) : HasWords.Statement (.iccData d) := fun _ h =>
  have ⟨dt, q, l, hl⟩ := HasWords.delta (f := .icc) h
  ⟨⟨.iccData 0 0 dt, q, 0⟩, .payload l, by simp only [encode, encodeCommand, encodeElement, hl]⟩
theorem HasWords.extSize (n : BitVec 4) : HasWords.Statement (.extSize n) := fun _ _ => ⟨⟨.extSize, false, 0⟩, _, rfl⟩
theorem HasWords.extEsc (n : BitVec 8) : HasWords.Statement (.extEsc n) := fun _ _ => ⟨⟨.extEsc, false, 0⟩, _, rfl⟩
theorem HasWords.extId (id : BitVec 2) : HasWords.Statement (.extId id) := fun _ _ => ⟨⟨.extId, false, 0⟩, _, rfl⟩
theorem HasWords.extFill : HasWords.Statement (.extFill) := fun _ _ => ⟨⟨.extFill, false, 0⟩, _, rfl⟩
theorem HasWords.enableIpdopd (v : Bool) : HasWords.Statement (.enableIpdopd v) := fun _ _ => ⟨⟨.enableIpdopd, false, 0⟩, _, rfl⟩
theorem HasWords.ipdDt (dt : Bool) : HasWords.Statement (.ipdDt dt) := fun _ _ => ⟨⟨(.ipdDt 0), false, 0⟩, _, rfl⟩
theorem HasWords.ipdData (d : Int) : HasWords.Statement (.ipdData d) := fun _ h =>
  have ⟨dt, q, l, hl⟩ := HasWords.delta (f := .ipd) h
  ⟨⟨.ipdData 0 0 dt, q, 0⟩, .payload l, by simp only [encode, encodeCommand, encodeElement, hl]⟩
theorem HasWords.opdDt (dt : Bool) : HasWords.Statement (.opdDt dt) := fun _ _ => ⟨⟨(.opdDt 0), false, 0⟩, _, rfl⟩
theorem HasWords.opdData (d : Int) : HasWords.Statement (.opdData d) := fun _ h =>
  have ⟨dt, q, l, hl⟩ := HasWords.delta (f := .opd) h
  ⟨⟨.opdData 0 0 dt, q, 0⟩, .payload l, by simp only [encode, encodeCommand, encodeElement, hl]⟩
theorem HasWords.reservedPs (v : Bool) : HasWords.Statement (.reservedPs v) := fun _ _ => ⟨⟨.reservedPs, false, 0⟩, _, rfl⟩
theorem HasWords.initTables : HasWords.Statement (.initTables) := fun _ _ => ⟨default, _, rfl⟩
theorem HasWords.reset : HasWords.Statement (.reset) := fun _ _ => ⟨default, _, rfl⟩
theorem HasWords.readData (n : Nat) : HasWords.Statement (.readData n) := fun _ _ => ⟨default, _, rfl⟩
theorem HasWords.apply (t : Int) : HasWords.Statement (.apply t) := fun _ _ => ⟨default, _, rfl⟩
theorem HasWords.remap20 (f : Family) (n e : Nat) (b : Bool) : HasWords.Statement (.remap20 f n e b) := fun _ _ => ⟨default, _, rfl⟩
theorem HasWords.remap34 (f : Family) (n e : Nat) (b : Bool) : HasWords.Statement (.remap34 f n e b) := fun _ _ => ⟨default, _, rfl⟩
theorem HasWords.remapVal20 (r : RowRef) : HasWords.Statement (.remapVal20 r) := fun _ _ => ⟨default, _, rfl⟩
theorem HasWords.remapVal34 (r : RowRef) : HasWords.Statement (.remapVal34 r) := fun _ _ => ⟨default, _, rfl⟩
theorem HasWords.hybridAnalysis (b : Bool) : HasWords.Statement (.hybridAnalysis b) := fun _ _ => ⟨default, _, rfl⟩
theorem HasWords.decorrelate (x : HybBuf) (b : Bool) : HasWords.Statement (.decorrelate x b) := fun _ _ => ⟨default, _, rfl⟩
theorem HasWords.stereoProcess (b : Bool) : HasWords.Statement (.stereoProcess b) := fun _ _ => ⟨default, _, rfl⟩
theorem HasWords.hybridSynthesis (x : HybBuf) (b : Bool) (d : HostBuf) : HasWords.Statement (.hybridSynthesis x b d) := fun _ _ => ⟨default, _, rfl⟩

end Sys2Proof.Laws
end

