-- ==== Sys2Proof/Laws/Remap.lean ====
section
/-! SUPPORT. What a remap command reads and answers. -/

namespace Sys2Proof.Machine

/-- A cell of a source row that the array has. -/
theorem sourceRow_cell (draw : Nat) (src : List (List Int)) (e b : Nat) (h : b < (cell [] src e).length) :
    cell 0 (sourceRow draw src e) b = cellI src e b := by
  unfold sourceRow cellI cell
  exact List.getD_append _ _ _ _ h

/-- A map to 20 bands reads 34 cells of a row, or 17 of a short one. -/
theorem map34to20_append (p x : List Int) (full : Bool) (h : (if full then 34 else 17) ≤ p.length) :
    map34to20 (p ++ x) full = map34to20 p full := by
  have hc : ∀ k, k < (if full then 34 else 17) → cell 0 (p ++ x) k = cell 0 p k := fun k hk =>
    List.getD_append _ _ _ _ (by omega)
  cases full <;> simp (disch := decide) only [map34to20, hc, Bool.false_eq_true, if_true, if_false]

theorem map10to20_append (p x : List Int) (full : Bool) (h : (if full then 34 else 17) ≤ p.length) :
    map10to20 (p ++ x) full = map10to20 p full := by
  have hc : ∀ k, k < (if full then 34 else 17) → cell 0 (p ++ x) k = cell 0 p k := fun k hk =>
    List.getD_append _ _ _ _ (by omega)
  cases full <;> simp (disch := decide) only [map10to20, hc, Bool.false_eq_true, if_true, if_false]

theorem map10to34_append (p x : List Int) (full : Bool) (h : (if full then 34 else 17) ≤ p.length) :
    map10to34 (p ++ x) full = map10to34 p full := by
  have hc : ∀ k, k < (if full then 34 else 17) → cell 0 (p ++ x) k = cell 0 p k := fun k hk =>
    List.getD_append _ _ _ _ (by omega)
  cases full <;> simp (disch := decide) only [map10to34, hc, Bool.false_eq_true, if_true, if_false]

theorem map20to34_append (p x : List Int) (full : Bool) (h : (if full then 34 else 17) ≤ p.length) :
    map20to34 (p ++ x) full = map20to34 p full := by
  have hc : ∀ k, k < (if full then 34 else 17) → cell 0 (p ++ x) k = cell 0 p k := fun k hk =>
    List.getD_append _ _ _ _ (by omega)
  cases full <;> simp (disch := decide) only [map20to34, hc, Bool.false_eq_true, if_true, if_false]

/-- A converting remap answers one row for each envelope. -/
theorem remapRows_some (f : List Int → Bool → List Int) (src : List (List Int)) (row : Nat → List Int) (n : Nat)
    (full : Bool) : (remapRows (some f) src row n full).length = n
      ∧ ∀ e, e < n → cell [] (remapRows (some f) src row n full) e = f (row e) full := by
  unfold remapRows
  exact ⟨tab_length _ _, fun e he => by rw [cell_tab, if_pos he]⟩

end Sys2Proof.Machine
end

