-- ==== Sys2Proof/Tests/Slice0.lean ====
section
/-! SUPPORT. The model's own tests. Expected results are those of `spec/95_test_vectors.md` (named D1, S2, … as there),
of `spec/30_encoding.md` and of the codewords that section 2.1 of the vectors prints; a witness theorem shows that the
hypotheses of a statement of Certificates/Slice0/Obligations.lean can be met, at the ends of the ranges it names. -/

namespace Sys2Proof.Tests

open Sys2Proof Sys2Proof.Machine

set_option Elab.async false

/-- The machine after reset and INIT_TABLES. -/
def idle : State := { State.reset with tablesReady := true }

/-- A parse at a place of the grammar, with 40 bits available. -/
def place (ph : Phase) : Parse :=
  { pos := 0, budget := 40, header := false, cnt := 0, extStart := 0, acc := 0, phase := ph }

/-- A machine with the given parameters inside a parse. -/
def parsing (q : Params) (p : Parse) : State := { idle with params := q, parse := some p }

/-- The parameters after reset. -/
def zeroParams : Params := idle.params

/-- A machine whose bitstream starts with the given bytes. -/
def streaming (m : Memory) : State := { idle with host := { idle.host with bitstream := m } }

/-- A predicate of the next state. -/
def after (o : Out) (f : State → Bool) : Bool :=
  match o with
  | .next t => f t
  | .fault _ => false
  | .refused _ => false

/-- Decoding in the candidate configuration. -/
def element (ph : Phase) (l : List Bool) : Except DecodeError (Instr × Nat) :=
  decodeElement Config.candidate ⟨ph, false, 0⟩ (bitAt l)

/-! ## Well-formedness: an ill-formed term for each check -/

theorem test_wf_iid_delta : (Instr.iidData 31).wf Config.candidate = false ∧ (Instr.iidData (-31)).wf Config.candidate = false
    ∧ (Instr.iidData 30).wf Config.candidate = true := by decide +kernel
theorem test_wf_icc_delta : (Instr.iccData 8).wf Config.candidate = false ∧ (Instr.iccData (-7)).wf Config.candidate = true := by
  decide +kernel
theorem test_wf_ipd_delta : (Instr.ipdData 8).wf Config.candidate = false ∧ (Instr.ipdData (-1)).wf Config.candidate = false := by
  decide +kernel
theorem test_wf_opd_delta : (Instr.opdData 8).wf Config.candidate = false ∧ (Instr.opdData 7).wf Config.candidate = true := by
  decide +kernel
theorem test_wf_apply : (Instr.apply (-1)).wf Config.candidate = false ∧ (Instr.apply 65).wf Config.candidate = false
    ∧ (Instr.apply 64).wf Config.candidate = true := by decide

/-- A codeword of no bits, one that does not fit its length, one of 28 bits, a codeword that begins another one, an
incomplete table, and an offset outside the table (`47_constant_tables.md` R303). -/
theorem test_wf_huffman :
    (⟨[(0, 0)], 0⟩ : HuffTable).wf = false ∧ (⟨[(2, 1), (0, 1)], 0⟩ : HuffTable).wf = false
      ∧ (⟨[(0, 1), (1, 28)], 0⟩ : HuffTable).wf = false ∧ (⟨[(1, 1), (2, 2), (0, 2)], 0⟩ : HuffTable).wf = false
      ∧ (⟨[(0, 1), (2, 2)], 0⟩ : HuffTable).wf = false ∧ (⟨[(0, 1), (1, 1)], 2⟩ : HuffTable).wf = false
      ∧ (⟨[(0, 1), (1, 1)], 1⟩ : HuffTable).wf = true := by decide +kernel

theorem test_wf_tables : ([
    { Tables.candidate with nrIidIcc := [10] }, { Tables.candidate with nrIidIcc := [10, 20, 34, 10, 20, 33] },
    { Tables.candidate with nrIidIcc := [20, 20, 34, 10, 20, 34] }, { Tables.candidate with nrIpdOpd := [] },
    { Tables.candidate with nrIpdOpd := [5, 11, 17, 5, 11, 16] }, { Tables.candidate with iidQuant := [false] },
    { Tables.candidate with iidQuant := [true, false, false, true, true, true] }, { Tables.candidate with huff := [] },
    { Tables.candidate with huff := rep 10 ⟨[], 0⟩ }, { Tables.candidate with kToI20 := [] },
    { Tables.candidate with kToI20 := rep 71 20 }, { Tables.candidate with kToI34 := [] },
    { Tables.candidate with kToI34 := rep 91 34 }, { Tables.candidate with f20_0_8 := [] },
    { Tables.candidate with f34_0_12 := [] }, { Tables.candidate with f34_1_8 := rep 8 [] },
    { Tables.candidate with f34_2_4 := [] }, { Tables.candidate with g1Q2 := [] }, { Tables.candidate with ha := [] },
    { Tables.candidate with ha := rep 46 [] }, { Tables.candidate with hb := [] },
    { Tables.candidate with hb := rep 46 [] }, { Tables.candidate with pdRe := [] }, { Tables.candidate with pdIm := [] },
    { Tables.candidate with qFract20 := [] }, { Tables.candidate with qFract34 := [] },
    { Tables.candidate with phiFract20 := [] }, { Tables.candidate with phiFract34 := [] }]
      : List Tables).all (fun t => !t.wf) = true := by decide +kernel

theorem test_wf_config : ([
    { Config.candidate with fmt := .binary 0 (-126) 127 }, { Config.candidate with fmt := .binary 24 1 127 },
    { Config.candidate with fmt := .binary 24 (-126) (-1) }, { Config.candidate with maxNumEnv := 4 },
    { Config.candidate with maxDelay := 13 }, { Config.candidate with apLinkDelay := [3, 4] },
    { Config.candidate with apLinkDelay := [3, 4, 6] }, { Config.candidate with apCoeff := [] },
    { Config.candidate with shortDelayBand20 := 29 }, { Config.candidate with shortDelayBand20 := 72 },
    { Config.candidate with shortDelayBand34 := 49 }, { Config.candidate with shortDelayBand34 := 92 },
    { Config.candidate with peakDecayFactor := .one }, { Config.candidate with peakDecayFactor := .nan },
    { Config.candidate with maxNrIidIcc := 33 }, { Config.candidate with maxNrIpdOpd := 16 },
    { Config.candidate with third := .zero }, { Config.candidate with third := .nan },
    { Config.candidate with fmt := .exact },
    { Config.candidate with tables := { Tables.candidate with huff := [] } }]
      : List Config).all (fun c => !c.wf) = true := by decide +kernel

/-- The candidate configuration is a PS core. -/
theorem candidate_wf : Config.candidate.wf = true := by decide +kernel

/-- So is the candidate over the reals, with one third for `THIRD` (`42_band_remap.md` R209). -/
theorem test_wf_exact : ({ Config.candidate with fmt := .exact, third := .fin (1 / 3) } : Config).wf = true := by
  decide +kernel

/-! ## Decoding: the payload elements, their bits as `30_encoding.md` R103 to R117 and the vectors write them -/

theorem test_decode_psHeader : element .psHeader [true] = .ok (.psHeader true, 1) := rfl
theorem test_decode_enableIid : element .enableIid [true] = .ok (.enableIid true, 1) := rfl
theorem test_decode_iidMode : element .iidMode [false, true, true] = .ok (.iidMode 3, 3) := rfl
theorem test_decode_enableIcc : element .enableIcc [false, true] = .ok (.enableIcc false, 1) := rfl
theorem test_decode_iccMode : element .iccMode [true, true, false] = .ok (.iccMode 6, 3) := rfl
theorem test_decode_enableExt : element .enableExt [true] = .ok (.enableExt true, 1) := rfl
theorem test_decode_frameClass : element .frameClass [true] = .ok (.frameClass true, 1) := rfl
theorem test_decode_numEnvIdx : element .numEnvIdx [false, true] = .ok (.numEnvIdx 1, 2) := rfl
/-- S2: border 10. -/
theorem test_decode_border : element (.border 1) [false, true, false, true, false] = .ok (.borderPosition 10, 5) := rfl
theorem test_decode_iidDt : element (.iidDt 0) [true] = .ok (.iidDt true, 1) := rfl
/-- `huff_iid_df0`: `1101` is -2. -/
theorem test_decode_iidData : element (.iidData 0 0 false) [true, true, false, true] = .ok (.iidData (-2), 4) := by
  decide +kernel
/-- `huff_iid_dt0`: `10` is -1; `huff_iid_dt1`: `011` is -1. -/
theorem test_decode_iidData_dt : element (.iidData 0 0 true) [true, false] = .ok (.iidData (-1), 2)
    ∧ decodeElement Config.candidate ⟨.iidData 0 0 true, true, 0⟩ (bitAt [false, true, true]) = .ok (.iidData (-1), 3) := by
  decide +kernel
theorem test_decode_iccDt : element (.iccDt 0) [false] = .ok (.iccDt false, 1) := rfl
/-- `huff_icc_df`: `1111111111110` is +7. -/
theorem test_decode_iccData : element (.iccData 0 0 false) (rep 12 true ++ [false]) = .ok (.iccData 7, 13) := by
  decide +kernel
theorem test_decode_extSize : element .extSize [true, true, true, true] = .ok (.extSize 15, 4) := rfl
theorem test_decode_extEsc : element .extEsc [true, false, false, false, false, false, false, true]
    = .ok (.extEsc 129, 8) := rfl
theorem test_decode_extId : element .extId [true, false] = .ok (.extId 2, 2) := rfl
theorem test_decode_extFill : decodeElement Config.candidate ⟨.extFill, false, 6⟩ (bitAt [true, false, true])
    = .ok (.extFill, 6) := rfl
theorem test_decode_enableIpdopd : element .enableIpdopd [true] = .ok (.enableIpdopd true, 1) := rfl
theorem test_decode_ipdDt : element (.ipdDt 0) [true] = .ok (.ipdDt true, 1) := rfl
/-- `huff_ipd_df`: `0011` is 5; `huff_ipd_dt`: `00011` is 3. -/
theorem test_decode_ipdData : element (.ipdData 0 0 false) [false, false, true, true] = .ok (.ipdData 5, 4)
    ∧ element (.ipdData 0 0 true) [false, false, false, true, true] = .ok (.ipdData 3, 5) := by decide +kernel
theorem test_decode_opdDt : element (.opdDt 0) [false] = .ok (.opdDt false, 1) := rfl
/-- `huff_opd_df`: `01111` is 4; `huff_opd_dt`: `00110` is 4. -/
theorem test_decode_opdData : element (.opdData 0 0 false) [false, true, true, true, true] = .ok (.opdData 4, 5)
    ∧ element (.opdData 0 0 true) [false, false, true, true, false] = .ok (.opdData 4, 5) := by decide +kernel
theorem test_decode_reservedPs : element .reservedPs [true] = .ok (.reservedPs true, 1) := rfl

/-! ## Decoding: the commands (`30_encoding.md` R119; arguments log 14) -/

theorem test_decode_initTables : decodeCommand ⟨0b0000, []⟩ = .ok .initTables := rfl
theorem test_decode_reset : decodeCommand ⟨0b0001, []⟩ = .ok .reset := rfl
theorem test_decode_readData : decodeCommand ⟨0b0010, [31]⟩ = .ok (.readData 31) := rfl
theorem test_decode_apply : decodeCommand ⟨0b0011, [64]⟩ = .ok (.apply 64) := rfl
theorem test_decode_remap20 : decodeCommand ⟨0b0100, [2, 5, 1, 0]⟩ = .ok (.remap20 .ipd 5 1 false) := rfl
theorem test_decode_remap34 : decodeCommand ⟨0b0101, [0, 20, 1, 1]⟩ = .ok (.remap34 .iid 20 1 true) := rfl
theorem test_decode_remapVal20 : decodeCommand ⟨0b0110, [0, 0, 5]⟩ = .ok (.remapVal20 ⟨.h11, .re, 5⟩) := rfl
theorem test_decode_remapVal34 : decodeCommand ⟨0b0111, [3, 1, 0]⟩ = .ok (.remapVal34 ⟨.h22, .im, 0⟩) := rfl
theorem test_decode_hybridAnalysis : decodeCommand ⟨0b1000, [0]⟩ = .ok (.hybridAnalysis false) := rfl
theorem test_decode_decorrelate : decodeCommand ⟨0b1001, [1, 1]⟩ = .ok (.decorrelate .rbuf true) := rfl
theorem test_decode_stereoProcess : decodeCommand ⟨0b1010, [1]⟩ = .ok (.stereoProcess true) := rfl
theorem test_decode_hybridSynthesis : decodeCommand ⟨0b1011, [0, 0, 1]⟩ = .ok (.hybridSynthesis .lbuf false .right) := rfl
theorem test_decode_unassigned : decodeCommand ⟨0b1100, []⟩ = .error .unassignedCode
    ∧ decodeCommand ⟨0b1111, []⟩ = .error .unassignedCode := ⟨rfl, rfl⟩
theorem test_decode_badArgument : decodeCommand ⟨0b0010, [-1]⟩ = .error .badArgument
    ∧ decodeCommand ⟨0b1000, [2]⟩ = .error .badArgument ∧ decodeCommand ⟨0b0100, [4]⟩ = .error .badArgument := ⟨rfl, rfl, rfl⟩
theorem test_decodeTableWord : decodeTableWord 8 3 = some (.apply 0) ∧ decodeTableWord 8 12 = none := by decide

/-! ## Steps -/

/-- The first step after reset runs the word that was placed (P6). -/
theorem test_step_reset : after (step (State.reset.withFetchWord 8 1)) (fun t => t.tablesReady && (t.status == .ok)) = true := by
  decide +kernel
theorem test_step_unassigned : step (State.reset.withFetchWord 8 13) = .refused .unassignedCode := rfl

/-- D1: one IID row by frequency delta. -/
theorem test_readData_success :
    after (exec (.readData 31) (streaming [(0, 0xC0), (1, 0x52), (2, 0xB0), (3, 0xD0)])) (fun t =>
      (t.status == .okBits 31) && (t.host.hostpos == 31) && t.params.start
        && ((cell [] t.params.iidPar 0).take 10 == [1, 0, 0, 2, 2, 2, 0, 0, 0, 0])) = true := by decide +kernel
/-- S2: decreasing borders. -/
theorem test_readData_error :
    after (exec (.readData 40) (streaming [(0, 0xC1), (1, 0x54), (2, 0x5A), (3, 0xA0)])) (fun t =>
      (t.status == .invalidData .borderOrder) && (t.host.hostpos == 40) && !t.params.start
        && (t.params.borderPosition.take 3 == [-1, 10, 5]) && (t.params.numEnv == 2)) = true := by decide +kernel
/-- D3: explicit border, ICC, the IPD/OPD extension with a wrap, and the fix-up. -/
theorem test_readData_extension :
    after (exec (.readData 91) (streaming [(0, 0xC4), (1, 0x63), (2, 0xD8), (3, 0x14), (4, 0x1F), (5, 0x10), (6, 0xF0),
      (7, 0x84), (8, 0x2F), (9, 0x65), (10, 0xFD), (11, 0xE0)])) (fun t =>
      (t.status == .okBits 91) && (t.params.numEnv == 2) && (t.params.borderPosition.take 3 == [-1, 15, 31])
        && ((cell [] t.params.iccPar 1).take 10 == [3, 3, 3, 4, 4, 4, 4, 2, 2, 2])
        && ((cell [] t.params.ipdPar 1).take 5 == [1, 1, 0, 0, 2])
        && ((cell [] t.params.opdPar 0).take 5 == [0, 4, 4, 4, 4]) && t.params.enableIpdopd) = true := by decide +kernel
/-- D10: the escaped size and sixty-one unknown extensions. -/
theorem test_extEsc : after (exec (.extEsc 1) (parsing zeroParams { place .extEsc with cnt := 15 })) (fun t =>
    t.parse == some { place .extId with pos := 8, cnt := 128 }) = true := by decide +kernel

/-- D14: 34 to 20 bands, truncating toward zero. -/
theorem test_remap20 :
    after (exec (.remap20 .iid 34 1 true) { idle with params := { zeroParams with iidPar :=
      [[3, 1, -2, 0, 0, 0, 5, -4, 0, 0, 7, -7, 1, 2] ++ rep 14 0 ++ [1, 2, 3, 5, 0, 0]] } }) (fun t =>
      t.work.mapped.iid == [[2, -1, 0, 0, 0, 0, 7, -7, 1, 0] ++ rep 8 0 ++ [2, 0]]) = true := by decide +kernel
/-- D15: 5 bands to 17. -/
theorem test_remap34 :
    after (exec (.remap34 .ipd 5 1 false) { idle with params := { zeroParams with ipdPar := [[6, 6, 6, 7, 7]] } }) (fun t =>
      t.work.mapped.ipd == [[6, 6, 6, 6, 6, 6, 6, 6, 6, 6, 7, 7, 7, 7, 7, 7, 0]]) = true := by decide +kernel

/-- A machine with one row of a mixing matrix. -/
def withRow (l : List PsNum) : State :=
  { idle with dsp := { idle.dsp with h12 := [rep 6 [], [[], [], l, [], [], []]] } }

/-- The numbers `0, 1, 2, …`. -/
def ramp (n : Nat) : List PsNum := tab n fun k => .fin (k : Rat)

/-- D16. -/
theorem test_remapVal20 : after (exec (.remapVal20 ⟨.h12, .im, 2⟩) (withRow (ramp 34))) (fun t =>
    let h := t.dsp.row ⟨.h12, .im, 2⟩
    (cell .zero h 4 == .fin (13 / 2)) && (cell .zero h 18 == .fin (59 / 2)) && (cell .zero h 19 == .fin (65 / 2))
      && (cell .zero h 33 == .fin 33)) = true := by decide +kernel
/-- D16. -/
theorem test_remapVal34 : after (exec (.remapVal34 ⟨.h12, .im, 2⟩) (withRow (ramp 34))) (fun t =>
    let h := t.dsp.row ⟨.h12, .im, 2⟩
    (cell .zero h 1 == .fin (1 / 2)) && (cell .zero h 4 == .fin (5 / 2)) && (cell .zero h 27 == .fin 17)
      && (cell .zero h 33 == .fin 19)) = true := by decide +kernel

/-- A host buffer of zeros with one sample of real part 1. -/
def impulse (row band : Nat) : List (List (List PsNum)) :=
  tab 2 fun p => tab 38 fun r => tab 64 fun q => if p = 0 ∧ r = row ∧ q = band then .one else .zero

/-- D18: the two-band split of subband 1, and a passed-through sample. -/
theorem test_hybridAnalysis :
    after (exec (.hybridAnalysis false) { idle with host := { idle.host with bufL := impulse 6 1 } }) (fun t =>
      (cellC t.work.lbuf 6 6 == ⟨.fin (1 / 2), .zero⟩) && (cellC t.work.lbuf 7 6 == ⟨.fin (1 / 2), .zero⟩)
        && (cellC t.work.lbuf 6 13 == Cx.zero)) = true := by decide +kernel
/-- D19: sample 30 of a frame stands in the history of the next one. -/
theorem test_hybridAnalysis_history :
    after (exec (.hybridAnalysis true) { idle with host := { idle.host with bufL := impulse 30 0 } }) (fun t =>
      (cellC t.dsp.inBuf 0 4 == ⟨.one, .zero⟩) && (cellC t.dsp.inBuf 0 5 == Cx.zero)) = true := by decide +kernel

/-- A hybrid buffer of zeros with one sample of 1. -/
def hybImpulse (band slot : Nat) : List (List Cx) :=
  tab 91 fun k => tab 32 fun n => if k = band ∧ n = slot then ⟨.one, .zero⟩ else Cx.zero

/-- D22: a long-delay subband keeps its sample, 14 slots old, in the delay line. -/
theorem test_decorrelate_delay :
    after (exec (.decorrelate .lbuf false) { idle with work := { idle.work with lbuf := hybImpulse 35 0 } }) (fun t =>
      (cellC t.dsp.delay 35 14 == ⟨.one, .zero⟩) && (cellC t.dsp.delay 35 13 == Cx.zero)) = true := by decide +kernel
/-- D22: one all-pass link of an impulse; nothing before slot 2. -/
theorem test_decorrelate_allpass :
    after (exec (.decorrelate .lbuf false) { idle with work := { idle.work with lbuf := hybImpulse 10 0 } }) (fun t =>
      (cellC t.work.rbuf 10 1 == Cx.zero) && (cellC t.work.rbuf 10 2 != Cx.zero) && (cellC t.work.rbuf 10 3 == Cx.zero)) = true := by
  decide +kernel

/-- Zero parameters with one envelope over the frame (S1b). -/
def oneEnvelope : Params := { zeroParams with numEnv := 1, borderPosition := [-1, 31, 0, 0, 0, 0] }

/-- D23: the fade-in of the first frame. -/
theorem test_stereoProcess :
    after (exec (.stereoProcess false)
      { idle with params := oneEnvelope, work := { idle.work with lbuf := hybImpulse 47 3 } }) (fun t =>
      (cellN3 t.dsp.h11 0 1 19 == .one) && (cellN3 t.dsp.h21 0 1 19 == .zero)
        && (cellC t.work.lbuf 47 3 == ⟨.fin (1 / 8), .zero⟩) && (cellC t.work.rbuf 47 3 == ⟨.fin (1 / 8), .zero⟩)) = true := by
  decide +kernel

/-- Hybrid subband 9 is part of QMF subband 2 (`43_hybrid_filterbank.md` R229); row 32 is not written. -/
theorem test_hybridSynthesis :
    after (exec (.hybridSynthesis .lbuf false .right)
      { idle with work := { idle.work with lbuf := hybImpulse 9 31 }, host := { idle.host with bufR := impulse 32 2 } }) (fun t =>
      (cellN3 t.host.bufR 0 31 2 == .one) && (cellN3 t.host.bufR 0 32 2 == .one) && (cellN3 t.host.bufR 0 30 2 == .zero)) = true := by
  decide +kernel

/-- P5: an impulse through a frame with zero parameters. -/
theorem test_apply :
    after (exec (.apply 64) { idle with params := oneEnvelope, host := { idle.host with bufL := impulse 3 40 } }) (fun t =>
      (cellN3 t.host.bufL 0 3 40 == .fin (1 / 8)) && (cellN3 t.host.bufR 0 3 40 == .fin (1 / 8))
        && (cellC t.dsp.delay 47 17 == ⟨.one, .zero⟩)) = true := by decide +kernel
theorem test_apply_refused : exec (.apply 65) idle = .refused .topBandOutOfRange := rfl

/-! ## Witnesses: states and operands that meet the hypotheses of the statements -/

theorem idle_ready : idle.ready := ⟨rfl, rfl⟩

/-- The invariant of the machine after reset and INIT_TABLES, whatever the host's bitstream. -/
theorem streaming_inv (m : Memory) (h : Memory.wf .zeros m = true) : Inv (streaming m) := by
  have p1 : idle.params.shaped idle.cfg = true ∧ idle.params.ranged = true := by decide +kernel
  have p2 : idle.dsp.shaped idle.cfg = true ∧ idle.work.shaped = true := by decide +kernel
  have p3 : hostShape idle.host.bufL = true ∧ hostShape idle.host.bufR = true := by decide +kernel
  have p4 : allZero idle.params.iidPar = true ∧ allZero idle.params.iccPar = true ∧ allZero idle.params.ipdPar = true
      ∧ allZero idle.params.opdPar = true := by decide +kernel
  exact ⟨candidate_wf, h, p3.1, p3.2, p1.1, p1.2, p2.1, p2.2, fun hb => (Bool.false_ne_true hb).elim,
    fun _ => p4.1, fun _ => p4.2.1, fun _ => p4.2.2⟩

theorem idle_inv : Inv idle := streaming_inv [] rfl

/-- The invariant during a parse that is about to read PS_HEADER. -/
theorem header_inv : Inv (parsing zeroParams (place .psHeader)) := by
  obtain ⟨h1, h2, h3, h4, h5, h6, h7, h8, h9, -⟩ := idle_inv
  exact ⟨h1, h2, h3, h4, h5, h6, h7, h8, h9, trivial, Nat.le_refl _, by decide⟩

theorem witness_StepRunsInstruction :
    ((parsing zeroParams (place .psHeader)).parse = some (place .psHeader)
      ∧ decodeElement Config.candidate ⟨.psHeader, false, 0⟩ (fun j => memBit .zeros [] (0 + j)) = .ok (.psHeader false, 1))
    ∧ idle.parse = none ∧ ({ idle with host := { idle.host with inputs := [.issue ⟨1, []⟩] } } : State).host.inputs
      = .issue ⟨1, []⟩ :: [] ∧ decodeCommand ⟨1, []⟩ = .ok .reset := ⟨⟨rfl, rfl⟩, rfl, rfl, rfl⟩

/-- A machine with one host event to come. -/
def eventNext (e : HostEvent) : State := { idle with host := { idle.host with inputs := [e] } }

theorem witness_StepHostActs :
    (eventNext (.writeByte 0 255)).parse = none ∧ (eventNext (.writeByte 0 255)).host.inputs = [.writeByte 0 255]
      ∧ Memory.wf idle.cfg.pad (eventNext (.writeByte 0 255)).host.bitstream = true
      ∧ (eventNext (.setCursor 3)).host.inputs = [.setCursor 3]
      ∧ (eventNext (.supply .left (impulse 0 0))).host.inputs = [.supply .left (impulse 0 0)]
      ∧ (hostShape (impulse 0 0) = true ∧ samplesHeld idle.cfg.fmt (impulse 0 0) = true)
      ∧ hostShape [] = false ∧ idle.cfg.fmt.holds (.fin (1 / 3)) = false
      ∧ (∀ x ∈ ([(0, 1)] : Memory), x.1 ≠ 1) ∧ idle.host.inputs = [] :=
  ⟨rfl, rfl, rfl, rfl, rfl, by decide +kernel, rfl, by decide +kernel, by decide, rfl⟩

theorem witness_OperandRefusals :
    (eventNext (.issue ⟨12, []⟩)).parse = none ∧ (eventNext (.issue ⟨12, []⟩)).host.inputs = [.issue ⟨12, []⟩]
      ∧ 12 ≤ (12 : BitVec 4).toNat ∧ 12 ≤ (15 : BitVec 4).toNat ∧ idle.ready ∧ ((-1 : Int) < 0 ∨ (64 : Int) < -1)
      ∧ ((65 : Int) < 0 ∨ (64 : Int) < 65) := by
  refine ⟨rfl, rfl, ?_, ?_, idle_ready, ?_, ?_⟩ <;> decide

theorem witness_CommandGuards :
    Instr.reset.isElement = false ∧ (parsing zeroParams (place .psHeader)).parse.isSome = true
      ∧ State.reset.parse = none ∧ State.reset.tablesReady = false ∧ Instr.reset ≠ .initTables :=
  ⟨rfl, rfl, rfl, rfl, by decide⟩

theorem witness_EncodeDecode :
    Config.candidate.wf = true ∧ (Instr.iidData 30).wf Config.candidate = true
      ∧ encode Config.candidate ⟨.psHeader, false, 0⟩ (.apply 64) = some (.command ⟨3, [64]⟩)
      ∧ encode Config.candidate ⟨.extFill, false, 7⟩ .extFill = some (.payload (rep 7 false))
      ∧ ∀ j, j < 7 → (fun _ => false) j = bitAt (rep 7 false) j := by
  refine ⟨candidate_wf, by decide +kernel, rfl, rfl, by decide⟩

theorem witness_HuffmanDecodesEverything : (tableFor Config.candidate .iid false true).wf = true := by decide +kernel

theorem witness_HeaderFlagElements : ∀ ph ∈ [Phase.psHeader, .enableIid, .enableIcc, .enableExt, .frameClass],
    (parsing zeroParams (place ph)).parse = some (place ph) ∧ (place ph).phase = ph := fun _ _ => ⟨rfl, rfl⟩

theorem witness_ModeLookups : (∀ ph ∈ [Phase.iidMode, .iccMode],
    (parsing zeroParams (place ph)).parse = some (place ph) ∧ (place ph).phase = ph)
    ∧ (0 : BitVec 3).toNat ≤ 5 ∧ (5 : BitVec 3).toNat ≤ 5 ∧ (parsing zeroParams (place .iidMode)).cfg.wf = true :=
  ⟨fun _ _ => ⟨rfl, rfl⟩, by decide, by decide, candidate_wf⟩

theorem witness_ReservedModes : (∀ ph ∈ [Phase.iidMode, .iccMode],
    (parsing zeroParams (place ph)).parse = some (place ph) ∧ (place ph).phase = ph)
    ∧ 5 < (6 : BitVec 3).toNat ∧ 5 < (7 : BitVec 3).toNat := ⟨fun _ _ => ⟨rfl, rfl⟩, by decide, by decide⟩

/-- Explicit borders: two envelopes, border 1 at slot 10. -/
def explicitBorders : Params :=
  { zeroParams with frameClass := true, numEnv := 2, borderPosition := [-1, 10, 0, 0, 0, 0] }

/-- Border 2 after 10: 9 is too small, 10 ends the borders; border 1 after -1: 0 is followed by border 2. -/
theorem witness_ExplicitBorders :
    (parsing explicitBorders (place .numEnvIdx)).parse = some (place .numEnvIdx) ∧ explicitBorders.frameClass = true
      ∧ (parsing explicitBorders (place (.border 2))).parse = some (place (.border 2))
      ∧ (((9 : BitVec 5).toNat : Int) < cell 0 explicitBorders.borderPosition 1)
      ∧ cell 0 explicitBorders.borderPosition 1 ≤ ((10 : BitVec 5).toNat : Int) ∧ explicitBorders.numEnv ≤ 2
      ∧ (parsing explicitBorders (place (.border 1))).parse = some (place (.border 1))
      ∧ cell 0 explicitBorders.borderPosition 0 ≤ ((0 : BitVec 5).toNat : Int) ∧ 1 < explicitBorders.numEnv := by
  refine ⟨rfl, rfl, rfl, ?_, ?_, ?_, rfl, ?_, ?_⟩ <;> decide

theorem witness_FixedBorders :
    (parsing zeroParams (place .numEnvIdx)).parse = some (place .numEnvIdx) ∧ (place .numEnvIdx).phase = .numEnvIdx
      ∧ zeroParams.frameClass = false ∧ 5 ≤ zeroParams.borderPosition.length := ⟨rfl, rfl, rfl, by decide⟩

/-- Two envelopes, every family on, with the band counts of mode 0. -/
def twoRows : Params :=
  { zeroParams with
    enableIid := true, enableIcc := true, enableExt := true, enableIpdopd := true
    nrIidPar := 10, nrIccPar := 10, nrIpdopdPar := 5, numEnv := 2, borderPosition := [-1, 15, 31, 0, 0, 0] }

/-- A row with bands, with another row after it and as the last one; a row with no band. -/
theorem witness_RowFlags : ∀ f ∈ [Family.iid, .icc, .ipd, .opd], ∀ e ∈ [0, 1],
    (parsing twoRows (place (dtPhase f e))).parse = some (place (dtPhase f e))
      ∧ (place (dtPhase f e)).phase = dtPhase f e ∧ 0 < twoRows.nrPar f
      ∧ ({ zeroParams with numEnv := 2 } : Params).nrPar f = 0 := by
  decide +kernel

/-- The first and the last band of a row, in range and, for the families that have a range, out of it. -/
theorem witness_RowValues : (∀ f ∈ [Family.iid, .icc, .ipd, .opd], ∀ dt ∈ [false, true],
    (codewordOf (tableFor Config.candidate f dt false) 1).isSome = true
      ∧ (parsing twoRows (place (dataPhase f 0 0 dt))).parse = some (place (dataPhase f 0 0 dt))
      ∧ (place (dataPhase f 0 0 dt)).phase = dataPhase f 0 0 dt
      ∧ 0 + 1 < twoRows.nrPar f ∧ twoRows.nrPar f ≤ (twoRows.nrPar f - 1) + 1 ∧ 0 + 1 < twoRows.numEnv)
    ∧ (codewordOf (tableFor Config.candidate .iid false false) 7).isSome = true
    ∧ (codewordOf (tableFor Config.candidate .iid false false) 8).isSome = true
    ∧ (codewordOf (tableFor Config.candidate .icc false false) (-1)).isSome = true := by decide +kernel

/-- A row of IID (D1), the same row as the last of its block, and a row of IPD of the last envelope. -/
theorem witness_FrequencyDeltaRow : (∀ x ∈ [(Family.iid, 0, [(1 : Int), -1, 0, 2, 0, 0, -2, 0, 0, 0]),
      (Family.iid, 1, [1, -1, 0, 2, 0, 0, -2, 0, 0, 0]), (Family.ipd, 1, [6, 0, 0, 1, 0])],
    (parsing twoRows (place (dtPhase x.1 x.2.1))).parse = some (place (dtPhase x.1 x.2.1))
      ∧ (place (dtPhase x.1 x.2.1)).phase = dtPhase x.1 x.2.1
      ∧ x.2.2.length = twoRows.nrPar x.1
      ∧ x.2.1 < (twoRows.par x.1).length ∧ x.2.2.length ≤ (cell [] (twoRows.par x.1) x.2.1).length
      ∧ (∀ d ∈ x.2.2, (codewordOf (tableFor Config.candidate x.1 false twoRows.iidQuant) d).isSome = true)
      ∧ (∀ b, b < x.2.2.length → rangeOk twoRows.iidQuant x.1 ((x.2.2.take (b + 1)).sum) = true)) := by decide +kernel

theorem witness_ExtensionSize :
    (parsing zeroParams (place .extSize)).parse = some (place .extSize) ∧ (place .extSize).phase = .extSize
      ∧ (parsing zeroParams { place .extEsc with cnt := 15 }).parse = some { place .extEsc with cnt := 15 } :=
  ⟨rfl, rfl, rfl⟩

/-- The remaining budget at the ends of the three ranges, and the places of the loop. -/
theorem witness_ExtensionLoop : (∀ ph ∈ [Phase.extId, .enableIpdopd, .reservedPs],
    (parsing twoRows (place ph)).parse = some (place ph) ∧ (place ph).phase = ph)
    ∧ (1 : BitVec 2) ≠ 0 ∧ (7 : Int) < 10 - 2 ∧ (0 : Int) ≤ 9 - 2 ∧ (9 : Int) - 2 ≤ 7 ∧ (0 : Int) ≤ 2 - 2
    ∧ (1 : Int) - 2 < 0 := by
  refine ⟨fun _ _ => ⟨rfl, rfl⟩, ?_, ?_, ?_, ?_, ?_, ?_⟩ <;> decide

theorem witness_EndOfParse :
    (parsing twoRows (place .extFill)).parse = some (place .extFill) ∧ (place .extFill).phase = .extFill
      ∧ twoRows.numEnv ≠ 0 ∧ 31 ≤ cell 0 twoRows.borderPosition twoRows.numEnv
      ∧ (parsing twoRows (place .extFill)).host.hostpos ≤ (place .extFill).pos := by
  refine ⟨rfl, rfl, ?_, ?_, ?_⟩ <;> decide

/-- One coded envelope that ends at slot 15, with an IID value of 8, an ICC value of 8, or neither. -/
def openFrame (iid icc : Int) : Params :=
  { twoRows with
    numEnv := 1, borderPosition := [-1, 15, 0, 0, 0, 0]
    iidPar := rep 5 (rep 34 iid), iccPar := rep 5 (rep 34 icc) }

theorem witness_EnvelopeFixUp : (∀ q ∈ [openFrame 8 0, openFrame 7 8, openFrame 7 7],
    (parsing q (place .extFill)).parse = some (place .extFill)
      ∧ (q.numEnv = 0 ∨ cell 0 q.borderPosition q.numEnv < 31)
      ∧ q.numEnv + 1 < q.borderPosition.length
      ∧ (place .extFill).pos + (place .extFill).cnt.toNat - 0 ≤ (place .extFill).budget
      ∧ q.enableIid = true ∧ q.enableIcc = true)
    ∧ iidOk false (cellI (copyRow (openFrame 8 0).iidPar 1 0) 1 9) = false
    ∧ iidOk false (cellI (copyRow (openFrame 7 8).iidPar 1 0) 1 9) = true
    ∧ iccOk (cellI (copyRow (openFrame 7 8).iccPar 1 0) 1 9) = false := by decide +kernel

/-- The fix-up copies the row of every enabled family, IPD and OPD too. -/
theorem test_fixup_ipdopd :
    after (exec .extFill (parsing { openFrame 7 7 with
      ipdPar := (rep 5 (rep 17 0)).set 0 (rep 17 3), opdPar := (rep 5 (rep 17 0)).set 0 (rep 17 5) } (place .extFill))) (fun t =>
      (cellI t.params.ipdPar 1 16 == 3) && (cellI t.params.opdPar 1 16 == 5) && (cellI t.params.ipdPar 2 0 == 0)) = true := by
  decide +kernel

/-- NUM_ENV_IDX with no family on ends the parse of a payload without extension. -/
theorem witness_AbsentFamilies :
    (Instr.numEnvIdx 1).isElement = true ∧ (place .numEnvIdx).phase.beforeIid = true
      ∧ (place .numEnvIdx).phase.beforeIcc = true
      ∧ after (exec (.numEnvIdx 1) (parsing zeroParams (place .numEnvIdx))) (fun t =>
        (t.parse == none) && !t.params.enableIid && !t.params.enableIcc) = true := by decide +kernel

/-- Every element at its place. -/
theorem witness_ElementsComplete : ∀ x ∈ [(Instr.psHeader true, Phase.psHeader), (.enableIid true, .enableIid),
      (.iidMode 5, .iidMode), (.enableIcc true, .enableIcc), (.iccMode 5, .iccMode), (.enableExt true, .enableExt),
      (.frameClass true, .frameClass), (.numEnvIdx 3, .numEnvIdx), (.borderPosition 31, .border 1),
      (.iidDt true, .iidDt 0), (.iidData (-14), .iidData 0 9 true), (.iccDt true, .iccDt 0),
      (.iccData 7, .iccData 0 9 false), (.extSize 15, .extSize), (.extEsc 255, .extEsc), (.extId 3, .extId),
      (.extFill, .extFill), (.enableIpdopd true, .enableIpdopd), (.ipdDt true, .ipdDt 1),
      (.ipdData 7, .ipdData 1 4 true), (.opdDt false, .opdDt 1), (.opdData 7, .opdData 1 4 false),
      (.reservedPs true, .reservedPs)],
    (parsing twoRows (place x.2)).parse = some (place x.2)
      ∧ (encodeElement Config.candidate (elemCtx (parsing twoRows (place x.2)) (place x.2)) x.1).isSome = true := by
  decide +kernel

theorem witness_ElementsOutOfPlace :
    (Instr.extFill).isElement = true ∧ idle.parse = none
      ∧ (parsing zeroParams (place .psHeader)).parse = some (place .psHeader)
      ∧ encodeElement Config.candidate (elemCtx (parsing zeroParams (place .psHeader)) (place .psHeader)) .extFill = none :=
  ⟨rfl, rfl, rfl, rfl⟩

theorem witness_ReadDataCompletes : Inv idle ∧ idle.ready ∧ idle.params.enableIid = false
    ∧ idle.params.enableIcc = false ∧ idle.params.enableExt = false ∧ idle.bit 0 = false
    ∧ idle.bit 1 = false := ⟨idle_inv, idle_ready, rfl, rfl, rfl, rfl, rfl⟩

/-- A success with a header (D1) and an error (S2) from states that meet the invariant. -/
theorem witness_ReadDataPostconditions :
    (Inv (streaming [(0, 0xC0), (1, 0x52), (2, 0xB0), (3, 0xD0)])
      ∧ memBit .zeros [(0, 0xC0), (1, 0x52), (2, 0xB0), (3, 0xD0)] 0 = true
      ∧ after (exec (.readData 31) (streaming [(0, 0xC0), (1, 0x52), (2, 0xB0), (3, 0xD0)])) (fun t =>
        t.status == .okBits 31) = true)
    ∧ Inv (streaming [(0, 0xC1), (1, 0x54), (2, 0x5A), (3, 0xA0)])
    ∧ after (exec (.readData 40) (streaming [(0, 0xC1), (1, 0x54), (2, 0x5A), (3, 0xA0)])) (fun t =>
      t.status == .invalidData .borderOrder) = true :=
  ⟨⟨streaming_inv _ (by decide), by decide, by decide +kernel⟩, streaming_inv _ (by decide), by decide +kernel⟩

theorem witness_ReadDataStepwise : after (exec (.readData 4) idle) (fun _ => true) = true := by decide +kernel

/-- Every command but READ_DATA runs on a ready machine. -/
theorem witness_CommandsNeverFail : ∀ i ∈ [Instr.initTables, .reset, .apply 0, .remap20 .iid 34 5 true,
      .remap34 .opd 11 5 false, .remapVal20 ⟨.h11, .re, 5⟩, .remapVal34 ⟨.h22, .im, 0⟩, .hybridAnalysis true,
      .decorrelate .rbuf true, .stereoProcess true, .hybridSynthesis .rbuf true .right],
    i.isElement = false ∧ after (exec i idle) (fun _ => true) = true := by decide +kernel

theorem witness_ConfigurationFixed : step idle = .next idle ∧ idle.tablesReady = true := ⟨rfl, rfl⟩

/-- The last row there is, wide enough for a full map and for a short one. -/
theorem witness_RemapCommands : idle.ready ∧ (4 : Nat) < 5 ∧ 33 < (cell [] (idle.params.par .iid) 4).length
    ∧ 34 ≤ (cell [] (idle.params.par .icc) 4).length ∧ 17 ≤ (cell [] (idle.params.par .opd) 4).length
    ∧ ((0 : Nat) ≠ 34 ∧ (0 : Nat) ≠ 17 ∧ (0 : Nat) ≠ 10 ∧ (0 : Nat) ≠ 5 ∧ (0 : Nat) ≠ 20 ∧ (0 : Nat) ≠ 11) := by
  refine ⟨idle_ready, ?_, ?_, ?_, ?_, ?_⟩ <;> decide

/-- A remap of more envelopes than there are rows runs: the rows there are are converted (`42_band_remap.md` R211). -/
theorem test_remap_extra_rows :
    after (exec (.remap20 .iid 10 6 true) idle) (fun t =>
      (t.status == .ok) && (t.work.mapped.iid.length == 6) && (cell [] t.work.mapped.iid 4 == rep 20 0)) = true := by
  decide +kernel

theorem witness_RemapComposition : (9 : Nat) ≤ (if true then 9 else 4) ∧ (4 : Nat) ≤ (if false then 9 else 4)
    ∧ (0 : Int) ≤ 7 ∧ (-7 : Int) ≤ 0 := by decide

theorem witness_RemapRange : (-15 : Int) ≤ 0 ∧ (0 : Int) ≤ 15 ∧ ∀ v ∈ ([-15, 15, 0] : List Int), -15 ≤ v ∧ v ≤ 15 := by
  decide

/-- The last row there is, and one that is not there. -/
theorem witness_RemapVal20Assigns : idle.ready ∧ 34 ≤ (idle.dsp.row ⟨.h11, .re, 5⟩).length
    ∧ (cell [] (idle.dsp.mat .h11) (partIx .re)).length ≤ 6 := ⟨idle_ready, by decide, by decide⟩

theorem witness_RemapVal34Assigns : idle.ready ∧ 34 ≤ (idle.dsp.row ⟨.h22, .im, 0⟩).length
    ∧ (cell [] (idle.dsp.mat .h22) (partIx .im)).length ≤ 6 := ⟨idle_ready, by decide, by decide⟩

theorem witness_HybridAnalysisResult : idle.ready ∧ nrBands false ≤ 71 ∧ idle.work.lbuf.length ≤ 91 ∧ (31 : Nat) < 32 :=
  ⟨idle_ready, by decide, by decide +kernel, by decide⟩

theorem witness_FilterIsConvolution : ((fun _ => (1, 0) : Nat → Rat × Rat) 6).2 = 0 := rfl

theorem witness_HybridSynthesisResult : idle.ready ∧ hostShape (idle.host.buf .right) = true :=
  ⟨idle_ready, by decide +kernel⟩

theorem witness_AnalysisThenSynthesis : idle.ready ∧ (63 : Nat) < 64 ∧ (if true then 5 else 3) ≤ 5
    ∧ (if false then 5 else 3) ≤ 3 := ⟨idle_ready, by decide, by decide, by decide⟩

theorem witness_DecorrelateFrame : idle.ready ∧ nrBands false ≤ 71 ∧ idle.work.rbuf.length ≤ 91
    ∧ false = idle.params.is34bandsOld ∧ ¬true = idle.params.is34bandsOld ∧ 19 < nrParBands false
    ∧ nrParBands false ≤ 20 ∧ 33 < nrParBands true :=
  ⟨idle_ready, by decide, by decide +kernel, rfl, by decide, by decide, by decide, by decide⟩

theorem witness_DelayLines : idle.ready ∧ idle.dsp.delay.length = 91 ∧ 70 < nrBands false ∧ nrBands false ≤ 71
    ∧ 13 < idle.cfg.maxDelay := ⟨idle_ready, by decide +kernel, by decide, by decide, by decide⟩

theorem witness_AllpassHistory : idle.ready ∧ idle.dsp.shaped idle.cfg = true ∧ 29 < nrAllpassBands false
    ∧ nrAllpassBands false ≤ 30 ∧ 4 < idle.cfg.maxApDelay ∧ idle.cfg.wf = true :=
  ⟨idle_ready, by decide +kernel, by decide, by decide, by decide, candidate_wf⟩

theorem witness_DelayedClasses : idle.ready ∧ idle.cfg.wf = true ∧ nrAllpassBands false ≤ 30 ∧ 70 < nrBands false
    ∧ 41 < shortDelayBand idle.cfg false ∧ ¬42 < shortDelayBand idle.cfg false :=
  ⟨idle_ready, candidate_wf, by decide, by decide, by decide, by decide⟩

/-- The candidate configuration over the reals. -/
def exactConfig : Config := { Config.candidate with fmt := .exact }

theorem witness_TransientBounds : exactConfig.fmt = .exact
    ∧ exactConfig.peakDecayFactor = .fin (mkRat 76592833836465 (10 ^ 14)) ∧ (0 : Rat) ≤ mkRat 76592833836465 (10 ^ 14)
    ∧ ∀ p ∈ ([0, 1] : List Rat), 0 ≤ p := ⟨rfl, rfl, by decide +kernel, by decide +kernel⟩

/-- Over the reals: a denominator above the smoothed power, and one equal to it; the candidate format is no custom
one. -/
theorem witness_GainEveryFormat : (Config.candidate.fmt.wf = true ∧ ∀ id, Config.candidate.fmt ≠ .custom id)
    ∧ (∀ q : Rat, 0 ≤ q → q ≤ 1 → ∃ r : Rat, exactConfig.fmt.rnd q = .fin r ∧ 0 ≤ r ∧ r ≤ 1)
    ∧ (0 : Rat) ≤ 1 ∧ (0 : Rat) ≤ 3 / 2 ∧ rnd exactConfig (transientImpact.mul (.fin 1)) = .fin (3 / 2)
    ∧ ((3 : Rat) / 2 ≤ 3 / 2) :=
  ⟨⟨rfl, fun _ h => nomatch h⟩, fun q h0 h1 => ⟨q, rfl, h0, h1⟩, by decide +kernel, by decide +kernel, by decide +kernel,
    by decide +kernel⟩

theorem witness_DecorrelateReset : idle.ready ∧ true ≠ idle.params.is34bandsOld := ⟨idle_ready, by decide⟩

/-- Slot 1 of a frame with no envelope, and the first band that is no parameter band; IPD/OPD off and on; a count that
selects a map and one that passes through, in both resolutions. -/
theorem witness_StereoFrame : idle.ready ∧ nrBands true ≤ 91 ∧ idle.params.numEnv < 1 ∧ nrParBands false ≤ 20
    ∧ idle.params.enableIpdopd = false ∧ ({ idle with params := twoRows } : State).ready
    ∧ twoRows.enableIpdopd = true ∧ twoRows.nrIidPar = 10 ∧ twoRows.nrIpdopdPar = 5
    ∧ (idle.params.nrIidPar ≠ 34 ∧ idle.params.nrIidPar ≠ 17 ∧ idle.params.nrIidPar ≠ 20 ∧ idle.params.nrIidPar ≠ 11
      ∧ idle.params.nrIidPar ≠ 10 ∧ idle.params.nrIidPar ≠ 5) :=
  ⟨idle_ready, by decide, by decide, by decide, rfl, ⟨rfl, rfl⟩, rfl, rfl, rfl, by decide⟩

theorem witness_MatrixCarryOver : idle.ready ∧ idle.dsp.shaped idle.cfg = true ∧ 1 < 2
    ∧ idle.params.numEnvOld ≤ idle.cfg.maxNumEnv
    ∧ ({ zeroParams with numEnvOld := 5 } : Params).numEnvOld ≤ idle.cfg.maxNumEnv :=
  ⟨idle_ready, by decide +kernel, by decide, by decide, by decide⟩

theorem witness_PhaseHistoryReset : idle.ready ∧ true ≠ idle.params.is34bandsOld ∧ idle.params.numEnv = 0 :=
  ⟨idle_ready, by decide, rfl⟩

/-- Two envelopes without IPD/OPD: the remapped phases are zero. -/
def twoEnvelopes : Params := { zeroParams with numEnv := 2, borderPosition := [-1, 15, 31, 0, 0, 0] }

theorem witness_PhaseHistory : ({ idle with params := twoEnvelopes } : State).ready ∧ 2 ≤ twoEnvelopes.numEnv
    ∧ oneEnvelope.numEnv = 1 ∧ zeroParams.numEnv = 0 ∧ 16 < idle.dsp.ipdHist.length ∧ 16 < idle.dsp.opdHist.length ∧ 10 < nrIpdOpdBands false
    ∧ ∀ e j, iccOk (cellI (mapParams twoEnvelopes false).ipd e j) = true
      ∧ iccOk (cellI (mapParams twoEnvelopes false).opd e j) = true := by
  refine ⟨⟨rfl, rfl⟩, by decide, rfl, rfl, by decide, by decide, by decide, fun e j => ?_⟩
  have h : cellI (tab 2 fun _ => tab 11 fun _ => 0) e j = 0 := by
    unfold cellI
    rw [cell_tab]
    split_ifs
    · rw [cell_tab]
      split_ifs <;> rfl
    · rfl
  exact ⟨(congrArg iccOk h).trans rfl, (congrArg iccOk h).trans rfl⟩

theorem witness_TargetMatrices : ({ idle with params := oneEnvelope } : State).ready ∧ idle.cfg.wf = true
    ∧ idle.dsp.shaped idle.cfg = true ∧ oneEnvelope.numEnv ≤ idle.cfg.maxNumEnv
    ∧ (idle.cfg.baseline = true ∨ oneEnvelope.enableIpdopd = false) ∧ 0 < oneEnvelope.numEnv ∧ 19 < nrParBands false
    ∧ ({ idle with params := twoRows } : State).ready ∧ nrIpdOpdBands false ≤ 11 ∧ 1 < twoRows.numEnv :=
  ⟨⟨rfl, rfl⟩, candidate_wf, by decide +kernel, by decide, .inr rfl, by decide, by decide, ⟨rfl, rfl⟩, by decide, by decide⟩

theorem witness_PhaseRotation : ({ idle with params := twoRows } : State).ready ∧ idle.cfg.wf = true
    ∧ idle.dsp.shaped idle.cfg = true ∧ 1 < twoRows.numEnv ∧ twoRows.numEnv ≤ idle.cfg.maxNumEnv
    ∧ idle.cfg.baseline = false ∧ twoRows.enableIpdopd = true ∧ 10 < nrIpdOpdBands false :=
  ⟨⟨rfl, rfl⟩, candidate_wf, by decide +kernel, by decide, by decide, rfl, rfl, by decide⟩

/-- One envelope that ends at slot 15; slot 16 is in no envelope. -/
theorem witness_SamplesOutsideEnvelopes : ({ idle with params := openFrame 0 0 } : State).ready
    ∧ (∀ e, -1 ≤ cell 0 (openFrame 0 0).borderPosition e)
    ∧ ∀ e, e < (openFrame 0 0).numEnv → ¬(cell 0 (openFrame 0 0).borderPosition e < ((16 : Nat) : Int)
      ∧ ((16 : Nat) : Int) ≤ cell 0 (openFrame 0 0).borderPosition (e + 1)) := by
  refine ⟨⟨rfl, rfl⟩, fun e => ?_, by decide⟩
  by_cases h : e < 6
  · have : ∀ k : Fin 6, -1 ≤ cell 0 (openFrame 0 0).borderPosition k := by decide
    exact this ⟨e, h⟩
  · rw [cell_out _ _ _ (Nat.le_of_not_lt h)]
    decide

/-- Two envelopes of 16 slots, with IPD/OPD and without: the first and the last slot of each. -/
theorem witness_LinearInterpolation : (exactConfig.fmt = .exact ∧ 16 + 16 ≤ 32)
    ∧ ({ idle with params := twoRows } : State).ready ∧ ({ idle with params := twoEnvelopes } : State).ready
    ∧ idle.work.shaped = true ∧ (∀ e, -1 ≤ cell 0 twoRows.borderPosition e)
    ∧ (∀ e, e < twoRows.numEnv → cell 0 twoRows.borderPosition e ≤ cell 0 twoRows.borderPosition (e + 1))
    ∧ (∀ x ∈ [(0, 0), (0, 15), (1, 16), (1, 31)], cell 0 twoRows.borderPosition x.1 < ((x.2 : Nat) : Int)
      ∧ ((x.2 : Nat) : Int) ≤ cell 0 twoRows.borderPosition (x.1 + 1)) ∧ twoEnvelopes.borderPosition = twoRows.borderPosition
    ∧ 70 < nrBands false ∧ idle.cfg.baseline = false ∧ twoRows.enableIpdopd = true ∧ twoEnvelopes.enableIpdopd = false := by
  refine ⟨⟨rfl, by decide⟩, ⟨rfl, rfl⟩, ⟨rfl, rfl⟩, by decide +kernel, fun e => ?_, by decide, by decide, rfl, by decide, rfl,
    rfl, rfl⟩
  by_cases h : e < 6
  · have : ∀ k : Fin 6, -1 ≤ cell 0 twoRows.borderPosition k := by decide
    exact this ⟨e, h⟩
  · rw [cell_out _ _ _ (Nat.le_of_not_lt h)]
    decide

theorem witness_ApplyCompletes : idle.ready ∧ (0 : Int) ≤ 0 ∧ (0 : Int) ≤ 64 ∧ (0 : Int) ≤ 64 ∧ (64 : Int) ≤ 64
    ∧ hostShape idle.host.bufL = true ∧ hostShape idle.host.bufR = true :=
  ⟨idle_ready, by decide, by decide, by decide, by decide, by decide +kernel, by decide +kernel⟩

theorem witness_ApplyIsItsEngines : idle.ready ∧ (0 : Int) ≤ 20 ∧ (20 : Int) ≤ 64 := ⟨idle_ready, by decide, by decide⟩

theorem witness_ApplyClears : idle.ready ∧ (0 : Int) ≤ 20 ∧ (20 : Int) ≤ 64 ∧ idle.dsp.shaped idle.cfg = true :=
  ⟨idle_ready, by decide, by decide, by decide +kernel⟩

theorem witness_ApplyIgnoresRight : idle.ready ∧ (0 : Int) ≤ 64 ∧ (64 : Int) ≤ 64 ∧ (31 : Nat) < 32 ∧ (32 : Nat) ≤ 37
    ∧ (37 : Nat) < 38 := ⟨idle_ready, by decide, by decide, by decide, by decide, by decide⟩

theorem witness_InitTablesResult : State.reset.parse = none := rfl

theorem witness_ResetResult : idle.ready ∧ ({ idle with params := twoRows } : State).ready
    ∧ ({ idle with params := twoRows } : State).cfg = idle.cfg
    ∧ after (exec .reset { idle with params := twoRows }) (fun _ => true) = true :=
  ⟨idle_ready, ⟨rfl, rfl⟩, rfl, by decide +kernel⟩

/-- A step of the host and a step of a parse, both from states with the invariant. -/
theorem witness_InvKept : (Inv idle ∧ step idle = .next idle)
    ∧ Inv (parsing zeroParams (place .psHeader))
    ∧ after (step (parsing zeroParams (place .psHeader))) (fun _ => true) = true :=
  ⟨⟨idle_inv, rfl⟩, header_inv, by decide +kernel⟩

end Sys2Proof.Tests
end

section
/-! SUPPORT. What a step and a command can do, said once: the inversion lemmas of `step` and of the commands. -/

namespace Sys2Proof.Machine

/-! ## The parts of the state the sample engines leave alone -/

@[simp] theorem State.analysis_cfg (s : State) (b : Bool) : (s.analysis b).cfg = s.cfg := rfl
@[simp] theorem State.analysis_params (s : State) (b : Bool) : (s.analysis b).params = s.params := rfl
@[simp] theorem State.analysis_tablesReady (s : State) (b : Bool) : (s.analysis b).tablesReady = s.tablesReady := rfl
@[simp] theorem State.analysis_parse (s : State) (b : Bool) : (s.analysis b).parse = s.parse := rfl
@[simp] theorem State.analysis_host (s : State) (b : Bool) : (s.analysis b).host = s.host := rfl
@[simp] theorem State.decorrelate_cfg (s : State) (x : HybBuf) (b : Bool) : (s.decorrelate x b).cfg = s.cfg := rfl
@[simp] theorem State.decorrelate_params (s : State) (x : HybBuf) (b : Bool) :
    (s.decorrelate x b).params = s.params := rfl
@[simp] theorem State.decorrelate_tablesReady (s : State) (x : HybBuf) (b : Bool) :
    (s.decorrelate x b).tablesReady = s.tablesReady := rfl
@[simp] theorem State.decorrelate_parse (s : State) (x : HybBuf) (b : Bool) :
    (s.decorrelate x b).parse = s.parse := rfl
@[simp] theorem State.decorrelate_host (s : State) (x : HybBuf) (b : Bool) : (s.decorrelate x b).host = s.host := rfl
@[simp] theorem State.stereo_cfg (s : State) (b : Bool) : (s.stereo b).cfg = s.cfg := rfl
@[simp] theorem State.stereo_params (s : State) (b : Bool) : (s.stereo b).params = s.params := rfl
@[simp] theorem State.stereo_tablesReady (s : State) (b : Bool) : (s.stereo b).tablesReady = s.tablesReady := rfl
@[simp] theorem State.stereo_parse (s : State) (b : Bool) : (s.stereo b).parse = s.parse := rfl
@[simp] theorem State.stereo_host (s : State) (b : Bool) : (s.stereo b).host = s.host := rfl
@[simp] theorem State.synthesis_cfg (s : State) (x : HybBuf) (b : Bool) (d : HostBuf) :
    (s.synthesis x b d).cfg = s.cfg := rfl
@[simp] theorem State.synthesis_params (s : State) (x : HybBuf) (b : Bool) (d : HostBuf) :
    (s.synthesis x b d).params = s.params := rfl
@[simp] theorem State.synthesis_tablesReady (s : State) (x : HybBuf) (b : Bool) (d : HostBuf) :
    (s.synthesis x b d).tablesReady = s.tablesReady := rfl
@[simp] theorem State.synthesis_parse (s : State) (x : HybBuf) (b : Bool) (d : HostBuf) :
    (s.synthesis x b d).parse = s.parse := rfl
@[simp] theorem State.synthesis_dsp (s : State) (x : HybBuf) (b : Bool) (d : HostBuf) :
    (s.synthesis x b d).dsp = s.dsp := rfl
@[simp] theorem State.synthesis_work (s : State) (x : HybBuf) (b : Bool) (d : HostBuf) :
    (s.synthesis x b d).work = s.work := rfl

@[simp] theorem State.applyFrame_cfg (s : State) (k : Int) : (s.applyFrame k).cfg = s.cfg := by
  simp [State.applyFrame]
@[simp] theorem State.applyFrame_tablesReady (s : State) (k : Int) :
    (s.applyFrame k).tablesReady = s.tablesReady := by
  simp [State.applyFrame]

/-! ## The commands -/

/-- Every command but INIT_TABLES is guarded: refused while another one runs and until the tables are ready. -/
theorem exec_guarded {i : Instr} (hi : i.isElement = false) (hn : i ≠ .initTables) :
    ∃ k : State → Out, ∀ s, exec i s = command s k := by
  cases i with
  | initTables => exact absurd rfl hn
  | reset | readData | apply | remap20 | remap34 | remapVal20 | remapVal34 | hybridAnalysis | decorrelate
  | stereoProcess | hybridSynthesis => exact ⟨_, fun _ => rfl⟩
  | _ => cases hi

theorem command_busy {s : State} {k : State → Out} (hb : s.parse.isSome = true) :
    command s k = .refused .commandInProgress := by
  obtain ⟨p, hp⟩ := Option.isSome_iff_exists.mp hb
  exact whenIdle_busy hp

theorem command_notReady {s : State} {k : State → Out} (hp : s.parse = none) (ht : s.tablesReady = false) :
    command s k = .refused .tablesNotReady := by
  simp [command, whenIdle_eq hp, ht]

/-- The states a command can lead to from a state without a parse. -/
inductive CommandEffect (s : State) : State → Prop
  | initTables : CommandEffect s { s with tablesReady := true, status := .ok }
  | reset : CommandEffect s s.resetInstance
  | readData (n : Nat) (t : State) (h : runParse (parseBound s) (beginParse n s) = .next t) : CommandEffect s t
  | apply (k : Int) : CommandEffect s ((s.applyFrame k).withStatus .ok)
  | remap (map : Option (List Int → Bool → List Int)) (f : Family) (n : Nat) (full : Bool) :
    CommandEffect s (s.remap map f n full)
  | remapVal20 (r : RowRef) : CommandEffect s (s.remapVal (remapRow20 s.cfg) r)
  | remapVal34 (r : RowRef) : CommandEffect s (s.remapVal (remapRow34 s.cfg) r)
  | hybridAnalysis (b : Bool) : CommandEffect s ((s.analysis b).withStatus .ok)
  | decorrelate (x : HybBuf) (b : Bool) : CommandEffect s ((s.decorrelate x b).withStatus .ok)
  | stereoProcess (b : Bool) : CommandEffect s ((s.stereo b).withStatus .ok)
  | hybridSynthesis (x : HybBuf) (b : Bool) (d : HostBuf) : CommandEffect s ((s.synthesis x b d).withStatus .ok)

/-- A command other than INIT_TABLES that answers a next state ran from a ready state. -/
theorem exec_next_ready {i : Instr} {s t : State} (hi : i.isElement = false) (hn : i ≠ .initTables)
    (h : exec i s = .next t) : s.ready := by
  obtain ⟨k, hk⟩ := exec_guarded hi hn
  exact (command_next ((hk s).symm.trans h)).1

/-- An outcome that is the next state `u` is no other one. -/
theorem CommandEffect.of_eq {s t u : State} {o : Out} (ho : o = .next u) (h : o = .next t) (hu : CommandEffect s u) :
    CommandEffect s t :=
  Host.Outcome.next.inj (ho.symm.trans h) ▸ hu

/-- INIT_TABLES answers a next state where no parse is in progress. -/
theorem execInitTables_next {s t : State} (h : execInitTables s = .next t) :
    s.parse = none ∧ CommandEffect s t := by
  rcases hp : s.parse with _ | p
  · exact ⟨rfl, .of_eq (o := execInitTables s) (whenIdle_eq hp) h .initTables⟩
  · cases (whenIdle_busy hp).symm.trans h

/-- A command that answers a next state runs with no parse in progress and has its effect. -/
theorem exec_command_effect {i : Instr} {s t : State} (hi : i.isElement = false) (h : exec i s = .next t) :
    s.parse = none ∧ CommandEffect s t := by
  by_cases hn : i = .initTables
  · subst hn
    exact execInitTables_next h
  have hr := exec_next_ready hi hn h
  refine ⟨hr.2, ?_⟩
  cases i with
  | initTables => exact absurd rfl hn
  | reset => exact .of_eq (execReset_eq hr) h .reset
  | readData n => exact .readData n t ((command_eq hr).symm.trans (show execReadData n s = .next t from h))
  | apply k =>
    have ha : execApply k s = .next t := h
    rw [execApply_eq hr] at ha
    split_ifs at ha
    exact .of_eq rfl ha (.apply k)
  | remap20 f n e full => exact .of_eq (o := execRemap20 f n e full s) (command_eq hr) h (.remap ..)
  | remap34 f n e full => exact .of_eq (o := execRemap34 f n e full s) (command_eq hr) h (.remap ..)
  | remapVal20 r => exact .of_eq (o := execRemapVal20 r s) (command_eq hr) h (.remapVal20 r)
  | remapVal34 r => exact .of_eq (o := execRemapVal34 r s) (command_eq hr) h (.remapVal34 r)
  | hybridAnalysis b => exact .of_eq (execHybridAnalysis_eq hr b) h (.hybridAnalysis b)
  | decorrelate x b => exact .of_eq (execDecorrelate_eq hr x b) h (.decorrelate x b)
  | stereoProcess b => exact .of_eq (execStereoProcess_eq hr b) h (.stereoProcess b)
  | hybridSynthesis x b d => exact .of_eq (execHybridSynthesis_eq hr x b d) h (.hybridSynthesis x b d)
  | _ => cases hi

/-! ## The step -/

/-- With a parse in progress the step runs the element at the working cursor (`10_state.md` R27). -/
theorem step_element {s : State} {p : Parse} {i : Instr} {n : Nat} (hp : s.parse = some p)
    (hf : fetchElement s p = .ok (i, n)) : step s = exec i s := by
  simp only [step, hp, hf]

/-- Between two commands the step runs the command the host has issued (`30_encoding.md` R119). -/
theorem step_issue {s : State} {w : CommandWord} {rest : List HostEvent} {i : Instr} (hp : s.parse = none)
    (hin : s.host.inputs = .issue w :: rest) (hd : decodeCommand w = .ok i) :
    step s = exec i (s.popInput rest) := by
  simp only [step, hp, hin, hd]

/-- The states a step can lead to: an element of the parse in progress runs, the host issues a command, writes a byte,
places its cursor or supplies a buffer, or there is nothing left to do. -/
inductive StepEffect (s : State) : State → Prop
  | element (i : Instr) (t : State) (hi : i.isElement = true) (h : exec i s = .next t) : StepEffect s t
  | wait : StepEffect s s
  | command (rest : List HostEvent) (t : State) (hp : s.parse = none) (h : CommandEffect (s.popInput rest) t) :
    StepEffect s t
  | writeByte (rest : List HostEvent) (a : Nat) (b : Byte) (hp : s.parse = none) :
    StepEffect s (s.withHost { s.host with bitstream := memWrite s.cfg.pad s.host.bitstream a b, inputs := rest })
  | setCursor (rest : List HostEvent) (n : Nat) (hp : s.parse = none) :
    StepEffect s (s.withHost { s.host with hostpos := n, inputs := rest })
  | supply (rest : List HostEvent) (b : HostBuf) (x : List (List (List PsNum))) (hp : s.parse = none)
    (hx : hostShape x = true) : StepEffect s ((s.popInput rest).withHost ((s.popInput rest).host.setBuf b x))

/-- What a step that answers a next state has done. -/
theorem step_effect {s t : State} (h : step s = .next t) : StepEffect s t := by
  unfold step at h
  split at h
  · split at h
    · next i n hf => exact .element i t (decodeElement_isElement hf) h
    · cases h
  · next hp =>
    split at h
    · cases h
      exact .wait
    · next w rest hin =>
      split at h
      · next i hd => exact .command rest t hp (exec_command_effect (decodeCommand_isCommand hd) h).2
      · cases h
    · next a b rest hin =>
      cases h
      exact .writeByte rest a b hp
    · next n rest hin =>
      cases h
      exact .setCursor rest n hp
    · next b x rest hin =>
      unfold hostSupply at h
      split_ifs at h with hx
      cases h
      exact .supply rest b x hp (Bool.and_eq_true _ _ ▸ hx).1

/-! ## The settled statements -/

/-- Settles O1: a step runs the element at the working cursor, or the command the host has issued. -/
theorem stepRunsInstruction : Obligations.StepRunsInstruction :=
  ⟨fun _ _ _ _ hp hd => step_element hp hd, fun _ _ _ _ hp hin hd => step_issue hp hin hd⟩

/-- Settles O4, by the guard that every command but INIT_TABLES shares. -/
theorem commandGuards : Obligations.CommandGuards := by
  intro i s hi
  by_cases hn : i = .initTables
  · subst hn
    refine ⟨fun hb => ?_, fun _ _ h => absurd rfl h⟩
    obtain ⟨p, hp⟩ := Option.isSome_iff_exists.mp hb
    exact (show execInitTables s = .refused .commandInProgress from whenIdle_busy hp)
  · obtain ⟨k, hk⟩ := exec_guarded hi hn
    rw [hk]
    exact ⟨command_busy, fun hp ht _ => command_notReady hp ht⟩

/-- No command changes the configuration or makes the tables unready. -/
theorem commandEffect_fixes {s t : State} (h : CommandEffect s t) :
    t.cfg = s.cfg ∧ (s.tablesReady = true → t.tablesReady = true) := by
  cases h with
  | initTables => exact ⟨rfl, fun _ => rfl⟩
  | readData n _ hr =>
    obtain ⟨-, ⟨hcfg, -, -, htab, -⟩, -⟩ := runParse_ended _ _ _ _ (beginParse_parse n s) hr
    exact ⟨hcfg, fun ht => htab.trans ht⟩
  | _ => simp

/-- Whether the parse goes on or ends, what is outside PSParameters, the host cursor, the status and the parse stays. -/
theorem Proceeds.sameOutside {p : Parse} {s t : State} (h : Proceeds p s t) : sameOutside s t := by
  rcases h with ⟨-, hs, -⟩ | ⟨-, hs, -⟩
  · exact hs
  · exact hs

/-- Settles O28, by the cases of the step; an element changes nothing outside PSParameters, the host cursor, the status
and the parse. -/
theorem configurationFixed : Obligations.ConfigurationFixed := by
  intro s t h
  cases step_effect h with
  | element i _ hi he =>
    obtain ⟨p, -, hpr⟩ := exec_element_proceeds hi he
    obtain ⟨hcfg, -, -, htab, -⟩ := hpr.sameOutside
    exact ⟨hcfg, fun ht => htab.trans ht⟩
  | command rest _ _ hc => exact (commandEffect_fixes hc :)
  | _ => exact ⟨rfl, id⟩

end Sys2Proof.Machine
end

section
/-! SUPPORT. The shapes of the arrays: what every array operation keeps of them. -/

namespace Sys2Proof.Machine

/-! ## A property of every entry of an array -/

theorem forall_mem_tab {α : Type} {P : α → Prop} {n : Nat} {f : Nat → α} (h : ∀ k, k < n → P (f k)) :
    ∀ x ∈ tab n f, P x := by
  intro x hx
  obtain ⟨k, hk, rfl⟩ := List.mem_map.mp hx
  exact h k (List.mem_range.mp hk)

theorem forall_mem_cell {α : Type} {P : α → Prop} {d : α} {l : List α} (h : ∀ x ∈ l, P x) {k : Nat}
    (hk : k < l.length) : P (cell d l k) := by
  rw [cell_in d l k hk]
  exact h _ (List.getElem_mem hk)

theorem forall_mem_set {α : Type} {P : α → Prop} {l : List α} (h : ∀ x ∈ l, P x) {k : Nat} {y : α}
    (hy : k < l.length → P y) : ∀ x ∈ l.set k y, P x := by
  intro x hx
  obtain ⟨j, hj, rfl⟩ := List.mem_iff_getElem.mp hx
  rw [List.length_set] at hj
  rw [List.getElem_set]
  split_ifs with hjk
  · exact hy (hjk ▸ hj)
  · exact h _ (List.getElem_mem hj)

theorem forall_mem_upd {α : Type} {P : α → Prop} {l : List α} (h : ∀ x ∈ l, P x) {k : Nat} {f : α → α}
    (hf : ∀ x, P x → P (f x)) : ∀ x ∈ upd l k f, P x := by
  intro x hx
  obtain ⟨j, hj, rfl⟩ := List.mem_iff_getElem.mp hx
  rw [upd_length] at hj
  simp only [upd, List.getElem_modify]
  split_ifs
  · exact hf _ (h _ (List.getElem_mem hj))
  · exact h _ (List.getElem_mem hj)

theorem forall_mem_rep {α : Type} {P : α → Prop} {n : Nat} {y : α} (hy : P y) : ∀ x ∈ rep n y, P x :=
  fun _ hx => List.eq_of_mem_replicate hx ▸ hy

@[simp] theorem rep_length {α : Type} (n : Nat) (y : α) : (rep n y).length = n := List.length_replicate

/-! ## Two dimensions -/

theorem shape2_iff {α : Type} {n m : Nat} {l : List (List α)} :
    shape2 n m l = true ↔ l.length = n ∧ ∀ r ∈ l, r.length = m := by
  simp only [shape2, Bool.and_eq_true, beq_iff_eq, List.all_eq_true]

section
variable {α : Type} {n m : Nat} {l : List (List α)}

theorem shape2_cell (h : shape2 n m l = true) {k : Nat} (hk : k < n) : (cell [] l k).length = m := by
  obtain ⟨hl, hr⟩ := shape2_iff.mp h
  exact forall_mem_cell hr (hl.symm ▸ hk)

theorem shape2_tab {f : Nat → List α} (h : ∀ k, k < n → (f k).length = m) : shape2 n m (tab n f) = true :=
  shape2_iff.mpr ⟨tab_length n f, forall_mem_tab h⟩

theorem shape2_rep {r : List α} (h : r.length = m) : shape2 n m (rep n r) = true :=
  shape2_iff.mpr ⟨rep_length n r, forall_mem_rep h⟩

theorem shape2_map {f : List α → List α} (h : shape2 n m l = true) (hf : ∀ r, (f r).length = r.length) :
    shape2 n m (l.map f) = true := by
  obtain ⟨hl, hr⟩ := shape2_iff.mp h
  exact shape2_iff.mpr ⟨by simpa using hl, List.forall_mem_map.mpr fun r hm => (hf r).trans (hr r hm)⟩

theorem shape2_set {k : Nat} {r : List α} (h : shape2 n m l = true) (hr : k < n → r.length = m) :
    shape2 n m (l.set k r) = true := by
  obtain ⟨hl, hrows⟩ := shape2_iff.mp h
  exact shape2_iff.mpr ⟨by simpa using hl, forall_mem_set hrows fun hk => hr (hl ▸ hk)⟩

theorem shape2_upd {k : Nat} {f : List α → List α} (h : shape2 n m l = true) (hf : ∀ r, (f r).length = r.length) :
    shape2 n m (upd l k f) = true := by
  obtain ⟨hl, hr⟩ := shape2_iff.mp h
  exact shape2_iff.mpr ⟨by simpa using hl, forall_mem_upd hr fun r hm => (hf r).trans hm⟩

end

theorem shape2_zeroI {n m : Nat} {l : List (List Int)} (h : shape2 n m l = true) : shape2 n m (zeroI l) = true :=
  shape2_map h fun _ => List.length_map _

theorem shape2_storeI {n m : Nat} {l : List (List Int)} (h : shape2 n m l = true) (e b : Nat) (v : Int) :
    shape2 n m (storeI l e b v) = true :=
  shape2_upd h fun _ => List.length_set

theorem shape2_copyRow {n m : Nat} {l : List (List Int)} (h : shape2 n m l = true) (dst : Nat) {src : Nat}
    (hs : src < n) : shape2 n m (copyRow l dst src) = true :=
  shape2_set h fun _ => shape2_cell h hs

/-! ## Three dimensions -/

theorem shape3_iff {α : Type} {n m k : Nat} {l : List (List (List α))} :
    shape3 n m k l = true ↔ l.length = n ∧ ∀ p ∈ l, shape2 m k p = true := by
  simp only [shape3, Bool.and_eq_true, beq_iff_eq, List.all_eq_true]

theorem hostShape_eq (x : List (List (List PsNum))) : hostShape x = shape3 2 qmfRows qmfBands x := rfl

section
variable {α : Type} {n m k : Nat} {l : List (List (List α))}

theorem shape3_cell (h : shape3 n m k l = true) {j : Nat} (hj : j < n) : shape2 m k (cell [] l j) = true := by
  obtain ⟨hl, hp⟩ := shape3_iff.mp h
  exact forall_mem_cell hp (hl.symm ▸ hj)

theorem shape3_tab {f : Nat → List (List α)} (h : ∀ j, j < n → shape2 m k (f j) = true) :
    shape3 n m k (tab n f) = true :=
  shape3_iff.mpr ⟨tab_length n f, forall_mem_tab h⟩

theorem shape3_rep {p : List (List α)} (h : shape2 m k p = true) : shape3 n m k (rep n p) = true :=
  shape3_iff.mpr ⟨rep_length n p, forall_mem_rep h⟩

theorem shape3_map {f : List (List α) → List (List α)} (h : shape3 n m k l = true)
    (hf : ∀ p, shape2 m k p = true → shape2 m k (f p) = true) : shape3 n m k (l.map f) = true := by
  obtain ⟨hl, hp⟩ := shape3_iff.mp h
  exact shape3_iff.mpr ⟨by simpa using hl, List.forall_mem_map.mpr fun p hm => hf p (hp p hm)⟩

theorem shape3_upd {j : Nat} {f : List (List α) → List (List α)} (h : shape3 n m k l = true)
    (hf : ∀ p, shape2 m k p = true → shape2 m k (f p) = true) : shape3 n m k (upd l j f) = true := by
  obtain ⟨hl, hp⟩ := shape3_iff.mp h
  exact shape3_iff.mpr ⟨by simpa using hl, forall_mem_upd hp hf⟩

end

/-! ## The cells of an integer array -/

theorem allCells_iff {f : Int → Bool} {l : List (List Int)} :
    allCells f l = true ↔ ∀ r ∈ l, ∀ v ∈ r, f v = true := by
  simp only [allCells, List.all_eq_true]

theorem allCells_zeroI {f : Int → Bool} (l : List (List Int)) (h0 : f 0 = true) : allCells f (zeroI l) = true :=
  allCells_iff.mpr <| List.forall_mem_map.mpr fun _ _ => List.forall_mem_map.mpr fun _ _ => h0

theorem allCells_storeI {f : Int → Bool} {l : List (List Int)} (h : allCells f l = true) (e b : Nat) {v : Int}
    (hv : f v = true) : allCells f (storeI l e b v) = true :=
  allCells_iff.mpr <| forall_mem_upd (allCells_iff.mp h) fun _ hr => forall_mem_set hr fun _ => hv

theorem allCells_copyRow {f : Int → Bool} {l : List (List Int)} (h : allCells f l = true) (dst src : Nat) :
    allCells f (copyRow l dst src) = true := by
  have hrows := allCells_iff.mp h
  refine allCells_iff.mpr (forall_mem_set hrows fun _ => ?_)
  by_cases hs : src < l.length
  · exact forall_mem_cell hrows hs
  · simp [cell_out [] l src (Nat.le_of_not_lt hs)]

end Sys2Proof.Machine
end

section
/-! SUPPORT. PSParameters under the invariant: shapes and ranges of all four families as one predicate, and what every
update of READ_DATA keeps of it. -/

namespace Sys2Proof.Machine

/-! ## The invariant of PSParameters, field by field -/

/-- The number of bands a row of a family has room for (`10_state.md` R29 to R31). -/
def parWidth (c : Config) : Family → Nat
  | .iid | .icc => c.maxNrIidIcc
  | .ipd | .opd => c.maxNrIpdOpd

/-- The values a cell of a family can hold at any time (`10_state.md` R29 to R31). -/
def parOk : Family → Int → Bool
  | .iid => iidOk true
  | .icc | .ipd | .opd => iccOk

/-- The fields of PSParameters besides the four arrays: their shapes and ranges, and no 34-band resolution under
`BASELINE`. -/
structure Params.Control (c : Config) (q : Params) : Prop where
  borderLength : q.borderPosition.length = c.maxNumEnv + 1
  borderRange : ∀ v ∈ q.borderPosition, -1 ≤ v ∧ v ≤ 31
  iidCount : [0, 10, 20, 34].contains q.nrIidPar = true
  iccCount : [0, 10, 20, 34].contains q.nrIccPar = true
  ipdopdCount : [0, 5, 11, 17].contains q.nrIpdopdPar = true
  numEnv : q.numEnv ≤ 5
  numEnvOld : q.numEnvOld ≤ 5
  baseline : c.baseline = true → q.is34bands = false ∧ q.is34bandsOld = false

/-- The shapes of the four arrays. -/
def Params.ArraysShaped (c : Config) (q : Params) : Prop :=
  ∀ f, shape2 c.maxNumEnv (parWidth c f) (q.par f) = true

/-- What the invariant says of PSParameters at any time. -/
structure Params.Held (c : Config) (q : Params) : Prop where
  control : q.Control c
  shaped : q.ArraysShaped c
  ranged : ∀ f, allCells (parOk f) (q.par f) = true

theorem forall_family {P : Family → Prop} : (∀ f, P f) ↔ P .iid ∧ P .icc ∧ P .ipd ∧ P .opd :=
  ⟨fun h => ⟨h .iid, h .icc, h .ipd, h .opd⟩, fun ⟨h1, h2, h3, h4⟩ f => by cases f <;> assumption⟩

/-- The parts of `Params.shaped`. -/
theorem Params.shaped_iff (c : Config) (q : Params) :
    q.shaped c = true ↔ q.borderPosition.length = c.maxNumEnv + 1 ∧ q.ArraysShaped c := by
  simp only [Params.shaped, Params.ArraysShaped, forall_family, parWidth, Params.par, Bool.and_eq_true, beq_iff_eq,
    and_assoc]

/-- The parts of `Params.ranged`. -/
theorem Params.ranged_iff (q : Params) :
    q.ranged = true ↔ [0, 10, 20, 34].contains q.nrIidPar = true ∧ [0, 10, 20, 34].contains q.nrIccPar = true
      ∧ [0, 5, 11, 17].contains q.nrIpdopdPar = true ∧ q.numEnv ≤ 5 ∧ q.numEnvOld ≤ 5
      ∧ (∀ v ∈ q.borderPosition, -1 ≤ v ∧ v ≤ 31) ∧ ∀ f, allCells (parOk f) (q.par f) = true := by
  simp only [Params.ranged, forall_family, parOk, Params.par, Bool.and_eq_true, decide_eq_true_eq, List.all_eq_true,
    and_assoc]

/-- `Params.Held` is what `Inv` says of PSParameters besides the parse. -/
theorem Params.held_iff (c : Config) (q : Params) :
    q.Held c ↔ q.shaped c = true ∧ q.ranged = true
      ∧ (c.baseline = true → q.is34bands = false ∧ q.is34bandsOld = false) := by
  rw [Params.shaped_iff, Params.ranged_iff]
  constructor
  · rintro ⟨⟨h1, h2, h3, h4, h5, h6, h7, h8⟩, hs, hr⟩
    exact ⟨⟨h1, hs⟩, ⟨h3, h4, h5, h6, h7, h2, hr⟩, h8⟩
  · rintro ⟨⟨h1, hs⟩, ⟨h3, h4, h5, h6, h7, h2, hr⟩, h8⟩
    exact ⟨⟨h1, h2, h3, h4, h5, h6, h7, h8⟩, hs, hr⟩

/-- The room a conforming configuration has for envelopes. -/
theorem five_le_maxNumEnv {c : Config} (hc : c.wf = true) : 5 ≤ c.maxNumEnv := by
  obtain ⟨-, h, -⟩ := (Config.wf_iff c).mp hc
  exact h

/-! ## The arrays -/

section
variable {c : Config} {q : Params}

theorem parOk_zero (f : Family) : parOk f 0 = true := by cases f <;> rfl

theorem Params.Control.setPar (h : q.Control c) (f : Family) (rows : List (List Int)) :
    (q.setPar f rows).Control c := by
  cases f <;> exact { h with }

theorem Params.ArraysShaped.setPar (h : q.ArraysShaped c) {f : Family} {rows : List (List Int)}
    (hr : shape2 c.maxNumEnv (parWidth c f) rows = true) : (q.setPar f rows).ArraysShaped c := by
  intro g
  by_cases hg : g = f
  · subst hg
    rwa [setPar_par_same]
  · rw [setPar_par_other q f g rows hg]
    exact h g

theorem Params.Held.setPar (h : q.Held c) {f : Family} {rows : List (List Int)}
    (hs : shape2 c.maxNumEnv (parWidth c f) rows = true) (hr : allCells (parOk f) rows = true) :
    (q.setPar f rows).Held c := by
  refine ⟨h.control.setPar f rows, h.shaped.setPar hs, fun g => ?_⟩
  by_cases hg : g = f
  · subst hg
    rwa [setPar_par_same]
  · rw [setPar_par_other q f g rows hg]
    exact h.ranged g

theorem Params.Held.setPar_zeroI (h : q.Held c) (f : Family) : (q.setPar f (zeroI (q.par f))).Held c :=
  h.setPar (shape2_zeroI (h.shaped f)) (allCells_zeroI _ (parOk_zero f))

/-- Zeroing needs no range: any shaped arrays are in range after it (`60_exceptions.md` R333). -/
theorem Params.Control.zeroArrays_held (h : q.Control c) (hs : q.ArraysShaped c) (b : Bool) :
    ({ q.zeroArrays with start := b } : Params).Held c := by
  have hpar : ∀ f, ({ q.zeroArrays with start := b } : Params).par f = zeroI (q.par f) := fun f => by cases f <;> rfl
  refine ⟨{ h with }, fun f => ?_, fun f => ?_⟩ <;> rw [hpar]
  · exact shape2_zeroI (hs f)
  · exact allCells_zeroI _ (parOk_zero f)

/-- A change of the other fields leaves the arrays as they were. -/
theorem Params.Held.of_par_eq {q' : Params} (h : q.Held c) (hc : q'.Control c) (hp : ∀ f, q'.par f = q.par f) :
    q'.Held c :=
  ⟨hc, fun f => hp f ▸ h.shaped f, fun f => hp f ▸ h.ranged f⟩

/-! ## The delta codec -/

/-- A value within its own range predicate is one the cell can hold (`40_entropy_delta.md` R143). -/
theorem parOk_of_iidOk {b : Bool} {v : Int} (h : iidOk b v = true) : iidOk true v = true := by
  cases b <;> simp only [iidOk, decide_eq_true_eq, Bool.toNat_true, Bool.toNat_false] at h ⊢ <;> omega

theorem iccOk_emod_eight (v : Int) : iccOk (v % 8) = true := by
  simp only [iccOk, Bool.and_eq_true, decide_eq_true_eq]
  omega

/-- A value that passes the check is in the range of its family: by the check for IID and ICC, by the mask for IPD and
OPD (R143, R146). -/
theorem parOk_deltaValue {f : Family} {b dt : Bool} {acc delta : Int} {e k : Nat}
    (h : rangeOk b f (deltaValue f q acc e k dt delta) = true) : parOk f (deltaValue f q acc e k dt delta) = true := by
  cases f
  · exact parOk_of_iidOk h
  · exact h
  · exact iccOk_emod_eight _
  · exact iccOk_emod_eight _

/-! ## Borders -/

theorem Params.Control.setBorder (h : q.Control c) (e : Nat) {v : Int} (hv : -1 ≤ v ∧ v ≤ 31) :
    ({ q with borderPosition := q.borderPosition.set e v } : Params).Control c :=
  { h with
    borderLength := List.length_set.trans h.borderLength
    borderRange := forall_mem_set h.borderRange fun _ => hv }

theorem numEnvTab_le (b : Bool) (n : Nat) : numEnvTab b n ≤ 4 := by
  rcases n with _ | _ | _ | _ | n <;> cases b <;> simp [numEnvTab]

theorem numEnvTab_fixed (n : Nat) : numEnvTab false n ≠ 3 := by
  rcases n with _ | _ | _ | _ | n <;> simp [numEnvTab]

/-- The fixed borders of 1, 2 or 4 envelopes lie within the frame (`41_parameter_decoder.md` R165). -/
theorem fixedBorder_range {n e : Nat} (hn : n ≤ 4) (h3 : n ≠ 3) (he : e ≤ n) :
    -1 ≤ fixedBorder n e ∧ fixedBorder n e ≤ 31 := by
  obtain rfl | rfl | rfl | rfl : n = 0 ∨ n = 1 ∨ n = 2 ∨ n = 4 := by omega
  all_goals interval_cases e <;> decide

theorem fixedBorders_shape {n : Nat} (hn : n ≤ 4) (h3 : n ≠ 3) {old : List Int}
    (ho : ∀ v ∈ old, -1 ≤ v ∧ v ≤ 31) :
    (fixedBorders n old).length = old.length ∧ ∀ v ∈ fixedBorders n old, -1 ≤ v ∧ v ≤ 31 := by
  unfold fixedBorders
  refine List.foldlRecOn (motive := fun l => l.length = old.length ∧ ∀ v ∈ l, -1 ≤ v ∧ v ≤ 31) _ _
    ⟨by simp, forall_mem_set ho fun _ => ⟨le_rfl, by omega⟩⟩ fun l hl j hj => ?_
  have hj : j + 1 ≤ n := List.mem_range.mp hj
  exact ⟨by simpa using hl.1, forall_mem_set hl.2 fun _ => fixedBorder_range hn h3 hj⟩

theorem Params.Control.fixedBorders (h : q.Control c) (hn : q.numEnv ≤ 4) (h3 : q.numEnv ≠ 3) :
    ({ q with borderPosition := Machine.fixedBorders q.numEnv q.borderPosition } : Params).Control c := by
  obtain ⟨hl, hr⟩ := fixedBorders_shape hn h3 h.borderRange
  exact { h with borderLength := hl.trans h.borderLength, borderRange := hr }

/-! ## The fix-up and the steps after it -/

/-- The fix-up leaves an array as it is, or copies one of its rows; that of a family that is off it leaves as it is
(`41_parameter_decoder.md` R175). -/
theorem fixupCopy_par (q : Params) (f : Family) :
    q.fixupCopy.par f = q.par f
      ∨ 0 ≤ q.fixupSource ∧ q.fixupCopy.par f = copyRow (q.par f) q.numEnv q.fixupSource.toNat := by
  unfold Params.fixupCopy
  simp only
  split_ifs with h <;> cases f <;> first | exact .inl rfl | exact .inr ⟨h.1, rfl⟩

theorem fixupCopy_iidPar_off (q : Params) (h : q.enableIid = false) : q.fixupCopy.iidPar = q.iidPar := by
  unfold Params.fixupCopy
  simp only [h, Bool.false_eq_true, if_false]
  split_ifs <;> rfl

theorem fixupCopy_iccPar_off (q : Params) (h : q.enableIcc = false) : q.fixupCopy.iccPar = q.iccPar := by
  unfold Params.fixupCopy
  simp only [h, Bool.false_eq_true, if_false]
  split_ifs <;> rfl

theorem Params.Control.fixupCopy (h : q.Control c) : q.fixupCopy.Control c := by
  obtain ⟨hb, hn, ho, -, -, -, hi, hc, hp, -, h34, h34o, -⟩ := fixupCopy_fields q
  constructor
  case borderLength => exact hb ▸ h.borderLength
  case borderRange => exact hb ▸ h.borderRange
  case iidCount => exact hi ▸ h.iidCount
  case iccCount => exact hc ▸ h.iccCount
  case ipdopdCount => exact hp ▸ h.ipdopdCount
  case numEnv => exact hn ▸ h.numEnv
  case numEnvOld => exact ho ▸ h.numEnvOld
  case baseline => exact fun hbl => ⟨h34.trans (h.baseline hbl).1, h34o.trans (h.baseline hbl).2⟩

/-- The source row of the fix-up is one of the array's. -/
theorem fixupSource_lt (hn : q.numEnv ≤ 5) (ho : q.numEnvOld ≤ 5) : q.fixupSource < 5 := by
  unfold Params.fixupSource
  split_ifs <;> omega

theorem Params.Held.fixupCopy (h : q.Held c) (hw : 5 ≤ c.maxNumEnv) : q.fixupCopy.Held c := by
  have hlt : q.fixupSource < 5 := fixupSource_lt h.control.numEnv h.control.numEnvOld
  refine ⟨h.control.fixupCopy, fun f => ?_, fun f => ?_⟩
  · rcases fixupCopy_par q f with he | ⟨h0, he⟩ <;> rw [he]
    · exact h.shaped f
    · exact shape2_copyRow (h.shaped f) _ (by omega)
  · rcases fixupCopy_par q f with he | ⟨-, he⟩ <;> rw [he]
    · exact h.ranged f
    · exact allCells_copyRow (h.ranged f) _ _

theorem Params.Held.closeEnvelope (h : q.Held c) (hn : q.numEnv ≤ 4) : q.closeEnvelope.Held c :=
  h.of_par_eq { h.control.setBorder (q.numEnv + 1) (v := 31) (by decide) with numEnv := Nat.succ_le_succ hn }
    fun _ => rfl

theorem Params.Held.updateResolution (h : q.Held c) : (q.updateResolution c.baseline).Held c := by
  refine h.of_par_eq { h.control with baseline := fun hb => ⟨?_, ?_⟩ } fun _ => rfl
  · simpa [Params.updateResolution, hb] using (h.control.baseline hb).1
  · exact (h.control.baseline hb).1

theorem Params.Held.baselineRule (h : q.Held c) (b : Bool) : (q.baselineRule b).Held c := by
  have hpar : ∀ f, (q.baselineRule b).par f = q.par f ∨ (q.baselineRule b).par f = zeroI (q.par f) := fun f => by
    cases f
    · exact .inl rfl
    · exact .inl rfl
    · exact ite_eq_or_eq ..
    · exact ite_eq_or_eq ..
  refine ⟨{ h.control with }, fun f => ?_, fun f => ?_⟩ <;> rcases hpar f with he | he <;> rw [he]
  · exact h.shaped f
  · exact shape2_zeroI (h.shaped f)
  · exact h.ranged f
  · exact allCells_zeroI _ (parOk_zero f)

/-- The baseline rule settles IPD and OPD (`41_parameter_decoder.md` R179). -/
theorem baselineRule_ipdOpdSettled (q : Params) (b : Bool) : (q.baselineRule b).ipdOpdSettled := by
  intro hoff
  have hoff : (if b then false else q.enableIpdopd) = false := hoff
  simp only [Params.baselineRule, hoff, Bool.false_eq_true, if_false, allZero_zeroI, and_self]

theorem Params.Held.startRule (h : q.Held c) (b : Bool) : (q.startRule b).Held c :=
  h.of_par_eq { h.control with } fun _ => rfl

/-! ## After RESET -/

theorem Params.zero_control (c : Config) : (Params.zero c).Control c where
  borderLength := rep_length _ _
  borderRange := forall_mem_rep (by decide)
  iidCount := rfl
  iccCount := rfl
  ipdopdCount := rfl
  numEnv := Nat.zero_le _
  numEnvOld := Nat.zero_le _
  baseline := fun _ => ⟨rfl, rfl⟩

theorem Params.zero_held (c : Config) : (Params.zero c).Held c := by
  have hpar : ∀ f, (Params.zero c).par f = rep c.maxNumEnv (rep (parWidth c f) 0) := fun f => by cases f <;> rfl
  refine ⟨Params.zero_control c, fun f => ?_, fun f => ?_⟩ <;> rw [hpar]
  · exact shape2_rep (rep_length _ _)
  · exact allCells_iff.mpr (forall_mem_rep (forall_mem_rep (parOk_zero f)))

theorem Params.zero_arraysZero (c : Config) : (Params.zero c).arraysZero := by
  have hrep : ∀ n m, allZero (rep n (rep m 0)) = true := fun n m => by
    simp only [allZero, List.all_eq_true]
    exact forall_mem_rep (forall_mem_rep rfl)
  exact ⟨hrep _ _, hrep _ _, hrep _ _, hrep _ _⟩

end

end Sys2Proof.Machine
end

section
/-! SUPPORT. The parse under the invariant: every element and every continuation between two elements leads to a state
whose PSParameters are in shape and in range and whose parse, if it goes on, stands at a legal place. -/

namespace Sys2Proof.Machine

/-- What the invariant says of PSParameters and the parse. -/
def State.ParseHeld (s : State) : Prop := s.params.Held s.cfg ∧ s.parseInv

/-- What a continuation relies on: a conforming configuration, PSParameters as the invariant has them, and a parse whose
cursor and budget are. -/
structure OnTrack (p : Parse) (s : State) : Prop where
  conforms : s.cfg.wf = true
  held : s.params.Held s.cfg
  cursor : s.host.hostpos ≤ p.pos
  cnt : p.cnt ≤ 2160

section
variable {p : Parse} {s : State}

theorem OnTrack.maxNumEnv (h : OnTrack p s) : 5 ≤ s.cfg.maxNumEnv := five_le_maxNumEnv h.conforms

theorem OnTrack.withParams (h : OnTrack p s) {q : Params} (hq : q.Held s.cfg) : OnTrack p (s.withParams q) :=
  { h with held := hq }

/-- A change of other fields than the four arrays. -/
theorem OnTrack.withControl (h : OnTrack p s) {q : Params} (hc : q.Control s.cfg)
    (hp : ∀ f, q.par f = s.params.par f) : OnTrack p (s.withParams q) :=
  h.withParams (h.held.of_par_eq hc hp)

theorem OnTrack.withParse (h : OnTrack p s) {p' : Parse} (hp : p.pos ≤ p'.pos) (hc : p'.cnt ≤ 2160) : OnTrack p' s :=
  { h with cursor := h.cursor.trans hp, cnt := hc }

theorem OnTrack.advance (h : OnTrack p s) (n : Nat) : OnTrack (p.advance n) s :=
  h.withParse (Nat.le_add_right _ _) h.cnt

/-! ## The end of the parse -/

/-- The error path needs the shapes of the arrays only (`60_exceptions.md` R333). -/
theorem errorPath_held (cause : Cause) (p : Parse) (hc : s.params.Control s.cfg) (hs : s.params.ArraysShaped s.cfg) :
    (errorPath cause p s).ParseHeld :=
  ⟨hc.zeroArrays_held hs false, fun _ => allZero_zeroI _, fun _ => allZero_zeroI _,
    fun _ => ⟨allZero_zeroI _, allZero_zeroI _⟩⟩

theorem goto_held (h : OnTrack p s) {ph : Phase} (hp : ({ p with phase := ph } : Parse).placed s.params) :
    (s.goto p ph).ParseHeld :=
  ⟨h.held, hp, h.cursor, h.cnt⟩

theorem commit_held (h : OnTrack p s) (hiid : s.params.iidSettled) (hicc : s.params.iccSettled)
    (hipd : s.params.ipdOpdSettled) : (commit p s).ParseHeld := by
  unfold commit
  simp only
  split_ifs
  · exact ⟨h.held, hiid, hicc, hipd⟩
  · exact errorPath_held _ _ h.held.control h.held.shaped

theorem concludeParse_held (h : OnTrack p s) (hiid : s.params.iidSettled) (hicc : s.params.iccSettled) :
    (concludeParse p s).ParseHeld :=
  commit_held (h.withParams ((h.held.updateResolution.baselineRule _).startRule _)) hiid hicc
    (baselineRule_ipdOpdSettled _ _)

theorem finishParse_held (h : OnTrack p s) (hn : s.params.numEnv ≤ 4) (hiid : s.params.iidSettled)
    (hicc : s.params.iccSettled) : (finishParse p s).ParseHeld := by
  have hcopy : s.params.fixupCopy.Held s.cfg := h.held.fixupCopy h.maxNumEnv
  obtain ⟨-, hnum, -, heiid, heicc, -⟩ := fixupCopy_fields s.params
  have hiid' : s.params.fixupCopy.iidSettled := fun hoff => by
    have hoff := heiid ▸ hoff
    rw [fixupCopy_iidPar_off _ hoff]
    exact hiid hoff
  have hicc' : s.params.fixupCopy.iccSettled := fun hoff => by
    have hoff := heicc ▸ hoff
    rw [fixupCopy_iccPar_off _ hoff]
    exact hicc hoff
  unfold finishParse
  simp only
  split_ifs
  · exact errorPath_held _ _ hcopy.control hcopy.shaped
  · exact errorPath_held _ _ hcopy.control hcopy.shaped
  · exact concludeParse_held (h.withParams (hcopy.closeEnvelope (hnum ▸ hn))) hiid' hicc'
  · exact concludeParse_held h hiid hicc

/-! ## From one part of the grammar to the next -/

theorem extLoop_held (h : OnTrack p s) (hx : s.params.inExtension) : (extLoop p s).ParseHeld := by
  unfold extLoop
  split_ifs with h7 h0
  · exact goto_held h ⟨hx, h7⟩
  · exact errorPath_held _ _ h.held.control h.held.shaped
  · exact goto_held h ⟨hx, by simpa using h0, by simpa using h7⟩

theorem enterExt_held (h : OnTrack p s) (hn : s.params.numEnv ≤ 4) (hiid : s.params.iidSettled)
    (hicc : s.params.iccSettled) : (enterExt p s).ParseHeld := by
  unfold enterExt
  split_ifs with he
  · exact goto_held h ⟨hn, hiid, hicc, he⟩
  · exact finishParse_held h hn hiid hicc

theorem enterIpdRow_held (e : Nat) (h : OnTrack p s) (hx : s.params.inExtension) (h7 : 7 < p.cnt)
    (hs : p.extStart ≤ p.pos) (hen : s.params.enableIpdopd = true) : (enterIpdRow e p s).ParseHeld := by
  unfold enterIpdRow
  split_ifs with he
  · exact goto_held h ⟨hx, h7, hs, hen, he⟩
  · exact goto_held h ⟨hx, h7, hs⟩

theorem enterIccRow_held (e : Nat) (h : OnTrack p s) (hn : s.params.numEnv ≤ 4) (hiid : s.params.iidSettled)
    (hen : s.params.enableIcc = true) : (enterIccRow e p s).ParseHeld := by
  unfold enterIccRow
  split_ifs with he
  · exact goto_held h ⟨hn, hiid, hen, he⟩
  · exact enterExt_held h hn hiid fun hoff => absurd (hen.symm.trans hoff) Bool.noConfusion

theorem enterIcc_held (h : OnTrack p s) (hn : s.params.numEnv ≤ 4) (hiid : s.params.iidSettled) :
    (enterIcc p s).ParseHeld := by
  unfold enterIcc
  split_ifs with hen
  · exact enterIccRow_held 0 h hn hiid hen
  · exact enterExt_held (h.withParams (h.held.setPar_zeroI .icc)) hn hiid fun _ => allZero_zeroI _

theorem enterIidRow_held (e : Nat) (h : OnTrack p s) (hn : s.params.numEnv ≤ 4) (hen : s.params.enableIid = true) :
    (enterIidRow e p s).ParseHeld := by
  unfold enterIidRow
  split_ifs with he
  · exact goto_held h ⟨hn, hen, he⟩
  · exact enterIcc_held h hn fun hoff => absurd (hen.symm.trans hoff) Bool.noConfusion

theorem enterIid_held (h : OnTrack p s) (hn : s.params.numEnv ≤ 4) : (enterIid p s).ParseHeld := by
  unfold enterIid
  split_ifs with hen
  · exact enterIidRow_held 0 h hn hen
  · exact enterIcc_held (h.withParams (h.held.setPar_zeroI .iid)) hn fun _ => allZero_zeroI _

/-- The borders, with an envelope count that NUM_ENV_IDX has just set. -/
theorem enterBorders_held (h : OnTrack p s) (hn : s.params.numEnv ≤ 4)
    (h3 : s.params.frameClass = false → s.params.numEnv ≠ 3) : (enterBorders p s).ParseHeld := by
  unfold enterBorders
  have hexplicit : OnTrack p (s.withParams { s.params with borderPosition := s.params.borderPosition.set 0 (-1) }) :=
    h.withControl (h.held.control.setBorder 0 (by decide)) fun _ => rfl
  simp only
  split_ifs with hf h1
  · exact goto_held hexplicit ⟨hf, hn, le_rfl, h1⟩
  · exact enterIid_held hexplicit hn
  · exact enterIid_held (h.withControl (h.held.control.fixedBorders hn (h3 (by simpa using hf))) fun _ => rfl) hn

/-! ## The rows of the four families -/

/-- A row's value stands where its `dt` element stood, in a band the family has. -/
theorem placed_dataPhase (q : Params) (p : Parse) (f : Family) (e b : Nat) (dt : Bool) :
    ({ p with phase := dataPhase f e b dt } : Parse).placed q
      ↔ ({ p with phase := dtPhase f e } : Parse).placed q ∧ b < q.nrPar f := by
  cases f <;> simp only [Parse.placed, dataPhase, dtPhase, Params.nrPar, and_assoc]

/-- A row stays at a legal place while the cursor moves forward. -/
theorem placed_dtPhase_mono {q : Params} {p p' : Parse} {f : Family} {e : Nat}
    (h : ({ p with phase := dtPhase f e } : Parse).placed q) (hc : p'.cnt = p.cnt) (hs : p'.extStart = p.extStart)
    (hp : p.pos ≤ p'.pos) : ({ p' with phase := dtPhase f e } : Parse).placed q := by
  cases f
  · exact h
  · exact h
  all_goals
    obtain ⟨hx, h7, hle, hrow⟩ := h
    exact ⟨hx, hc ▸ h7, hs ▸ hle.trans hp, hrow⟩

/-- The place of a row does not depend on its own family's cells. -/
theorem placed_dtPhase_setPar {q : Params} {p : Parse} {f : Family} {e : Nat} (rows : List (List Int))
    (h : ({ p with phase := dtPhase f e } : Parse).placed q) :
    ({ p with phase := dtPhase f e } : Parse).placed (q.setPar f rows) := by
  cases f <;> exact h

theorem rowDone_held {f : Family} {e : Nat} (h : OnTrack p s)
    (hr : ({ p with phase := dtPhase f e } : Parse).placed s.params) : (rowDone f e p s).ParseHeld := by
  cases f
  · obtain ⟨hn, hen, -⟩ := hr
    exact enterIidRow_held (e + 1) h hn hen
  · obtain ⟨hn, hiid, hen, -⟩ := hr
    exact enterIccRow_held (e + 1) h hn hiid hen
  · exact goto_held h hr
  · obtain ⟨hx, h7, hs, hen, -⟩ := hr
    exact enterIpdRow_held (e + 1) h hx h7 hs hen

theorem startRow_held {f : Family} {e : Nat} {dt : Bool} (h : OnTrack p s)
    (hr : ({ p with phase := dtPhase f e } : Parse).placed s.params) :
    (startRow f e (fun b => dataPhase f e b dt) p s).ParseHeld := by
  have hpos : p.pos ≤ p.pos + 1 := Nat.le_add_right _ _
  have htrack : OnTrack { p.advance 1 with acc := 0 } s := h.withParse hpos h.cnt
  have hplace : ({ { p.advance 1 with acc := 0 } with phase := dtPhase f e } : Parse).placed s.params :=
    placed_dtPhase_mono hr rfl rfl hpos
  unfold startRow
  simp only
  split_ifs with h0
  · exact goto_held htrack ((placed_dataPhase _ _ f e 0 dt).mpr ⟨hplace, h0⟩)
  · exact rowDone_held htrack hplace

theorem storeValue_held {f : Family} {e b : Nat} {dt : Bool} {len : Nat} {v : Int} (h : OnTrack p s)
    (hr : ({ p with phase := dtPhase f e } : Parse).placed s.params)
    (hv : rangeOk s.params.iidQuant f v = true → parOk f v = true) :
    (storeValue f e b (fun b => dataPhase f e b dt) len v p s).ParseHeld := by
  let rows := storeI (s.params.par f) e b v
  have hshape : shape2 s.cfg.maxNumEnv (parWidth s.cfg f) rows = true := shape2_storeI (h.held.shaped f) e b v
  have hpos : p.pos ≤ p.pos + len := Nat.le_add_right _ _
  have hplace : ({ { p.advance len with acc := v } with phase := dtPhase f e } : Parse).placed
      (s.params.setPar f rows) := placed_dtPhase_setPar rows (placed_dtPhase_mono hr rfl rfl hpos)
  have htrack : rangeOk s.params.iidQuant f v = true →
      OnTrack { p.advance len with acc := v } (s.withParams (s.params.setPar f rows)) := fun hok =>
    (h.withParams (h.held.setPar hshape (allCells_storeI (h.held.ranged f) e b (hv hok)))).withParse hpos h.cnt
  unfold storeValue
  simp only
  split_ifs with hok hb
  · exact goto_held (htrack hok) ((placed_dataPhase _ _ f e (b + 1) dt).mpr ⟨hplace, by simpa using hb⟩)
  · exact rowDone_held (htrack hok) hplace
  · exact errorPath_held _ _ (h.held.control.setPar f rows) (h.held.shaped.setPar hshape)

theorem dataCell_held {f : Family} {e b : Nat} {dt : Bool} {delta : Int} {t : State} (h : OnTrack p s)
    (hr : ({ p with phase := dataPhase f e b dt } : Parse).placed s.params)
    (ht : dataCell f e b dt (fun b => dataPhase f e b dt) delta p s = .next t) : t.ParseHeld := by
  unfold dataCell at ht
  split at ht
  · cases ht
    exact storeValue_held h ((placed_dataPhase _ _ f e b dt).mp hr).1 parOk_deltaValue
  · cases ht

end

end Sys2Proof.Machine
end

section
/-! SUPPORT. Every payload element keeps what the invariant says of PSParameters and the parse. -/

namespace Sys2Proof.Machine

/-- The band counts a legal mode selects are among those a field can hold (`10_state.md` R23). -/
theorem mode_counts_held {c : Config} (hw : c.wf = true) {m : Nat} (hm : m ≤ 5) :
    [0, 10, 20, 34].contains (c.tables.nrIidIcc.getD m 0) = true
      ∧ [0, 5, 11, 17].contains (c.tables.nrIpdOpd.getD m 0) = true := by
  obtain ⟨h1, h2⟩ := mode_counts hw hm
  rw [List.contains_cons, List.contains_cons (l := [5, 11, 17]), h1, h2, Bool.or_true, Bool.or_true]
  exact ⟨rfl, rfl⟩

section
variable {s t : State}

/-- An element runs on track, at a legal place. -/
theorem element_held {k : Parse → Phase → Option Out} (hs : Inv s) (h : element s k = .next t)
    (hk : ∀ p ph u, OnTrack p s → ({ p with phase := ph } : Parse).placed s.params → k p ph = some (.next u) →
      u.ParseHeld) : t.ParseHeld := by
  obtain ⟨p, hp, he⟩ := element_next h
  obtain ⟨hw, -, -, -, hsh, hrg, -, -, hb, hparse⟩ := hs
  have hparse : p.placed s.params ∧ s.host.hostpos ≤ p.pos ∧ p.cnt ≤ 2160 := by
    simpa only [State.parseInv, hp] using hparse
  obtain ⟨hplace, hpos, hcnt⟩ := hparse
  exact hk p p.phase t ⟨hw, (Params.held_iff _ _).mpr ⟨hsh, hrg, hb⟩, hpos, hcnt⟩ hplace he

/-! ## The header -/

theorem execPsHeader_held {v : Bool} (hs : Inv s) (h : execPsHeader v s = .next t) : t.ParseHeld := by
  refine element_held hs h fun p ph u ho hp hu => ?_
  cases ph <;> simp only [reduceCtorEq, Option.some.injEq, Host.Outcome.next.injEq] at hu
  subst hu
  have hv : OnTrack { p.advance 1 with header := v } s := ho.withParse (Nat.le_add_right _ _) ho.cnt
  exact goto_held hv (by cases v <;> trivial)

theorem execEnableIid_held {v : Bool} (hs : Inv s) (h : execEnableIid v s = .next t) : t.ParseHeld := by
  refine element_held hs h fun p ph u ho hp hu => ?_
  cases ph <;> simp only [reduceCtorEq, Option.some.injEq, Host.Outcome.next.injEq] at hu
  subst hu
  have hv : OnTrack p (s.withParams { s.params with enableIid := v }) :=
    ho.withControl { ho.held.control with } fun _ => rfl
  exact goto_held (hv.advance 1) (by cases v <;> trivial)

theorem execIidMode_held {m : BitVec 3} (hs : Inv s) (h : execIidMode m s = .next t) : t.ParseHeld := by
  refine element_held hs h fun p ph u ho hp hu => ?_
  cases ph <;> simp only [reduceCtorEq, Option.some.injEq, Host.Outcome.next.injEq] at hu
  subst hu
  split_ifs with hm
  · exact errorPath_held _ _ ho.held.control ho.held.shaped
  · obtain ⟨h1, h2⟩ := mode_counts_held ho.conforms (Nat.le_of_not_lt hm)
    have hq : OnTrack p (s.withParams (s.params.setIidMode s.cfg.tables m.toNat)) :=
      ho.withControl { ho.held.control with iidCount := h1, ipdopdCount := h2 } fun _ => rfl
    exact goto_held (hq.advance 3) trivial

theorem execEnableIcc_held {v : Bool} (hs : Inv s) (h : execEnableIcc v s = .next t) : t.ParseHeld := by
  refine element_held hs h fun p ph u ho hp hu => ?_
  cases ph <;> simp only [reduceCtorEq, Option.some.injEq, Host.Outcome.next.injEq] at hu
  subst hu
  have hv : OnTrack p (s.withParams { s.params with enableIcc := v }) :=
    ho.withControl { ho.held.control with } fun _ => rfl
  exact goto_held (hv.advance 1) (by cases v <;> trivial)

theorem execIccMode_held {m : BitVec 3} (hs : Inv s) (h : execIccMode m s = .next t) : t.ParseHeld := by
  refine element_held hs h fun p ph u ho hp hu => ?_
  cases ph <;> simp only [reduceCtorEq, Option.some.injEq, Host.Outcome.next.injEq] at hu
  subst hu
  have hm : OnTrack p (s.withParams { s.params with iccMode := m }) :=
    ho.withControl { ho.held.control with } fun _ => rfl
  split_ifs with h5
  · exact errorPath_held _ _ hm.held.control hm.held.shaped
  · obtain ⟨h1, -⟩ := mode_counts_held ho.conforms (Nat.le_of_not_lt h5)
    have hq : OnTrack p (s.withParams (({ s.params with iccMode := m } : Params).setIccMode s.cfg.tables m.toNat)) :=
      ho.withControl { ho.held.control with iccCount := h1 } fun _ => rfl
    exact goto_held (hq.advance 3) trivial

theorem execEnableExt_held {v : Bool} (hs : Inv s) (h : execEnableExt v s = .next t) : t.ParseHeld := by
  refine element_held hs h fun p ph u ho hp hu => ?_
  cases ph <;> simp only [reduceCtorEq, Option.some.injEq, Host.Outcome.next.injEq] at hu
  subst hu
  have hv : OnTrack p (s.withParams { s.params with enableExt := v }) :=
    ho.withControl { ho.held.control with } fun _ => rfl
  exact goto_held (hv.advance 1) trivial

theorem execFrameClass_held {v : Bool} (hs : Inv s) (h : execFrameClass v s = .next t) : t.ParseHeld := by
  refine element_held hs h fun p ph u ho hp hu => ?_
  cases ph <;> simp only [reduceCtorEq, Option.some.injEq, Host.Outcome.next.injEq] at hu
  subst hu
  have hv : OnTrack p (s.withParams { s.params with frameClass := v }) :=
    ho.withControl { ho.held.control with } fun _ => rfl
  exact goto_held (hv.advance 1) trivial

theorem execNumEnvIdx_held {n : BitVec 2} (hs : Inv s) (h : execNumEnvIdx n s = .next t) : t.ParseHeld := by
  refine element_held hs h fun p ph u ho hp hu => ?_
  cases ph <;> simp only [reduceCtorEq, Option.some.injEq, Host.Outcome.next.injEq] at hu
  subst hu
  have hn : numEnvTab s.params.frameClass n.toNat ≤ 4 := numEnvTab_le _ _
  have hq : OnTrack p (s.withParams
      { s.params with numEnvOld := s.params.numEnv, numEnv := numEnvTab s.params.frameClass n.toNat }) :=
    ho.withControl { ho.held.control with numEnv := hn.trans (by decide), numEnvOld := ho.held.control.numEnv }
      fun _ => rfl
  refine enterBorders_held (hq.advance 2) hn fun hf => ?_
  have hf : s.params.frameClass = false := hf
  exact (congrArg (numEnvTab · n.toNat) hf).trans_ne (numEnvTab_fixed _)

theorem execBorderPosition_held {b : BitVec 5} (hs : Inv s) (h : execBorderPosition b s = .next t) : t.ParseHeld := by
  refine element_held hs h fun p ph u ho hp hu => ?_
  cases ph <;> simp only [reduceCtorEq, Option.some.injEq, Host.Outcome.next.injEq] at hu
  next e =>
  subst hu
  obtain ⟨hf, hn, h1, -⟩ := hp
  have hb : -1 ≤ (b.toNat : Int) ∧ (b.toNat : Int) ≤ 31 := by omega
  have hq : OnTrack p (s.withParams
      { s.params with borderPosition := s.params.borderPosition.set e (b.toNat : Int) }) :=
    ho.withControl (ho.held.control.setBorder e hb) fun _ => rfl
  split_ifs with hlt he
  · exact errorPath_held _ _ hq.held.control hq.held.shaped
  · exact goto_held (hq.advance 5) ⟨hf, hn, Nat.le_add_left _ _, he⟩
  · exact enterIid_held (hq.advance 5) hn

/-! ## The parameter rows -/

theorem execIidDt_held {dt : Bool} (hs : Inv s) (h : execIidDt dt s = .next t) : t.ParseHeld := by
  refine element_held hs h fun p ph u ho hp hu => ?_
  cases ph <;> simp only [reduceCtorEq, Option.some.injEq, Host.Outcome.next.injEq] at hu
  subst hu
  exact startRow_held (f := .iid) ho hp

theorem execIidData_held {d : Int} (hs : Inv s) (h : execIidData d s = .next t) : t.ParseHeld := by
  refine element_held hs h fun p ph u ho hp hu => ?_
  cases ph <;> simp only [reduceCtorEq, Option.some.injEq] at hu
  exact dataCell_held (f := .iid) ho hp hu

theorem execIccDt_held {dt : Bool} (hs : Inv s) (h : execIccDt dt s = .next t) : t.ParseHeld := by
  refine element_held hs h fun p ph u ho hp hu => ?_
  cases ph <;> simp only [reduceCtorEq, Option.some.injEq, Host.Outcome.next.injEq] at hu
  subst hu
  exact startRow_held (f := .icc) ho hp

theorem execIccData_held {d : Int} (hs : Inv s) (h : execIccData d s = .next t) : t.ParseHeld := by
  refine element_held hs h fun p ph u ho hp hu => ?_
  cases ph <;> simp only [reduceCtorEq, Option.some.injEq] at hu
  exact dataCell_held (f := .icc) ho hp hu

theorem execIpdDt_held {dt : Bool} (hs : Inv s) (h : execIpdDt dt s = .next t) : t.ParseHeld := by
  refine element_held hs h fun p ph u ho hp hu => ?_
  cases ph <;> simp only [reduceCtorEq, Option.some.injEq, Host.Outcome.next.injEq] at hu
  subst hu
  exact startRow_held (f := .ipd) ho hp

theorem execIpdData_held {d : Int} (hs : Inv s) (h : execIpdData d s = .next t) : t.ParseHeld := by
  refine element_held hs h fun p ph u ho hp hu => ?_
  cases ph <;> simp only [reduceCtorEq, Option.some.injEq] at hu
  exact dataCell_held (f := .ipd) ho hp hu

theorem execOpdDt_held {dt : Bool} (hs : Inv s) (h : execOpdDt dt s = .next t) : t.ParseHeld := by
  refine element_held hs h fun p ph u ho hp hu => ?_
  cases ph <;> simp only [reduceCtorEq, Option.some.injEq, Host.Outcome.next.injEq] at hu
  subst hu
  exact startRow_held (f := .opd) ho hp

theorem execOpdData_held {d : Int} (hs : Inv s) (h : execOpdData d s = .next t) : t.ParseHeld := by
  refine element_held hs h fun p ph u ho hp hu => ?_
  cases ph <;> simp only [reduceCtorEq, Option.some.injEq] at hu
  exact dataCell_held (f := .opd) ho hp hu

/-! ## The extension container -/

theorem execExtSize_held {n : BitVec 4} (hs : Inv s) (h : execExtSize n s = .next t) : t.ParseHeld := by
  refine element_held hs h fun p ph u ho hp hu => ?_
  cases ph <;> simp only [reduceCtorEq, Option.some.injEq, Host.Outcome.next.injEq] at hu
  subst hu
  have hpos : p.pos ≤ p.pos + 4 := Nat.le_add_right _ _
  split_ifs with h15
  · have hcnt : (15 : Int) ≤ 2160 := by decide
    exact goto_held (p := { p.advance 4 with cnt := 15 }) (ho.withParse hpos hcnt) ⟨hp, rfl⟩
  · exact extLoop_held (ho.withParse hpos (show (n.toNat : Int) * 8 ≤ 2160 by omega)) hp

theorem execExtEsc_held {n : BitVec 8} (hs : Inv s) (h : execExtEsc n s = .next t) : t.ParseHeld := by
  refine element_held hs h fun p ph u ho hp hu => ?_
  cases ph <;> simp only [reduceCtorEq, Option.some.injEq, Host.Outcome.next.injEq] at hu
  subst hu
  obtain ⟨hx, h15⟩ := hp
  have h15 : p.cnt = 15 := h15
  exact extLoop_held (ho.withParse (Nat.le_add_right _ _) (show (p.cnt + n.toNat) * 8 ≤ 2160 by omega)) hx

theorem execExtId_held {id : BitVec 2} (hs : Inv s) (h : execExtId id s = .next t) : t.ParseHeld := by
  refine element_held hs h fun p ph u ho hp hu => ?_
  cases ph <;> simp only [reduceCtorEq, Option.some.injEq, Host.Outcome.next.injEq] at hu
  subst hu
  obtain ⟨hx, h7⟩ := hp
  have hcnt := ho.cnt
  have hpos : p.pos ≤ p.pos + 2 := Nat.le_add_right _ _
  split_ifs with h0
  · exact goto_held (p := { p.advance 2 with extStart := p.pos + 2 }) (ho.withParse hpos hcnt) ⟨hx, h7, le_rfl⟩
  · exact extLoop_held (ho.withParse hpos (show p.cnt - 2 ≤ 2160 by omega)) hx

theorem execExtFill_held (hs : Inv s) (h : execExtFill s = .next t) : t.ParseHeld := by
  refine element_held hs h fun p ph u ho hp hu => ?_
  cases ph <;> simp only [reduceCtorEq, Option.some.injEq, Host.Outcome.next.injEq] at hu
  subst hu
  obtain ⟨⟨hn, hiid, hicc, -⟩, -⟩ := hp
  exact finishParse_held (ho.advance _) hn hiid hicc

theorem execEnableIpdopd_held {v : Bool} (hs : Inv s) (h : execEnableIpdopd v s = .next t) : t.ParseHeld := by
  refine element_held hs h fun p ph u ho hp hu => ?_
  cases ph <;> simp only [reduceCtorEq, Option.some.injEq, Host.Outcome.next.injEq] at hu
  subst hu
  obtain ⟨hx, h7, hst⟩ := hp
  have hv : OnTrack p (s.withParams { s.params with enableIpdopd := v }) :=
    ho.withControl { ho.held.control with } fun _ => rfl
  have hst : p.extStart ≤ p.pos + 1 := Nat.le_succ_of_le hst
  split_ifs with hen
  · exact enterIpdRow_held 0 (hv.advance 1) hx h7 hst hen
  · exact goto_held (hv.advance 1) ⟨hx, h7, hst⟩

theorem execReservedPs_held {v : Bool} (hs : Inv s) (h : execReservedPs v s = .next t) : t.ParseHeld := by
  refine element_held hs h fun p ph u ho hp hu => ?_
  cases ph <;> simp only [reduceCtorEq, Option.some.injEq, Host.Outcome.next.injEq] at hu
  subst hu
  obtain ⟨hx, h7, hst⟩ := hp
  have hst : p.extStart ≤ p.pos := hst
  have hcnt := ho.cnt
  have hrest : p.cnt - 2 - (((p.pos + 1 : Nat) : Int) - p.extStart) ≤ 2160 := by omega
  exact extLoop_held (ho.withParse (Nat.le_add_right _ _) hrest) hx

/-! ## All elements -/

theorem exec_element_held {i : Instr} (hi : i.isElement = true) (hs : Inv s) (h : exec i s = .next t) :
    t.ParseHeld := by
  cases i with
  | psHeader _ => exact execPsHeader_held hs h
  | enableIid _ => exact execEnableIid_held hs h
  | iidMode _ => exact execIidMode_held hs h
  | enableIcc _ => exact execEnableIcc_held hs h
  | iccMode _ => exact execIccMode_held hs h
  | enableExt _ => exact execEnableExt_held hs h
  | frameClass _ => exact execFrameClass_held hs h
  | numEnvIdx _ => exact execNumEnvIdx_held hs h
  | borderPosition _ => exact execBorderPosition_held hs h
  | iidDt _ => exact execIidDt_held hs h
  | iidData _ => exact execIidData_held hs h
  | iccDt _ => exact execIccDt_held hs h
  | iccData _ => exact execIccData_held hs h
  | extSize _ => exact execExtSize_held hs h
  | extEsc _ => exact execExtEsc_held hs h
  | extId _ => exact execExtId_held hs h
  | extFill => exact execExtFill_held hs h
  | enableIpdopd _ => exact execEnableIpdopd_held hs h
  | ipdDt _ => exact execIpdDt_held hs h
  | ipdData _ => exact execIpdData_held hs h
  | opdDt _ => exact execOpdDt_held hs h
  | opdData _ => exact execOpdData_held hs h
  | reservedPs v => exact execReservedPs_held (v := v) hs h
  | _ => cases hi

/-- What is outside PSParameters, the host cursor, the status and the parse keeps its part of the invariant. -/
theorem inv_of_sameOutside (hs : Inv s) (ho : sameOutside s t) (ht : t.ParseHeld) : Inv t := by
  obtain ⟨hw, hm, hl, hr, -, -, hd, hwk, -, -⟩ := hs
  obtain ⟨hcfg, hdsp, hwork, -, -, hhost⟩ := ho
  obtain ⟨hheld, hparse⟩ := ht
  obtain ⟨hsh, hrg, hb⟩ := (Params.held_iff _ _).mp hheld
  refine ⟨hcfg ▸ hw, ?_, ?_, ?_, hsh, hrg, ?_, hwork ▸ hwk, hb, hparse⟩
  · rw [hcfg, hhost]
    exact hm
  · rw [hhost]
    exact hl
  · rw [hhost]
    exact hr
  · rw [hcfg, hdsp]
    exact hd

/-- Every element keeps the invariant. -/
theorem exec_element_inv {i : Instr} (hi : i.isElement = true) (hs : Inv s) (h : exec i s = .next t) : Inv t := by
  obtain ⟨p, -, hpr⟩ := exec_element_proceeds hi h
  exact inv_of_sameOutside hs hpr.sameOutside (exec_element_held hi hs h)

theorem parseStep_inv {p : Parse} (hs : Inv s) (h : parseStep p s = .next t) : Inv t := by
  unfold parseStep at h
  split at h
  · next i n hf =>
    have hi := decodeElement_isElement hf
    exact exec_element_inv hi hs (runElement_eq i s hi ▸ h)
  · cases h

/-- The run of a parse keeps the invariant, element by element. -/
theorem runParse_inv (fuel : Nat) (hs : Inv s) (h : runParse fuel s = .next t) : Inv t := by
  induction fuel generalizing s with
  | zero =>
    unfold runParse at h
    split_ifs at h
    exact Host.Outcome.next.inj h ▸ hs
  | succ fuel ih =>
    unfold runParse at h
    split at h
    · exact Host.Outcome.next.inj h ▸ hs
    · next p hp =>
      split at h
      · next u hu =>
        exact ih (parseStep_inv hs hu) h
      · cases h
      · cases h

end

end Sys2Proof.Machine
end

section
/-! SUPPORT. The sample engines under the invariant: each keeps the shape of the DSP state and of the buffers. -/

namespace Sys2Proof.Machine

/-- The shapes of the DSP state, field by field (`10_state.md` R36 to R41). -/
structure Dsp.Shapes (c : Config) (d : Dsp) : Prop where
  mats : ∀ x, shape3 2 (c.maxNumEnv + 1) c.maxNrIidIcc (d.mat x) = true
  ipdHist : d.ipdHist.length = c.maxNrIpdOpd
  opdHist : d.opdHist.length = c.maxNrIpdOpd
  delay : shape2 hybMax (c.maxDelay + 32) d.delay = true
  apDelay : shape3 50 apLinks (c.maxApDelay + 32) d.apDelay = true
  peakDecayNrg : d.peakDecayNrg.length = 34
  powerSmooth : d.powerSmooth.length = 34
  peakDecayDiffSmooth : d.peakDecayDiffSmooth.length = 34
  inBuf : shape2 inBufClasses inBufLen d.inBuf = true

theorem forall_mat {P : Mat → Prop} : (∀ x, P x) ↔ P .h11 ∧ P .h12 ∧ P .h21 ∧ P .h22 :=
  ⟨fun h => ⟨h .h11, h .h12, h .h21, h .h22⟩, fun ⟨h1, h2, h3, h4⟩ x => by cases x <;> assumption⟩

/-- The parts of `Dsp.shaped`. -/
theorem Dsp.shaped_iff (c : Config) (d : Dsp) : d.shaped c = true ↔ d.Shapes c := by
  simp only [Dsp.shaped, Bool.and_eq_true, beq_iff_eq, and_assoc]
  constructor
  · rintro ⟨h11, h12, h21, h22, hi, ho, hd, ha, hp, hs, hf, hb⟩
    exact ⟨forall_mat.mpr ⟨h11, h12, h21, h22⟩, hi, ho, hd, ha, hp, hs, hf, hb⟩
  · rintro ⟨hm, hi, ho, hd, ha, hp, hs, hf, hb⟩
    exact ⟨hm .h11, hm .h12, hm .h21, hm .h22, hi, ho, hd, ha, hp, hs, hf, hb⟩

/-- The parts of `Work.shaped`. -/
theorem Work.shaped_iff (w : Work) :
    w.shaped = true ↔ shape2 hybMax numSlots w.lbuf = true ∧ shape2 hybMax numSlots w.rbuf = true := by
  simp only [Work.shaped, Bool.and_eq_true]

section
variable {c : Config} {d : Dsp}

/-! ## The filterbank -/

theorem hybRows_shape {is34 : Bool} {old : List (List Cx)} {f : Nat → Nat → Cx}
    (h : shape2 hybMax numSlots old = true) : shape2 hybMax numSlots (hybRows is34 old f) = true := by
  refine shape2_tab fun k hk => ?_
  split_ifs
  · exact tab_length _ _
  · exact shape2_cell h hk

theorem saveHistory_shape (b : List (List Cx)) : shape2 inBufClasses inBufLen (saveHistory b) = true :=
  shape2_tab fun _ _ => tab_length _ _

theorem synthesis_shape (c : Config) (is34 : Bool) (inp : List (List Cx)) (dst : List (List (List PsNum))) :
    hostShape (synthesis c is34 inp dst) = true :=
  shape3_tab fun _ _ => shape2_tab fun _ _ => tab_length _ _

/-! ## The decorrelation engine -/

theorem Dsp.Shapes.resetDecorrelation (h : d.Shapes c) : d.resetDecorrelation.Shapes c :=
  { h with
    mats := h.mats
    delay := shape2_map h.delay fun _ => List.length_map _
    apDelay := shape3_map h.apDelay fun _ hp => shape2_map hp fun _ => List.length_map _
    peakDecayNrg := (List.length_map _).trans h.peakDecayNrg
    powerSmooth := (List.length_map _).trans h.powerSmooth
    peakDecayDiffSmooth := (List.length_map _).trans h.peakDecayDiffSmooth }

/-- The delay lines of a subband after the cascade have the shape they had. -/
theorem allpassRow_shape (is34 : Bool) (k : Nat) (row : List Cx) {lines : List (List Cx)}
    (h : shape2 apLinks (c.maxApDelay + 32) lines = true) :
    shape2 apLinks (c.maxApDelay + 32) (allpassRow c is34 k row lines).2 = true := by
  obtain ⟨hl, -⟩ := shape2_iff.mp h
  obtain ⟨-, hlen, hrow, -⟩ := allpassRow_lines c is34 k row lines
  refine shape2_iff.mpr ⟨hlen.trans hl, fun r hr => ?_⟩
  obtain ⟨j, hj, rfl⟩ := List.mem_iff_getElem.mp hr
  rw [← cell_in [] _ j hj]
  exact hrow j (hlen ▸ hj)

theorem decorrelate_shapes {is34 is34Old : Bool} {inp old : List (List Cx)} (h : d.Shapes c) :
    (decorrelate c is34 is34Old inp old d).2.Shapes c := by
  have h0 : (if is34 != is34Old then d.resetDecorrelation else d).Shapes c := by
    split_ifs
    · exact h.resetDecorrelation
    · exact h
  unfold decorrelate
  generalize (if is34 != is34Old then d.resetDecorrelation else d) = d0 at h0 ⊢
  refine { h0 with
    mats := h0.mats
    delay := shape2_tab fun k hk => ?_
    apDelay := shape3_tab fun k hk => ?_
    peakDecayNrg := tab_length _ _
    powerSmooth := tab_length _ _
    peakDecayDiffSmooth := tab_length _ _ }
  · split_ifs
    · exact shiftDelay_length _ _ _
    · exact shape2_cell h0.delay hk
  · split_ifs with hb
    · rw [cell_tab, if_pos hb]
      exact allpassRow_shape is34 k _ (shape3_cell h0.apDelay hk)
    · exact shape3_cell h0.apDelay hk

/-! ## The row remaps -/

theorem remapRow20_length (c : Config) {r : List PsNum} (h : 20 ≤ r.length) : (remapRow20 c r).length = r.length := by
  simp only [remapRow20, List.length_append, List.length_drop, List.length_cons, List.length_nil]
  omega

theorem remapRow34_length (c : Config) {r : List PsNum} (h : 34 ≤ r.length) : (remapRow34 c r).length = r.length := by
  simp only [remapRow34, List.length_append, List.length_drop, List.length_cons, List.length_nil]
  omega

theorem Dsp.Shapes.setMat (h : d.Shapes c) {x : Mat} {m : List (List (List PsNum))}
    (hm : shape3 2 (c.maxNumEnv + 1) c.maxNrIidIcc m = true) : (d.setMat x m).Shapes c := by
  have hmats : ∀ y, shape3 2 (c.maxNumEnv + 1) c.maxNrIidIcc ((d.setMat x m).mat y) = true := fun y => by
    by_cases hy : y = x
    · subst hy
      rwa [setMat_same]
    · rw [setMat_other d x y m hy]
      exact h.mats y
  cases x <;> exact { h with mats := hmats }

/-- A converted row of the length of the rows keeps the shape; a row that does not exist is not stored. -/
theorem Dsp.Shapes.setRow (h : d.Shapes c) (r : RowRef) {f : List PsNum → List PsNum}
    (hf : ∀ l : List PsNum, l.length = c.maxNrIidIcc → (f l).length = c.maxNrIidIcc) :
    (d.setRow r (f (d.row r))).Shapes c := by
  have hpart : partIx r.part < 2 := by cases r.part <;> decide
  exact h.setMat <| shape3_upd (h.mats r.mat) fun p hp =>
    shape2_set hp fun hk => hf _ (shape2_cell (shape3_cell (h.mats r.mat) hpart) hk)

/-! ## The stereo mixing engine -/

theorem Dsp.Shapes.mapMats (h : d.Shapes c) {f : List (List (List PsNum)) → List (List (List PsNum))}
    (hf : ∀ m, shape3 2 (c.maxNumEnv + 1) c.maxNrIidIcc m = true →
      shape3 2 (c.maxNumEnv + 1) c.maxNrIidIcc (f m) = true) : (d.mapMats f).Shapes c :=
  { h with mats := fun x => mapMats_mat d f x ▸ hf _ (h.mats x) }

/-- A slot that is replaced by a row of the same length. -/
theorem mapSlot_shape {n k : Nat} {m : List (List (List PsNum))} {g : List (List PsNum) → List PsNum}
    (h : shape3 2 n k m = true) (hg : ∀ p, shape2 n k p = true → (g p).length = k) :
    shape3 2 n k (m.map fun env => env.set 0 (g env)) = true :=
  shape3_map h fun p hp => shape2_set hp fun _ => hg p hp

theorem Dsp.Shapes.copyForward (h : d.Shapes c) {e : Nat} (he : e ≤ c.maxNumEnv) :
    (d.mapMats (Machine.copyForward e)).Shapes c :=
  h.mapMats fun _ hm => mapSlot_shape hm fun _ hp => shape2_cell hp (Nat.lt_succ_of_le he)

theorem Dsp.Shapes.remapSlot0 (h : d.Shapes c) {f : List PsNum → List PsNum}
    (hf : ∀ l : List PsNum, l.length = c.maxNrIidIcc → (f l).length = c.maxNrIidIcc) :
    (d.mapMats (Machine.remapSlot0 f)).Shapes c :=
  h.mapMats fun _ hm => mapSlot_shape hm fun _ hp => hf _ (shape2_cell hp (Nat.succ_pos _))

/-- Both row remaps keep the length of the matrices' rows in a conforming configuration. -/
theorem remapRow_length (hw : c.wf = true) (is34 : Bool) {l : List PsNum} (hl : l.length = c.maxNrIidIcc) :
    ((if is34 then remapRow34 c else remapRow20 c) l).length = c.maxNrIidIcc := by
  obtain ⟨-, -, -, -, -, -, -, -, -, -, -, hnr, -⟩ := (Config.wf_iff c).mp hw
  split_ifs
  · rw [remapRow34_length c (by omega), hl]
  · rw [remapRow20_length c (by omega), hl]

theorem Dsp.Shapes.carryOver (h : d.Shapes c) (hw : c.wf = true) {q : Params} (hq : q.Control c) (is34 : Bool) :
    (Machine.carryOver c q is34 d).Shapes c := by
  have hold : q.numEnvOld ≤ c.maxNumEnv := hq.numEnvOld.trans (five_le_maxNumEnv hw)
  have h1 : (if 0 < q.numEnvOld then d.mapMats (Machine.copyForward q.numEnvOld) else d).Shapes c := by
    split_ifs
    · exact h.copyForward hold
    · exact h
  unfold Machine.carryOver
  generalize (if 0 < q.numEnvOld then d.mapMats (Machine.copyForward q.numEnvOld) else d) = d1 at h1 ⊢
  simp only
  split
  · have h2 := h1.remapSlot0 fun _ hl => remapRow_length hw is34 hl
    exact { h2 with
      ipdHist := (List.length_map _).trans h2.ipdHist
      opdHist := (List.length_map _).trans h2.opdHist }
  · exact h1

theorem storeBands_shape3 {n m k : Nat} {x : List (List (List PsNum))} (part slot b : Nat) (f : Nat → Option PsNum)
    (h : shape3 n m k x = true) : shape3 n m k (storeBands x part slot b f) = true :=
  shape3_upd h fun _ hp => shape2_upd hp fun _ => tab_length _ _

theorem storeCoef_shape {n m k : Nat} {is34 : Bool} {ts : List (Coef × Option Coef)} {e : Nat} {g : Coef → PsNum}
    {x : List (List (List PsNum))} (h : shape3 n m k x = true) : shape3 n m k (storeCoef is34 ts e g x) = true :=
  storeBands_shape3 _ _ _ _ (storeBands_shape3 _ _ _ _ h)

theorem Dsp.Shapes.storeTargets (h : d.Shapes c) (q : Params) (is34 : Bool) (m : Mapped) (e : Nat) :
    (Machine.storeTargets c q is34 m e d).Shapes c :=
  { h with
    mats := forall_mat.mpr ⟨storeCoef_shape (h.mats .h11), storeCoef_shape (h.mats .h12),
      storeCoef_shape (h.mats .h21), storeCoef_shape (h.mats .h22)⟩
    ipdHist := (tab_length _ _).trans h.ipdHist
    opdHist := (tab_length _ _).trans h.opdHist }

/-- The samples are stored in place. -/
theorem mixSamples_length (c : Config) (count n : Nat) (h : Coef × Coef) (g : Option (Coef × Coef)) (l r : List Cx) :
    (mixSamples c count n h g l r).1.length = l.length ∧ (mixSamples c count n h g l r).2.length = r.length := by
  induction count generalizing n h g l r with
  | zero => exact ⟨rfl, rfl⟩
  | succ count ih =>
    rcases g with _ | ⟨gs, gstep⟩
    all_goals
      obtain ⟨hl, hr⟩ := ih (n + 1) _ _ (l.set n _) (r.set n _)
      exact ⟨hl.trans List.length_set, hr.trans List.length_set⟩

/-- What STEREO_PROCESS works on keeps its shapes. -/
structure Mix.Shapes (c : Config) (x : Mix) : Prop where
  dsp : x.dsp.Shapes c
  l : shape2 hybMax numSlots x.l = true
  r : shape2 hybMax numSlots x.r = true

theorem Mix.Shapes.mixEnvelope {x : Mix} (h : x.Shapes c) (q : Params) (is34 : Bool) (m : Mapped) (e : Nat) :
    (Machine.mixEnvelope c q is34 m x e).Shapes c := by
  have hl := (shape2_iff.mp h.l).1
  have hr := (shape2_iff.mp h.r).1
  refine ⟨h.dsp.storeTargets q is34 m e, ?_, ?_⟩
  · show shape2 hybMax numSlots (tab x.l.length _) = true
    rw [hl]
    refine shape2_tab fun k hk => ?_
    split_ifs with hb
    · rw [cell_tab, if_pos hb]
      exact (mixSamples_length ..).1.trans (shape2_cell h.l hk)
    · exact shape2_cell h.l hk
  · show shape2 hybMax numSlots (tab x.r.length _) = true
    rw [hr]
    refine shape2_tab fun k hk => ?_
    split_ifs with hb
    · rw [cell_tab, if_pos hb]
      exact (mixSamples_length ..).2.trans (shape2_cell h.r hk)
    · exact shape2_cell h.r hk

theorem Mix.Shapes.stereo {x : Mix} (h : x.Shapes c) (hw : c.wf = true) {q : Params} (hq : q.Control c) (is34 : Bool)
    (m : Mapped) : (Machine.stereo c q is34 m x).Shapes c :=
  List.foldlRecOn (motive := Mix.Shapes c) _ _ ⟨h.dsp.carryOver hw hq is34, h.l, h.r⟩
    fun _ hx e _ => hx.mixEnvelope q is34 m e

/-! ## The frame driver and RESET -/

theorem Dsp.Shapes.clearAbove (h : d.Shapes c) (is34 : Bool) (top : Int) : (d.clearAbove is34 top).Shapes c := by
  refine { h with
    mats := h.mats
    delay := shape2_tab fun k hk => ?_
    apDelay := shape3_tab fun k hk => ?_ }
  · split_ifs
    · exact (List.length_map _).trans (shape2_cell h.delay hk)
    · exact shape2_cell h.delay hk
  · split_ifs
    · exact shape2_map (shape3_cell h.apDelay hk) fun _ => List.length_map _
    · exact shape3_cell h.apDelay hk

theorem Dsp.zero_shapes (c : Config) : (Dsp.zero c).Shapes c where
  mats x := by cases x <;> exact shape3_rep (shape2_rep (rep_length _ _))
  ipdHist := rep_length _ _
  opdHist := rep_length _ _
  delay := shape2_rep (rep_length _ _)
  apDelay := shape3_rep (shape2_rep (rep_length _ _))
  peakDecayNrg := rep_length _ _
  powerSmooth := rep_length _ _
  peakDecayDiffSmooth := rep_length _ _
  inBuf := shape2_rep (rep_length _ _)

theorem Work.zero_shaped : Work.zero.shaped = true :=
  (Work.shaped_iff _).mpr ⟨shape2_rep (rep_length _ _), shape2_rep (rep_length _ _)⟩

theorem zeroBuf_shape : hostShape zeroBuf = true := shape3_rep (shape2_rep (rep_length _ _))

end

end Sys2Proof.Machine
end

section
/-! SUPPORT. The invariant of the machine: it holds after reset, and every command, every event of the host and so every
step keeps it. -/

namespace Sys2Proof.Machine

/-- The parts of the invariant by name, with PSParameters and the DSP state in the terms of the lemmas about them. -/
structure InvParts (s : State) : Prop where
  conforms : s.cfg.wf = true
  memory : Memory.wf s.cfg.pad s.host.bitstream = true
  bufL : hostShape s.host.bufL = true
  bufR : hostShape s.host.bufR = true
  params : s.params.Held s.cfg
  dsp : s.dsp.Shapes s.cfg
  work : s.work.shaped = true
  parse : s.parseInv

theorem inv_iff (s : State) : Inv s ↔ InvParts s := by
  constructor
  · rintro ⟨hw, hm, hl, hr, hsh, hrg, hd, hwk, hb, hp⟩
    exact ⟨hw, hm, hl, hr, (Params.held_iff _ _).mpr ⟨hsh, hrg, hb⟩, (Dsp.shaped_iff _ _).mp hd, hwk, hp⟩
  · rintro ⟨hw, hm, hl, hr, hq, hd, hwk, hp⟩
    obtain ⟨hsh, hrg, hb⟩ := (Params.held_iff _ _).mp hq
    exact ⟨hw, hm, hl, hr, hsh, hrg, (Dsp.shaped_iff _ _).mpr hd, hwk, hb, hp⟩

section
variable {s : State}

/-- Between two commands the arrays of absent families are zero. -/
theorem parseInv_idle (hp : s.parse = none) :
    s.parseInv ↔ s.params.iidSettled ∧ s.params.iccSettled ∧ s.params.ipdOpdSettled := by
  simp only [State.parseInv, hp]

theorem parseInv_of_arraysZero (hp : s.parse = none) (hz : s.params.arraysZero) : s.parseInv := by
  obtain ⟨hiid, hicc, hipd, hopd⟩ := hz
  exact (parseInv_idle hp).mpr ⟨fun _ => hiid, fun _ => hicc, fun _ => ⟨hipd, hopd⟩⟩

/-! ## The updates of the state -/

theorem InvParts.withStatus (h : InvParts s) (x : Status) : InvParts (s.withStatus x) := { h with }

theorem InvParts.withDsp (h : InvParts s) {d : Dsp} (hd : d.Shapes s.cfg) : InvParts (s.withDsp d) :=
  { h with dsp := hd }

theorem InvParts.withWork (h : InvParts s) {w : Work} (hw : w.shaped = true) : InvParts (s.withWork w) :=
  { h with work := hw }

/-- Between two commands the host's side may change as a whole, its cursor included. -/
theorem InvParts.withHost (h : InvParts s) (hp : s.parse = none) {x : HostSide}
    (hm : Memory.wf s.cfg.pad x.bitstream = true) (hl : hostShape x.bufL = true) (hr : hostShape x.bufR = true) :
    InvParts (s.withHost x) :=
  { h with
    memory := hm
    bufL := hl
    bufR := hr
    parse := (parseInv_idle (s := s.withHost x) hp).mpr ((parseInv_idle hp).mp h.parse) }

theorem InvParts.popInput (h : InvParts s) (hp : s.parse = none) (rest : List HostEvent) : InvParts (s.popInput rest) :=
  h.withHost hp h.memory h.bufL h.bufR

theorem InvParts.setBuf (h : InvParts s) (hp : s.parse = none) (b : HostBuf) {x : List (List (List PsNum))}
    (hx : hostShape x = true) : InvParts (s.withHost (s.host.setBuf b x)) := by
  cases b
  · exact h.withHost hp h.memory hx h.bufR
  · exact h.withHost hp h.memory h.bufL hx

/-! ## The sample engines -/

theorem InvParts.analysis (h : InvParts s) (is34 : Bool) : InvParts (s.analysis is34) := by
  obtain ⟨hl, hr⟩ := (Work.shaped_iff _).mp h.work
  have hw : ({ s.work with lbuf := (Machine.analysis s.cfg is34 s.host.bufL s.dsp.inBuf s.work.lbuf).1 } : Work).shaped
      = true := (Work.shaped_iff _).mpr ⟨hybRows_shape hl, hr⟩
  exact (h.withWork hw).withDsp { h.dsp with inBuf := saveHistory_shape _ }

theorem InvParts.decorrelate (h : InvParts s) (x : HybBuf) (is34 : Bool) : InvParts (s.decorrelate x is34) := by
  obtain ⟨hl, hr⟩ := (Work.shaped_iff _).mp h.work
  have hw : ({ s.work with
      rbuf := (Machine.decorrelate s.cfg is34 s.params.is34bandsOld (s.work.buf x) s.work.rbuf s.dsp).1 } : Work).shaped
      = true := (Work.shaped_iff _).mpr ⟨hl, hybRows_shape hr⟩
  exact (h.withWork hw).withDsp (decorrelate_shapes h.dsp)

theorem InvParts.stereo (h : InvParts s) (is34 : Bool) : InvParts (s.stereo is34) := by
  obtain ⟨hl, hr⟩ := (Work.shaped_iff _).mp h.work
  have hmix := Mix.Shapes.stereo (x := ⟨s.dsp, s.work.lbuf, s.work.rbuf⟩) ⟨h.dsp, hl, hr⟩ h.conforms
    h.params.control is34 (mapParams s.params is34)
  exact (h.withWork ((Work.shaped_iff _).mpr ⟨hmix.l, hmix.r⟩)).withDsp hmix.dsp

theorem InvParts.synthesis (h : InvParts s) (hp : s.parse = none) (x : HybBuf) (is34 : Bool) (b : HostBuf) :
    InvParts (s.synthesis x is34 b) :=
  h.setBuf hp b (synthesis_shape _ _ _ _)

theorem InvParts.applyFrame (h : InvParts s) (hp : s.parse = none) (k : Int) : InvParts (s.applyFrame k) := by
  have hclear := h.withDsp (h.dsp.clearAbove s.params.is34bands (topOf s.params.is34bands k))
  have hmixed := ((hclear.analysis s.params.is34bands).decorrelate .lbuf s.params.is34bands).stereo s.params.is34bands
  have hleft := hmixed.synthesis (by simpa using hp) .lbuf s.params.is34bands .left
  exact hleft.synthesis (by simpa using hp) .rbuf s.params.is34bands .right

theorem InvParts.remapVal (h : InvParts s) (is34 : Bool) (r : RowRef) :
    InvParts (s.remapVal (if is34 then remapRow34 s.cfg else remapRow20 s.cfg) r) :=
  (h.withDsp (h.dsp.setRow r fun _ hl => remapRow_length h.conforms is34 hl)).withStatus .ok

/-! ## RESET and READ_DATA -/

theorem InvParts.resetInstance (h : InvParts s) (hp : s.parse = none) : InvParts s.resetInstance :=
  { h with
    params := Params.zero_held s.cfg
    dsp := Dsp.zero_shapes s.cfg
    work := Work.zero_shaped
    parse := parseInv_of_arraysZero (s := s.resetInstance) hp (Params.zero_arraysZero s.cfg) }

/-- A parse begins at the place of PS_HEADER, at the host cursor. -/
theorem InvParts.beginParse (h : InvParts s) (n : Nat) : InvParts (beginParse n s) :=
  { h with parse := ⟨trivial, le_rfl, show (0 : Int) ≤ 2160 by decide⟩ }

/-! ## Commands and steps -/

theorem CommandEffect.inv {t : State} (he : CommandEffect s t) (hp : s.parse = none) (h : InvParts s) : InvParts t := by
  cases he with
  | initTables => exact { h with }
  | reset => exact h.resetInstance hp
  | readData n _ hr => exact (inv_iff _).mp (runParse_inv _ ((inv_iff _).mpr (h.beginParse n)) hr)
  | apply k => exact (h.applyFrame hp k).withStatus .ok
  | remap map f n full => exact { h with }
  | remapVal20 r => exact h.remapVal false r
  | remapVal34 r => exact h.remapVal true r
  | hybridAnalysis b => exact (h.analysis b).withStatus .ok
  | decorrelate x b => exact (h.decorrelate x b).withStatus .ok
  | stereoProcess b => exact (h.stereo b).withStatus .ok
  | hybridSynthesis x b d => exact (h.synthesis hp x b d).withStatus .ok

theorem StepEffect.inv {t : State} (he : StepEffect s t) (h : InvParts s) : InvParts t := by
  cases he with
  | element i _ hi hx => exact (inv_iff _).mp (exec_element_inv hi ((inv_iff _).mpr h) hx)
  | wait => exact h
  | command rest _ hp hc => exact hc.inv hp (h.popInput hp rest)
  | writeByte rest a b hp => exact h.withHost hp (memWrite_wf _ _ _ _ h.memory) h.bufL h.bufR
  | setCursor rest n hp => exact h.withHost hp h.memory h.bufL h.bufR
  | supply rest b x hp hx => exact (h.popInput hp rest).setBuf hp b hx

end

/-! ## The settled statements -/

/-- The machine after reset has the invariant in every conforming configuration. -/
theorem resetWith_inv {c : Config} (hc : c.wf = true) : Inv (State.resetWith c) :=
  (inv_iff _).mpr
    { conforms := hc
      memory := reset_memory_wf c
      bufL := zeroBuf_shape
      bufR := zeroBuf_shape
      params := Params.zero_held c
      dsp := Dsp.zero_shapes c
      work := Work.zero_shaped
      parse := parseInv_of_arraysZero rfl (Params.zero_arraysZero c) }

/-- The candidate configuration is a PS core (log 6). -/
theorem config_candidate_wf : Config.candidate.wf = true := by decide +kernel

/-- Settles O59: reset gives the invariant in every conforming configuration, and the candidate one conforms. -/
theorem invAtReset : Obligations.InvAtReset := ⟨resetWith_inv config_candidate_wf, rfl, rfl⟩

/-- Settles O60, by the cases of the step: elements keep what concerns the parse, commands and the host the shapes. -/
theorem invKept : Obligations.InvKept := fun s t hs h => (inv_iff t).mpr ((step_effect h).inv ((inv_iff s).mp hs))

end Sys2Proof.Machine
end

section
/-! SUPPORT. What the host does between two commands, event by event, and the words of the payload in the candidate
configuration. -/

namespace Sys2Proof.Machine

/-! ## The host's memory -/

/-- A byte that nothing has written reads as `PAD` has it (`20_memory.md` R80). -/
theorem memRead_unlisted (pad : Pad) (m : Memory) (a : Nat) (h : ∀ x ∈ m, x.1 ≠ a) :
    memRead pad m a = padByte pad a := by
  induction m with
  | nil => rfl
  | cons x m ih =>
    obtain ⟨hx, hm⟩ := List.forall_mem_cons.mp h
    rw [memRead, if_neg hx, ih hm]

/-- A supplied buffer is accepted when every one of its samples is a value of the number format. -/
theorem samplesHeld_iff (f : NumFormat) (x : List (List (List PsNum))) :
    samplesHeld f x = true ↔ ∀ part ∈ x, ∀ row ∈ part, ∀ v ∈ row, f.holds v = true := by
  simp only [samplesHeld, List.all_eq_true]

/-- Replacing a host buffer and taking an event off the list do not depend on each other. -/
theorem HostSide.setBuf_withInputs (h : HostSide) (d : HostBuf) (x : List (List (List PsNum)))
    (rest : List HostEvent) : ({ h with inputs := rest } : HostSide).setBuf d x = { h.setBuf d x with inputs := rest } := by
  cases d <;> rfl

/-! ## The step of each host event -/

section
variable {s : State} {rest : List HostEvent}

/-- With no event left the machine waits (`70_reset_and_hazards.md` R362). -/
theorem step_wait (hp : s.parse = none) (hin : s.host.inputs = []) : step s = .next s := by
  simp only [step, hp, hin]

theorem step_writeByte {a : Nat} {b : Byte} (hp : s.parse = none) (hin : s.host.inputs = .writeByte a b :: rest) :
    step s = hostWriteByte a b (s.popInput rest) := by
  simp only [step, hp, hin]

theorem step_setCursor {n : Nat} (hp : s.parse = none) (hin : s.host.inputs = .setCursor n :: rest) :
    step s = hostSetCursor n (s.popInput rest) := by
  simp only [step, hp, hin]

theorem step_supply {d : HostBuf} {x : List (List (List PsNum))} (hp : s.parse = none)
    (hin : s.host.inputs = .supply d x :: rest) : step s = hostSupply d x (s.popInput rest) := by
  simp only [step, hp, hin]

end

/-- A supplied buffer replaces the one it is for, or is refused where it is no buffer of `Num` (log 28). -/
theorem hostSupply_popInput (s : State) (d : HostBuf) (x : List (List (List PsNum))) (rest : List HostEvent) :
    hostSupply d x (s.popInput rest) =
      if hostShape x = true ∧ ∀ part ∈ x, ∀ row ∈ part, ∀ v ∈ row, s.cfg.fmt.holds v = true then
        .next { s with host := { s.host.setBuf d x with inputs := rest } }
      else .refused .badBuffer := by
  simp only [hostSupply, popInput_cfg, popInput_host, HostSide.setBuf_withInputs, Bool.and_eq_true, samplesHeld_iff]
  rfl

/-! ## Codewords -/

/-- The decoder answers the first codeword of the table that stands at the position (`20_memory.md` R75). -/
theorem huffDecode_first {t : HuffTable} {bit : Nat → Bool} {pos k : Nat} {cw : Nat × Nat}
    (hk : t.code[k]? = some cw) (hat : codewordAt bit pos cw = true)
    (hbefore : ∀ x ∈ t.code.take k, codewordAt bit pos x = false) :
    huffDecode t bit pos = some ((k : Int) - t.offset, cw.2) := by
  obtain ⟨hlt, hcw⟩ := List.getElem?_eq_some_iff.mp hk
  have hfind : t.code.findIdx? (codewordAt bit pos) = some k := by
    refine List.findIdx?_eq_some_iff_getElem.mpr ⟨hlt, hcw ▸ hat, fun j hj => ?_⟩
    rw [hbefore _ (List.mem_take_iff_getElem.mpr ⟨j, by omega, rfl⟩)]
    exact Bool.false_ne_true
  simp only [huffDecode, hfind, List.getD, hk, Option.getD_some]

/-- A `VLC` element whose codeword is the `k`-th of its table stands for the delta `k - offset`. -/
theorem decodeVlc_first {mk : Int → Instr} {t : HuffTable} {bit : Nat → Bool} {k : Nat} {cw : Nat × Nat}
    (hk : t.code[k]? = some cw) (hat : codewordAt bit 0 cw = true)
    (hbefore : ∀ x ∈ t.code.take k, codewordAt bit 0 x = false) :
    decodeVlc mk t bit = .ok (mk ((k : Int) - t.offset), cw.2) := by
  simp only [decodeVlc, huffDecode_first hk hat hbefore]

/-! ## The settled statements -/

/-- Settles O2, by the step of each host event; the byte written is the law of the canonical memory. -/
theorem stepHostActs : Obligations.StepHostActs := by
  refine ⟨fun s a b rest hp hin hm => ?writeByte, fun s a h => memRead_unlisted s.cfg.pad s.host.bitstream a h,
    fun s n rest hp hin => step_setCursor hp hin, fun s d x rest hp hin => ?supply, fun s hp hin => step_wait hp hin⟩
  case writeByte =>
    exact ⟨_, step_writeByte hp hin, memWrite_wf _ _ _ _ hm, fun x => memRead_memWrite _ _ _ _ _ hm⟩
  case supply => exact (step_supply hp hin).trans (hostSupply_popInput s d x rest)

/-- `101` in `huff_iid_df0` is -1 (`40_entropy_delta.md` R141): codeword 13, under the offset 14. -/
theorem decodeVlc_iidDf0_minusOne :
    decodeVlc .iidData huffCandidate2 (bitAt [true, false, true]) = .ok (.iidData (-1), 3) :=
  decodeVlc_first (k := 13) (cw := (0x5, 3)) rfl rfl (by decide)

/-- `110` in `huff_icc_dt` is -1 (`40_entropy_delta.md` R144): codeword 6, under the offset 7. -/
theorem decodeVlc_iccDt_minusOne :
    decodeVlc .iccData huffCandidate5 (bitAt [true, true, false]) = .ok (.iccData (-1), 3) :=
  decodeVlc_first (k := 6) (cw := (0x6, 3)) rfl rfl (by decide)

/-- `01111111100` in `huff_iid_df1` is +9 (`95_test_vectors.md` P3): codeword 39, under the offset 30. -/
theorem decodeVlc_iidDf1_nine :
    decodeVlc .iidData huffCandidate0
      (bitAt [false, true, true, true, true, true, true, true, true, false, false]) = .ok (.iidData 9, 11) :=
  decodeVlc_first (k := 39) (cw := (0x3FC, 11)) rfl rfl (by decide)

/-- Settles O6: a fixed-width field is read most significant bit first, a delta is the index of the first codeword of
its table that stands there, less the offset. -/
theorem elementWords : Obligations.ElementWords :=
  ⟨rfl, rfl, rfl, decodeVlc_iidDf0_minusOne, decodeVlc_iccDt_minusOne, decodeVlc_iidDf1_nine⟩

end Sys2Proof.Machine
end

section
/-! SUPPORT. Huffman tables: of codewords none of which begins another one, with a full Kraft sum, exactly one stands at
every position of every bit sequence. The argument counts the 27-bit words that each codeword begins. -/

namespace Sys2Proof

/-! ## Reading a number from bits -/

theorem bitsValue_lt (bit : Nat → Bool) (pos n : Nat) : bitsValue bit pos n < 2 ^ n := by
  induction n with
  | zero => exact Nat.one_pos
  | succ n ih =>
    have hb : (bit (pos + n)).toNat ≤ 1 := Bool.toNat_le _
    rw [bitsValue, Nat.pow_succ]
    omega

/-- The leading bits of a field are the field without its last bits. -/
theorem bitsValue_div_two_pow (bit : Nat → Bool) (pos m k : Nat) :
    bitsValue bit pos (m + k) / 2 ^ k = bitsValue bit pos m := by
  induction k with
  | zero => exact Nat.div_one _
  | succ k ih =>
    have hb : (bit (pos + (m + k))).toNat ≤ 1 := Bool.toNat_le _
    have hhalf : bitsValue bit pos (m + k + 1) / 2 = bitsValue bit pos (m + k) := by
      rw [bitsValue]
      omega
    rw [← Nat.add_assoc, Nat.pow_succ', ← Nat.div_div_eq_div_mul, hhalf, ih]

/-! ## The 27-bit words a codeword begins -/

/-- The codeword begins the 27-bit word `v`. -/
def startsWord (v : Nat) (cw : Nat × Nat) : Bool := v / 2 ^ (27 - cw.2) == cw.1

theorem startsWord_iff {v : Nat} {cw : Nat × Nat} : startsWord v cw = true ↔ v / 2 ^ (27 - cw.2) = cw.1 := beq_iff_eq

/-- A codeword stands at a position if it begins the 27 bits there. -/
theorem startsWord_bitsValue (bit : Nat → Bool) (pos : Nat) {cw : Nat × Nat} (hn : cw.2 ≤ 27) :
    startsWord (bitsValue bit pos 27) cw = codewordAt bit pos cw := by
  have hlead := bitsValue_div_two_pow bit pos cw.2 (27 - cw.2)
  rw [Nat.add_sub_cancel' hn] at hlead
  rw [startsWord, codewordAt, hlead]

/-- Of two codewords that begin the same word, the shorter one begins the other. -/
theorem isPrefixOf_of_startsWord {v : Nat} {a b : Nat × Nat} (ha : startsWord v a = true) (hb : startsWord v b = true)
    (hab : a.2 ≤ b.2) (hn : b.2 ≤ 27) : isPrefixOf a b = true := by
  have hexp : 27 - a.2 = 27 - b.2 + (b.2 - a.2) := by omega
  have hdiv : b.1 / 2 ^ (b.2 - a.2) = a.1 := by
    rw [← startsWord_iff.mp ha, ← startsWord_iff.mp hb, Nat.div_div_eq_div_mul, ← Nat.pow_add, ← hexp]
  simp only [isPrefixOf, hab, hdiv, decide_true, beq_self_eq_true, Bool.and_self]

/-- A codeword of `n` bits begins `2^(27-n)` words: they are an interval. -/
theorem card_startsWord {cw : Nat × Nat} (hc : cw.1 < 2 ^ cw.2) (hn : cw.2 ≤ 27) :
    ((Finset.range (2 ^ 27)).filter fun v => startsWord v cw = true).card = 2 ^ (27 - cw.2) := by
  have hpos : 0 < 2 ^ (27 - cw.2) := Nat.two_pow_pos _
  have htop : (cw.1 + 1) * 2 ^ (27 - cw.2) ≤ 2 ^ 27 := by
    calc (cw.1 + 1) * 2 ^ (27 - cw.2) ≤ 2 ^ cw.2 * 2 ^ (27 - cw.2) := Nat.mul_le_mul_right _ hc
      _ = 2 ^ 27 := by rw [← Nat.pow_add, Nat.add_sub_cancel' hn]
  have hset : ((Finset.range (2 ^ 27)).filter fun v => startsWord v cw = true)
      = Finset.Ico (cw.1 * 2 ^ (27 - cw.2)) ((cw.1 + 1) * 2 ^ (27 - cw.2)) := by
    ext v
    rw [Finset.mem_filter, Finset.mem_range, Finset.mem_Ico, startsWord_iff, Nat.div_eq_iff hpos]
    rw [Nat.succ_mul] at htop ⊢
    omega
  rw [hset, Nat.card_Ico, Nat.succ_mul, Nat.add_sub_cancel_left]

/-! ## Lists of codewords none of which begins another one (R303 (b)) -/

theorem prefixFree_iff (l : List (Nat × Nat)) :
    prefixFree l = true ↔ l.Pairwise fun a b => isPrefixOf a b = false ∧ isPrefixOf b a = false := by
  induction l with
  | nil => simp [prefixFree]
  | cons a l ih =>
    simp only [prefixFree, Bool.and_eq_true, List.all_eq_true, Bool.not_eq_true', List.pairwise_cons, ih]

/-- No word is begun by two codewords of which neither begins the other. -/
theorem not_startsWord_both {v : Nat} {a b : Nat × Nat} (hab : isPrefixOf a b = false) (hba : isPrefixOf b a = false)
    (hna : a.2 ≤ 27) (hnb : b.2 ≤ 27) (ha : startsWord v a = true) : startsWord v b = false := by
  by_contra hb
  rw [Bool.not_eq_false] at hb
  rcases Nat.le_total a.2 b.2 with h | h
  · exact ne_true_of_eq_false hab (isPrefixOf_of_startsWord ha hb h hnb)
  · exact ne_true_of_eq_false hba (isPrefixOf_of_startsWord hb ha h hna)

/-- The 27-bit words that some codeword of the list begins. -/
def wordsOf (l : List (Nat × Nat)) : Finset Nat := (Finset.range (2 ^ 27)).filter fun v => l.any (startsWord v) = true

/-- If no codeword begins another one, their words are disjoint, and so as many as the Kraft sum says. -/
theorem card_wordsOf {l : List (Nat × Nat)} (hl : ∀ cw ∈ l, cw.1 < 2 ^ cw.2 ∧ cw.2 ≤ 27) (hp : prefixFree l = true) :
    (wordsOf l).card = kraftSum l := by
  induction l with
  | nil => simp [wordsOf, kraftSum]
  | cons a l ih =>
    obtain ⟨⟨hc, hn⟩, htail⟩ := List.forall_mem_cons.mp hl
    obtain ⟨hfree, hp⟩ := List.pairwise_cons.mp ((prefixFree_iff _).mp hp)
    have hdisj : Disjoint ((Finset.range (2 ^ 27)).filter fun v => startsWord v a = true) (wordsOf l) := by
      refine Finset.disjoint_filter.mpr fun v _ ha hany => ?_
      obtain ⟨b, hb, hvb⟩ := List.any_eq_true.mp hany
      obtain ⟨hab, hba⟩ := hfree b hb
      exact ne_true_of_eq_false (not_startsWord_both hab hba hn (htail b hb).2 ha) hvb
    have hunion : wordsOf (a :: l) = ((Finset.range (2 ^ 27)).filter fun v => startsWord v a = true) ∪ wordsOf l := by
      rw [wordsOf, wordsOf, ← Finset.filter_or]
      simp only [List.any_cons, Bool.or_eq_true]
    rw [hunion, Finset.card_union_of_disjoint hdisj, card_startsWord hc hn, ih htail ((prefixFree_iff _).mpr hp)]
    rfl

/-! ## Conforming tables -/

section
variable {t : HuffTable}

/-- In a complete table every word is begun by some codeword (`47_constant_tables.md` R303 (c)). -/
theorem exists_startsWord (ht : t.wf = true) {v : Nat} (hv : v < 2 ^ 27) : ∃ cw ∈ t.code, startsWord v cw = true := by
  obtain ⟨hcode, hfree, hkraft, -⟩ := (HuffTable.wf_iff t).mp ht
  have hcard : (wordsOf t.code).card = (Finset.range (2 ^ 27)).card := by
    rw [card_wordsOf (fun cw h => (hcode cw h).2) hfree, hkraft, Finset.card_range]
  have hall : wordsOf t.code = Finset.range (2 ^ 27) :=
    Finset.eq_of_subset_of_card_le (Finset.filter_subset _ _) hcard.ge
  have hmem : v ∈ wordsOf t.code := hall ▸ Finset.mem_range.mpr hv
  exact List.any_eq_true.mp (Finset.mem_filter.mp hmem).2

/-- A conforming table has a codeword at every position of every bit sequence. -/
theorem exists_codewordAt (ht : t.wf = true) (bit : Nat → Bool) (pos : Nat) :
    ∃ k, ∃ h : k < t.code.length, codewordAt bit pos t.code[k] = true := by
  obtain ⟨hcode, -⟩ := (HuffTable.wf_iff t).mp ht
  obtain ⟨cw, hmem, hstarts⟩ := exists_startsWord ht (bitsValue_lt bit pos 27)
  obtain ⟨k, hk, rfl⟩ := List.getElem_of_mem hmem
  exact ⟨k, hk, startsWord_bitsValue bit pos (hcode _ hmem).2.2 ▸ hstarts⟩

/-- At one position there is at most one codeword of a conforming table. -/
theorem codewordAt_unique (ht : t.wf = true) {bit : Nat → Bool} {pos j k : Nat} (hj : j < t.code.length)
    (hk : k < t.code.length) (hatj : codewordAt bit pos t.code[j] = true) (hatk : codewordAt bit pos t.code[k] = true) :
    j = k := by
  obtain ⟨hcode, hfree, -⟩ := (HuffTable.wf_iff t).mp ht
  have hpair := List.pairwise_iff_getElem.mp ((prefixFree_iff _).mp hfree)
  have hlen : ∀ i (hi : i < t.code.length), t.code[i].2 ≤ 27 := fun i hi => (hcode _ (List.getElem_mem hi)).2.2
  rw [← startsWord_bitsValue bit pos (hlen _ _)] at hatj hatk
  rcases Nat.lt_trichotomy j k with h | h | h
  · obtain ⟨h1, h2⟩ := hpair j k hj hk h
    exact absurd hatk (ne_true_of_eq_false (not_startsWord_both h1 h2 (hlen _ _) (hlen _ _) hatj))
  · exact h
  · obtain ⟨h1, h2⟩ := hpair k j hk hj h
    exact absurd hatj (ne_true_of_eq_false (not_startsWord_both h1 h2 (hlen _ _) (hlen _ _) hatk))

/-- In a conforming table the decoder answers the codeword that stands at the position. -/
theorem huffDecode_of_codewordAt (ht : t.wf = true) {bit : Nat → Bool} {pos k : Nat} (hk : k < t.code.length)
    (hat : codewordAt bit pos t.code[k] = true) : huffDecode t bit pos = some ((k : Int) - t.offset, t.code[k].2) := by
  refine Machine.huffDecode_first (List.getElem?_eq_getElem hk) hat fun x hx => ?_
  obtain ⟨j, hj, rfl⟩ := List.mem_take_iff_getElem.mp hx
  by_contra hatj
  have := codewordAt_unique ht (by omega) hk (Bool.not_eq_false _ ▸ hatj) hat
  omega

end

/-! ## The settled statement -/

/-- Settles O8: by the Kraft sum some codeword stands at the position, by R303 (b) no other one does, and the decoder
answers it. -/
theorem huffmanDecodesEverything : Obligations.HuffmanDecodesEverything := by
  intro t ht bit pos
  obtain ⟨k, hk, hat⟩ := exists_codewordAt ht bit pos
  refine ⟨k, hk, ?_, fun j hj hatj => ?_, ?_⟩
  · rwa [List.getD_eq_getElem _ _ hk]
  · rw [List.getD_eq_getElem _ _ hj] at hatj
    exact codewordAt_unique ht hj hk hatj hat
  · rw [List.getD_eq_getElem _ _ hk]
    exact huffDecode_of_codewordAt ht hk hat

end Sys2Proof
end

section
/-! SUPPORT. Encoding: the word of a command and the bits of a payload element decode to what they were made from. -/

namespace Sys2Proof.Laws

/-- Every well-formed instruction has words, at some place of the grammar if it is an element. -/
theorem HasWords.all (i : Instr) : HasWords.Statement i := by
  cases i with
  | psHeader v => exact HasWords.psHeader v
  | enableIid v => exact HasWords.enableIid v
  | iidMode m => exact HasWords.iidMode m
  | enableIcc v => exact HasWords.enableIcc v
  | iccMode m => exact HasWords.iccMode m
  | enableExt v => exact HasWords.enableExt v
  | frameClass v => exact HasWords.frameClass v
  | numEnvIdx n => exact HasWords.numEnvIdx n
  | borderPosition b => exact HasWords.borderPosition b
  | iidDt dt => exact HasWords.iidDt dt
  | iidData d => exact HasWords.iidData d
  | iccDt dt => exact HasWords.iccDt dt
  | iccData d => exact HasWords.iccData d
  | extSize n => exact HasWords.extSize n
  | extEsc n => exact HasWords.extEsc n
  | extId id => exact HasWords.extId id
  | extFill => exact HasWords.extFill
  | enableIpdopd v => exact HasWords.enableIpdopd v
  | ipdDt dt => exact HasWords.ipdDt dt
  | ipdData d => exact HasWords.ipdData d
  | opdDt dt => exact HasWords.opdDt dt
  | opdData d => exact HasWords.opdData d
  | reservedPs v => exact HasWords.reservedPs v
  | initTables => exact HasWords.initTables
  | reset => exact HasWords.reset
  | readData n => exact HasWords.readData n
  | apply t => exact HasWords.apply t
  | remap20 f n e full => exact HasWords.remap20 f n e full
  | remap34 f n e full => exact HasWords.remap34 f n e full
  | remapVal20 r => exact HasWords.remapVal20 r
  | remapVal34 r => exact HasWords.remapVal34 r
  | hybridAnalysis b => exact HasWords.hybridAnalysis b
  | decorrelate x b => exact HasWords.decorrelate x b
  | stereoProcess b => exact HasWords.stereoProcess b
  | hybridSynthesis x b d => exact HasWords.hybridSynthesis x b d

end Sys2Proof.Laws

namespace Sys2Proof

/-! ## The arguments of a command word (log 14) -/

@[simp] theorem natArg_natCast (n : Nat) : natArg (n : Int) = .ok n := by simp [natArg]

@[simp] theorem boolArg_boolCode (b : Bool) : boolArg (boolCode b) = .ok b := by cases b <;> rfl

@[simp] theorem familyArg_familyCode (f : Family) : familyArg (familyCode f) = .ok f := by cases f <;> rfl

@[simp] theorem matArg_matCode (x : Mat) : matArg (matCode x) = .ok x := by cases x <;> rfl

/-- A hybrid buffer is an argument as the Boolean that selects it. -/
theorem boolArg_hybBufCode (x : HybBuf) : ∃ b, boolArg (hybBufCode x) = .ok b ∧ hybBufOf b = x := by
  cases x
  · exact ⟨false, rfl, rfl⟩
  · exact ⟨true, rfl, rfl⟩

theorem boolArg_hostBufCode (d : HostBuf) :
    ∃ b, boolArg (hostBufCode d) = .ok b ∧ (if b then HostBuf.right else HostBuf.left) = d := by
  cases d
  · exact ⟨false, rfl, rfl⟩
  · exact ⟨true, rfl, rfl⟩

theorem remapArgs_codes (mk : Family → Nat → Nat → Bool → Instr) (code : BitVec 4) (f : Family) (n e : Nat)
    (full : Bool) : remapArgs mk ⟨code, [familyCode f, n, e, boolCode full]⟩ = .ok (mk f n e full) := by
  simp [remapArgs, CommandWord.arg]

theorem rowArgs_rowCode (mk : RowRef → Instr) (code : BitVec 4) (r : RowRef) :
    rowArgs mk ⟨code, rowCode r⟩ = .ok (mk r) := by
  obtain ⟨x, part, e⟩ := r
  cases part <;> simp [rowArgs, rowCode, CommandWord.arg, boolArg]

/-- The word of a command decodes to it. -/
theorem decodeCommand_encodeCommand {i : Instr} {w : CommandWord} (h : encodeCommand i = some w) :
    decodeCommand w = .ok i := by
  cases i with
  | initTables | reset | apply => cases h; rfl
  | remap20 f n e full | remap34 f n e full => cases h; exact remapArgs_codes _ _ f n e full
  | remapVal20 r | remapVal34 r => cases h; exact rowArgs_rowCode _ _ r
  | readData | hybridAnalysis | stereoProcess => cases h; simp [decodeCommand, CommandWord.arg]
  | decorrelate x b =>
    cases h
    obtain ⟨src, hsrc, rfl⟩ := boolArg_hybBufCode x
    simp [decodeCommand, CommandWord.arg, hsrc]
  | hybridSynthesis x b d =>
    cases h
    obtain ⟨src, hsrc, rfl⟩ := boolArg_hybBufCode x
    obtain ⟨dst, hdst, rfl⟩ := boolArg_hostBufCode d
    simp [decodeCommand, CommandWord.arg, hsrc, hdst]
  | _ => cases h

/-- Codes 1100 to 1111 stand for no command (`30_encoding.md` R119, U4). -/
theorem decodeCommand_unassigned {w : CommandWord} (h : 12 ≤ w.code.toNat) :
    decodeCommand w = .error .unassignedCode := by
  unfold decodeCommand
  split <;> try omega
  rfl

/-! ## Fields -/

/-- The bit sequence starts with the bits of the list; what follows them is free. -/
def StartsWith (bit : Nat → Bool) (l : List Bool) : Prop := ∀ j, j < l.length → bit j = bitAt l j

theorem StartsWith.head {bit : Nat → Bool} {v : Bool} (h : StartsWith bit [v]) : bit 0 = v := h 0 Nat.one_pos

@[simp] theorem fieldBits_length (n v : Nat) : (fieldBits n v).length = n := by simp [fieldBits]

/-- Bit `j` of a field, counted from the most significant one (`20_memory.md` R72). -/
theorem bitAt_fieldBits {n j : Nat} (v : Nat) (h : j < n) : bitAt (fieldBits n v) j = v.testBit (n - 1 - j) := by
  simp [bitAt, fieldBits, List.getD, h]

/-- The first `k` bits of a field of `n` bits are its value without the last `n - k` bits. -/
theorem StartsWith.bitsValue_take {bit : Nat → Bool} {n v : Nat} (h : StartsWith bit (fieldBits n v)) (hv : v < 2 ^ n)
    {k : Nat} (hk : k ≤ n) : bitsValue bit 0 k = v / 2 ^ (n - k) := by
  induction k with
  | zero => exact (Nat.div_eq_of_lt hv).symm
  | succ k ih =>
    have hbit : bit (0 + k) = v.testBit (n - 1 - k) := by
      rw [Nat.zero_add, h k ((fieldBits_length n v).symm ▸ hk), bitAt_fieldBits v hk]
    have hexp : n - k = n - 1 - k + 1 := by omega
    have hexp' : n - (k + 1) = n - 1 - k := by omega
    rw [bitsValue, ih (by omega), hbit, Nat.toNat_testBit, hexp, hexp', Nat.pow_succ, ← Nat.div_div_eq_div_mul,
      Nat.div_add_mod]

/-- A field reads back as its value (`20_memory.md` R74). -/
theorem StartsWith.bitsValue_eq {bit : Nat → Bool} {n v : Nat} (h : StartsWith bit (fieldBits n v)) (hv : v < 2 ^ n) :
    bitsValue bit 0 n = v := by
  rw [h.bitsValue_take hv le_rfl, Nat.sub_self, Nat.pow_zero, Nat.div_one]

theorem StartsWith.ofNat_bitsValue {bit : Nat → Bool} {n : Nat} {x : BitVec n}
    (h : StartsWith bit (fieldBits n x.toNat)) : BitVec.ofNat n (bitsValue bit 0 n) = x := by
  rw [h.bitsValue_eq x.isLt, BitVec.ofNat_toNat, BitVec.setWidth_eq]

/-! ## Codewords -/

/-- A delta has the codeword whose index is the delta plus the offset (`47_constant_tables.md` R303). -/
theorem codewordOf_eq_some {t : HuffTable} {d : Int} {cw : Nat × Nat} (h : codewordOf t d = some cw) :
    ∃ k, ∃ hk : k < t.code.length, t.code[k] = cw ∧ (k : Int) - t.offset = d := by
  unfold codewordOf at h
  split_ifs at h with hd
  obtain ⟨hk, hcw⟩ := List.getElem?_eq_some_iff.mp h
  exact ⟨_, hk, hcw, by omega⟩

theorem encodeVlc_eq_some {t : HuffTable} {d : Int} {l : List Bool} (h : encodeVlc t d = some l) :
    ∃ cw, codewordOf t d = some cw ∧ l = fieldBits cw.2 cw.1 := by
  unfold encodeVlc at h
  split at h
  · next cw hcw => exact ⟨cw, hcw, (Option.some.inj h).symm⟩
  · cases h

theorem encodeVlc_eq_none {t : HuffTable} {d : Int} : encodeVlc t d = none ↔ codewordOf t d = none := by
  cases h : codewordOf t d <;> simp [encodeVlc, h]

/-- In a conforming table the codeword of a delta decodes to it, whatever bits follow (`30_encoding.md` R116). -/
theorem decodeVlc_encodeVlc {t : HuffTable} (ht : t.wf = true) (mk : Int → Instr) {d : Int} {l : List Bool}
    (h : encodeVlc t d = some l) {bit : Nat → Bool} (hbit : StartsWith bit l) :
    decodeVlc mk t bit = .ok (mk d, l.length) := by
  obtain ⟨cw, hcw, rfl⟩ := encodeVlc_eq_some h
  obtain ⟨k, hk, rfl, rfl⟩ := codewordOf_eq_some hcw
  obtain ⟨-, hrange, -⟩ := ((HuffTable.wf_iff t).mp ht).1 _ (List.getElem_mem hk)
  have hat : codewordAt bit 0 t.code[k] = true := beq_iff_eq.mpr (hbit.bitsValue_eq hrange)
  rw [decodeVlc, huffDecode_of_codewordAt ht hk hat, fieldBits_length]

/-! ## The `VLC` elements, for all four families -/

section
open Machine

variable {c : Config} {x : ElemCtx} {f : Family} {e b : Nat} {dt : Bool} {d : Int}

/-- At its place a `VLC` element is written with the table selected there (`40_entropy_delta.md` R142). -/
theorem encodeElement_data_at (hph : x.phase = dataPhase f e b dt) :
    encodeElement c x (dataInstr f d) = encodeVlc (tableFor c f dt x.iidQuant) d := by
  obtain ⟨phase, q, cnt⟩ := x
  obtain rfl : phase = dataPhase f e b dt := hph
  cases f <;> rfl

/-- At its place a `VLC` element is read with the same table. -/
theorem decodeElement_data_at (hph : x.phase = dataPhase f e b dt) (bit : Nat → Bool) :
    decodeElement c x bit = decodeVlc (dataInstr f) (tableFor c f dt x.iidQuant) bit := by
  obtain ⟨phase, q, cnt⟩ := x
  obtain rfl : phase = dataPhase f e b dt := hph
  cases f <;> rfl

/-- A `VLC` element that has words stands at its place, and they are its codeword there. -/
theorem encodeElement_data_eq_some {l : List Bool} (h : encodeElement c x (dataInstr f d) = some l) :
    ∃ e b dt, x.phase = dataPhase f e b dt ∧ encodeVlc (tableFor c f dt x.iidQuant) d = some l := by
  obtain ⟨phase, q, cnt⟩ := x
  cases f with
  | iid => cases phase with
    | iidData e b dt => exact ⟨e, b, dt, rfl, h⟩
    | _ => cases h
  | icc => cases phase with
    | iccData e b dt => exact ⟨e, b, dt, rfl, h⟩
    | _ => cases h
  | ipd => cases phase with
    | ipdData e b dt => exact ⟨e, b, dt, rfl, h⟩
    | _ => cases h
  | opd => cases phase with
    | opdData e b dt => exact ⟨e, b, dt, rfl, h⟩
    | _ => cases h

theorem decodeElement_encodeElement_data (hc : c.wf = true) {l : List Bool}
    (h : encodeElement c x (dataInstr f d) = some l) {bit : Nat → Bool} (hbit : StartsWith bit l) :
    decodeElement c x bit = .ok (dataInstr f d, l.length) := by
  obtain ⟨e, b, dt, hph, hl⟩ := encodeElement_data_eq_some h
  rw [decodeElement_data_at hph]
  exact decodeVlc_encodeVlc (tableFor_wf hc f dt _) _ hl hbit

end

/-! ## The payload elements -/

/-- Only elements have payload bits. -/
theorem encodeElement_isElement {c : Config} {x : ElemCtx} {i : Instr} {l : List Bool}
    (h : encodeElement c x i = some l) : i.isElement = true := by
  cases i with
  | initTables | reset | readData | apply | remap20 | remap34 | remapVal20 | remapVal34 | hybridAnalysis | decorrelate
  | stereoProcess | hybridSynthesis =>
    obtain ⟨phase, q, cnt⟩ := x
    cases phase <;> cases h
  | _ => rfl

/-- The bits of an element at its place decode to it there, with their number, whatever bits follow
(`30_encoding.md` R101, R102). -/
theorem decodeElement_encodeElement {c : Config} (hc : c.wf = true) {x : ElemCtx} {i : Instr} {l : List Bool}
    (h : encodeElement c x i = some l) {bit : Nat → Bool} (hbit : StartsWith bit l) :
    decodeElement c x bit = .ok (i, l.length) := by
  cases i with
  | iidData d => exact decodeElement_encodeElement_data (f := .iid) hc h hbit
  | iccData d => exact decodeElement_encodeElement_data (f := .icc) hc h hbit
  | ipdData d => exact decodeElement_encodeElement_data (f := .ipd) hc h hbit
  | opdData d => exact decodeElement_encodeElement_data (f := .opd) hc h hbit
  | psHeader | enableIid | enableIcc | enableExt | frameClass | iidDt | iccDt | enableIpdopd | ipdDt | opdDt
  | reservedPs =>
    obtain ⟨phase, q, cnt⟩ := x
    cases phase <;> cases h
    obtain rfl := hbit.head
    rfl
  | iidMode | iccMode | numEnvIdx | borderPosition | extSize | extEsc | extId =>
    obtain ⟨phase, q, cnt⟩ := x
    cases phase <;> cases h
    simp only [decodeElement, hbit.ofNat_bitsValue, fieldBits_length]
  | extFill =>
    obtain ⟨phase, q, cnt⟩ := x
    cases phase <;> cases h
    simp only [decodeElement, List.length_replicate]
  | _ => cases encodeElement_isElement h

/-- The words of an instruction are its command word, or else its payload bits. -/
theorem encode_eq_some {c : Config} {x : ElemCtx} {i : Instr} {w : Words} (h : encode c x i = some w) :
    (∃ cmd, encodeCommand i = some cmd ∧ w = .command cmd) ∨ ∃ l, encodeElement c x i = some l ∧ w = .payload l := by
  unfold encode at h
  split at h
  · next cmd hcmd =>
    cases h
    exact .inl ⟨cmd, hcmd, rfl⟩
  · split at h
    · next l hl =>
      cases h
      exact .inr ⟨l, hl, rfl⟩
    · cases h

/-! ## The settled statements -/

/-- Settles O5: each of these words is the one the encoder gives the command, but for the arguments INIT_TABLES and RESET
ignore. -/
theorem commandCodes : Obligations.CommandCodes := fun _ _ _ _ =>
  ⟨rfl, rfl, decodeCommand_encodeCommand rfl, decodeCommand_encodeCommand rfl, decodeCommand_encodeCommand rfl,
    decodeCommand_encodeCommand rfl, decodeCommand_encodeCommand rfl, decodeCommand_encodeCommand rfl,
    decodeCommand_encodeCommand rfl, decodeCommand_encodeCommand rfl, decodeCommand_encodeCommand rfl,
    decodeCommand_encodeCommand rfl⟩

/-- Settles O7: a command word and its arguments are read back one by one; a field is read back most significant bit
first; a codeword is the only one of its conforming table that can stand there. -/
theorem encodeDecode : Obligations.EncodeDecode := by
  refine fun c hc i hi => ⟨Laws.HasWords.all i c hi, fun x w h => ?command, fun x l h bit hbit => ?payload⟩
  case command =>
    obtain ⟨cmd, hcmd, ⟨⟩⟩ | ⟨_, _, ⟨⟩⟩ := encode_eq_some h
    exact decodeCommand_encodeCommand hcmd
  case payload =>
    obtain ⟨_, _, ⟨⟩⟩ | ⟨l', hl, ⟨⟩⟩ := encode_eq_some h
    exact decodeElement_encodeElement hc hl hbit

end Sys2Proof
end

section
/-! SUPPORT. The payload elements at their place of the grammar, one equation per element. -/

namespace Sys2Proof.Machine

/-! ## Where an element stands -/

section
variable {s : State} {p : Parse} {k : Parse → Phase → Option Out}

/-- At a place where the meaning answers, the element does what it answers there. -/
theorem element_at {ph : Phase} {o : Out} (hp : s.parse = some p) (hph : p.phase = ph) (hk : k p ph = some o) :
    element s k = o :=
  element_eq hp (hph ▸ hk)

/-- At a place where the meaning does not answer, the element is refused (log 10). -/
theorem element_off (hp : s.parse = some p) (hk : k p p.phase = none) : element s k = .refused .elementOutOfPlace := by
  simp only [element, hp, hk]

theorem element_idle (hp : s.parse = none) : element s k = .refused .elementOutOfPlace := by
  simp only [element, hp]

end

/-! ## The mode elements -/

section
variable {s : State} {p : Parse} (hp : s.parse = some p)
include hp

theorem exec_iidMode (hph : p.phase = .iidMode) (m : BitVec 3) : exec (.iidMode m) s = .next
    (if 5 < m.toNat then errorPath .iidModeReserved p s
    else (s.withParams (s.params.setIidMode s.cfg.tables m.toNat)).goto (p.advance 3) .enableIcc) :=
  show execIidMode m s = _ from element_at hp hph rfl

theorem exec_iccMode (hph : p.phase = .iccMode) (m : BitVec 3) : exec (.iccMode m) s = .next
    (if 5 < m.toNat then errorPath .iccModeReserved p (s.withParams { s.params with iccMode := m })
    else (s.withParams (Params.setIccMode { s.params with iccMode := m } s.cfg.tables m.toNat)).goto (p.advance 3)
      .enableExt) :=
  show execIccMode m s = _ from element_at hp hph rfl

/-! ## The elements of the extension container -/

theorem exec_extSize (hph : p.phase = .extSize) (n : BitVec 4) : exec (.extSize n) s = .next
    (if n.toNat = 15 then s.goto { p.advance 4 with cnt := 15 } .extEsc
    else extLoop { p.advance 4 with cnt := (n.toNat : Int) * 8 } s) :=
  show execExtSize n s = _ from element_at hp hph rfl

theorem exec_extEsc (hph : p.phase = .extEsc) (n : BitVec 8) : exec (.extEsc n) s = .next
    (extLoop { p.advance 8 with cnt := (p.cnt + n.toNat) * 8 } s) :=
  show execExtEsc n s = _ from element_at hp hph rfl

theorem exec_extId (hph : p.phase = .extId) (id : BitVec 2) : exec (.extId id) s = .next
    (if id.toNat = 0 then s.goto { p.advance 2 with extStart := p.pos + 2 } .enableIpdopd
    else extLoop { p.advance 2 with cnt := p.cnt - 2 } s) :=
  show execExtId id s = _ from element_at hp hph rfl

theorem exec_enableIpdopd (hph : p.phase = .enableIpdopd) (v : Bool) : exec (.enableIpdopd v) s = .next
    (if v then enterIpdRow 0 (p.advance 1) (s.withParams { s.params with enableIpdopd := v })
    else (s.withParams { s.params with enableIpdopd := v }).goto (p.advance 1) .reservedPs) :=
  show execEnableIpdopd v s = _ from element_at hp hph rfl

theorem exec_reservedPs (hph : p.phase = .reservedPs) (v : Bool) : exec (.reservedPs v) s = .next
    (extLoop { p.advance 1 with cnt := p.cnt - 2 - ((p.pos : Int) + 1 - p.extStart) } s) :=
  show execReservedPs v s = _ from element_at hp hph rfl

end

/-! ## The loop of the extension container (`41_parameter_decoder.md` R170, R173) -/

section
variable {s : State} {p : Parse}

theorem extLoop_id (h : 7 < p.cnt) : extLoop p s = s.goto p .extId := if_pos h

theorem extLoop_fill (h0 : 0 ≤ p.cnt) (h7 : p.cnt ≤ 7) : extLoop p s = s.goto p .extFill :=
  (if_neg h7.not_gt).trans (if_neg h0.not_gt)

theorem extLoop_underflow (h : p.cnt < 0) : extLoop p s = errorPath .extUnderflow p s :=
  (if_neg (by omega)).trans (if_pos h)

/-- A container of whole bytes starts with an id, unless it is empty. -/
theorem extLoop_bytes {n : Nat} (h : p.cnt = 8 * n) : extLoop p s = s.goto p (if n = 0 then .extFill else .extId) := by
  split_ifs with hn
  · exact extLoop_fill (by omega) (by omega)
  · exact extLoop_id (by omega)

/-- Below the row's envelope count an IPD row follows, else RESERVED_PS (R171). -/
theorem enterIpdRow_eq (e : Nat) :
    enterIpdRow e p s = s.goto p (if e < s.params.numEnv then .ipdDt e else .reservedPs) := by
  unfold enterIpdRow
  split_ifs <;> rfl

end

/-! ## The `VLC` elements, for all four families -/

section
variable {f : Family} {d : Int} {e b : Nat} {dt : Bool} {s : State} {p : Parse} (hp : s.parse = some p)
include hp

/-- At its place a `VLC` element is the cell of its family (`40_entropy_delta.md` R143). -/
theorem exec_data_at (hph : p.phase = dataPhase f e b dt) :
    exec (dataInstr f d) s = dataCell f e b dt (dataPhase f e · dt) d p s := by
  cases f <;> (unfold exec dataInstr; exact element_at hp hph rfl)

theorem exec_data_off (hoff : ∀ e b dt, p.phase ≠ dataPhase f e b dt) :
    exec (dataInstr f d) s = .refused .elementOutOfPlace := by
  cases f
  all_goals
    unfold exec dataInstr
    refine element_off hp ?_
    split
    · next hph => exact absurd hph (hoff _ _ _)
    · rfl

/-- A `VLC` element that has words at the current place runs. -/
theorem exec_data_next {l : List Bool} (h : encodeElement s.cfg (elemCtx s p) (dataInstr f d) = some l) :
    ∃ t, exec (dataInstr f d) s = .next t := by
  obtain ⟨e, b, dt, hph, hl⟩ := encodeElement_data_eq_some h
  rw [exec_data_at hp hph]
  rcases dataCell_cases f e b dt (dataPhase f e · dt) d p s with ⟨t, ht, -⟩ | ⟨hnone, -⟩
  · exact ⟨t, ht⟩
  · cases (encodeVlc_eq_none.mpr hnone).symm.trans hl

/-- A `VLC` element that has none is refused: out of its place, or for want of a codeword. -/
theorem exec_data_refused (h : encodeElement s.cfg (elemCtx s p) (dataInstr f d) = none) :
    exec (dataInstr f d) s = .refused .elementOutOfPlace ∨ exec (dataInstr f d) s = .refused .noCodeword := by
  by_cases hplace : ∃ e b dt, p.phase = dataPhase f e b dt
  · obtain ⟨e, b, dt, hph⟩ := hplace
    have hnone : codewordOf (tableFor s.cfg f dt s.params.iidQuant) d = none :=
      encodeVlc_eq_none.mp ((encodeElement_data_at (x := elemCtx s p) hph).symm.trans h)
    refine .inr ?_
    rw [exec_data_at hp hph]
    simp only [dataCell, hnone]
  · exact .inl (exec_data_off hp fun e b dt hph => hplace ⟨e, b, dt, hph⟩)

end

/-! ## All elements -/

section
variable {s : State} {p : Parse} {i : Instr}

/-- An element that has words at the current place runs there. -/
theorem exec_element_next (hp : s.parse = some p) {l : List Bool}
    (h : encodeElement s.cfg (elemCtx s p) i = some l) : ∃ t, exec i s = .next t := by
  have hi := encodeElement_isElement h
  cases i with
  | iidData d => exact exec_data_next (f := .iid) hp h
  | iccData d => exact exec_data_next (f := .icc) hp h
  | ipdData d => exact exec_data_next (f := .ipd) hp h
  | opdData d => exact exec_data_next (f := .opd) hp h
  | initTables | reset | readData | apply | remap20 | remap34 | remapVal20 | remapVal34 | hybridAnalysis | decorrelate
  | stereoProcess | hybridSynthesis => cases hi
  | _ =>
    obtain ⟨pos, budget, header, cnt, extStart, acc, phase⟩ := p
    cases phase <;> cases h
    unfold exec
    exact ⟨_, element_at hp rfl rfl⟩

/-- An element that has no words at the current place is refused. -/
theorem exec_element_refused (hi : i.isElement = true) (hp : s.parse = some p)
    (h : encodeElement s.cfg (elemCtx s p) i = none) :
    exec i s = .refused .elementOutOfPlace ∨ exec i s = .refused .noCodeword := by
  cases i with
  | iidData d => exact exec_data_refused (f := .iid) hp h
  | iccData d => exact exec_data_refused (f := .icc) hp h
  | ipdData d => exact exec_data_refused (f := .ipd) hp h
  | opdData d => exact exec_data_refused (f := .opd) hp h
  | initTables | reset | readData | apply | remap20 | remap34 | remapVal20 | remapVal34 | hybridAnalysis | decorrelate
  | stereoProcess | hybridSynthesis => cases hi
  | _ =>
    obtain ⟨pos, budget, header, cnt, extStart, acc, phase⟩ := p
    refine .inl ?_
    unfold exec
    cases phase <;> cases h
    all_goals exact element_off hp rfl

/-- Outside READ_DATA every element is refused. -/
theorem exec_element_idle (hi : i.isElement = true) (hp : s.parse = none) :
    exec i s = .refused .elementOutOfPlace := by
  cases i with
  | initTables | reset | readData | apply | remap20 | remap34 | remapVal20 | remapVal34 | hybridAnalysis | decorrelate
  | stereoProcess | hybridSynthesis => cases hi
  | _ =>
    unfold exec
    exact element_idle hp

/-- What READ_DATA may not touch includes the memories of the host. -/
theorem sameMemory_of_sameOutside {t : State} (h : sameOutside s t) : sameMemory s t := by
  obtain ⟨hcfg, -, -, -, -, hhost⟩ := h
  refine ⟨fun a => ?_, fun _ _ _ => ?_, fun _ _ _ => ?_⟩
  · rw [State.byte, hcfg, hhost]
    rfl
  · rw [hhost]
  · rw [hhost]

end

/-! ## The settled statements -/

/-- Settles O3: the decoder rejects the unassigned codes, and APPLY on a ready state checks `topBand`. -/
theorem operandRefusals : Obligations.OperandRefusals := by
  refine ⟨fun s w rest hp hin hw => ?_, fun s k hr hk => ?_⟩
  · simp only [step, hp, hin, decodeCommand_unassigned hw, commandRefusal]
  · exact (execApply_eq hr k).trans (if_neg (by omega))

/-- Settles O10, by the two mode elements at their place and what a conforming configuration says of mode 0. -/
theorem modeLookups : Obligations.ModeLookups := by
  intro s p m hp hm
  have hiid (hph : p.phase = .iidMode) : exec (.iidMode m) s = .next
      ((s.withParams (s.params.setIidMode s.cfg.tables m.toNat)).goto (p.advance 3) .enableIcc) := by
    rw [exec_iidMode hp hph, if_neg hm.not_gt]
  refine ⟨hiid, fun hph => ?_, fun hph h0 hw => ?_⟩
  · rw [exec_iccMode hp hph, if_neg hm.not_gt]
    rfl
  · subst h0
    obtain ⟨hbands, hquant⟩ := mode_zero hw
    exact ⟨_, hiid hph, hbands, hquant⟩

/-- Settles O11, by the same two equations. -/
theorem reservedModes : Obligations.ReservedModes := by
  refine fun s p m hp hm => ⟨fun hph => ?_, fun hph => ?_⟩
  · rw [exec_iidMode hp hph, if_pos hm]
    rfl
  · rw [exec_iccMode hp hph, if_pos hm]
    rfl

/-- Settles O17: a container of whole bytes goes on with an id, unless it is empty. -/
theorem extensionSize : Obligations.ExtensionSize := by
  intro s p hp
  refine ⟨fun n hph => ?size, fun n hph hcnt => ?esc⟩
  case size =>
    rw [exec_extSize hp hph]
    by_cases hn : n.toNat = 15
    · rw [if_pos hn, if_pos hn]
      rfl
    · rw [if_neg hn, if_neg hn, Int.mul_comm, extLoop_bytes rfl]
      rfl
  case esc =>
    rw [exec_extEsc hp hph, hcnt, Int.mul_comm, extLoop_bytes (n := 15 + n.toNat) (by push_cast; rfl), if_neg (by omega)]
    rfl

/-- Settles O18: an id other than 0 and RESERVED_PS both end in the loop, whose three ranges of the budget exclude one
another. -/
theorem extensionLoop : Obligations.ExtensionLoop := by
  intro s p hp goesOn
  have hloop {i : Instr} {pos : Nat} {cnt : Int} (hi : exec i s = .next (extLoop { p with pos := pos, cnt := cnt } s)) :
      goesOn i pos cnt := by
    refine ⟨fun h => ?_, fun h0 h7 => ?_, fun h => ?_⟩
    · rw [hi, extLoop_id h]
      rfl
    · rw [hi, extLoop_fill h0 h7]
      rfl
    · rw [hi, extLoop_underflow h]
      rfl
  refine ⟨fun hph => ?_, fun id hph hid => hloop ?_, fun v hph => ?_, fun v hph => hloop (exec_reservedPs hp hph v)⟩
  · exact exec_extId hp hph 0
  · have hne : id.toNat ≠ 0 := fun h0 => hid (BitVec.eq_of_toNat_eq h0)
    rw [exec_extId hp hph, if_neg hne]
    rfl
  · rw [exec_enableIpdopd hp hph, enterIpdRow_eq]
    cases v
    · rfl
    · simp only [if_true, true_and]
      rfl

/-- Settles O22: an element that has words at the current place runs there, and what runs proceeds from the parse. -/
theorem elementsComplete : Obligations.ElementsComplete := by
  intro i s p ⟨hp, hwords⟩
  obtain ⟨l, hl⟩ := Option.isSome_iff_exists.mp hwords
  obtain ⟨t, ht⟩ := exec_element_next hp hl
  obtain ⟨p', hp', hpr⟩ := exec_element_proceeds (encodeElement_isElement hl) ht
  obtain rfl : p' = p := Option.some.inj (hp'.symm.trans hp)
  refine ⟨t, ht, hpr.sameOutside, sameMemory_of_sameOutside hpr.sameOutside, ?_⟩
  rcases hpr with ⟨⟨r, hr, hbudget, hpos⟩, -, hhost, hstatus⟩ | ⟨hend, -, hout⟩
  · exact .inl ⟨r, hr, hbudget, hpos, hhost, hstatus⟩
  · exact .inr ⟨hend, hout⟩

/-- Settles O23: off its place an element does not answer, and at its place a `VLC` element has words if it has a
codeword. -/
theorem elementsOutOfPlace : Obligations.ElementsOutOfPlace := fun _ _ hi =>
  ⟨exec_element_idle hi, fun _ hp hnone => exec_element_refused hi hp hnone⟩

end Sys2Proof.Machine
end

section
/-! SUPPORT. The delta codec: one value of a row for all four families, and the frequency-delta row as the running sums
of its deltas. -/

namespace Sys2Proof.Machine

/-! ## What the delta codec does with a value -/

/-- IPD and OPD values are masked to three bits, IID and ICC values are not (`40_entropy_delta.md` R146). -/
theorem maskOf_eq (f : Family) (v : Int) : maskOf f v = if f = .iid ∨ f = .icc then v else v % 8 := by
  cases f <;> rfl

@[simp] theorem maskOf_zero (f : Family) : maskOf f 0 = 0 := by cases f <;> rfl

/-- The mask may be applied to every partial sum or to the last one only. -/
theorem maskOf_maskOf_add (f : Family) (v d : Int) : maskOf f (maskOf f v + d) = maskOf f (v + d) := by
  cases f
  · rfl
  · rfl
  · exact Int.emod_add_emod v 8 d
  · exact Int.emod_add_emod v 8 d

/-- The range check does not see the mask: the families that are masked have no range (R143). -/
theorem rangeOk_maskOf (quant : Bool) (f : Family) (v : Int) : rangeOk quant f (maskOf f v) = rangeOk quant f v := by
  cases f <;> rfl

theorem iidOk_iff {quant : Bool} {v : Int} : iidOk quant v = true ↔ |v| ≤ 7 + 8 * (if quant then 1 else 0) := by
  rw [iidOk, decide_eq_true_eq, Int.abs_eq_natAbs]
  cases quant <;> simp only [Bool.toNat_true, Bool.toNat_false, if_true, Bool.false_eq_true, if_false] <;> omega

theorem iccOk_iff {v : Int} : iccOk v = true ↔ 0 ≤ v ∧ v ≤ 7 := by
  simp only [iccOk, Bool.and_eq_true, decide_eq_true_eq]

/-- The ranges of R143. -/
theorem rangeOk_iff {quant : Bool} {f : Family} {v : Int} : rangeOk quant f v = true ↔
    (f = .iid → |v| ≤ 7 + 8 * (if quant then 1 else 0)) ∧ (f = .icc → 0 ≤ v ∧ v ≤ 7) := by
  cases f
  · exact iidOk_iff.trans ⟨fun h => ⟨fun _ => h, nofun⟩, fun h => h.1 rfl⟩
  · exact iccOk_iff.trans ⟨fun h => ⟨nofun, fun _ => h⟩, fun h => h.2 rfl⟩
  · exact iff_of_true rfl ⟨nofun, nofun⟩
  · exact iff_of_true rfl ⟨nofun, nofun⟩

/-- A value out of range is one of IID or of ICC, and the cause is its family's (R143). -/
theorem rangeCause_eq (f : Family) : rangeCause f = if f = .iid then .iidRange else .iccRange := by
  cases f <;> rfl

/-- A frequency-delta value is the running value plus the delta (R145); the running value may stand unmasked. -/
theorem deltaValue_frequency (f : Family) (q : Params) (total : Int) (e b : Nat) (d : Int) :
    deltaValue f q (maskOf f total) e b false d = maskOf f (total + d) :=
  maskOf_maskOf_add f total d

/-! ## The array of a family -/

theorem setPar_par_self (q : Params) (f : Family) : q.setPar f (q.par f) = q := by cases f <;> rfl

@[simp] theorem setPar_setPar (q : Params) (f : Family) (x y : List (List Int)) :
    (q.setPar f x).setPar f y = q.setPar f y := by
  cases f <;> rfl

/-! ## What follows a row -/

/-- What follows a row depends neither on the parameters and the parse the state had before nor on the place that parse
has come from. -/
theorem afterRow_afterElement (f : Family) (e : Nat) (s : State) (q q' : Params) (p p' : Parse) (ph : Phase) :
    afterRow f e (afterElement s q' p') q { p with phase := ph } = afterRow f e s q p := by
  cases f <;> rfl

/-! ## The `dt` flag at its place -/

section
variable {f : Family} {e : Nat} {dt : Bool} {s : State} {p : Parse}

theorem exec_dt_at (hp : s.parse = some p) (hph : p.phase = dtPhase f e) :
    exec (dtInstr f dt) s = .next (startRow f e (dataPhase f e · dt) p s) := by
  cases f <;> (unfold exec dtInstr; exact element_at hp hph rfl)

/-- In a family with bands the values of the row follow, the running value at 0 (`40_entropy_delta.md` R145). -/
theorem exec_dt_bands (hp : s.parse = some p) (hph : p.phase = dtPhase f e) (hn : 0 < s.params.nrPar f) :
    exec (dtInstr f dt) s = .next (afterElement s s.params
      { p with pos := p.pos + 1, acc := 0, phase := dataPhase f e 0 dt }) :=
  (exec_dt_at hp hph).trans (congrArg Host.Outcome.next (if_pos hn))

/-- In a family with no band the row is its flag. -/
theorem exec_dt_empty (hp : s.parse = some p) (hph : p.phase = dtPhase f e) (hn : s.params.nrPar f = 0) :
    exec (dtInstr f dt) s = afterRow f e s s.params { p with pos := p.pos + 1, acc := 0 } :=
  (exec_dt_at hp hph).trans
    ((congrArg Host.Outcome.next (if_neg (by omega))).trans (rowDone_eq f e s s.params _))

end

/-! ## One value of a row -/

section
variable {f : Family} {e b len : Nat} {dt : Bool} {v : Int} {s : State} {p : Parse}

/-- A value in range is followed by that of the next band, if the family has one (`40_entropy_delta.md` R144, R145). -/
theorem storeValue_next_band (hv : rangeOk s.params.iidQuant f v = true) (hb : b + 1 < s.params.nrPar f) :
    storeValue f e b (dataPhase f e · dt) len v p s
      = afterElement s (s.params.setPar f (storeI (s.params.par f) e b v))
        { p with pos := p.pos + len, acc := v, phase := dataPhase f e (b + 1) dt } :=
  (if_pos hv).trans (if_pos hb)

/-- After the value of the last band comes what follows the row. -/
theorem storeValue_last_band (hv : rangeOk s.params.iidQuant f v = true) (hb : s.params.nrPar f ≤ b + 1) :
    .next (storeValue f e b (dataPhase f e · dt) len v p s)
      = afterRow f e s (s.params.setPar f (storeI (s.params.par f) e b v)) { p with pos := p.pos + len, acc := v } :=
  (congrArg Host.Outcome.next ((if_pos hv).trans (if_neg hb.not_gt))).trans (rowDone_eq f e s _ _)

/-- A value out of range is stored and ends the parse on the error path (R147, `60_exceptions.md` R333). -/
theorem storeValue_out_of_range (hv : ¬rangeOk s.params.iidQuant f v = true) :
    storeValue f e b (dataPhase f e · dt) len v p s
      = afterError s (s.params.setPar f (storeI (s.params.par f) e b v)) (rangeCause f) p.budget :=
  if_neg hv

/-- A `VLC` element with a codeword stores the value its delta forms (R143). -/
theorem exec_data_stores {d : Int} {cw : Nat × Nat} (hp : s.parse = some p) (hph : p.phase = dataPhase f e b dt)
    (hcw : codewordOf (tableFor s.cfg f dt s.params.iidQuant) d = some cw) :
    exec (dataInstr f d) s
      = .next (storeValue f e b (dataPhase f e · dt) cw.2 (deltaValue f s.params p.acc e b dt d) p s) := by
  rw [exec_data_at hp hph]
  simp only [dataCell, hcw]

end

/-! ## Instructions one after the other -/

theorem execAll_cons_of_next {i : Instr} {l : List Instr} {s t : State} (h : exec i s = .next t) :
    execAll (i :: l) s = execAll l t := by
  rw [execAll, h]

theorem execAll_singleton (i : Instr) (s : State) : execAll [i] s = exec i s := by
  rw [execAll]
  cases exec i s <;> rfl

/-! ## A frequency-delta row -/

/-- The number of bits of the codeword of a delta, 0 if the table has none. -/
def deltaBits (t : HuffTable) (d : Int) : Nat := ((codewordOf t d).getD (0, 0)).2

theorem deltaBits_eq {t : HuffTable} {d : Int} {cw : Nat × Nat} (h : codewordOf t d = some cw) :
    deltaBits t d = cw.2 := by
  rw [deltaBits, h, Option.getD_some]

/-- The array of a family after the deltas of row `e` from band `b` on, `total` being the sum of those before
(`execAll_data_eq` ties this to the machine). -/
def storeSums (f : Family) (e : Nat) : Nat → Int → List Int → List (List Int) → List (List Int)
  | _, _, [], rows => rows
  | b, total, d :: ds, rows => storeSums f e (b + 1) (total + d) ds (storeI rows e b (maskOf f (total + d)))

/-- The deltas change no cell before their bands, behind them or in another row. -/
theorem cellI_storeSums_other (f : Family) (e b : Nat) (total : Int) (ds : List Int) (rows : List (List Int))
    {e' k : Nat} (h : e' ≠ e ∨ k < b ∨ b + ds.length ≤ k) :
    cellI (storeSums f e b total ds rows) e' k = cellI rows e' k := by
  induction ds generalizing b total rows with
  | nil => rfl
  | cons d ds ih =>
    rw [List.length_cons] at h
    rw [storeSums, ih _ _ _ (by omega), cellI_storeI, if_neg (by omega)]

/-- The `k`-th delta leaves in its band the running sum up to it, masked (`40_entropy_delta.md` R145, R146). -/
theorem cellI_storeSums (f : Family) {e b : Nat} (total : Int) {ds : List Int} {rows : List (List Int)}
    (he : e < rows.length) (hlen : b + ds.length ≤ (cell [] rows e).length) {k : Nat} (hk : k < ds.length) :
    cellI (storeSums f e b total ds rows) e (b + k) = maskOf f (total + (ds.take (k + 1)).sum) := by
  induction ds generalizing b total rows k with
  | nil => exact absurd hk (Nat.not_lt_zero k)
  | cons d ds ih =>
    rw [List.length_cons] at hlen hk
    rw [storeSums, List.take_succ_cons, List.sum_cons, ← Int.add_assoc]
    cases k with
    | zero =>
      rw [cellI_storeSums_other _ _ _ _ _ _ (by omega), cellI_storeI, if_pos (by omega), List.take_zero, List.sum_nil,
        Int.add_zero]
    | succ k =>
      rw [← Nat.add_assoc, Nat.add_right_comm]
      refine ih (total + d) ?_ ?_ (Nat.lt_of_succ_lt_succ hk)
      · rwa [storeI_length]
      · rw [storeI_row_length]
        omega

/-- The parse `p` before band `b` of the frequency-delta row `e`, `total` being the sum of the deltas before it. -/
def Parse.atBand (p : Parse) (f : Family) (e b : Nat) (total : Int) : Parse :=
  { p with acc := maskOf f total, phase := dataPhase f e b false }

@[simp] theorem atBand_acc (p : Parse) (f : Family) (e b : Nat) (total : Int) :
    (p.atBand f e b total).acc = maskOf f total := rfl

@[simp] theorem atBand_phase (p : Parse) (f : Family) (e b : Nat) (total : Int) :
    (p.atBand f e b total).phase = dataPhase f e b false := rfl

section
variable {f : Family} {e b : Nat} {total d : Int} {s : State} {q : Params} {p : Parse} {cw : Nat × Nat}
  (hd : codewordOf (tableFor s.cfg f false q.iidQuant) d = some cw)
  (hok : rangeOk q.iidQuant f (total + d) = true)
include hd

/-- A delta of the row stores the running sum, masked (`40_entropy_delta.md` R145, R146). -/
theorem exec_data_atBand : exec (dataInstr f d) (afterElement s q (p.atBand f e b total))
    = .next (storeValue f e b (dataPhase f e · false) cw.2 (maskOf f (total + d)) (p.atBand f e b total)
      (afterElement s q (p.atBand f e b total))) := by
  have hexec := exec_data_stores (s := afterElement s q (p.atBand f e b total)) rfl (atBand_phase p f e b total) hd
  rwa [atBand_acc, deltaValue_frequency] at hexec

include hok

theorem exec_data_next_band (hb : b + 1 < q.nrPar f) :
    exec (dataInstr f d) (afterElement s q (p.atBand f e b total))
      = .next (afterElement s (q.setPar f (storeI (q.par f) e b (maskOf f (total + d))))
        (({ p with pos := p.pos + cw.2 } : Parse).atBand f e (b + 1) (total + d))) := by
  rw [exec_data_atBand hd, storeValue_next_band ((rangeOk_maskOf _ f _).trans hok) hb]
  rfl

theorem exec_data_last_band (hb : q.nrPar f ≤ b + 1) :
    exec (dataInstr f d) (afterElement s q (p.atBand f e b total))
      = afterRow f e s (q.setPar f (storeI (q.par f) e b (maskOf f (total + d))))
        { p with pos := p.pos + cw.2, acc := maskOf f (total + d) } := by
  rw [exec_data_atBand hd, storeValue_last_band ((rangeOk_maskOf _ f _).trans hok) hb]
  exact afterRow_afterElement f e s _ q { p with pos := p.pos + cw.2, acc := maskOf f (total + d) } _ _

end

/-- The deltas from band `b` to the last one, run one after the other while every running sum is in range, leave their
sums in the array, move the cursor by their codewords and end the row. -/
theorem execAll_data_eq {f : Family} (e : Nat) (s : State) (d : Int) {ds : List Int} {b : Nat} {total : Int}
    {q : Params} (p : Parse) (hb : b + (d :: ds).length = q.nrPar f)
    (hcw : ∀ x ∈ d :: ds, (codewordOf (tableFor s.cfg f false q.iidQuant) x).isSome = true)
    (hok : ∀ k, k < (d :: ds).length → rangeOk q.iidQuant f (total + ((d :: ds).take (k + 1)).sum) = true) :
    execAll ((d :: ds).map (dataInstr f)) (afterElement s q (p.atBand f e b total))
      = afterRow f e s (q.setPar f (storeSums f e b total (d :: ds) (q.par f)))
        { p with
          pos := p.pos + ((d :: ds).map (deltaBits (tableFor s.cfg f false q.iidQuant))).sum
          acc := maskOf f (total + (d :: ds).sum) } := by
  induction ds generalizing d b total q p with
  | nil =>
    obtain ⟨cw, hd⟩ := Option.isSome_iff_exists.mp (hcw d List.mem_cons_self)
    have hfirst : rangeOk q.iidQuant f (total + d) = true := by simpa using hok 0 (Nat.succ_pos _)
    rw [List.map_singleton, execAll_singleton, exec_data_last_band hd hfirst hb.ge]
    simp only [storeSums, List.map_singleton, List.sum_singleton, deltaBits_eq hd]
  | cons d' ds ih =>
    obtain ⟨⟨cw, hd⟩, htail⟩ := (List.forall_mem_cons.mp hcw).imp_left Option.isSome_iff_exists.mp
    have hfirst : rangeOk q.iidQuant f (total + d) = true := by simpa using hok 0 (Nat.succ_pos _)
    simp only [List.length_cons] at hb hok
    have hrest : ∀ k, k < (d' :: ds).length →
        rangeOk q.iidQuant f (total + d + ((d' :: ds).take (k + 1)).sum) = true := fun k hk => by
      simpa [Int.add_assoc] using hok (k + 1) (Nat.succ_lt_succ hk)
    have hlast : b + 1 + (d' :: ds).length = q.nrPar f := by
      rw [List.length_cons]
      omega
    rw [List.map_cons, execAll_cons_of_next (exec_data_next_band hd hfirst (by omega)),
      ih d' _ (by rwa [setPar_nrPar]) (by rwa [setPar_iidQuant]) (by rwa [setPar_iidQuant])]
    simp only [setPar_setPar, setPar_par_same, setPar_iidQuant, storeSums, List.map_cons, List.sum_cons,
      deltaBits_eq hd, Nat.add_assoc, Int.add_assoc]

/-! ## The settled statements -/

/-- Settles O15: at its place a `VLC` element with a codeword stores the value its delta forms, which is followed by the
next band, by what follows the row, or by the error path. -/
theorem rowValues : Obligations.RowValues := by
  intro f s p e b dt d cw hp hph hcw before v q inRange
  have hv : deltaValue f s.params p.acc e b dt d = v := maskOf_eq f (before + d)
  have hrange : rangeOk s.params.iidQuant f v = true ↔ inRange := rangeOk_iff
  have hexec := exec_data_stores hp hph hcw
  rw [hv] at hexec
  rw [hexec]
  refine ⟨fun h hb => ?_, fun h hb => ?_, fun h => ?_, _, rfl⟩
  · rw [storeValue_next_band (hrange.mpr h) hb]
  · exact storeValue_last_band (hrange.mpr h) hb
  · rw [storeValue_out_of_range (mt hrange.mp h), rangeCause_eq]

/-- Settles O16: the flag sets the running value to 0, and the deltas that follow leave their running sums. -/
theorem frequencyDeltaRow : Obligations.FrequencyDeltaRow := by
  intro f s p e ds hp hph hn he hrow hcw hok value len
  have hvalue : value = maskOf f := funext fun v => (maskOf_eq f v).symm
  refine ⟨storeSums f e 0 0 ds (s.params.par f), ?run, fun b hb => ?sums, fun e' b hother => ?others⟩
  case sums => simpa [hvalue] using cellI_storeSums f (b := 0) 0 he (by simpa using hrow) hb
  case others => exact cellI_storeSums_other f e 0 0 ds _ (by omega)
  case run =>
    rw [hvalue]
    cases ds with
    | nil =>
      have hempty := exec_dt_empty (dt := false) hp hph hn.symm
      simp only [List.map_nil, storeSums, execAll_singleton, List.sum_nil, setPar_par_self, maskOf_zero, Nat.add_zero]
      exact hempty
    | cons d ds =>
      have hflag : exec (dtInstr f false) s
          = .next (afterElement s s.params (({ p with pos := p.pos + 1 } : Parse).atBand f e 0 0)) := by
        rw [exec_dt_bands hp hph (hn ▸ Nat.succ_pos _), Parse.atBand, maskOf_zero]
      rw [execAll_cons_of_next hflag, execAll_data_eq e s d _ ((Nat.zero_add _).trans hn) hcw (by simpa using hok),
        Int.zero_add]
      rfl

end Sys2Proof.Machine
end

section
/-! SUPPORT. The four maps of the band remapper: their cells, their range and their number of bands. -/

namespace Sys2Proof.Machine

/-! ## The quotient truncated toward zero (D19) -/

/-- The truncated quotient lies between zero and the exact one, and less than one from it. -/
theorem tdiv_truncates {n d : Int} (hd : 0 < d) :
    (0 ≤ n → d * n.tdiv d ≤ n ∧ n < d * n.tdiv d + d) ∧ (n ≤ 0 → n ≤ d * n.tdiv d ∧ d * n.tdiv d - d < n) := by
  have hsum := Int.mul_tdiv_add_tmod n d
  have hlt := Int.tmod_lt_of_pos n hd
  have hgt := Int.lt_tmod_of_pos n hd
  refine ⟨fun hn => ?_, fun hn => ?_⟩
  · have hrem := Int.tmod_nonneg d hn
    omega
  · have hrem := Int.tmod_nonneg d (Int.neg_nonneg_of_nonpos hn)
    rw [Int.neg_tmod] at hrem
    omega

/-- The truncated quotient of a sum of `d` values of a range lies in the range. -/
theorem tdiv_bounds {n d lo hi : Int} (hd : 0 < d) (hlo : d * lo ≤ n) (hhi : n ≤ d * hi) :
    lo ≤ n.tdiv d ∧ n.tdiv d ≤ hi := by
  have hcancel := Int.mul_tdiv_cancel_left (a := d) (H := hd.ne')
  exact ⟨hcancel lo ▸ Int.tdiv_le_tdiv hd hlo, hcancel hi ▸ Int.tdiv_le_tdiv hd hhi⟩

/-- The mean of a value and itself is the value. -/
theorem tdiv_two_self (a : Int) : (a + a).tdiv 2 = a := by
  rw [← Int.two_mul, Int.mul_tdiv_cancel_left a two_ne_zero]

/-! ## The number of bands -/

theorem map10to20_length (p : List Int) (full : Bool) : (map10to20 p full).length = if full then 20 else 11 := by
  cases full <;> rfl

theorem map34to20_length (p : List Int) (full : Bool) : (map34to20 p full).length = if full then 20 else 11 := by
  cases full <;> rfl

theorem map10to34_length (p : List Int) (full : Bool) : (map10to34 p full).length = if full then 34 else 17 := by
  cases full <;> rfl

theorem map20to34_length (p : List Int) (full : Bool) : (map20to34 p full).length = if full then 34 else 17 := by
  cases full <;> rfl

/-! ## The range -/

section
variable {p : List Int} {lo hi : Int} (full : Bool)

/-- A cell of a row is one of its values or, outside it, zero. -/
theorem cell_bounds (hlo : lo ≤ 0) (hhi : 0 ≤ hi) (hp : ∀ v ∈ p, lo ≤ v ∧ v ≤ hi) (k : Nat) :
    lo ≤ cell 0 p k ∧ cell 0 p k ≤ hi := by
  by_cases hk : k < p.length
  · rw [cell_in _ _ _ hk]
    exact hp _ (List.getElem_mem hk)
  · rw [cell_out _ _ _ (Nat.le_of_not_lt hk)]
    exact ⟨hlo, hhi⟩

theorem map10to20_bounds (hlo : lo ≤ 0) (hhi : 0 ≤ hi) (ha : ∀ k, lo ≤ cell 0 p k ∧ cell 0 p k ≤ hi) :
    ∀ v ∈ map10to20 p full, lo ≤ v ∧ v ≤ hi := by
  cases full <;> simp [map10to20, ha, hlo, hhi]

theorem map10to34_bounds (hlo : lo ≤ 0) (hhi : 0 ≤ hi) (ha : ∀ k, lo ≤ cell 0 p k ∧ cell 0 p k ≤ hi) :
    ∀ v ∈ map10to34 p full, lo ≤ v ∧ v ≤ hi := by
  cases full <;> simp [map10to34, ha, hlo, hhi]

/-- The mean of two values of a row. -/
theorem mean_bounds (ha : ∀ k, lo ≤ cell 0 p k ∧ cell 0 p k ≤ hi) (i j : Nat) :
    lo ≤ (cell 0 p i + cell 0 p j).tdiv 2 ∧ (cell 0 p i + cell 0 p j).tdiv 2 ≤ hi := by
  have hfst := ha i
  have hsnd := ha j
  exact tdiv_bounds two_pos (by omega) (by omega)

theorem map20to34_bounds (ha : ∀ k, lo ≤ cell 0 p k ∧ cell 0 p k ≤ hi) :
    ∀ v ∈ map20to34 p full, lo ≤ v ∧ v ≤ hi := by
  cases full <;> simp [map20to34, ha, mean_bounds ha]

theorem map34to20_bounds (ha : ∀ k, lo ≤ cell 0 p k ∧ cell 0 p k ≤ hi) :
    ∀ v ∈ map34to20 p full, lo ≤ v ∧ v ≤ hi := by
  have hleft : ∀ i j, lo ≤ (2 * cell 0 p i + cell 0 p j).tdiv 3 ∧ (2 * cell 0 p i + cell 0 p j).tdiv 3 ≤ hi :=
    fun i j => by
      have hfst := ha i
      have hsnd := ha j
      exact tdiv_bounds three_pos (by omega) (by omega)
  have hright : ∀ i j, lo ≤ (cell 0 p i + 2 * cell 0 p j).tdiv 3 ∧ (cell 0 p i + 2 * cell 0 p j).tdiv 3 ≤ hi :=
    fun i j => add_comm (2 * cell 0 p j) (cell 0 p i) ▸ hleft j i
  have hfour : ∀ i j k l, lo ≤ (cell 0 p i + cell 0 p j + cell 0 p k + cell 0 p l).tdiv 4
      ∧ (cell 0 p i + cell 0 p j + cell 0 p k + cell 0 p l).tdiv 4 ≤ hi := fun i j k l => by
    have h1 := ha i
    have h2 := ha j
    have h3 := ha k
    have h4 := ha l
    exact tdiv_bounds four_pos (by omega) (by omega)
  cases full <;> simp [map34to20, ha, mean_bounds ha, hleft, hright, hfour]

end

/-! ## The cells of the map from ten to 20 bands, and the composition -/

/-- Band `b` of ten becomes the bands `2 b` and `2 b + 1` of 20. -/
theorem map10to20_doubles (p : List Int) (full : Bool) (b : Nat) (hb : b ≤ if full then 9 else 4) :
    cell 0 (map10to20 p full) (2 * b) = cell 0 p b ∧ cell 0 (map10to20 p full) (2 * b + 1) = cell 0 p b := by
  cases full with
  | false =>
    have hb4 : b ≤ 4 := hb
    interval_cases b <;> exact ⟨rfl, rfl⟩
  | true =>
    have hb9 : b ≤ 9 := hb
    interval_cases b <;> exact ⟨rfl, rfl⟩

/-- The map from ten to 34 bands goes over 20 bands; without the full range its last band is zero in both. -/
theorem map20to34_map10to20 (p : List Int) (full : Bool) : map20to34 (map10to20 p full) full = map10to34 p full := by
  cases full <;> simp [map20to34, map10to20, map10to34, cell, tdiv_two_self]

/-! ## The settled statements -/

/-- Settles O30: every cell by the equations of the maps, the quotients by `tdiv_truncates`. -/
theorem remapComposition : Obligations.RemapComposition := by
  unfold Obligations.RemapComposition
  intro quotient
  have hq2 : ∀ n, quotient n 2 (n.tdiv 2) := fun n => tdiv_truncates two_pos
  have hq3 : ∀ n, quotient n 3 (n.tdiv 3) := fun n => tdiv_truncates three_pos
  have hq4 : ∀ n, quotient n 4 (n.tdiv 4) := fun n => tdiv_truncates four_pos
  refine ⟨map10to20_doubles, fun p => ⟨rfl, rfl⟩, fun p full => ?from34,
    fun p full => ⟨?low20, hq2 _, hq2 _, ?high20⟩, fun p full => ⟨?low10, ?high10⟩, map20to34_map10to20⟩
  case from34 =>
    refine ⟨hq3 _, hq3 _, hq3 _, hq3 _, hq2 _, hq2 _, rfl, rfl, hq2 _, hq2 _, rfl, ?_⟩
    rintro rfl
    exact ⟨rfl, rfl, rfl, hq2 _, hq2 _, hq2 _, hq2 _, hq4 _, hq2 _⟩
  case low20 | low10 =>
    simp only [List.forall_mem_cons, List.not_mem_nil, false_imp_iff, implies_true, and_true]
    and_intros <;> rfl
  case high20 | high10 =>
    rintro rfl
    simp only [List.forall_mem_cons, List.not_mem_nil, false_imp_iff, implies_true, and_true]
    and_intros <;> rfl

/-- Settles O31: every value of an image is a cell, a truncated quotient of `d` cells by `d`, or zero. -/
theorem remapRange : Obligations.RemapRange := by
  intro p full lo hi hlo hhi hp
  have ha := cell_bounds hlo hhi hp
  refine ⟨?_, map10to20_length p full, map34to20_length p full, map10to34_length p full, map20to34_length p full⟩
  simp only [List.forall_mem_append]
  exact ⟨⟨⟨map10to20_bounds full hlo hhi ha, map34to20_bounds full ha⟩, map10to34_bounds full hlo hhi ha⟩,
    map20to34_bounds full ha⟩

end Sys2Proof.Machine
end

section
/-! SUPPORT. The remap commands: the rows a remap answers, and a scalar remap as assignments made in place. -/

namespace Sys2Proof.Machine

/-! ## The remaps of parameters -/

/-- The rows of a converting remap: those of the source rows, and where a row has all the cells the map reads, that row
converted as it stands. -/
theorem remapRows_converts {f : List Int → Bool → List Int} {full : Bool}
    (happ : ∀ p x, (if full then 34 else 17) ≤ p.length → f (p ++ x) full = f p full) (draw : Nat)
    (src : List (List Int)) (n : Nat) :
    let rows := remapRows (some f) src (sourceRow draw src) n full
    rows.length = n ∧ (∀ e, e < n → cell [] rows e = f (sourceRow draw src e) full)
      ∧ ∀ e, e < n → (if full then 34 else 17) ≤ (cell [] src e).length → cell [] rows e = f (cell [] src e) full := by
  obtain ⟨hlen, hrow⟩ := remapRows_some f src (sourceRow draw src) n full
  exact ⟨hlen, hrow, fun e he hcells => (hrow e he).trans (happ _ _ hcells)⟩

/-- The map REMAP20 selects by the source band count. -/
theorem mapTo20_cases (n : Nat) :
    (n = 34 ∨ n = 17 → mapTo20 n = some map34to20) ∧ (n = 10 ∨ n = 5 → mapTo20 n = some map10to20)
      ∧ (n ≠ 34 → n ≠ 17 → n ≠ 10 → n ≠ 5 → mapTo20 n = none) := by
  unfold mapTo20
  refine ⟨fun h => if_pos h, fun h => ?_, fun h34 h17 h10 h5 => ?_⟩
  · rw [if_neg (by omega), if_pos h]
  · rw [if_neg (by omega), if_neg (by omega)]

/-- The map REMAP34 selects by the source band count. -/
theorem mapTo34_cases (n : Nat) :
    (n = 20 ∨ n = 11 → mapTo34 n = some map20to34) ∧ (n = 10 ∨ n = 5 → mapTo34 n = some map10to34)
      ∧ (n ≠ 20 → n ≠ 11 → n ≠ 10 → n ≠ 5 → mapTo34 n = none) := by
  unfold mapTo34
  refine ⟨fun h => if_pos h, fun h => ?_, fun h20 h11 h10 h5 => ?_⟩
  · rw [if_neg (by omega), if_pos h]
  · rw [if_neg (by omega), if_neg (by omega)]

/-! ## Assignments in place -/

theorem rowCell_set_ne {h : List PsNum} {i j : Nat} (x : PsNum) (hij : i ≠ j) : rowCell (h.set i x) j = rowCell h j := by
  unfold rowCell
  rw [cell_set, if_neg fun hc => hij hc.1]

/-- A row is the list of its cells. -/
theorem eq_of_rowCell_eq {g h : List PsNum} (hlen : g.length = h.length) (hcell : ∀ k, rowCell g k = rowCell h k) :
    g = h :=
  List.ext_getElem hlen fun k hg hh => by
    rw [← cell_in .zero g k hg, ← cell_in .zero h k hh]
    exact hcell k

/-- Assignments whose targets come in an order `R`, each of which reads no cell that comes before its target, make of a
row what they make of it with all sources read first: the row `g` that has their values at their targets. -/
theorem assignAll_eq {R : Nat → Nat → Prop} {g h : List PsNum} {l : List (Nat × (List PsNum → PsNum))}
    (horder : (l.map Prod.fst).Pairwise R) (hreads : ∀ a ∈ l, ∀ k, R k a.1 → ∀ h x, a.2 (h.set k x) = a.2 h)
    (hlen : g.length = h.length) (htargets : ∀ a ∈ l, rowCell g a.1 = a.2 h)
    (hothers : ∀ k, k ∉ l.map Prod.fst → rowCell g k = rowCell h k) : assignAll h l = g := by
  induction l generalizing h with
  | nil => exact (eq_of_rowCell_eq hlen fun k => hothers k List.not_mem_nil).symm
  | cons a l ih =>
    rw [List.map_cons, List.pairwise_cons] at horder
    obtain ⟨hfirst, horder⟩ := horder
    rw [List.forall_mem_cons] at hreads htargets
    refine ih (h := h.set a.1 (a.2 h)) horder hreads.2 (hlen.trans List.length_set.symm) (fun b hb => ?_) fun k hk => ?_
    · rw [htargets.2 b hb, hreads.2 b hb a.1 (hfirst b.1 (List.mem_map_of_mem hb))]
    · by_cases hka : a.1 = k
      · subst hka
        rw [htargets.1, rowCell, cell_set]
        split_ifs with hin
        · rfl
        · rw [← htargets.1, rowCell, cell_out, cell_out] <;> omega
      · rw [rowCell_set_ne _ hka]
        exact hothers k (List.not_mem_cons_of_ne_of_not_mem (Ne.symm hka) hk)

/-! ## The converted rows -/

/-- Past its first cells a converted row is the row it was. -/
theorem rowCell_append_drop {l h : List PsNum} {k : Nat} (hk : l.length ≤ k) :
    rowCell (l ++ h.drop l.length) k = rowCell h k := by
  unfold rowCell cell
  rw [List.getD_append_right _ _ _ _ hk]
  simp [List.getD, Nat.add_sub_cancel' hk]

theorem rowCell_remapRow20_high (c : Config) {h : List PsNum} {k : Nat} (hk : 20 ≤ k) :
    rowCell (remapRow20 c h) k = rowCell h k := rowCell_append_drop hk

theorem rowCell_remapRow34_high (c : Config) {h : List PsNum} {k : Nat} (hk : 34 ≤ k) :
    rowCell (remapRow34 c h) k = rowCell h k := rowCell_append_drop hk

/-! ## The row of a mixing matrix -/

section
variable (d : Dsp) (r : RowRef) (x : List PsNum)

theorem setMat_mat_self (m : Mat) : d.setMat m (d.mat m) = d := by
  cases m <;> rfl

theorem setRow_mat : (d.setRow r x).mat r.mat = upd (d.mat r.mat) (partIx r.part) fun env => env.set r.env x :=
  setMat_same _ _ _

/-- Only the matrix of the row changes. -/
theorem setRow_eq_setMat : d.setRow r x = d.setMat r.mat ((d.setRow r x).mat r.mat) := by
  rw [setRow_mat]
  rfl

/-- Every other row of that matrix stays. -/
theorem setRow_other {part e : Nat} (h : part ≠ partIx r.part ∨ e ≠ r.env) :
    cell [] (cell [] ((d.setRow r x).mat r.mat) part) e = cell [] (cell [] (d.mat r.mat) part) e := by
  rw [setRow_mat, cell_upd]
  split_ifs with hpart
  · rw [cell_set, if_neg fun hslot => h.elim (fun hp => hp hpart.1.symm) fun he => he hslot.1.symm]
  · rfl

variable {d r}

/-- A row with cells exists, and is the one that is stored. -/
theorem setRow_row (h : d.row r ≠ []) : (d.setRow r x).row r = x := by
  have henv : r.env < (cell [] (d.mat r.mat) (partIx r.part)).length :=
    Nat.lt_of_not_le fun hout => h (cell_out _ _ _ hout)
  have hpart : partIx r.part < (d.mat r.mat).length := Nat.lt_of_not_le fun hout => by
    rw [cell_out _ _ _ hout] at henv
    exact Nat.not_lt_zero _ henv
  rw [Dsp.row, setRow_mat, cell_upd, if_pos ⟨rfl, hpart⟩, cell_set, if_pos ⟨rfl, henv⟩]

/-- Storing into a slot that does not exist changes nothing. -/
theorem setRow_absent (h : (cell [] (d.mat r.mat) (partIx r.part)).length ≤ r.env) : d.setRow r x = d := by
  have hmat : upd (d.mat r.mat) (partIx r.part) (fun env => env.set r.env x) = d.mat r.mat :=
    List.ext_getElem (upd_length _ _ _) fun k _ hk => by
      rw [← cell_in [] _ k, ← cell_in [] _ k hk, cell_upd]
      split_ifs with hpart
      · rw [← hpart.1, List.set_eq_of_length_le h]
      · rfl
  rw [Dsp.setRow, hmat, setMat_mat_self]

end

/-! ## The commands on a ready state -/

section
variable {s : State} (hs : s.ready)
include hs

theorem exec_remap20 (f : Family) (n e : Nat) (full : Bool) :
    exec (.remap20 f n e full) s = .next (s.remap (mapTo20 n) f e full) :=
  show execRemap20 f n e full s = _ from command_eq hs

theorem exec_remap34 (f : Family) (n e : Nat) (full : Bool) :
    exec (.remap34 f n e full) s = .next (s.remap (mapTo34 n) f e full) :=
  show execRemap34 f n e full s = _ from command_eq hs

theorem exec_remapVal20 (r : RowRef) : exec (.remapVal20 r) s = .next (s.remapVal (remapRow20 s.cfg) r) :=
  show execRemapVal20 r s = _ from command_eq hs

theorem exec_remapVal34 (r : RowRef) : exec (.remapVal34 r) s = .next (s.remapVal (remapRow34 s.cfg) r) :=
  show execRemapVal34 r s = _ from command_eq hs

end

/-- What a scalar remap does with a slot that does not exist, and with a row that has the cells it reads. -/
theorem remapVal_spec (s : State) (r : RowRef) {f : List PsNum → List PsNum} {h : List PsNum}
    (hf : 34 ≤ (s.dsp.row r).length → f (s.dsp.row r) = h) :
    ((cell [] (s.dsp.mat r.mat) (partIx r.part)).length ≤ r.env →
      (.next (s.remapVal f r) : Out) = .next { s with status := .ok })
    ∧ (34 ≤ (s.dsp.row r).length → ∃ d : Dsp,
      (.next (s.remapVal f r) : Out) = .next { s with dsp := d, status := .ok }
      ∧ d = s.dsp.setMat r.mat (d.mat r.mat)
      ∧ (∀ part e, (part ≠ partIx r.part ∨ e ≠ r.env) →
        cell [] (cell [] (d.mat r.mat) part) e = cell [] (cell [] (s.dsp.mat r.mat) part) e)
      ∧ d.row r = h) := by
  refine ⟨fun habsent => ?_, fun hlen => ⟨s.dsp.setRow r h, ?_, setRow_eq_setMat _ _ _,
    fun _ _ hne => setRow_other _ _ _ hne, setRow_row _ fun hnil => ?_⟩⟩
  · rw [State.remapVal, setRow_absent _ habsent]
    rfl
  · rw [State.remapVal, hf hlen]
    rfl
  · rw [hnil, List.length_nil] at hlen
    omega

/-! ## The settled statements -/

/-- Settles O32: each assignment reads cells from its own on, which the assignments before it left alone. -/
theorem remapVal20Assigns : Obligations.RemapVal20Assigns := by
  intro s r hs third third' mean copy sum4
  rw [exec_remapVal20 hs]
  refine remapVal_spec s r fun hlen => (assignAll_eq (R := (· < ·)) ?order ?reads ?len ?targets ?others).symm
  case order =>
    simp only [List.map_cons, List.map_nil]
    decide
  case reads =>
    simp only [List.forall_mem_cons, List.not_mem_nil, false_imp_iff, implies_true, and_true]
    and_intros <;> intro k hk h x <;> simp (disch := omega) only [third, third', mean, copy, sum4, rowCell_set_ne]
  case len => exact remapRow20_length s.cfg (by omega)
  case targets =>
    simp only [List.forall_mem_cons, List.not_mem_nil, false_imp_iff, implies_true, and_true]
    and_intros <;> rfl
  case others =>
    intro k hk
    simp only [List.map_cons, List.map_nil, List.mem_cons, List.not_mem_nil, or_false, not_or] at hk
    exact rowCell_remapRow20_high _ (by omega)

/-- Settles O33: each assignment reads cells up to its own, which the assignments before it left alone. -/
theorem remapVal34Assigns : Obligations.RemapVal34Assigns := by
  intro s r hs mean copy
  rw [exec_remapVal34 hs]
  refine remapVal_spec s r fun hlen => (assignAll_eq (R := (· > ·)) ?order ?reads ?len ?targets ?others).symm
  case order =>
    simp only [List.map_cons, List.map_nil]
    decide
  case reads =>
    simp only [List.forall_mem_cons, List.not_mem_nil, false_imp_iff, implies_true, and_true]
    and_intros <;> intro k hk h x <;> simp (disch := omega) only [mean, copy, rowCell_set_ne]
  case len => exact remapRow34_length s.cfg hlen
  case targets =>
    simp only [List.forall_mem_cons, List.not_mem_nil, false_imp_iff, implies_true, and_true]
    and_intros <;> rfl
  case others =>
    intro k hk
    simp only [List.map_cons, List.map_nil, List.mem_cons, List.not_mem_nil, or_false, not_or] at hk
    rcases Nat.eq_zero_or_pos k with rfl | hpos
    · rfl
    · exact rowCell_remapRow34_high _ (by omega)

/-- Settles O29: the rows of the map that the source band count selects. -/
theorem remapCommands : Obligations.RemapCommands := by
  intro s f n e full hs src row wide
  have converts : ∀ {map g}, map = some g →
      (∀ p x, (if full then 34 else 17) ≤ p.length → g (p ++ x) full = g p full) →
      wide g (remapRows map src row e full) := by
    rintro _ _ rfl happ
    exact remapRows_converts happ s.draws src e
  have passes : ∀ {map}, map = none → remapRows map src row e full = src := by
    rintro _ rfl
    rfl
  obtain ⟨to20From34, to20From10, to20Else⟩ := mapTo20_cases n
  obtain ⟨to34From20, to34From10, to34Else⟩ := mapTo34_cases n
  refine ⟨fun j b hb => sourceRow_cell s.draws src j b hb,
    ⟨_, exec_remap20 hs f n e full, fun hn => ?_, fun hn => ?_, fun h34 h17 h10 h5 => ?_⟩,
    ⟨_, exec_remap34 hs f n e full, fun hn => ?_, fun hn => ?_, fun h20 h11 h10 h5 => ?_⟩⟩
  · exact converts (to20From34 hn) fun p x => map34to20_append p x full
  · exact converts (to20From10 hn) fun p x => map10to20_append p x full
  · exact passes (to20Else h34 h17 h10 h5)
  · exact converts (to34From20 hn) fun p x => map20to34_append p x full
  · exact converts (to34From10 hn) fun p x => map10to34_append p x full
  · exact passes (to34Else h20 h11 h10 h5)

end Sys2Proof.Machine
end

section
/-! SUPPORT. The hybrid filterbank: the filter kernel on finite numbers, the samples an analysis works on, and the cells
of its result and of a synthesis. -/

namespace Sys2Proof.Machine

/-! ## The filter kernel (`43_hybrid_filterbank.md` R225) -/

/-- A complex number of finite parts. -/
def finCx (a : Rat × Rat) : Cx := ⟨.fin a.1, .fin a.2⟩

theorem foldl_add_fin (l : List Rat) (a : Rat) : (l.map PsNum.fin).foldl PsNum.add (.fin a) = .fin (a + l.sum) := by
  induction l generalizing a with
  | nil => rw [List.map_nil, List.foldl_nil, List.sum_nil, add_zero]
  | cons b l ih => rw [List.map_cons, List.foldl_cons, PsNum.add, ih, List.sum_cons, add_assoc]

/-- A sum of finite numbers is finite. -/
theorem sumNum_tab_fin {n : Nat} {f : Nat → PsNum} {g : Nat → Rat} (h : ∀ j, j < n → f j = .fin (g j)) :
    sumNum (tab n f) = .fin ((List.range n).map g).sum := by
  have hmap : tab n f = ((List.range n).map g).map PsNum.fin :=
    (List.map_congr_left fun j hj => h j (List.mem_range.mp hj)).trans List.map_map.symm
  rw [sumNum, hmap, PsNum.zero, foldl_add_fin, zero_add]

/-- The kernel on finite taps `a` and samples `v`: the centre tap, which counts as real, and six folded pairs. -/
theorem filterOut_fin {f x : List Cx} {n : Nat} {a v : Nat → Rat × Rat}
    (hf : ∀ j, j < 7 → cell Cx.zero f j = finCx (a j)) (hx : ∀ j, j < 13 → cell Cx.zero x (n + j) = finCx (v j)) :
    filterOut f x n = finCx
      ((a 6).1 * (v 6).1 + ((List.range 6).map fun j =>
        (a j).1 * ((v j).1 + (v (12 - j)).1) - (a j).2 * ((v j).2 - (v (12 - j)).2)).sum,
      (a 6).1 * (v 6).2 + ((List.range 6).map fun j =>
        (a j).1 * ((v j).2 + (v (12 - j)).2) + (a j).2 * ((v j).1 - (v (12 - j)).1)).sum) := by
  have hmirror : ∀ j, j < 6 → cell Cx.zero x (n + 12 - j) = finCx (v (12 - j)) := fun j hj => by
    rw [Nat.add_sub_assoc (by omega), hx _ (by omega)]
  unfold filterOut
  dsimp only
  rw [hf 6 (by omega), hx 6 (by omega), sumNum_tab_fin fun j hj => ?re, sumNum_tab_fin fun j hj => ?im]
  case re | im =>
    rw [hf j (by omega), hx j (by omega), hmirror j hj]
    rfl
  rfl

/-- Thirteen terms are the one in the middle and six pairs, each of a term and its mirror image. -/
theorem sum_range_thirteen (g : Nat → Rat) :
    ((List.range 13).map g).sum = g 6 + ((List.range 6).map fun j => g j + g (12 - j)).sum := by
  simp only [List.range_succ, List.range_zero, List.nil_append, List.cons_append, List.map_cons, List.map_nil,
    List.sum_cons, List.sum_nil]
  ring

/-- Settles O35: the folded kernel takes the thirteen taps in pairs, `j` with `12 - j`. -/
theorem filterIsConvolution : Obligations.FilterIsConvolution := by
  intro f x n hreal toCx tap term
  have hlow : ∀ j, j < 7 → tap j = f j := fun j hj => if_pos (by omega)
  have hmirror : ∀ j, j < 6 → tap (12 - j) = ((f j).1, -(f j).2) := fun j hj => by
    rw [show tap (12 - j) = _ from if_neg (by omega), Nat.sub_sub_self (by omega)]
  have hcentre : term 6 = ((f 6).1 * (x (n + 6)).1, (f 6).1 * (x (n + 6)).2) := by
    simp only [term, hlow 6 (by omega), hreal, zero_mul, sub_zero, add_zero]
  rw [filterOut_fin (a := f) (v := fun j => x (n + j)) ?taps ?samples, sum_range_thirteen, sum_range_thirteen, hcentre]
  case taps => intro j hj; rw [cell_tab, if_pos hj]; rfl
  case samples => intro j hj; rw [cell_tab, if_pos (by omega)]; rfl
  congr 4 <;>
  · refine List.map_congr_left fun j hj => ?_
    have hj6 := List.mem_range.mp hj
    simp only [term, hlow j (by omega), hmirror j hj6]
    ring

/-! ## The samples of an analysis -/

/-- Sample `t` of class `c` in an analysis: six of history, then the rows of `L` (`43_hybrid_filterbank.md` R221). -/
def loadedSample (inBuf : List (List Cx)) (l : List (List (List PsNum))) (c t : Nat) : Cx :=
  if t < 6 then cellC inBuf c t else hostSample l (t - 6) c

section
variable {inBuf : List (List Cx)} {l : List (List (List PsNum))} {c : Nat} (hc : c < inBufClasses)
include hc

theorem cell_loadInBuf : cell [] (loadInBuf inBuf l) c = tab 44 (loadedSample inBuf l c) :=
  (cell_tab _ _ _ _).trans (if_pos hc)

/-- The history of the next frame: the last six of the 32 rows (R226, D31). -/
theorem cellC_saveHistory {j : Nat} (hj : j < inBufHist) :
    cellC (saveHistory (loadInBuf inBuf l)) c j = hostSample l (26 + j) c := by
  have hj6 : j < 6 := hj
  have hlen : j < inBufLen := Nat.lt_trans hj (by decide)
  have hrow : cell [] (saveHistory (loadInBuf inBuf l)) c = tab inBufLen fun t =>
      if t < inBufHist then cellC (loadInBuf inBuf l) c (32 + t) else cellC (loadInBuf inBuf l) c t :=
    (cell_tab _ _ _ _).trans (if_pos hc)
  rw [cellC, hrow, cell_tab, if_pos hlen, if_pos hj, cellC, cell_loadInBuf hc, cell_tab, if_pos (by omega),
    loadedSample, if_neg (by omega), show 32 + j - 6 = 26 + j by omega]

end

theorem twoBandCentre_tab (c : Config) (x : Nat → Cx) {n : Nat} (hn : n < 32) :
    twoBandCentre c (tab 44 x) n = Cx.scale (cell .zero c.tables.g1Q2 6) (x (n + 6)) := by
  rw [twoBandCentre, cell_tab, if_pos (by omega)]

theorem twoBandSide_tab (c : Config) (x : Nat → Cx) {n : Nat} (hn : n < 32) :
    twoBandSide c (tab 44 x) n
      = ((Cx.scale (cell .zero c.tables.g1Q2 1) ((x (n + 1)).add (x (n + 11)))).add
        (Cx.scale (cell .zero c.tables.g1Q2 3) ((x (n + 3)).add (x (n + 9))))).add
        (Cx.scale (cell .zero c.tables.g1Q2 5) ((x (n + 5)).add (x (n + 7)))) := by
  have hread : ∀ m, m < 44 → cell Cx.zero (tab 44 x) m = x m := fun m hm => by rw [cell_tab, if_pos hm]
  simp (disch := omega) only [twoBandSide, hread]
  rfl

/-! ## Unsplit subbands (R224, R231) -/

/-- The first unsplit subband. -/
def firstUnsplit (is34 : Bool) : Nat := if is34 then 5 else 3

/-- How far the hybrid index of an unsplit subband lies above its QMF index. -/
def unsplitShift (is34 : Bool) : Nat := if is34 then 27 else 7

theorem analysisOut_unsplit (c : Config) {is34 : Bool} (inBuf : List (List Cx)) (l : List (List (List PsNum))) {q : Nat}
    (n : Nat) (hq : firstUnsplit is34 ≤ q) :
    analysisOut c is34 inBuf l (q + unsplitShift is34) n = hostSample l n q := by
  cases is34 with
  | false =>
    have hq3 : 3 ≤ q := hq
    exact if_neg (show ¬q + 7 < 10 by omega)
  | true =>
    have hq5 : 5 ≤ q := hq
    exact if_neg (show ¬q + 27 < 32 by omega)

theorem synthesisOut_unsplit (c : Config) {is34 : Bool} (inp : List (List Cx)) (n : Nat) {q : Nat}
    (hq : firstUnsplit is34 ≤ q) : synthesisOut c is34 inp n q = cellC inp (q + unsplitShift is34) n := by
  obtain ⟨k, rfl⟩ := Nat.exists_eq_add_of_le' hq
  cases is34 <;> rfl

theorem unsplit_lt_nrBands {is34 : Bool} {q : Nat} (hq : q < qmfBands) : q + unsplitShift is34 < nrBands is34 := by
  cases is34 <;> exact Nat.add_lt_add_right hq _

/-! ## Split subbands of 34-band resolution (R223) -/

/-- The 32 subbands are the outputs of the filters of the five classes, one class after the other. -/
theorem split34_filters (c : Config) {inBuf : List (List Cx)} (n : Nat) {x : Nat → Nat → Cx}
    (hx : ∀ cl, cl < 5 → cell [] inBuf cl = tab 44 (x cl)) :
    let y := fun (f : List (List Cx)) q cl => filterOut (cell [] f q) (tab 44 (x cl)) n
    (∀ q, q < 12 → split34 c inBuf q n = Cx.rnd c (y c.tables.f34_0_12 q 0))
      ∧ (∀ q, q < 8 → split34 c inBuf (12 + q) n = Cx.rnd c (y c.tables.f34_1_8 q 1))
      ∧ (∀ q, q < 4 → split34 c inBuf (20 + q) n = Cx.rnd c (y c.tables.f34_2_4 q 2)
        ∧ split34 c inBuf (24 + q) n = Cx.rnd c (y c.tables.f34_2_4 q 3)
        ∧ split34 c inBuf (28 + q) n = Cx.rnd c (y c.tables.f34_2_4 q 4)) := by
  refine ⟨fun q hq => ?_, fun q hq => ?_, fun q hq => ⟨?_, ?_, ?_⟩⟩ <;>
    simp (disch := omega) only [split34, if_pos, if_neg, Nat.add_sub_cancel_left, hx]

/-! ## Sample buffers -/

/-- A sample of a buffer outside its shape reads as zero. -/
theorem cellN3_out {n m k : Nat} {x : List (List (List PsNum))} (h : shape3 n m k x = true) {p r q : Nat}
    (hout : ¬(p < n ∧ r < m ∧ q < k)) : cellN3 x p r q = .zero := by
  unfold cellN3
  by_cases hp : p < n
  · have hpart := shape3_cell h hp
    by_cases hr : r < m
    · exact cell_out _ _ _ ((shape2_cell hpart hr).trans_le (Nat.le_of_not_lt fun hq => hout ⟨hp, hr, hq⟩))
    · rw [cell_out [] _ r ((shape2_iff.mp hpart).1.trans_le (Nat.le_of_not_lt hr))]
      rfl
  · rw [cell_out [] _ p ((shape3_iff.mp h).1.trans_le (Nat.le_of_not_lt hp))]
    rfl

/-! ## The synthesis (R228) -/

section
variable (c : Config) (is34 : Bool) (inp : List (List Cx)) (dst : List (List (List PsNum)))

/-- A sample of the destination after a synthesis: computed in rows 0 to 31, left in the others. -/
theorem cellN3_synthesis {p r q : Nat} (hp : p < 2) (hr : r < qmfRows) (hq : q < qmfBands) :
    cellN3 (synthesis c is34 inp dst) p r q = if r < numSlots then
      (if p = 0 then (synthesisOut c is34 inp r q).re else (synthesisOut c is34 inp r q).im) else cellN3 dst p r q := by
  rw [cellN3, synthesis, cell_tab, if_pos hp, cell_tab, if_pos hr, cell_tab, if_pos hq]
  refine ite_congr rfl (fun hrow => ?_) fun _ => rfl
  rw [cellC, cell_tab, if_pos hrow, cell_tab, if_pos hq]

theorem hostSample_synthesis {n q : Nat} (hn : n < numSlots) (hq : q < qmfBands) :
    hostSample (synthesis c is34 inp dst) n q = synthesisOut c is34 inp n q := by
  have hrow : n < qmfRows := Nat.lt_trans hn (by decide)
  rw [hostSample, cellN3_synthesis c is34 inp dst Nat.two_pos hrow hq, if_pos hn,
    cellN3_synthesis c is34 inp dst Nat.one_lt_two hrow hq, if_pos hn]
  rfl

theorem cellN3_synthesis_rest (hdst : hostShape dst = true) (p : Nat) {r : Nat} (hr : numSlots ≤ r) (q : Nat) :
    cellN3 (synthesis c is34 inp dst) p r q = cellN3 dst p r q := by
  by_cases hin : p < 2 ∧ r < qmfRows ∧ q < qmfBands
  · obtain ⟨hp, hrow, hq⟩ := hin
    rw [cellN3_synthesis c is34 inp dst hp hrow hq, if_neg (Nat.not_lt.mpr hr)]
  · rw [cellN3_out hdst hin, cellN3_out (synthesis_shape c is34 inp dst) hin]

end

/-! ## The commands on a ready state -/

section
variable {s : State} (hs : s.ready)
include hs

theorem exec_hybridAnalysis (b : Bool) : exec (.hybridAnalysis b) s = .next ((s.analysis b).withStatus .ok) :=
  show execHybridAnalysis b s = _ from execHybridAnalysis_eq hs b

theorem exec_hybridSynthesis (x : HybBuf) (b : Bool) (d : HostBuf) :
    exec (.hybridSynthesis x b d) s = .next ((s.synthesis x b d).withStatus .ok) :=
  show execHybridSynthesis x b d s = _ from execHybridSynthesis_eq hs x b d

end

section
variable (s : State) {b : Bool} {n : Nat} (hn : n < numSlots)
include hn

theorem cellC_analysis_lbuf {k : Nat} (hk : k < nrBands b) :
    cellC (s.analysis b).work.lbuf k n
      = analysisOut s.cfg b (loadInBuf s.dsp.inBuf s.host.bufL) s.host.bufL k n :=
  hybRows_cell _ _ _ _ _ hk hn

theorem cellC_analysis_split20 {k : Nat} (hk : k < 10) :
    cellC (s.analysis false).work.lbuf k n = split20 s.cfg (loadInBuf s.dsp.inBuf s.host.bufL) k n :=
  (cellC_analysis_lbuf s hn (Nat.lt_trans hk (by decide))).trans (if_pos hk)

theorem cellC_analysis_split34 {k : Nat} (hk : k < 32) :
    cellC (s.analysis true).work.lbuf k n = split34 s.cfg (loadInBuf s.dsp.inBuf s.host.bufL) k n :=
  (cellC_analysis_lbuf s hn (Nat.lt_trans hk (by decide))).trans (if_pos hk)

theorem cellC_analysis_unsplit {q : Nat} (hlow : firstUnsplit b ≤ q) (hq : q < qmfBands) :
    cellC (s.analysis b).work.lbuf (q + unsplitShift b) n = hostSample s.host.bufL n q := by
  rw [cellC_analysis_lbuf s hn (unsplit_lt_nrBands hq), analysisOut_unsplit _ _ _ _ hlow]

end

/-! ## The settled statements -/

/-- Settles O34, cell by cell: the split subbands of each resolution over the loaded samples, the unsplit ones, the
history and the rows from `NR_BANDS` on. -/
theorem hybridAnalysisResult : Obligations.HybridAnalysisResult := by
  intro s b hs x y folded g centre side
  let loaded := loadInBuf s.dsp.inBuf s.host.bufL
  have hclass : ∀ c, c < 5 → cell [] loaded c = tab 44 (x c) := fun c hc => cell_loadInBuf hc
  refine ⟨_, exec_hybridAnalysis hs b, ⟨fun _ => rfl, fun _ _ _ => rfl, fun _ _ _ => rfl⟩, rfl,
    fun n q hn hq => ⟨?unsplit20, ?unsplit34⟩, fun n hn hb => ?split20, fun n hn hb => ?split34,
    fun c j hc hj => cellC_saveHistory hc hj, fun k n hk hlen => ?rest⟩
  case unsplit20 | unsplit34 =>
    rintro rfl hlow
    exact cellC_analysis_unsplit s hn hlow hq
  case split20 =>
    subst hb
    intro out stored
    have hout : ∀ k, k < 10 → out k = split20 s.cfg loaded k n := fun k hk => cellC_analysis_split20 s hn hk
    have hfolded : ∀ q, Cx.rndIf s.cfg.round.fold s.cfg
        (filterOut (cell [] s.cfg.tables.f20_0_8 q) (cell [] loaded 0) n) = folded q n := fun q => by
      rw [hclass 0 (by decide)]
    have hcentre : ∀ c, c < 5 → twoBandCentre s.cfg (cell [] loaded c) n = centre c n := fun c hc => by
      rw [hclass c hc]
      exact twoBandCentre_tab s.cfg (x c) hn
    have hside : ∀ c, c < 5 → twoBandSide s.cfg (cell [] loaded c) n = side c n := fun c hc => by
      rw [hclass c hc]
      exact twoBandSide_tab s.cfg (x c) hn
    simp (disch := decide) only [hout, split20, hfolded, hcentre, hside, stored, and_self]
  case split34 =>
    subst hb
    intro out
    have hout : ∀ k, k < 32 → out k = split34 s.cfg loaded k n := fun k hk => cellC_analysis_split34 s hn hk
    obtain ⟨houtput0, houtput1, houtputs⟩ := split34_filters s.cfg n hclass
    refine ⟨fun q hq => ?_, fun q hq => ?_, fun q hq => ?_⟩
    · rw [hout q (by omega), houtput0 q hq]
    · rw [hout (12 + q) (by omega), houtput1 q hq]
    · rw [hout (20 + q) (by omega), hout (24 + q) (by omega), hout (28 + q) (by omega)]
      exact houtputs q hq
  case rest => exact congrArg (cell Cx.zero · n) (hybRows_rest _ _ _ _ hk hlen)

/-- Settles O36, cell by cell: rows 32 and up, the unsplit subbands, and the split ones, where the model's `foldSum`
over the parts is the fold over their indices, unrolled. -/
theorem hybridSynthesisResult : Obligations.HybridSynthesisResult := by
  intro s x b d hs hshape v sum
  refine ⟨_, exec_hybridSynthesis hs x b d, fun p r q hr => cellN3_synthesis_rest _ _ _ _ hshape p hr q,
    fun n q hn hq => ?unsplit, fun n hn hb => ?split20, fun n hn hb => ?split34⟩
  case unsplit =>
    rw [hostSample_synthesis _ _ _ _ hn hq]
    exact ⟨by rintro rfl hlow; exact synthesisOut_unsplit _ _ n hlow,
      by rintro rfl hlow; exact synthesisOut_unsplit _ _ n hlow⟩
  case split20 | split34 =>
    subst hb
    and_intros <;> exact hostSample_synthesis _ _ _ _ hn (by decide)

/-- Settles O37: the analysis moves an unsplit subband to a hybrid one, and the synthesis moves it back. -/
theorem analysisThenSynthesis : Obligations.AnalysisThenSynthesis := by
  intro s b d hs
  have hready : ((s.analysis b).withStatus .ok).ready := hs
  refine ⟨((s.analysis b).withStatus .ok).synthesis .lbuf b d |>.withStatus .ok, ?run, fun p n q hp hn hq hlow => ?_⟩
  case run => rw [execAll_cons_of_next (exec_hybridAnalysis hs b), execAll_singleton, exec_hybridSynthesis hready]
  have hsample : hostSample ((((s.analysis b).withStatus .ok).synthesis .lbuf b d).host.buf d) n q
      = hostSample s.host.bufL n q := by
    rw [State.synthesis, withHost_host, setBuf_same, hostSample_synthesis _ _ _ _ hn hq,
      synthesisOut_unsplit _ _ n hlow]
    exact cellC_analysis_unsplit s hn hlow hq
  obtain ⟨hre, him⟩ := Cx.mk.inj hsample
  obtain rfl | rfl : p = 0 ∨ p = 1 := by omega
  · exact hre
  · exact him

end Sys2Proof.Machine
end

section
/-! SUPPORT. The transient gain of the decorrelator: rounding to a binary format keeps the reals in 0..1 there, the gain
in every format that does so, and the detector over the reals. -/

namespace Sys2Proof

/-! ## Finite numbers -/

theorem PsNum.max_fin (a b : Rat) : PsNum.max (.fin a) (.fin b) = .fin (Max.max a b) := by
  rw [PsNum.max, PsNum.gt]
  by_cases h : a > b
  · rw [if_pos (decide_eq_true h), max_eq_left h.le]
  · rw [if_neg (by simpa using h), max_eq_right (not_lt.mp h)]

/-! ## Rounding a real in 0..1 (`00_scope.md` R12) -/

/-- Rounding takes the reals in 0..1 to numbers in 0..1. -/
def NumFormat.KeepsUnit (f : NumFormat) : Prop :=
  ∀ q : Rat, 0 ≤ q → q ≤ 1 → ∃ r : Rat, f.rnd q = .fin r ∧ 0 ≤ r ∧ r ≤ 1

/-- A quotient of at most `k` is rounded to at most `k`: it is rounded up from below `k` only. -/
theorem divNearestEven_le {n d k : Nat} (hd : 0 < d) (h : n ≤ k * d) : divNearestEven n d ≤ k := by
  have hq : n / d ≤ k := Nat.div_le_of_le_mul (Nat.mul_comm k d ▸ h)
  have hup : n % d ≠ 0 → n / d + 1 ≤ k := fun hr => by
    refine Nat.lt_of_le_of_ne hq fun heq => hr ?_
    have hn := Nat.div_add_mod n d
    rw [heq, Nat.mul_comm] at hn
    omega
  unfold divNearestEven
  dsimp only
  split_ifs
  · exact hq
  · exact hup (by omega)
  · exact hq
  · exact hup (by omega)

theorem ratExponent_nonpos {n d : Nat} (h : n ≤ d) : ratExponent n d ≤ 0 := by
  have hlog : Nat.log2 n ≤ Nat.log2 d := by
    rw [Nat.log2_eq_log_two, Nat.log2_eq_log_two]
    exact Nat.log_mono_right h
  unfold ratExponent
  dsimp only
  split_ifs <;> omega

theorem ulpExponent_nonpos {prec n d : Nat} {emin : Int} (hp : 1 ≤ prec) (he : emin ≤ 0) (h : n ≤ d) :
    ulpExponent prec emin n d ≤ 0 := by
  have hexp : Max.max (ratExponent n d) emin ≤ 0 := max_le (ratExponent_nonpos h) he
  unfold ulpExponent
  omega

/-- A unit in the last place of `2^u` with `u ≤ 0` goes `2^(-u)` times into 1. -/
theorem nearestUlps_le {u : Int} {n d : Nat} (hu : u ≤ 0) (hd : 0 < d) (h : n ≤ d) :
    nearestUlps u n d ≤ 2 ^ (-u).toNat := by
  unfold nearestUlps
  split_ifs with h0
  · obtain rfl : u = 0 := by omega
    exact divNearestEven_le (by simpa using hd) (by simpa using h)
  · exact divNearestEven_le hd (Nat.mul_comm n _ ▸ Nat.mul_le_mul_left _ h)

theorem scaled_unit {k : Nat} {u : Int} (hu : u ≤ 0) (hk : k ≤ 2 ^ (-u).toNat) :
    0 ≤ scaled k u ∧ scaled k u ≤ 1 := by
  have hquot : scaled k u = (k : Rat) / 2 ^ (-u).toNat := by
    unfold scaled
    split_ifs with h0
    · obtain rfl : u = 0 := by omega
      simp
    · rw [Rat.mkRat_eq_div]
      push_cast
      rfl
  rw [hquot]
  exact ⟨by positivity, div_le_one_of_le₀ (by exact_mod_cast hk) (by positivity)⟩

theorem one_lt_scaled {u : Int} (hu : 0 < u) : 1 < scaled 1 u := by
  unfold scaled
  rw [if_pos (by omega), one_mul]
  exact_mod_cast one_lt_pow₀ (a := (2 : Int)) (by decide) (by omega)

/-- A conforming binary format keeps 0..1: 1 is a multiple of the unit in the last place, and no overflow. -/
theorem keepsUnit_binary {prec : Nat} {emin emax : Int} (h : (NumFormat.binary prec emin emax).wf = true) :
    (NumFormat.binary prec emin emax).KeepsUnit := by
  simp only [NumFormat.wf, Bool.and_eq_true, decide_eq_true_eq] at h
  obtain ⟨⟨hprec, hemin⟩, hemax⟩ := h
  intro q h0 h1
  by_cases hq : q = 0
  · exact ⟨0, by rw [NumFormat.rnd, if_pos hq], le_refl 0, zero_le_one⟩
  have hle : q.num.natAbs ≤ q.den := by
    have hnum : q.num ≤ q.den := Rat.num_le_denom_iff.mpr h1
    have := Rat.num_nonneg.mpr h0
    omega
  have hu : ulpExponent prec emin q.num.natAbs q.den ≤ 0 := ulpExponent_nonpos hprec hemin hle
  obtain ⟨hv0, hv1⟩ := scaled_unit hu (nearestUlps_le hu q.den_pos hle)
  refine ⟨_, ?_, hv0, hv1⟩
  simp only [NumFormat.rnd, if_neg hq, if_neg (not_lt.mpr h0),
    if_pos (lt_of_le_of_lt hv1 (one_lt_scaled (u := emax + 1) (by omega)))]

theorem keepsUnit_exact : NumFormat.exact.KeepsUnit := fun q h0 h1 => ⟨q, rfl, h0, h1⟩

theorem keepsUnit_of_wf {f : NumFormat} (h : f.wf = true) (hf : ∀ id, f ≠ .custom id) : f.KeepsUnit := by
  cases f with
  | exact => exact keepsUnit_exact
  | binary prec emin emax => exact keepsUnit_binary h
  | custom id => exact absurd rfl (hf id)

end Sys2Proof

namespace Sys2Proof.Machine

/-! ## The gain (`44_decorrelation.md` R245, R246) -/

/-- Where the denominator is a number, the gain is the rounded quotient of a real in 0..1, or 1. -/
theorem transientGain_unit {c : Config} {t : Transient} {a d : Rat} (hc : c.fmt.KeepsUnit) (hs : t.smooth = .fin a)
    (ha : 0 ≤ a) (hd : rnd c (transientImpact.mul t.diff) = .fin d) :
    ∃ q : Rat, transientGain c t = .fin q ∧ 0 ≤ q ∧ q ≤ 1 ∧ (d ≤ a → q = 1) := by
  unfold transientGain
  dsimp only
  rw [hd, hs]
  by_cases hlt : a < d
  · have hpos : 0 < d := lt_of_le_of_lt ha hlt
    obtain ⟨r, hr, hr0, hr1⟩ := hc (a / d) (div_nonneg ha hpos.le) (div_le_one_of_le₀ hlt.le hpos.le)
    refine ⟨r, ?_, hr0, hr1, fun hle => absurd hlt (not_lt.mpr hle)⟩
    rw [PsNum.gt, if_pos (decide_eq_true hlt), PsNum.div, if_neg hpos.ne']
    exact hr
  · exact ⟨1, by rw [PsNum.gt, if_neg (by simpa using hlt)]; rfl, zero_le_one, le_refl 1, fun _ => rfl⟩

/-- Settles O43: `keepsUnit_of_wf` for the formats, `transientGain_unit` for the gain. -/
theorem gainEveryFormat : Obligations.GainEveryFormat :=
  ⟨fun _ hf hcustom => keepsUnit_of_wf hf hcustom, fun _ _ _ _ hc hs ha hd => transientGain_unit hc hs ha hd⟩

/-! ## The detector over the reals (R243 to R246) -/

/-- The state of the detector is three non-negative reals. -/
def Transient.NonNeg (t : Transient) : Prop :=
  ∃ a b d : Rat, t = ⟨.fin a, .fin b, .fin d⟩ ∧ 0 ≤ a ∧ 0 ≤ b ∧ 0 ≤ d

section
variable {c : Config} {t : Transient} (hc : c.fmt = .exact)
include hc

theorem rnd_exact (x : PsNum) : rnd c x = x := by
  cases x with
  | fin q => rw [rnd, hc]; rfl
  | inf b => rfl
  | nan => rfl

/-- A slot keeps the state non-negative: the peak is at least the power, and each smoother moves a quarter of the way to
a non-negative value. -/
theorem transientSlot_nonNeg {f p : Rat} (hf : c.peakDecayFactor = .fin f) (ht : t.NonNeg) (hp : 0 ≤ p) :
    (transientSlot c t (.fin p)).NonNeg := by
  obtain ⟨a, b, d, rfl, ha, hb, hd⟩ := ht
  have hpeak : p ≤ max (f * a) p := le_max_right _ _
  refine ⟨max (f * a) p, b + 1 / 4 * (p - b), d + 1 / 4 * (max (f * a) p - p - d), ?_, hp.trans hpeak, ?_, ?_⟩
  · simp only [transientSlot, rnd_exact hc, hf, PsNum.mul, PsNum.max_fin, PsNum.sub, PsNum.add, aSmooth]
  · linarith
  · linarith

theorem transientGain_nonNeg (ht : t.NonNeg) : ∃ q : Rat, transientGain c t = .fin q ∧ 0 ≤ q ∧ q ≤ 1 := by
  obtain ⟨a, b, d, rfl, -, hb, -⟩ := ht
  obtain ⟨q, hq, h0, h1, -⟩ := transientGain_unit (t := ⟨.fin a, .fin b, .fin d⟩) (hc ▸ keepsUnit_exact) rfl hb
    (rnd_exact hc _)
  exact ⟨q, hq, h0, h1⟩

/-- The slots keep the state non-negative, which bounds the gain of each. -/
theorem transientBand_nonNeg {f : Rat} {ps : List Rat} (hf : c.peakDecayFactor = .fin f) (ht : t.NonNeg)
    (hps : ∀ p ∈ ps, 0 ≤ p) :
    (∀ g ∈ (transientBand c t (ps.map PsNum.fin)).2, ∃ q : Rat, g = .fin q ∧ 0 ≤ q ∧ q ≤ 1)
      ∧ (transientBand c t (ps.map PsNum.fin)).1.NonNeg := by
  induction ps generalizing t with
  | nil => exact ⟨fun g hg => absurd hg List.not_mem_nil, ht⟩
  | cons p ps ih =>
    obtain ⟨hp, hrest⟩ := List.forall_mem_cons.mp hps
    have hslot := transientSlot_nonNeg hc hf ht hp
    obtain ⟨hgains, hstate⟩ := ih hslot hrest
    exact ⟨List.forall_mem_cons.mpr ⟨transientGain_nonNeg hc hslot, hgains⟩, hstate⟩

end

/-- Settles O42: `transientBand_nonNeg`, by induction over the slots. -/
theorem transientBounds : Obligations.TransientBounds := fun _ _ a b d _ hc hf _ ha hb hd hps =>
  transientBand_nonNeg hc hf ⟨a, b, d, rfl, ha, hb, hd⟩ hps

end Sys2Proof.Machine
end

section
/-! SUPPORT. DECORRELATE on the state, cell by cell: what it starts from after a change of resolution, the delay lines, the
detector, the result, and what it leaves unchanged. -/

namespace Sys2Proof.Machine

/-! ## The change of resolution (`44_decorrelation.md` R241) -/

/-- The DSP state DECORRELATE starts from: its decorrelation part is zeroed on a change of resolution. -/
def State.decorrelationStart (s : State) (b : Bool) : Dsp :=
  if b != s.params.is34bandsOld then s.dsp.resetDecorrelation else s.dsp

theorem decorrelationStart_eq (s : State) (b : Bool) :
    s.decorrelationStart b = if b = s.params.is34bandsOld then s.dsp else s.dsp.resetDecorrelation := by
  unfold State.decorrelationStart
  by_cases h : b = s.params.is34bandsOld <;> simp [h]

/-- A cell of an array of equal cells, of any length. -/
theorem cell_map_const {α β : Type} (z : β) (l : List α) (k : Nat) : cell z (l.map fun _ => z) k = z := by
  rw [cell, List.getD_eq_getElem?_getD, List.getElem?_map]
  cases l[k]? <;> rfl

/-- A computed array that keeps a cell of an array no longer than itself. -/
theorem cell_tab_kept {α : Type} {z : α} {n k : Nat} {f : Nat → α} {l : List α} (hlen : l.length ≤ n)
    (hf : f k = cell z l k) : cell z (tab n f) k = cell z l k := by
  rw [cell_tab]
  split_ifs with h
  · exact hf
  · exact (cell_out _ _ _ (hlen.trans (Nat.le_of_not_lt h))).symm

theorem cellC_zeroed (l : List (List Cx)) (k j : Nat) :
    cellC (l.map fun row => row.map fun _ => Cx.zero) k j = Cx.zero := by
  rw [cellC, cell_map []]
  split_ifs
  · exact cell_map_const _ _ _
  · rfl

section
variable (s : State) (b : Bool)

theorem cellC_start_delay (k j : Nat) : cellC (s.decorrelationStart b).delay k j
    = if b = s.params.is34bandsOld then cellC s.dsp.delay k j else Cx.zero := by
  rw [decorrelationStart_eq]
  split_ifs
  · rfl
  · exact cellC_zeroed _ _ _

theorem cellC_start_apDelay (k m j : Nat) : cellC (cell [] (s.decorrelationStart b).apDelay k) m j
    = if b = s.params.is34bandsOld then cellC (cell [] s.dsp.apDelay k) m j else Cx.zero := by
  rw [decorrelationStart_eq]
  split_ifs
  · rfl
  · rw [Dsp.resetDecorrelation, cell_map []]
    split_ifs
    · exact cellC_zeroed _ _ _
    · rfl

/-- The detector of parameter band `i` as a DSP state holds it (`10_state.md` R40). -/
def Dsp.transient (d : Dsp) (i : Nat) : Transient :=
  ⟨cell .zero d.peakDecayNrg i, cell .zero d.powerSmooth i, cell .zero d.peakDecayDiffSmooth i⟩

theorem transient_start (i : Nat) : (s.decorrelationStart b).transient i
    = if b = s.params.is34bandsOld then s.dsp.transient i else ⟨.zero, .zero, .zero⟩ := by
  rw [decorrelationStart_eq]
  split_ifs
  · rfl
  · simp only [Dsp.transient, Dsp.resetDecorrelation, cell_map_const]

theorem start_delay_length : (s.decorrelationStart b).delay.length = s.dsp.delay.length := by
  rw [decorrelationStart_eq]
  split_ifs
  · rfl
  · exact List.length_map _

theorem start_shapes (h : s.dsp.Shapes s.cfg) : (s.decorrelationStart b).Shapes s.cfg := by
  rw [decorrelationStart_eq]
  split_ifs
  · exact h
  · exact h.resetDecorrelation

end

/-! ## The cells DECORRELATE leaves -/

theorem nrAllpassBands_le (is34 : Bool) : nrAllpassBands is34 ≤ 50 := by cases is34 <;> decide

theorem nrAllpassBands_le_nrBands (is34 : Bool) : nrAllpassBands is34 ≤ nrBands is34 := by cases is34 <;> decide

theorem nrParBands_le (is34 : Bool) : nrParBands is34 ≤ 34 := by cases is34 <;> decide

section
variable (s : State) (x : HybBuf) {b : Bool} {k n i : Nat}

/-- The delay line of a subband below `NR_BANDS` (R247). -/
theorem decorrelate_delay (hk : k < nrBands b) : cell [] (s.decorrelate x b).dsp.delay k
    = shiftDelay s.cfg (cell [] (s.decorrelationStart b).delay k) (cell [] (s.work.buf x) k) :=
  (cell_tab _ _ _ _).trans ((if_pos (hk.trans_le (nrBands_le b))).trans (if_pos hk))

theorem decorrelate_delay_rest (hk : nrBands b ≤ k) (hlen : (s.decorrelationStart b).delay.length ≤ hybMax) :
    cell [] (s.decorrelate x b).dsp.delay k = cell [] (s.decorrelationStart b).delay k :=
  cell_tab_kept hlen (if_neg (Nat.not_lt.mpr hk))

/-- The cascade of an all-pass subband (R248, R250). -/
def State.cascade (s : State) (x : HybBuf) (b : Bool) (k : Nat) : List Cx × List (List Cx) :=
  allpassRow s.cfg b k (cell [] (s.decorrelate x b).dsp.delay k) (cell [] (s.decorrelationStart b).apDelay k)

theorem decorrelate_apDelay (hk : k < nrAllpassBands b) :
    cell [] (s.decorrelate x b).dsp.apDelay k = (s.cascade x b k).2 := by
  refine (cell_tab _ _ _ _).trans ((if_pos (hk.trans_le (nrAllpassBands_le b))).trans ((if_pos hk).trans ?_))
  exact congrArg Prod.snd ((cell_tab _ _ _ _).trans (if_pos hk))

theorem decorrelate_apDelay_rest (hk : nrAllpassBands b ≤ k) (hlen : (s.decorrelationStart b).apDelay.length ≤ 50) :
    cell [] (s.decorrelate x b).dsp.apDelay k = cell [] (s.decorrelationStart b).apDelay k :=
  cell_tab_kept hlen (if_neg (Nat.not_lt.mpr hk))

/-- The detector of parameter band `i` over the 32 slots (R242 to R245). -/
def State.detector (s : State) (x : HybBuf) (b : Bool) (i : Nat) : Transient × List PsNum :=
  bandTransient s.cfg b (s.work.buf x) (s.decorrelationStart b) i

theorem decorrelate_transient (hi : i < nrParBands b) :
    (s.decorrelate x b).dsp.transient i = (s.detector x b i).1 := by
  unfold Dsp.transient State.decorrelate decorrelate
  simp only [withDsp_dsp, cell_tab, if_pos hi, if_pos (hi.trans_le (nrParBands_le b))]
  rfl

theorem decorrelate_transient_rest (hi : nrParBands b ≤ i) (h34 : i < 34) :
    (s.decorrelate x b).dsp.transient i = (s.decorrelationStart b).transient i := by
  unfold Dsp.transient State.decorrelate decorrelate
  simp only [withDsp_dsp, cell_tab, if_neg (Nat.not_lt.mpr hi), if_pos h34]
  rfl

/-- The result from `NR_BANDS` on is not written (R240). -/
theorem decorrelate_rbuf_rest (hk : nrBands b ≤ k) (hlen : s.work.rbuf.length ≤ hybMax) :
    cell [] (s.decorrelate x b).work.rbuf k = cell [] s.work.rbuf k :=
  cell_tab_kept hlen (if_neg (Nat.not_lt.mpr hk))

/-- A sample of the result is the sample of the subband's class times the gain of its parameter band. -/
theorem decorrelate_rbuf (hk : k < nrBands b) (hn : n < numSlots) (hi : kToI s.cfg b k < nrParBands b) :
    ∃ allpass, cellC (s.decorrelate x b).work.rbuf k n
        = Cx.rnd s.cfg (Cx.scale (cell .one (s.detector x b (kToI s.cfg b k)).2 n)
          (delayedSample s.cfg b k n (cell [] (s.decorrelate x b).dsp.delay k) allpass))
      ∧ (k < nrAllpassBands b → allpass = (s.cascade x b k).1) := by
  unfold State.decorrelate decorrelate
  simp only [withDsp_work, withWork_work, withDsp_dsp]
  rw [hybRows_cell _ _ _ _ _ hk hn, cell_tab _ (nrParBands b), if_pos hi]
  refine ⟨_, rfl, fun h => ?_⟩
  rw [cell_tab _ (nrAllpassBands b), if_pos h]
  rfl

/-- A sample of the result in the all-pass range (R250). -/
theorem decorrelate_rbuf_allpass (hk : k < nrAllpassBands b) (hn : n < numSlots)
    (hi : kToI s.cfg b k < nrParBands b) : cellC (s.decorrelate x b).work.rbuf k n
      = Cx.rnd s.cfg (Cx.scale (cell .one (s.detector x b (kToI s.cfg b k)).2 n)
        (cell Cx.zero (s.cascade x b k).1 n)) := by
  obtain ⟨_, hcell, hrow⟩ := decorrelate_rbuf s x (hk.trans_le (nrAllpassBands_le_nrBands b)) hn hi
  rw [hcell, hrow hk, delayedSample, if_pos hk]

/-- A sample of the result outside the all-pass range (R251, R252). -/
theorem decorrelate_rbuf_delayed (hlow : nrAllpassBands b ≤ k) (hk : k < nrBands b) (hn : n < numSlots)
    (hi : kToI s.cfg b k < nrParBands b) : cellC (s.decorrelate x b).work.rbuf k n
      = Cx.rnd s.cfg (Cx.scale (cell .one (s.detector x b (kToI s.cfg b k)).2 n)
        (cellC (s.decorrelate x b).dsp.delay k
          (s.cfg.maxDelay + n - if k < shortDelayBand s.cfg b then 14 else 1))) := by
  obtain ⟨_, hcell, -⟩ := decorrelate_rbuf s x hk hn hi
  rw [hcell, delayedSample, if_neg (Nat.not_lt.mpr hlow), cellC]
  split_ifs <;> rfl

end

/-! ## The command on a ready state -/

theorem exec_decorrelate {s : State} (hs : s.ready) (x : HybBuf) (b : Bool) :
    exec (.decorrelate x b) s = .next ((s.decorrelate x b).withStatus .ok) :=
  show execDecorrelate x b s = _ from execDecorrelate_eq hs x b

theorem detector_eq (s : State) (x : HybBuf) (b : Bool) (i : Nat) : s.detector x b i
    = bandTransient s.cfg b (s.work.buf x) (if b = s.params.is34bandsOld then s.dsp else s.dsp.resetDecorrelation) i :=
  congrArg (bandTransient s.cfg b (s.work.buf x) · i) (decorrelationStart_eq s b)

/-- Outside its result, its delay lines and the arrays of the detector DECORRELATE changes nothing (R240). -/
theorem decorrelate_frame (s : State) (x : HybBuf) (b : Bool) : s.decorrelate x b = { s with
    work := { s.work with rbuf := (s.decorrelate x b).work.rbuf }
    dsp := { s.dsp with
      delay := (s.decorrelate x b).dsp.delay
      apDelay := (s.decorrelate x b).dsp.apDelay
      peakDecayNrg := (s.decorrelate x b).dsp.peakDecayNrg
      powerSmooth := (s.decorrelate x b).dsp.powerSmooth
      peakDecayDiffSmooth := (s.decorrelate x b).dsp.peakDecayDiffSmooth } } := by
  unfold State.decorrelate decorrelate
  dsimp only
  split_ifs <;> rfl

/-- On a change of resolution DECORRELATE does what it does with none, from the zeroed state (R241). -/
theorem decorrelate_of_change {s : State} {b : Bool} (hb : b ≠ s.params.is34bandsOld) (x : HybBuf) :
    ((s.withParams { s.params with is34bandsOld := b }).withDsp s.dsp.resetDecorrelation).decorrelate x b
      = (s.decorrelate x b).withParams { s.params with is34bandsOld := b } := by
  have hrun : decorrelate s.cfg b b (s.work.buf x) s.work.rbuf s.dsp.resetDecorrelation
      = decorrelate s.cfg b s.params.is34bandsOld (s.work.buf x) s.work.rbuf s.dsp := by
    unfold decorrelate
    rw [if_pos (bne_iff_ne.mpr hb), bne_self_eq_false, if_neg Bool.false_ne_true]
  simp only [State.decorrelate, withDsp_cfg, withParams_cfg, withDsp_params, withParams_params, withDsp_work,
    withParams_work, withDsp_dsp, hrun]
  rfl

end Sys2Proof.Machine
end

section
/-! SUPPORT. The slots of a frame in DECORRELATE: the transient detector and the all-pass cascade, slot by slot. -/

namespace Sys2Proof.Machine

/-! ## The transient detector slot by slot (R242 to R245) -/

/-- The detector after the first slots, `power n` the power of slot `n`. -/
def transientAfter (c : Config) (t : Transient) (power : Nat → PsNum) : Nat → Transient
  | 0 => t
  | n + 1 => transientSlot c (transientAfter c t power n) (power n)

theorem transientAfter_succ_left (c : Config) (t : Transient) (power : Nat → PsNum) (n : Nat) :
    transientAfter c t power (n + 1)
      = transientAfter c (transientSlot c t (power 0)) (fun j => power (j + 1)) n := by
  induction n with
  | zero => rfl
  | succ n ih => rw [transientAfter, ih, transientAfter]

theorem tab_succ {α : Type} (n : Nat) (f : Nat → α) : tab (n + 1) f = f 0 :: tab n fun j => f (j + 1) := by
  rw [tab, List.range_succ_eq_map, List.map_cons, List.map_map]
  rfl

/-- The slots of a parameter band in rising order: the detector's states one after the other, and their gains. -/
theorem transientBand_tab (c : Config) (t : Transient) (power : Nat → PsNum) (n : Nat) :
    transientBand c t (tab n power)
      = (transientAfter c t power n, tab n fun j => transientGain c (transientAfter c t power (j + 1))) := by
  induction n generalizing t power with
  | zero => rfl
  | succ n ih =>
    rw [tab_succ, tab_succ, transientBand, ih, transientAfter_succ_left]
    simp only [transientAfter_succ_left c t power]
    rfl

/-- The detector of a parameter band is left after 32 slots, its gain formed after each. -/
theorem detector_slots (s : State) (x : HybBuf) (b : Bool) (i : Nat) :
    let after := transientAfter s.cfg ((s.decorrelationStart b).transient i) (powerOf s.cfg b (s.work.buf x) i)
    s.detector x b i = (after 32, tab 32 fun n => transientGain s.cfg (after (n + 1))) :=
  transientBand_tab _ _ _ _

/-- The sum over the subbands of parameter band `i` (R242). -/
theorem powerOf_eq_filter (c : Config) (is34 : Bool) (inp : List (List Cx)) (i n : Nat) :
    powerOf c is34 inp i n = ((List.range (nrBands is34)).filter fun k => kToI c is34 k = i).foldl
      (fun acc k => rndIf c.round.power c (acc.add (cellC inp k n).normSq)) PsNum.zero := by
  rw [List.foldl_filter]
  simp only [decide_eq_true_eq]
  rfl

/-! ## The all-pass cascade slot by slot (R248 to R250) -/

/-- `g_decay_slope(k)` is the linear slope, clamped to 0..1 (R249). -/
theorem decaySlope_eq (c : Config) (is34 : Bool) (k : Nat) :
    decaySlope c is34 k = max 0 (min 1 (1 - ((k : Rat) - (decayCutoff c is34 : Rat)) / 20)) := by
  unfold decaySlope
  dsimp only [decaySpan]
  push_cast
  split_ifs with h0 h1
  · rw [min_eq_right (h0.le.trans zero_le_one), max_eq_left h0.le]
  · rw [min_eq_left h1.le, max_eq_right zero_le_one]
  · rw [min_eq_right (not_lt.mp h1), max_eq_right (not_lt.mp h0)]

/-- `before` are the delay lines when a cascade that started from `lines` and leaves `final` reaches slot `n`: from the
cell of that slot on they are as at the start, and below it nothing will change any more. -/
structure ReachesSlot (c : Config) (n : Nat) (lines final before : List (List Cx)) : Prop where
  length : before.length = lines.length
  row_length : ∀ m, (cell [] before m).length = (cell [] lines m).length
  ahead : ∀ m t, c.maxApDelay + n ≤ t → cellC before m t = cellC lines m t
  behind : ∀ m t, t < c.maxApDelay + n → cellC final m t = cellC before m t

section
variable (c : Config) (is34 : Bool) (k : Nat) (row : List Cx)

/-- Sample `j` of a cascade over the samples from `n` on: the output is that of `allpassSample` on the lines of that
slot, and the cells it stores stay. -/
theorem allpassSamples_slot {fuel j : Nat} (hj : j < fuel) (n : Nat) (lines : List (List Cx)) :
    ∃ before, ReachesSlot c (n + j) lines (allpassSamples c is34 k row fuel n lines).2 before
      ∧ cell Cx.zero (allpassSamples c is34 k row fuel n lines).1 j
        = (allpassSample c is34 k (n + j) row before).1
      ∧ ∀ m, cellC (allpassSamples c is34 k row fuel n lines).2 m (c.maxApDelay + (n + j))
        = cellC (allpassSample c is34 k (n + j) row before).2 m (c.maxApDelay + (n + j)) := by
  induction fuel generalizing j n lines with
  | zero => exact absurd hj (Nat.not_lt_zero j)
  | succ fuel ih =>
    obtain ⟨hlen, hrow, hother⟩ := allpassSample_lines c is34 k n row lines
    simp only [allpassSamples]
    cases j with
    | zero =>
      obtain ⟨-, -, -, hkept⟩ := allpassSamples_lines c is34 k row fuel (n + 1) (allpassSample c is34 k n row lines).2
      refine ⟨lines, ⟨rfl, fun _ => rfl, fun _ _ _ => rfl, fun m t ht => ?_⟩, rfl, fun m => hkept m _ (by omega)⟩
      exact (hkept m t (by omega)).trans (hother m t (Nat.ne_of_lt ht))
    | succ j =>
      obtain ⟨before, hreach, hout, hstored⟩ := ih (Nat.lt_of_succ_lt_succ hj) (n + 1)
        (allpassSample c is34 k n row lines).2
      rw [show n + 1 + j = n + (j + 1) by omega] at hreach hout hstored
      refine ⟨before, ⟨hreach.length.trans hlen, fun m => (hreach.row_length m).trans (hrow m), fun m t ht => ?_,
        hreach.behind⟩, hout, hstored⟩
      exact (hreach.ahead m t ht).trans (hother m t (by omega))

/-- One sample of the cascade on three lines: each link works on its own line, its input the output of the one before
(R250). -/
theorem allpassSample_links (n : Nat) {lines : List (List Cx)} (hlen : lines.length = 3) :
    let link := fun m x => allpassLink c is34 k n m x (cell [] lines m)
    let x0 := Cx.rnd c ((cell Cx.zero row (c.maxDelay + n - 2)).mul (phiFract c is34 k))
    let y0 := link 0 x0
    let y1 := link 1 y0.1
    let y2 := link 2 y1.1
    allpassSample c is34 k n row lines = (y2.1, [y0.2, y1.2, y2.2]) := by
  obtain ⟨l0, l1, l2, rfl⟩ := List.length_eq_three.mp hlen
  rfl

/-- A link stores its input plus `ag[m]` times its output (R250). -/
theorem allpassLink_stores (m : Nat) (x : Cx) {n : Nat} {line : List Cx} (hlen : c.maxApDelay + n < line.length) :
    cell Cx.zero (allpassLink c is34 k n m x line).2 (c.maxApDelay + n)
      = Cx.rnd c (x.add (Cx.scale (linkCoeff c is34 k m) (allpassLink c is34 k n m x line).1)) := by
  simp only [allpassLink]
  rw [cell_set, if_pos ⟨rfl, hlen⟩]

/-- A line after its shift reads from `PS_MAX_AP_DELAY` on as before it (R248). -/
theorem cellC_map_shiftApDelay {lines : List (List Cx)} {m t : Nat} (hm : m < lines.length) (hlow : c.maxApDelay ≤ t)
    (ht : t < c.maxApDelay + 32) : cellC (lines.map (shiftApDelay c)) m t = cellC lines m t := by
  rw [cellC, cell_map [], if_pos hm, shiftApDelay, cell_tab, if_pos ht, if_neg (Nat.not_lt.mpr hlow)]
  rfl

/-- The cell that link `m` reads in slot `n` of a cascade that starts from `lines` and leaves `final` (R250): one stored
before, or with a delay of 0 the one this slot has yet to store. -/
def linkDelayed (c : Config) (lines final : List (List Cx)) (n m : Nat) : Cx :=
  if cell 0 c.apLinkDelay m = 0 then cellC lines m (c.maxApDelay + n)
  else cellC final m (c.maxApDelay + n - cell 0 c.apLinkDelay m)

theorem apLinkDelay_le {c : Config} (h : c.wf = true) (m : Nat) : cell 0 c.apLinkDelay m ≤ c.maxApDelay := by
  obtain ⟨-, -, -, -, hdelays, -⟩ := (Config.wf_iff c).mp h
  by_cases hm : m < c.apLinkDelay.length
  · rw [cell_in _ _ _ hm]
    exact hdelays _ (List.getElem_mem hm)
  · rw [cell_out _ _ _ (Nat.le_of_not_lt hm)]
    exact Nat.zero_le _

/-- The cascade of a subband in slot `n`, told by the lines it starts from and the lines it leaves (R250). -/
theorem allpassRow_slot {lines : List (List Cx)} (hlen : lines.length = 3)
    (hwait : ∀ m, cell 0 c.apLinkDelay m ≤ c.maxApDelay) {n : Nat} (hn : n < numSlots) {final : List (List Cx)}
    (hfinal : (allpassRow c is34 k row lines).2 = final) {delayed : Nat → Cx}
    (hdelayed : linkDelayed c lines final n = delayed) {ag : Nat → PsNum} (hag : linkCoeff c is34 k = ag) :
    let link := fun m z => Cx.rnd c ((Cx.rnd c ((delayed m).mul (qFract c is34 k m))).sub (Cx.scale (ag m) z))
    let stored := fun m z y => Cx.rnd c (Cx.add z (Cx.scale (ag m) y))
    let x0 := Cx.rnd c ((cell Cx.zero row (c.maxDelay + n - 2)).mul (phiFract c is34 k))
    let x1 := link 0 x0
    let x2 := link 1 x1
    let x3 := link 2 x2
    cellC final 0 (c.maxApDelay + n) = stored 0 x0 x1 ∧ cellC final 1 (c.maxApDelay + n) = stored 1 x1 x2
      ∧ cellC final 2 (c.maxApDelay + n) = stored 2 x2 x3
      ∧ cell Cx.zero (allpassRow c is34 k row lines).1 n = x3 := by
  intro link stored x0 x1 x2 x3
  subst hfinal hdelayed hag
  have hn32 : n < 32 := hn
  obtain ⟨before, hreach, hout, hstored⟩ := allpassSamples_slot c is34 k row hn 0 (lines.map (shiftApDelay c))
  rw [Nat.zero_add] at hreach hout hstored
  have hbefore : before.length = 3 := hreach.length.trans ((List.length_map _).trans hlen)
  have hread : ∀ m, m < 3 → cellC before m (c.maxApDelay + n - cell 0 c.apLinkDelay m)
      = linkDelayed c lines (allpassRow c is34 k row lines).2 n m := fun m hm => by
    have hd := hwait m
    unfold linkDelayed
    split_ifs with h0
    · rw [h0, Nat.sub_zero, hreach.ahead m _ (le_refl _), cellC_map_shiftApDelay c (hlen ▸ hm) (by omega) (by omega)]
    · exact (hreach.behind m _ (by omega)).symm
  have hlink : ∀ m z, m < 3 → (allpassLink c is34 k n m z (cell [] before m)).1 = link m z := fun m z hm =>
    congrArg (fun v => Cx.rnd c ((Cx.rnd c (Cx.mul v (qFract c is34 k m))).sub (Cx.scale (linkCoeff c is34 k m) z)))
      (hread m hm)
  have hstore : ∀ m z, m < 3 → cell Cx.zero (allpassLink c is34 k n m z (cell [] before m)).2 (c.maxApDelay + n)
      = stored m z (link m z) := fun m z hm => by
    rw [← hlink m z hm]
    refine allpassLink_stores c is34 k m z ?_
    rw [hreach.row_length, cell_map [], if_pos (hlen ▸ hm), shiftApDelay_length]
    omega
  rw [allpassSample_links c is34 k row n hbefore] at hout hstored
  simp (disch := decide) only [hlink] at hout hstored
  exact ⟨(hstored 0).trans (hstore 0 x0 (by decide)), (hstored 1).trans (hstore 1 x1 (by decide)),
    (hstored 2).trans (hstore 2 x2 (by decide)), hout⟩

end

end Sys2Proof.Machine
end

section
/-! What DECORRELATE does: the statements about the decorrelator. -/

namespace Sys2Proof.Machine

/-- Settles O39: the shifted lines below `NR_BANDS`, and the lines the command starts from in the other rows. -/
theorem delayLines : Obligations.DelayLines := by
  intro s x b hs hlen
  have hstart : (s.decorrelationStart b).delay.length ≤ hybMax := ((start_delay_length s b).trans hlen).le
  refine ⟨_, exec_decorrelate hs x b, fun k hk => ⟨fun j hj => ?old, fun n hn => ?new⟩, fun k j hk => ?rest⟩
  case old =>
    rw [← cellC_start_delay, cellC, withStatus_dsp, decorrelate_delay s x hk, shiftDelay_old _ _ _ _ hj, cellC]
  case new => rw [cellC, withStatus_dsp, decorrelate_delay s x hk, shiftDelay_new _ _ _ _ hn, cellC]
  case rest => rw [← cellC_start_delay, cellC, withStatus_dsp, decorrelate_delay_rest s x hk hstart, cellC]

/-- Settles O41: the sample of the class outside the all-pass range, times the gain. -/
theorem delayedClasses : Obligations.DelayedClasses := by
  intro s x b hs hwf d gain
  refine ⟨_, exec_decorrelate hs x b, fun k n hn hlow hk => ?_⟩
  refine (decorrelate_rbuf_delayed s x hlow hk hn (kToI_lt hwf b hk)).trans ?_
  rw [detector_eq]
  rfl

/-- Settles O44: `decorrelate_of_change`, on two ready states. -/
theorem decorrelateReset : Obligations.DecorrelateReset := by
  intro s x b hs hb
  let zeroed := (s.withParams { s.params with is34bandsOld := b }).withDsp s.dsp.resetDecorrelation
  have hrun : exec (.decorrelate x b) zeroed = .next ((zeroed.decorrelate x b).withStatus .ok) :=
    exec_decorrelate (s := zeroed) hs x b
  rw [decorrelate_of_change hb] at hrun
  exact ⟨_, exec_decorrelate hs x b, hrun⟩

/-- Settles O40: the history and the other rows by the shapes of the lines, the cells of this frame and the output by
`allpassRow_slot`, the cascade told by the lines it leaves. -/
theorem allpassHistory : Obligations.AllpassHistory := by
  intro s x b hs hshaped old
  have hshapes : (s.decorrelationStart b).Shapes s.cfg := start_shapes s b ((Dsp.shaped_iff _ _).mp hshaped)
  have hold : ∀ k m j, cellC (cell [] (s.decorrelationStart b).apDelay k) m j = old k m j := cellC_start_apDelay s b
  have hlinks : ∀ k, k < nrAllpassBands b → (cell [] (s.decorrelationStart b).apDelay k).length = 3 := fun k hk =>
    (shape2_iff.mp (shape3_cell hshapes.apDelay (hk.trans_le (nrAllpassBands_le b)))).1
  refine ⟨_, exec_decorrelate hs x b, fun k m j hk hm hj => ?shift, fun k m j hk => ?rest, fun hwf k n hk hn => ?slot⟩
  case shift =>
    obtain ⟨-, -, -, hhist⟩ := allpassRow_lines s.cfg b k (cell [] (s.decorrelate x b).dsp.delay k)
      (cell [] (s.decorrelationStart b).apDelay k)
    rw [withStatus_dsp, decorrelate_apDelay s x hk, ← hold]
    exact hhist m j ((hlinks k hk).symm ▸ hm) hj
  case rest =>
    rw [withStatus_dsp, decorrelate_apDelay_rest s x hk (shape3_iff.mp hshapes.apDelay).1.le, hold]
  case slot =>
    intro slope ag ap now delayed link stored x0 x1 x2 x3 d gain
    have hap : (s.cascade x b k).2 = cell [] (s.decorrelate x b).dsp.apDelay k := (decorrelate_apDelay s x hk).symm
    have hdelayed : linkDelayed s.cfg (cell [] (s.decorrelationStart b).apDelay k)
        (cell [] (s.decorrelate x b).dsp.apDelay k) n = delayed := funext fun m => by
      rw [linkDelayed, hold]
      rfl
    have hag : linkCoeff s.cfg b k = ag := funext fun m => by rw [linkCoeff, decaySlope_eq]
    obtain ⟨h0, h1, h2, hout⟩ := allpassRow_slot s.cfg b k (cell [] (s.decorrelate x b).dsp.delay k) (hlinks k hk)
      (apLinkDelay_le hwf) hn hap hdelayed hag
    refine ⟨h0, h1, h2, (decorrelate_rbuf_allpass s x hk hn ?_).trans ?_⟩
    · exact kToI_lt hwf b (hk.trans_le (nrAllpassBands_le_nrBands b))
    · rw [detector_eq]
      exact congrArg (fun z => Cx.rnd s.cfg (Cx.scale gain z)) hout

/-- Settles O38: the detector's states after each slot are the sequences the statement asks for. -/
theorem decorrelateFrame : Obligations.DecorrelateFrame := by
  intro s x b hs kept stored power gain
  refine ⟨_, exec_decorrelate hs x b, ⟨fun _ => rfl, fun _ _ _ => rfl, fun _ _ _ => rfl⟩,
    congrArg (·.withStatus .ok) (decorrelate_frame s x b),
    fun k n hk hlen => congrArg (cell Cx.zero · n) (decorrelate_rbuf_rest s x hk hlen), fun i hi => ?slots,
    fun i hi h34 => ?rest⟩
  case slots =>
    have hpower : powerOf s.cfg b (s.work.buf x) i = power i := funext fun n => powerOf_eq_filter _ _ _ i n
    let after := transientAfter s.cfg ((s.decorrelationStart b).transient i) (power i)
    have hdetector : s.detector x b i = (after 32, tab 32 fun n => transientGain s.cfg (after (n + 1))) := by
      rw [detector_slots, hpower]
    have hfinal : (s.decorrelate x b).dsp.transient i = after 32 := by
      rw [decorrelate_transient s x hi, hdetector]
    have hgain : ∀ n, n < 32 → gain i n = transientGain s.cfg (after (n + 1)) := fun n hn => by
      show cell .one (bandTransient _ _ _ _ _).2 n = _
      rw [← detector_eq, hdetector, cell_tab, if_pos hn]
    have hstart : after 0 = if kept then s.dsp.transient i else ⟨.zero, .zero, .zero⟩ := transient_start s b i
    obtain ⟨hpeak, hsmooth, hdiff⟩ := Transient.mk.inj hfinal
    refine ⟨fun n => (after n).peak, fun n => (after n).smooth, fun n => (after n).diff, fun h => ?_, fun h => ?_,
      fun n hn => ⟨rfl, rfl, rfl, hgain n hn⟩, hpeak, hsmooth, hdiff⟩
    · simp only [hstart, if_pos h]
      exact ⟨rfl, rfl, rfl⟩
    · simp only [hstart, if_neg h, and_self]
  case rest =>
    have hkept : (s.decorrelate x b).dsp.transient i = if kept then s.dsp.transient i else ⟨.zero, .zero, .zero⟩ :=
      (decorrelate_transient_rest s x hi h34).trans (transient_start s b i)
    by_cases h : kept
    · simp only [if_pos h] at hkept ⊢
      exact Transient.mk.inj hkept
    · simp only [if_neg h] at hkept ⊢
      exact Transient.mk.inj hkept

end Sys2Proof.Machine
end

section
/-! SUPPORT. STEREO_PROCESS on the matrices and the histories: the carry-over as one equation, what the envelopes leave
unchanged, the target matrix of an envelope, and the histories after the first envelopes. -/

namespace Sys2Proof.Machine

/-! ## The carry-over (`45_stereo_mixing.md` R261, R263, R264) -/

/-- What slot 0 of a matrix is given for the row of the frame before: the row, remapped on a change of resolution. -/
def carriedRow (c : Config) (q : Params) (is34 : Bool) (row : List PsNum) : List PsNum :=
  if is34 = q.is34bandsOld then row else (if is34 then remapRow34 c else remapRow20 c) row

/-- A mixing matrix after the carry-over, in both parts. -/
def carriedMat (c : Config) (q : Params) (is34 : Bool) (x : List (List (List PsNum))) : List (List (List PsNum)) :=
  x.map fun env => env.set 0 (carriedRow c q is34 (cell [] env q.numEnvOld))

/-- A phase history after the carry-over. -/
def carriedHist (q : Params) (is34 : Bool) (hist : List (BitVec 6)) : List (BitVec 6) :=
  if is34 = q.is34bandsOld then hist else hist.map fun _ => 0

theorem set_cell_self {α : Type} (d : α) (l : List α) (k : Nat) : l.set k (cell d l k) = l := by
  by_cases hk : k < l.length
  · rw [cell_in d l k hk, List.set_getElem_self]
  · exact List.set_eq_of_length_le (Nat.le_of_not_lt hk)

/-- The carry-over copies a row into slot 0 also when that row is slot 0 itself. -/
theorem copied_eq (q : Params) (d : Dsp) : (if 0 < q.numEnvOld then d.mapMats (copyForward q.numEnvOld) else d)
    = d.mapMats (copyForward q.numEnvOld) := by
  split_ifs with h
  · rfl
  · have hself : ∀ x, copyForward q.numEnvOld x = x := fun x => by
      simp only [copyForward, Nat.eq_zero_of_not_pos h, set_cell_self, List.map_id']
    simp only [Dsp.mapMats, hself]

/-- A row copied into slot 0 and remapped there is the remapped row. -/
theorem remapSlot0_copyForward (f : List PsNum → List PsNum) (n : Nat) (x : List (List (List PsNum))) :
    remapSlot0 f (copyForward n x) = x.map fun env => env.set 0 (f (cell [] env n)) := by
  rw [remapSlot0, copyForward, List.map_map]
  refine List.map_congr_left fun env _ => ?_
  cases env <;> rfl

/-- What the carry-over does. -/
theorem carryOver_eq (c : Config) (q : Params) (is34 : Bool) (d : Dsp) : carryOver c q is34 d =
    { d.mapMats (carriedMat c q is34) with
      ipdHist := carriedHist q is34 d.ipdHist, opdHist := carriedHist q is34 d.opdHist } := by
  unfold carryOver
  rw [copied_eq]
  by_cases h : is34 = q.is34bandsOld
  · simp only [h, bne_self_eq_false, Bool.false_eq_true, if_false, Dsp.mapMats, carriedHist, if_true]
    simp only [carriedMat, carriedRow, if_true, copyForward]
  · simp only [bne_iff_ne.mpr h, if_true, Dsp.mapMats, remapSlot0_copyForward, carriedHist, if_neg h]
    simp only [carriedMat, carriedRow, if_neg h]

section
variable (c : Config) (q : Params) (is34 : Bool) (d : Dsp)

theorem carryOver_mat (x : Mat) : (carryOver c q is34 d).mat x = carriedMat c q is34 (d.mat x) := by
  rw [carryOver_eq]
  cases x <;> rfl

theorem carryOver_ipdHist : (carryOver c q is34 d).ipdHist = carriedHist q is34 d.ipdHist := by rw [carryOver_eq]

theorem carryOver_opdHist : (carryOver c q is34 d).opdHist = carriedHist q is34 d.opdHist := by rw [carryOver_eq]

theorem carriedHist_length (hist : List (BitVec 6)) : (carriedHist q is34 hist).length = hist.length := by
  unfold carriedHist
  split_ifs
  · rfl
  · exact List.length_map _

theorem cell_carriedHist (hist : List (BitVec 6)) (k : Nat) :
    cell 0 (carriedHist q is34 hist) k = if is34 = q.is34bandsOld then cell 0 hist k else 0 := by
  unfold carriedHist
  split_ifs
  · rfl
  · exact cell_map_const _ _ _

theorem carriedMat_length (x : List (List (List PsNum))) : (carriedMat c q is34 x).length = x.length :=
  List.length_map _

theorem cell_carriedMat (x : List (List (List PsNum))) (part : Nat) : cell [] (carriedMat c q is34 x) part
    = (cell [] x part).set 0 (carriedRow c q is34 (cell [] (cell [] x part) q.numEnvOld)) := by
  rw [carriedMat, cell_map []]
  split_ifs with h
  · rfl
  · rw [cell_out [] x part (Nat.le_of_not_lt h)]
    rfl

/-- Slot 0 of a part that has one. -/
theorem carriedMat_row_zero {x : List (List (List PsNum))} {part : Nat} (h : 0 < (cell [] x part).length) :
    cell [] (cell [] (carriedMat c q is34 x) part) 0
      = carriedRow c q is34 (cell [] (cell [] x part) q.numEnvOld) := by
  rw [cell_carriedMat, cell_set, if_pos ⟨rfl, h⟩]

/-- The other slots. -/
theorem carriedMat_row_pos (x : List (List (List PsNum))) (part : Nat) {slot : Nat} (h : 1 ≤ slot) :
    cell [] (cell [] (carriedMat c q is34 x) part) slot = cell [] (cell [] x part) slot := by
  rw [cell_carriedMat, cell_set, if_neg (by omega)]

end

/-! ## The matrices and histories after the first envelopes -/

/-- The DSP state after the targets of the first `n` envelopes. -/
def targetsAfter (c : Config) (q : Params) (is34 : Bool) (m : Mapped) (d : Dsp) (n : Nat) : Dsp :=
  (List.range n).foldl (fun d e => storeTargets c q is34 m e d) d

/-- The coefficient of a matrix in a quadruple. -/
def coefOf : Mat → Coef → PsNum
  | .h11 => Coef.h11
  | .h12 => Coef.h12
  | .h21 => Coef.h21
  | .h22 => Coef.h22

section
variable (c : Config) (q : Params) (is34 : Bool) (m : Mapped) (d : Dsp)

theorem targetsAfter_succ (n : Nat) : targetsAfter c q is34 m d (n + 1)
    = storeTargets c q is34 m n (targetsAfter c q is34 m d n) := by
  rw [targetsAfter, List.range_succ, List.foldl_append]
  rfl

theorem storeTargets_mat (e : Nat) (x : Mat) : (storeTargets c q is34 m e d).mat x
    = storeCoef is34 (tab (nrParBands is34) (targetCoef c q is34 m d e)) e (coefOf x) (d.mat x) := by
  cases x <;> rfl

/-- The slots up to `e + 1` are settled with envelope `e`. -/
theorem targetsAfter_settled (x : Mat) (part k : Nat) {slot e n : Nat} (hslot : slot ≤ e + 1) (hn : e + 1 ≤ n) :
    cellN3 ((targetsAfter c q is34 m d n).mat x) part slot k
      = cellN3 ((targetsAfter c q is34 m d (e + 1)).mat x) part slot k := by
  induction n, hn using Nat.le_induction with
  | base => rfl
  | succ n hn ih =>
    rw [targetsAfter_succ, ← ih]
    exact storeTargets_other c q is34 m x part slot k [n] _ fun j hj => by
      rw [List.mem_singleton] at hj
      omega

/-- The first `n` envelopes leave the slots after their own and the bands from `NR_PAR_BANDS` on alone. -/
theorem targetsAfter_other (x : Mat) (part : Nat) {slot k n : Nat} (h : n < slot ∨ nrParBands is34 ≤ k) :
    cellN3 ((targetsAfter c q is34 m d n).mat x) part slot k = cellN3 (d.mat x) part slot k :=
  storeTargets_other c q is34 m x part slot k _ _ fun e he => by
    rw [List.mem_range] at he
    omega

theorem storeBands_row_other (x : List (List (List PsNum))) (part n : Nat) (f : Nat → Option PsNum) (p : Nat)
    {slot e : Nat} (h : slot ≠ e) :
    cell [] (cell [] (storeBands x part slot n f) p) e = cell [] (cell [] x p) e := by
  rw [storeBands, cell_upd]
  split_ifs
  · rw [cell_upd, if_neg fun hs => h hs.1]
  · rfl

/-- No envelope stores into slot 0. -/
theorem targetsAfter_row_zero (x : Mat) (part n : Nat) : cell [] (cell [] ((targetsAfter c q is34 m d n).mat x) part) 0
    = cell [] (cell [] (d.mat x) part) 0 := by
  induction n with
  | zero => rfl
  | succ n ih =>
    rw [targetsAfter_succ, storeTargets_mat, storeCoef, storeBands_row_other _ _ _ _ _ (Nat.succ_ne_zero n),
      storeBands_row_other _ _ _ _ _ (Nat.succ_ne_zero n), ih]

/-! ## What is not the mixer's -/

/-- A DSP state with the matrices and the phase histories of another. -/
def Dsp.withMixer (d d' : Dsp) : Dsp :=
  { d with
    h11 := d'.h11, h12 := d'.h12, h21 := d'.h21, h22 := d'.h22
    ipdHist := d'.ipdHist, opdHist := d'.opdHist }

/-- STEREO_PROCESS changes the matrices and the phase histories of the DSP state only (R278). -/
theorem targetsAfter_withMixer (n : Nat) : targetsAfter c q is34 m (carryOver c q is34 d) n
    = d.withMixer (targetsAfter c q is34 m (carryOver c q is34 d) n) := by
  induction n with
  | zero =>
    show carryOver c q is34 d = d.withMixer (carryOver c q is34 d)
    rw [carryOver_eq]
    rfl
  | succ n ih =>
    rw [targetsAfter_succ]
    exact congrArg (·.withMixer (storeTargets c q is34 m n (targetsAfter c q is34 m (carryOver c q is34 d) n))) ih

end

/-! ## The target matrix of an envelope (R266 to R271) -/

/-- A matrix has the cell `[part][slot][k]`. -/
def HasCell (x : List (List (List PsNum))) (part slot k : Nat) : Prop :=
  part < x.length ∧ slot < (cell [] x part).length ∧ k < (cell [] (cell [] x part) slot).length

/-- The four matrices of a DSP state have that cell. -/
def Dsp.HasCell (d : Dsp) (part slot k : Nat) : Prop := ∀ x, Machine.HasCell (d.mat x) part slot k

theorem hasCell_storeBands (x : List (List (List PsNum))) (i j n : Nat) (f : Nat → Option PsNum) (part slot k : Nat) :
    HasCell (storeBands x i j n f) part slot k ↔ HasCell x part slot k := by
  obtain ⟨hparts, hslots, hcells⟩ := storeBands_shape x i j n f
  rw [HasCell, hparts, hslots, hcells, HasCell]

section
variable {is34 : Bool} (f : Nat → Coef × Option Coef) {e : Nat} (g : Coef → PsNum) {x : List (List (List PsNum))}
  {part slot k : Nat}

theorem hasCell_storeCoef (ts : List (Coef × Option Coef)) :
    HasCell (storeCoef is34 ts e g x) part slot k ↔ HasCell x part slot k := by
  simp only [storeCoef, hasCell_storeBands]

/-- The real part stored for band `k`. -/
theorem cellN3_storeCoef_re (h : HasCell x 0 (e + 1) k) (hk : k < nrParBands is34) :
    cellN3 (storeCoef is34 (tab (nrParBands is34) f) e g x) 0 (e + 1) k = g (f k).1 := by
  obtain ⟨hpart, hslot, hcell⟩ := h
  simp only [storeCoef]
  rw [cellN3_storeBands, if_neg fun himag => Nat.one_ne_zero himag.1, cellN3_storeBands,
    if_pos ⟨rfl, rfl, hpart, hslot, hcell, hk⟩, cell_tab, if_pos hk, Option.getD_some]

/-- The imaginary part stored for band `k`, where there is one. -/
theorem cellN3_storeCoef_im (h : HasCell x 1 (e + 1) k) (hk : k < nrParBands is34) :
    cellN3 (storeCoef is34 (tab (nrParBands is34) f) e g x) 1 (e + 1) k
      = ((f k).2.map g).getD (cellN3 x 1 (e + 1) k) := by
  simp only [storeCoef]
  obtain ⟨hpart, hslot, hcell⟩ := (hasCell_storeBands x 0 (e + 1) (nrParBands is34)
    (fun b => some (g (cell (⟨.zero, .zero, .zero, .zero⟩, none) (tab (nrParBands is34) f) b).1)) 1 (e + 1) k).mpr h
  rw [cellN3_storeBands, if_pos ⟨rfl, rfl, hpart, hslot, hcell, hk⟩, cell_tab, if_pos hk, cellN3_storeBands,
    if_neg fun hreal => Nat.zero_ne_one hreal.1]

end

section
variable {c : Config} {q : Params} {is34 : Bool} {m : Mapped} {d : Dsp} {part slot k : Nat}

theorem hasCell_of_shaped (h : d.shaped c = true) (hpart : part < 2) (hslot : slot ≤ c.maxNumEnv)
    (hk : k < c.maxNrIidIcc) : d.HasCell part slot k := fun x => by
  have hmat := ((Dsp.shaped_iff c d).mp h).mats x
  have hrows := shape3_cell hmat hpart
  have hrow := shape2_cell hrows (Nat.lt_succ_of_le hslot)
  obtain ⟨hparts, -⟩ := shape3_iff.mp hmat
  obtain ⟨hslots, -⟩ := shape2_iff.mp hrows
  exact ⟨hparts.symm ▸ hpart, hslots.symm ▸ Nat.lt_succ_of_le hslot, hrow.symm ▸ hk⟩

theorem Dsp.HasCell.carryOver (h : d.HasCell part slot k) (hslot : 1 ≤ slot) :
    (Machine.carryOver c q is34 d).HasCell part slot k := fun x => by
  obtain ⟨hpart, hrow, hcell⟩ := h x
  rw [carryOver_mat, Machine.HasCell, carriedMat_length, carriedMat_row_pos _ _ _ _ _ hslot, cell_carriedMat,
    List.length_set]
  exact ⟨hpart, hrow, hcell⟩

theorem Dsp.HasCell.targetsAfter (h : d.HasCell part slot k) (n : Nat) :
    (Machine.targetsAfter c q is34 m d n).HasCell part slot k := by
  induction n with
  | zero => exact h
  | succ n ih => exact fun x => by rw [targetsAfter_succ, storeTargets_mat, hasCell_storeCoef]; exact ih x

end

/-! ## The targets after all envelopes -/

section
variable {c : Config} {q : Params} {is34 : Bool} {m : Mapped} {d : Dsp} {e k n : Nat} (hn : e < n)
  (hk : k < nrParBands is34)
include hn hk

/-- The real parts of slot `e + 1` after all envelopes are the target of envelope `e`. -/
theorem cellN3_targetsAfter_re (x : Mat) (h : d.HasCell 0 (e + 1) k) :
    cellN3 ((targetsAfter c q is34 m d n).mat x) 0 (e + 1) k
      = coefOf x (targetCoef c q is34 m (targetsAfter c q is34 m d e) e k).1 := by
  rw [targetsAfter_settled _ _ _ _ _ _ _ _ le_rfl hn, targetsAfter_succ, storeTargets_mat,
    cellN3_storeCoef_re _ _ (h.targetsAfter e x) hk]

/-- The imaginary parts are the target where there is one, and otherwise what they were. -/
theorem cellN3_targetsAfter_im (x : Mat) (h : d.HasCell 1 (e + 1) k) :
    cellN3 ((targetsAfter c q is34 m d n).mat x) 1 (e + 1) k
      = ((targetCoef c q is34 m (targetsAfter c q is34 m d e) e k).2.map (coefOf x)).getD
        (cellN3 (d.mat x) 1 (e + 1) k) := by
  rw [targetsAfter_settled _ _ _ _ _ _ _ _ le_rfl hn, targetsAfter_succ, storeTargets_mat,
    cellN3_storeCoef_im _ _ (h.targetsAfter e x) hk, targetsAfter_other _ _ _ _ _ _ _ (Or.inl (Nat.lt_succ_self e))]

end

/-- The entry of the mixing table for band `k` of envelope `e` (R266, R267). -/
def mixEntry (c : Config) (q : Params) (m : Mapped) (e k : Nat) : Coef :=
  lookupCoef (mixTable c q) q.iidQuant (cellI m.iid e k) (cellI m.icc e k)

section
variable {c : Config} {q : Params} {is34 : Bool} {k : Nat}

/-- Where nothing is turned the target is the table entry, with no imaginary part. -/
theorem targetCoef_plain (m : Mapped) (d : Dsp) (e : Nat)
    (h : c.baseline = true ∨ q.enableIpdopd = false ∨ nrIpdOpdBands is34 ≤ k) :
    targetCoef c q is34 m d e k = (mixEntry c q m e k, none) := by
  have hplain : ¬(complexPath c q && decide (k < nrIpdOpdBands is34)) = true := by
    rw [complexPath, Bool.and_eq_true, Bool.and_eq_true, Bool.not_eq_true', decide_eq_true_eq]
    rintro ⟨⟨hbase, hon⟩, hk⟩
    rcases h with h | h | h
    · exact Bool.false_ne_true (hbase.symm.trans h)
    · exact Bool.false_ne_true (h.symm.trans hon)
    · omega
  exact if_neg hplain

/-- On the complex path the target of a band in the IPD/OPD range is the rotated entry. -/
theorem targetCoef_turned (m : Mapped) (d : Dsp) (e : Nat) (hpath : complexPath c q = true)
    (hk : k < nrIpdOpdBands is34) :
    targetCoef c q is34 m d e k
      = Prod.map id some (rotate c (mixEntry c q m e k) (smoothIndex (cell 0 d.opdHist k) (cellI m.opd e k))
        (smoothIndex (cell 0 d.ipdHist k) (cellI m.ipd e k))) := by
  have hturned : (complexPath c q && decide (k < nrIpdOpdBands is34)) = true := by
    rw [hpath, decide_eq_true hk]
    rfl
  exact if_pos hturned

/-- The table R266 selects. -/
theorem mixTable_eq (c : Config) (q : Params) :
    mixTable c q = if c.baseline = true ∨ q.iccMode.toNat < 3 then c.tables.ha else c.tables.hb := by
  unfold mixTable
  simp only [Bool.or_eq_true, decide_eq_true_eq]

/-- The row of R267 as an offset by 23 for the fine quantisation. -/
theorem mixEntry_eq (c : Config) (q : Params) (m : Mapped) (e k : Nat) :
    let entry := cellN3 (mixTable c q) (cellI m.iid e k + 7 + 23 * (if q.iidQuant then 1 else 0)).toNat
      (cellI m.icc e k).toNat
    mixEntry c q m e k = ⟨entry 0, entry 1, entry 2, entry 3⟩ := by
  unfold mixEntry lookupCoef cellN3
  cases q.iidQuant <;> rfl

end

/-! ## The phase histories (R268) -/

/-- A history after its updates by the first `n` envelopes. -/
def histAfter (is34 : Bool) (rows : List (List Int)) (hist : List (BitVec 6)) (n : Nat) : List (BitVec 6) :=
  (List.range n).foldl (fun h e => updateHist is34 rows e h) hist

/-- The history of band `k` after the first `n` envelopes as a number: each envelope shifts it by one phase. -/
def phasesAfter (rows : List (List Int)) (k start n : Nat) : Nat :=
  (List.range n).foldl (fun h j => (h * 8 + (cellI rows j k).toNat) % 64) start

theorem phasesAfter_succ (rows : List (List Int)) (k start n : Nat) :
    phasesAfter rows k start (n + 1) = (phasesAfter rows k start n * 8 + (cellI rows n k).toNat) % 64 := by
  rw [phasesAfter, List.range_succ, List.foldl_append]
  rfl

theorem histAfter_succ (is34 : Bool) (rows : List (List Int)) (hist : List (BitVec 6)) (n : Nat) :
    histAfter is34 rows hist (n + 1) = updateHist is34 rows n (histAfter is34 rows hist n) := by
  rw [histAfter, List.range_succ, List.foldl_append]
  rfl

/-- The histories do not depend on the matrices. -/
theorem targetsAfter_hists (c : Config) (q : Params) (is34 : Bool) (m : Mapped) (d : Dsp) (n : Nat) :
    (targetsAfter c q is34 m d n).ipdHist = histAfter is34 m.ipd d.ipdHist n
      ∧ (targetsAfter c q is34 m d n).opdHist = histAfter is34 m.opd d.opdHist n := by
  induction n with
  | zero => exact ⟨rfl, rfl⟩
  | succ n ih =>
    obtain ⟨hipd, hopd⟩ := ih
    rw [targetsAfter_succ, histAfter_succ, histAfter_succ, ← hipd, ← hopd]
    exact ⟨rfl, rfl⟩

section
variable {is34 : Bool} (rows : List (List Int)) {hist : List (BitVec 6)} {k : Nat}

theorem histAfter_length (n : Nat) : (histAfter is34 rows hist n).length = hist.length := by
  induction n with
  | zero => rfl
  | succ n ih => rw [histAfter_succ, updateHist, tab_length, ih]

theorem cell_histAfter_succ (hlen : k < hist.length) (n : Nat) : cell 0 (histAfter is34 rows hist (n + 1)) k
    = if k < nrIpdOpdBands is34 then
        BitVec.ofNat 6 (smoothIndex (cell 0 (histAfter is34 rows hist n) k) (cellI rows n k))
      else cell 0 (histAfter is34 rows hist n) k := by
  rw [histAfter_succ, updateHist, cell_tab, histAfter_length, if_pos hlen]

/-- In the bands outside the IPD/OPD range the history is kept. -/
theorem cell_histAfter_high (hlen : k < hist.length) (hk : nrIpdOpdBands is34 ≤ k) (n : Nat) :
    cell 0 (histAfter is34 rows hist n) k = cell 0 hist k := by
  induction n with
  | zero => rfl
  | succ n ih => rw [cell_histAfter_succ rows hlen, if_neg (Nat.not_lt.mpr hk), ih]

/-- In the bands of the range it takes up the phases of the envelopes. -/
theorem cell_histAfter_low (hlen : k < hist.length) (hk : k < nrIpdOpdBands is34) (n : Nat) :
    (cell 0 (histAfter is34 rows hist n) k).toNat = phasesAfter rows k (cell 0 hist k).toNat n := by
  induction n with
  | zero => rfl
  | succ n ih => rw [cell_histAfter_succ rows hlen, if_pos hk, BitVec.toNat_ofNat, smoothIndex, ih, phasesAfter_succ]

/-- A phase in 0..7 as a natural number. -/
theorem phase_toNat {v : Int} (h : iccOk v = true) : (v.toNat : Int) = v ∧ v.toNat < 8 := by
  simp only [iccOk, Bool.and_eq_true, decide_eq_true_eq] at h
  omega

/-- The history after one envelope. -/
theorem phasesAfter_one (hrange : ∀ e, iccOk (cellI rows e k) = true) (start : Nat) :
    (phasesAfter rows k start 1 : Int) = 8 * (start % 8 : Nat) + cellI rows 0 k := by
  obtain ⟨hcast, hlt⟩ := phase_toNat (hrange 0)
  have hone : phasesAfter rows k start 1 = (start * 8 + (cellI rows 0 k).toNat) % 64 := rfl
  omega

/-- The history after two envelopes or more holds the phases of the last two. -/
theorem phasesAfter_two (hrange : ∀ e, iccOk (cellI rows e k) = true) (start n : Nat) :
    (phasesAfter rows k start (n + 2) : Int) = 8 * cellI rows n k + cellI rows (n + 1) k := by
  obtain ⟨hcast, hlt⟩ := phase_toNat (hrange n)
  obtain ⟨hcast', hlt'⟩ := phase_toNat (hrange (n + 1))
  have hlast : phasesAfter rows k start (n + 2) = _ := phasesAfter_succ rows k start (n + 1)
  have hbefore := phasesAfter_succ rows k start n
  omega

end

end Sys2Proof.Machine
end

section
/-! SUPPORT. STEREO_PROCESS on the samples: the samples of an envelope one by one, what an envelope leaves alone, and
the samples after all envelopes. -/

namespace Sys2Proof.Machine

/-! ## The samples of one envelope in one subband (`45_stereo_mixing.md` R275, R276) -/

/-- The samples of slot `n` in a left and a right row. -/
def pairAt (rows : List Cx × List Cx) (n : Nat) : Cx × Cx := (cell Cx.zero rows.1 n, cell Cx.zero rows.2 n)

/-- A pair of samples through a matrix, with an imaginary part on the complex path only. -/
def mixPair (c : Config) (h : Coef) (g : Option Coef) (x : Cx × Cx) : Cx × Cx :=
  match g with
  | none => mixReal c h x.1 x.2
  | some g => mixComplex c h g x.1 x.2

/-- A matrix with its step, advanced by one step. -/
def advanced (c : Config) (h : Coef × Coef) : Coef × Coef := (advanceCoef c h.1 h.2, h.2)

/-- The matrix after `j` steps. -/
def walked (c : Config) (j : Nat) (h : Coef × Coef) : Coef := ((advanced c)^[j] h).1

section
variable (c : Config)

/-- One sample: the matrix is advanced, the pair is mixed, and the rest follows. -/
theorem mixSamples_succ (count n : Nat) (h : Coef × Coef) (g : Option (Coef × Coef)) (l r : List Cx) :
    let out := mixPair c (walked c 1 h) (g.map (walked c 1)) (pairAt (l, r) n)
    mixSamples c (count + 1) n h g l r
      = mixSamples c count (n + 1) (advanced c h) (g.map (advanced c)) (l.set n out.1) (r.set n out.2) := by
  cases g <;> rfl

theorem pairAt_set_ne {l r : List Cx} {n i : Nat} (x y : Cx) (h : n ≠ i) :
    pairAt (l.set n x, r.set n y) i = pairAt (l, r) i := by
  simp only [pairAt, cell_set, h, false_and, if_false]

theorem pairAt_set_self {l r : List Cx} {n : Nat} (x y : Cx) (hl : n < l.length) (hr : n < r.length) :
    pairAt (l.set n x, r.set n y) n = (x, y) := by
  simp only [pairAt, cell_set, hl, hr, and_self, if_true]

/-- The slots outside the envelope are not touched. -/
theorem mixSamples_outside {count n i : Nat} (h : Coef × Coef) (g : Option (Coef × Coef)) (l r : List Cx)
    (hi : i < n ∨ n + count ≤ i) : pairAt (mixSamples c count n h g l r) i = pairAt (l, r) i := by
  induction count generalizing n h g l r with
  | zero => rfl
  | succ count ih => rw [mixSamples_succ, ih _ _ _ _ (by omega), pairAt_set_ne _ _ (by omega)]

/-- Sample `j` of the envelope is the old pair through the matrix after `j + 1` steps. -/
theorem mixSamples_inside {count n j : Nat} (h : Coef × Coef) (g : Option (Coef × Coef)) (l r : List Cx)
    (hj : j < count) (hl : n + j < l.length) (hr : n + j < r.length) :
    pairAt (mixSamples c count n h g l r) (n + j)
      = mixPair c (walked c (j + 1) h) (g.map (walked c (j + 1))) (pairAt (l, r) (n + j)) := by
  induction count generalizing n j h g l r with
  | zero => exact absurd hj (Nat.not_lt_zero j)
  | succ count ih =>
    rw [mixSamples_succ]
    cases j with
    | zero => exact (mixSamples_outside c _ _ _ _ (Or.inl (Nat.lt_succ_self n))).trans (pairAt_set_self _ _ hl hr)
    | succ j =>
      have hslot : n + (j + 1) = n + 1 + j := by omega
      rw [hslot] at hl hr ⊢
      rw [ih _ _ _ _ (Nat.lt_of_succ_lt_succ hj) (by rwa [List.length_set]) (by rwa [List.length_set]),
        pairAt_set_ne _ _ (by omega), Option.map_map]
      rfl

/-! ## The walk, coefficient by coefficient (R273, R274) -/

theorem coefOf_advanceCoef (x : Mat) (h s : Coef) :
    coefOf x (advanceCoef c h s) = rnd c ((coefOf x h).add (coefOf x s)) := by
  cases x <;> rfl

theorem coefOf_stepOf (x : Mat) (w : PsNum) (t s : Coef) :
    coefOf x (stepOf c w t s) = rnd c ((rnd c ((coefOf x t).sub (coefOf x s))).mul w) := by
  cases x <;> rfl

theorem coefOf_walked (x : Mat) (j : Nat) (h s : Coef) :
    coefOf x (walked c j (h, s)) = (fun v => rnd c (v.add (coefOf x s)))^[j] (coefOf x h) := by
  induction j generalizing h with
  | zero => rfl
  | succ j ih =>
    rw [Function.iterate_succ_apply, ← coefOf_advanceCoef]
    exact ih _

/-- The walk from a start to a target. -/
theorem coefOf_walked_stepOf (x : Mat) (j : Nat) (w : PsNum) (start target : Coef) :
    coefOf x (walked c j (start, stepOf c w target start))
      = (fun v => rnd c (v.add (rnd c ((rnd c ((coefOf x target).sub (coefOf x start))).mul w))))^[j]
        (coefOf x start) := by
  rw [coefOf_walked, coefOf_stepOf]

/-- Quadruples with the same coefficients are equal. -/
theorem eq_of_coefOf_eq {g h : Coef} (heq : ∀ x, coefOf x g = coefOf x h) : g = h := by
  obtain ⟨h11, h12, h21, h22⟩ := forall_mat.mp heq
  cases g
  cases h
  exact Coef.mk.injEq .. ▸ ⟨h11, h12, h21, h22⟩

theorem coefOf_coefAt (x : Mat) (d : Dsp) (part slot b : Nat) :
    coefOf x (coefAt d part slot b) = cellN3 (d.mat x) part slot b := by
  cases x <;> rfl

/-- The coefficients of the slots up to `e + 1` are settled with envelope `e`. -/
theorem coefAt_targetsAfter (q : Params) (is34 : Bool) (m : Mapped) (d : Dsp) (part b : Nat) {slot e n : Nat}
    (hslot : slot ≤ e + 1) (hn : e + 1 ≤ n) :
    coefAt (targetsAfter c q is34 m d (e + 1)) part slot b = coefAt (targetsAfter c q is34 m d n) part slot b :=
  eq_of_coefOf_eq fun x => by
    rw [coefOf_coefAt, coefOf_coefAt, targetsAfter_settled c q is34 m d x part b hslot hn]

/-- The subbands whose imaginary start is negated (R273). -/
theorem signFlip_iff (is34 : Bool) (k : Nat) :
    signFlip is34 k = true ↔ if is34 then 9 ≤ k ∧ k ≤ 13 else k ≤ 1 := by
  cases is34 <;> simp [signFlip]

theorem coefOf_startIm (x : Mat) (is34 : Bool) (k : Nat) (h : Coef) :
    coefOf x (startIm is34 k h) = if signFlip is34 k then (coefOf x h).neg else coefOf x h := by
  unfold startIm
  split_ifs
  · cases x <;> rfl
  · rfl

end

/-! ## One envelope (R272 to R277) -/

/-- Slot `n` lies in envelope `e`: after its border and up to the next one. -/
def Params.inEnvelope (q : Params) (e n : Nat) : Prop :=
  cell 0 q.borderPosition e < (n : Int) ∧ (n : Int) ≤ cell 0 q.borderPosition (e + 1)

/-- The left and the right row of a subband. -/
def Mix.rows (x : Mix) (k : Nat) : List Cx × List Cx := (cell [] x.l k, cell [] x.r k)

/-- The real start matrix of a subband in envelope `e`, with its step. -/
def realWalk (c : Config) (q : Params) (is34 : Bool) (d : Dsp) (e k : Nat) : Coef × Coef :=
  let h := coefAt d 0 e (kToI c is34 k)
  (h, stepOf c (widthOf c q e) (coefAt d 0 (e + 1) (kToI c is34 k)) h)

/-- The imaginary start matrix of a subband in envelope `e`, with its step. -/
def imagWalk (c : Config) (q : Params) (is34 : Bool) (d : Dsp) (e k : Nat) : Coef × Coef :=
  let g := startIm is34 k (coefAt d 1 e (kToI c is34 k))
  (g, stepOf c (widthOf c q e) (coefAt d 1 (e + 1) (kToI c is34 k)) g)

/-- The walk of a subband on the path the frame takes. -/
def imagWalk? (c : Config) (q : Params) (is34 : Bool) (d : Dsp) (e k : Nat) : Option (Coef × Coef) :=
  if complexPath c q then some (imagWalk c q is34 d e k) else none

section
variable (c : Config) (q : Params) (is34 : Bool)

/-- The walks of envelope `e` are those between the slots as all envelopes leave them. -/
theorem walks_targetsAfter (m : Mapped) (d : Dsp) {e n : Nat} (k : Nat) (hn : e + 1 ≤ n) :
    realWalk c q is34 (targetsAfter c q is34 m d (e + 1)) e k = realWalk c q is34 (targetsAfter c q is34 m d n) e k
      ∧ imagWalk? c q is34 (targetsAfter c q is34 m d (e + 1)) e k
        = imagWalk? c q is34 (targetsAfter c q is34 m d n) e k := by
  have hstart := fun part b => coefAt_targetsAfter c q is34 m d part b (Nat.le_succ e) hn
  have htarget := fun part b => coefAt_targetsAfter c q is34 m d part b le_rfl hn
  simp only [realWalk, imagWalk?, imagWalk, hstart, htarget, and_self]

theorem mixBand_eq (d : Dsp) (e k : Nat) (l r : List Cx) : mixBand c q is34 d e k l r
    = mixSamples c (spanOf q e).toNat (cell 0 q.borderPosition e + 1).toNat (realWalk c q is34 d e k)
      (imagWalk? c q is34 d e k) l r := rfl

theorem mixBand_length (d : Dsp) (e k : Nat) (l r : List Cx) :
    (mixBand c q is34 d e k l r).1.length = l.length ∧ (mixBand c q is34 d e k l r).2.length = r.length :=
  mixSamples_length ..

/-- A computed array in the length of another one, which has no row where that has none. -/
theorem cell_tab_length {α β : Type} (l : List (List α)) (f : Nat → List β) (k : Nat)
    (hf : cell [] l k = [] → f k = []) : cell [] (tab l.length f) k = f k := by
  rw [cell_tab]
  split_ifs with hk
  · rfl
  · exact (hf (cell_out _ _ _ (Nat.le_of_not_lt hk))).symm

/-- An envelope mixes the rows below `NR_BANDS`, each by itself. -/
theorem mixEnvelope_rows (m : Mapped) (x : Mix) (e k : Nat) : (mixEnvelope c q is34 m x e).rows k =
    if k < nrBands is34 then
      mixBand c q is34 (storeTargets c q is34 m e x.dsp) e k (x.rows k).1 (x.rows k).2
    else x.rows k := by
  unfold mixEnvelope Mix.rows
  simp only
  rw [cell_tab_length, cell_tab_length]
  · split_ifs with hk
    · rw [cell_tab, if_pos hk]
    · rfl
  all_goals
    intro hnone
    split_ifs with hk
    · rw [cell_tab, if_pos hk, ← List.length_eq_zero_iff]
      simp only [mixBand_length, hnone, List.length_nil]
    · exact hnone

/-- The lengths of the rows are kept. -/
theorem mixEnvelope_rows_length (m : Mapped) (x : Mix) (e k : Nat) :
    ((mixEnvelope c q is34 m x e).rows k).1.length = (x.rows k).1.length
      ∧ ((mixEnvelope c q is34 m x e).rows k).2.length = (x.rows k).2.length := by
  rw [mixEnvelope_rows]
  split_ifs
  · exact mixBand_length ..
  · exact ⟨rfl, rfl⟩

section
variable {q} {e n : Nat} (hborder : -1 ≤ cell 0 q.borderPosition e) (m : Mapped) (x : Mix) {k : Nat}
include hborder

/-- An envelope leaves the slots outside it alone. -/
theorem mixEnvelope_outside (hn : ¬q.inEnvelope e n) :
    pairAt ((mixEnvelope c q is34 m x e).rows k) n = pairAt (x.rows k) n := by
  rw [mixEnvelope_rows]
  split_ifs with hk
  · refine mixSamples_outside c _ _ _ _ ?_
    simp only [Params.inEnvelope, spanOf] at hn ⊢
    omega
  · rfl

/-- A slot inside an envelope is mixed with the matrix that has walked to it from the border. -/
theorem mixEnvelope_inside (hn : q.inEnvelope e n) (hk : k < nrBands is34) (hl : n < (x.rows k).1.length)
    (hr : n < (x.rows k).2.length) :
    let d := storeTargets c q is34 m e x.dsp
    let steps := ((n : Int) - cell 0 q.borderPosition e).toNat
    pairAt ((mixEnvelope c q is34 m x e).rows k) n
      = mixPair c (walked c steps (realWalk c q is34 d e k)) ((imagWalk? c q is34 d e k).map (walked c steps))
        (pairAt (x.rows k) n) := by
  intro d steps
  obtain ⟨hafter, hupTo⟩ := hn
  obtain ⟨j, hslot⟩ : ∃ j, n = (cell 0 q.borderPosition e + 1).toNat + j :=
    Nat.exists_eq_add_of_le (by omega)
  have hsteps : steps = j + 1 := by
    show ((n : Int) - cell 0 q.borderPosition e).toNat = j + 1
    omega
  have hcount : j < (spanOf q e).toNat := by
    rw [spanOf]
    omega
  rw [mixEnvelope_rows, if_pos hk, hsteps, mixBand_eq]
  clear hsteps hafter hupTo
  subst hslot
  exact mixSamples_inside c _ _ _ _ hcount hl hr

end

/-! ## All envelopes -/

/-- What STEREO_PROCESS works on after the first `n` envelopes. -/
def mixAfter (m : Mapped) (x : Mix) (n : Nat) : Mix := (List.range n).foldl (mixEnvelope c q is34 m) x

theorem mixAfter_succ (m : Mapped) (x : Mix) (n : Nat) :
    mixAfter c q is34 m x (n + 1) = mixEnvelope c q is34 m (mixAfter c q is34 m x n) n := by
  rw [mixAfter, List.range_succ, List.foldl_append]
  rfl

theorem mixAfter_dsp (m : Mapped) (x : Mix) (n : Nat) :
    (mixAfter c q is34 m x n).dsp = targetsAfter c q is34 m x.dsp n := mixEnvelopes_dsp ..

theorem mixAfter_rows_length (m : Mapped) (x : Mix) (n k : Nat) :
    ((mixAfter c q is34 m x n).rows k).1.length = (x.rows k).1.length
      ∧ ((mixAfter c q is34 m x n).rows k).2.length = (x.rows k).2.length := by
  induction n with
  | zero => exact ⟨rfl, rfl⟩
  | succ n ih =>
    rw [mixAfter_succ]
    obtain ⟨hl, hr⟩ := mixEnvelope_rows_length c q is34 m (mixAfter c q is34 m x n) n k
    exact ⟨hl.trans ih.1, hr.trans ih.2⟩

/-- The rows from `NR_BANDS` on are not mixed. -/
theorem mixAfter_rows_high (m : Mapped) (x : Mix) (n : Nat) {k : Nat} (hk : nrBands is34 ≤ k) :
    (mixAfter c q is34 m x n).rows k = x.rows k := by
  induction n with
  | zero => rfl
  | succ n ih => rw [mixAfter_succ, mixEnvelope_rows, if_neg (Nat.not_lt.mpr hk), ih]

section
variable {q} (hborder : ∀ e, -1 ≤ cell 0 q.borderPosition e) (m : Mapped) (x : Mix)
include hborder

/-- The envelopes from `a` on leave a slot in none of them alone. -/
theorem mixAfter_outside (k : Nat) {a n slot : Nat} (han : a ≤ n)
    (hout : ∀ e, a ≤ e → e < n → ¬q.inEnvelope e slot) :
    pairAt ((mixAfter c q is34 m x n).rows k) slot = pairAt ((mixAfter c q is34 m x a).rows k) slot := by
  induction n, han using Nat.le_induction with
  | base => rfl
  | succ n han ih =>
    rw [mixAfter_succ, mixEnvelope_outside c is34 (hborder n) _ _ (hout n han (Nat.lt_succ_self n)),
      ih fun e hae hen => hout e hae (Nat.lt_succ_of_lt hen)]

end

end

section
variable {q : Params} {N : Nat}
  (hrise : ∀ e, e < N → cell 0 q.borderPosition e ≤ cell 0 q.borderPosition (e + 1))
include hrise

theorem borders_rise {a b : Nat} (hab : a ≤ b) (hb : b ≤ N) :
    cell 0 q.borderPosition a ≤ cell 0 q.borderPosition b := by
  induction b, hab using Nat.le_induction with
  | base => exact le_rfl
  | succ b hab ih => exact (ih (Nat.le_of_succ_le hb)).trans (hrise b hb)

/-- Where the borders rise a slot of an envelope lies in no other one. -/
theorem inEnvelope_unique {e f n : Nat} (he : e < N) (hf : f < N) (hne : f ≠ e) (hn : q.inEnvelope e n) :
    ¬q.inEnvelope f n := by
  rintro ⟨hafter, hupTo⟩
  obtain ⟨hafter', hupTo'⟩ := hn
  rcases Nat.lt_or_gt_of_ne hne with hlt | hgt
  · exact absurd hafter' (not_lt.mpr (hupTo.trans (borders_rise hrise hlt he.le)))
  · exact absurd hafter (not_lt.mpr (hupTo'.trans (borders_rise hrise hgt hf.le)))

/-- A slot of an envelope after all envelopes: the pair of the start through the walked matrix of its envelope. -/
theorem mixAfter_inside (c : Config) (is34 : Bool) (hborder : ∀ e, -1 ≤ cell 0 q.borderPosition e) (m : Mapped)
    (x : Mix) {e k n : Nat} (he : e < N) (hn : q.inEnvelope e n) (hk : k < nrBands is34) (hl : n < (x.rows k).1.length)
    (hr : n < (x.rows k).2.length) :
    let d := targetsAfter c q is34 m x.dsp N
    let steps := ((n : Int) - cell 0 q.borderPosition e).toNat
    pairAt ((mixAfter c q is34 m x N).rows k) n
      = mixPair c (walked c steps (realWalk c q is34 d e k)) ((imagWalk? c q is34 d e k).map (walked c steps))
        (pairAt (x.rows k) n) := by
  intro d steps
  have hbefore : pairAt ((mixAfter c q is34 m x e).rows k) n = pairAt (x.rows k) n :=
    mixAfter_outside c is34 hborder m x k (Nat.zero_le e) fun f _ hf =>
      inEnvelope_unique hrise he (hf.trans he) hf.ne hn
  have hafter : pairAt ((mixAfter c q is34 m x N).rows k) n = pairAt ((mixAfter c q is34 m x (e + 1)).rows k) n :=
    mixAfter_outside c is34 hborder m x k he fun f hef hf =>
      inEnvelope_unique hrise he hf (Nat.ne_of_gt hef) hn
  obtain ⟨hlenL, hlenR⟩ := mixAfter_rows_length c q is34 m x e k
  obtain ⟨hreal, himag⟩ := walks_targetsAfter c q is34 m x.dsp k (e := e) he
  rw [hafter, mixAfter_succ, mixEnvelope_inside c is34 (hborder e) m _ hn hk (hlenL ▸ hl) (hlenR ▸ hr), hbefore,
    mixAfter_dsp, ← targetsAfter_succ, hreal, himag]

end

end Sys2Proof.Machine
end

section
/-! SUPPORT. STEREO_PROCESS as a command: its parts as the statements name them, and the samples over the reals. -/

namespace Sys2Proof.Machine

/-! ## The command on a ready state -/

theorem exec_stereoProcess {s : State} (hs : s.ready) (b : Bool) :
    exec (.stereoProcess b) s = .next ((s.stereo b).withStatus .ok) :=
  show execStereoProcess b s = _ from execStereoProcess_eq hs b

section
variable (s : State) (b : Bool)

theorem stereo_mapped : (s.stereo b).work.mapped = mapParams s.params b := rfl

/-- The DSP state after the command, as the carry-over and the targets of the envelopes. -/
theorem stereo_dsp_eq : (s.stereo b).dsp = targetsAfter s.cfg s.params b (mapParams s.params b)
    (carryOver s.cfg s.params b s.dsp) s.params.numEnv := stereo_dsp ..

/-- The data STEREO_PROCESS starts the envelopes with. -/
def State.mixStart : Mix := ⟨carryOver s.cfg s.params b s.dsp, s.work.lbuf, s.work.rbuf⟩

/-- A pair of samples after the command, as what the envelopes do with it. -/
theorem stereo_pair (k n : Nat) : (cellC (s.stereo b).work.lbuf k n, cellC (s.stereo b).work.rbuf k n)
    = pairAt ((mixAfter s.cfg s.params b (mapParams s.params b) (s.mixStart b) s.params.numEnv).rows k) n := rfl

theorem mixStart_pair (k n : Nat) :
    pairAt ((s.mixStart b).rows k) n = (cellC s.work.lbuf k n, cellC s.work.rbuf k n) := rfl

/-- Outside the buffers, the working rows, the matrices and the histories the command changes nothing. -/
theorem stereo_frame : s.stereo b = { s with
    work := (s.stereo b).work
    dsp := s.dsp.withMixer (s.stereo b).dsp } := by
  conv_rhs => rw [stereo_dsp_eq, ← targetsAfter_withMixer, ← stereo_dsp_eq]
  rfl

end

/-- A sample of an envelope after the command: the old pair through the matrix that has walked between the envelope's
two slots (R272 to R276). -/
theorem stereo_sample {s : State} {b : Bool} (hshaped : s.work.shaped = true)
    (hborder : ∀ e, -1 ≤ cell 0 s.params.borderPosition e)
    (hrise : ∀ e, e < s.params.numEnv → cell 0 s.params.borderPosition e ≤ cell 0 s.params.borderPosition (e + 1))
    {e k n : Nat} (he : e < s.params.numEnv) (hk : k < nrBands b) (hn : n < numSlots) (hin : s.params.inEnvelope e n) :
    let steps := ((n : Int) - cell 0 s.params.borderPosition e).toNat
    (cellC (s.stereo b).work.lbuf k n, cellC (s.stereo b).work.rbuf k n)
      = mixPair s.cfg (walked s.cfg steps (realWalk s.cfg s.params b (s.stereo b).dsp e k))
        ((imagWalk? s.cfg s.params b (s.stereo b).dsp e k).map (walked s.cfg steps))
        (cellC s.work.lbuf k n, cellC s.work.rbuf k n) := by
  intro steps
  obtain ⟨hl, hr⟩ := (Work.shaped_iff s.work).mp hshaped
  have hrow : k < hybMax := hk.trans_le (by cases b <;> decide)
  rw [stereo_pair, stereo_dsp_eq]
  exact mixAfter_inside hrise s.cfg b hborder _ (s.mixStart b) he hin hk ((shape2_cell hl hrow).symm ▸ hn)
    ((shape2_cell hr hrow).symm ▸ hn)

/-! ## The working rows (`45_stereo_mixing.md` R262) -/

section
variable (src : List (List Int)) (n count : Nat) (full : Bool)

/-- To 20 bands, by the band count. -/
theorem remapTo_false_cases :
    let rows := remapTo false src n count full
    let through := fun (map : List Int → Bool → List Int) => tab count fun e => map (cell [] src e) full
    (n = 34 ∨ n = 17 → rows = through map34to20) ∧ (n = 10 ∨ n = 5 → rows = through map10to20)
      ∧ (n ≠ 34 → n ≠ 17 → n ≠ 10 → n ≠ 5 → rows = src) := by
  obtain ⟨from34, from10, passes⟩ := mapTo20_cases n
  let rows := fun map => remapRows map src (cell [] src) count full
  exact ⟨fun h => congrArg rows (from34 h), fun h => congrArg rows (from10 h),
    fun h34 h17 h10 h5 => congrArg rows (passes h34 h17 h10 h5)⟩

/-- To 34 bands, by the band count. -/
theorem remapTo_true_cases :
    let rows := remapTo true src n count full
    let through := fun (map : List Int → Bool → List Int) => tab count fun e => map (cell [] src e) full
    (n = 20 ∨ n = 11 → rows = through map20to34) ∧ (n = 10 ∨ n = 5 → rows = through map10to34)
      ∧ (n ≠ 20 → n ≠ 11 → n ≠ 10 → n ≠ 5 → rows = src) := by
  obtain ⟨from20, from10, passes⟩ := mapTo34_cases n
  let rows := fun map => remapRows map src (cell [] src) count full
  exact ⟨fun h => congrArg rows (from20 h), fun h => congrArg rows (from10 h),
    fun h20 h11 h10 h5 => congrArg rows (passes h20 h11 h10 h5)⟩

theorem cellI_tab_zero (width e k : Nat) : cellI (tab n fun _ => tab width fun _ => 0) e k = 0 := by
  rw [cellI, cell_tab]
  split_ifs
  · rw [cell_tab, ite_self]
  · rfl

/-- Where IPD and OPD are off their working rows are zero. -/
theorem mapParams_phases_off {q : Params} (h : q.enableIpdopd = false) (b : Bool) (e k : Nat) :
    cellI (mapParams q b).ipd e k = 0 ∧ cellI (mapParams q b).opd e k = 0 := by
  simp only [mapParams, h, Bool.false_eq_true, if_false, cellI_tab_zero, and_self]

/-- Where they are on they are remapped, without the full range. -/
theorem mapParams_phases_on {q : Params} (h : q.enableIpdopd = true) (b : Bool) :
    (mapParams q b).ipd = remapTo b q.ipdPar q.nrIpdopdPar q.numEnv false
      ∧ (mapParams q b).opd = remapTo b q.opdPar q.nrIpdopdPar q.numEnv false := by
  simp only [mapParams, h, if_true, and_self]

end

/-! ## The change of resolution (R261, R263, R264) -/

/-- The parameters of a frame that continues the one before in the same resolution, with nothing to copy forward. -/
def Params.settledAt (q : Params) (b : Bool) : Params := { q with is34bandsOld := b, numEnvOld := 0 }

/-- With nothing to copy and no change of resolution the carry-over changes nothing. -/
theorem carryOver_settled (c : Config) (q : Params) (b : Bool) (d : Dsp) : carryOver c (q.settledAt b) b d = d := by
  unfold carryOver Params.settledAt
  simp only [Nat.lt_irrefl, if_false, bne_self_eq_false, Bool.false_eq_true]

/-- STEREO_PROCESS does what it does from the state with the carry-over already done. -/
theorem stereo_of_carried (s : State) (b : Bool) :
    ((s.withParams (s.params.settledAt b)).withDsp (carryOver s.cfg s.params b s.dsp)).stereo b
      = (s.stereo b).withParams (s.params.settledAt b) := by
  have hrun : stereo s.cfg (s.params.settledAt b) b (mapParams s.params b)
      ⟨carryOver s.cfg s.params b s.dsp, s.work.lbuf, s.work.rbuf⟩
      = stereo s.cfg s.params b (mapParams s.params b) ⟨s.dsp, s.work.lbuf, s.work.rbuf⟩ := by
    unfold stereo
    rw [carryOver_settled]
    rfl
  have hmapped : mapParams (s.params.settledAt b) b = mapParams s.params b := rfl
  simp only [State.stereo, withDsp_cfg, withParams_cfg, withDsp_params, withParams_params, withDsp_work,
    withParams_work, withDsp_dsp, hmapped, hrun]
  rfl

/-! ## The samples over the reals (R275) -/

/-- A quadruple of finite coefficients. -/
def finCoef (x : Fin 4 → Rat) : Coef := ⟨.fin (x 0), .fin (x 1), .fin (x 2), .fin (x 3)⟩

section
variable {c : Config} (hc : c.fmt = .exact)
include hc

theorem advanceCoef_fin (h g : Fin 4 → Rat) : advanceCoef c (finCoef h) (finCoef g) = finCoef fun i => h i + g i := by
  simp only [advanceCoef, Coef.map2, finCoef, PsNum.add, rnd_exact hc]

theorem walked_fin (h g : Fin 4 → Rat) (j : Nat) :
    walked c j (finCoef h, finCoef g) = finCoef fun i => h i + j * g i := by
  induction j generalizing h with
  | zero => simp only [walked, Function.iterate_zero, id, Nat.cast_zero, zero_mul, add_zero]
  | succ j ih =>
    have hstep : advanced c (finCoef h, finCoef g) = (finCoef fun i => h i + g i, finCoef g) :=
      congrArg (·, finCoef g) (advanceCoef_fin hc h g)
    rw [walked, Function.iterate_succ_apply, hstep]
    refine (ih _).trans (congrArg finCoef (funext fun i => ?_))
    push_cast
    ring

theorem mixSum_fin (a x b y : Rat) : mixSum c [(.fin a, .fin x), (.fin b, .fin y)] = .fin (a * x + b * y) := by
  simp only [mixSum, List.map_cons, List.map_nil, PsNum.mul, rndIf, rnd_exact hc, ite_self, List.foldl_cons,
    List.foldl_nil, PsNum.add]

theorem mixReal_fin (x : Fin 4 → Rat) (l r : Rat × Rat) : mixReal c (finCoef x) (finCx l) (finCx r)
    = (finCx (x 0 * l.1 + x 2 * r.1, x 0 * l.2 + x 2 * r.2), finCx (x 1 * l.1 + x 3 * r.1, x 1 * l.2 + x 3 * r.2)) := by
  simp only [mixReal, finCoef, finCx, mixSum_fin hc]

/-- Sample `j` of an envelope is mixed with the start matrix plus `j + 1` steps, and the samples outside the envelope
are not touched. -/
theorem mixSamples_fin {count n len : Nat} {h g : Fin 4 → Rat} {l r : Nat → Rat × Rat} (hlen : n + count ≤ len) :
    let out := mixSamples c count n (finCoef h, finCoef g) none (tab len fun i => finCx (l i))
      (tab len fun i => finCx (r i))
    (∀ j, j < count →
      let x := fun i => h i + (j + 1 : Nat) * g i
      cell Cx.zero out.1 (n + j)
          = finCx (x 0 * (l (n + j)).1 + x 2 * (r (n + j)).1, x 0 * (l (n + j)).2 + x 2 * (r (n + j)).2)
        ∧ cell Cx.zero out.2 (n + j)
          = finCx (x 1 * (l (n + j)).1 + x 3 * (r (n + j)).1, x 1 * (l (n + j)).2 + x 3 * (r (n + j)).2))
    ∧ ∀ i, i < len → i < n ∨ n + count ≤ i →
      cell Cx.zero out.1 i = finCx (l i) ∧ cell Cx.zero out.2 i = finCx (r i) := by
  intro out
  have hold : ∀ i, i < len → pairAt (tab len fun i => finCx (l i), tab len fun i => finCx (r i)) i
      = (finCx (l i), finCx (r i)) := fun i hi => by
    simp only [pairAt, cell_tab, if_pos hi]
  refine ⟨fun j hj => Prod.mk.inj ?inside, fun i hi hout => Prod.mk.inj ?outside⟩
  case inside =>
    have hslot : n + j < len := by omega
    refine (mixSamples_inside c _ _ _ _ hj (by rwa [tab_length]) (by rwa [tab_length])).trans ?_
    rw [hold _ hslot, walked_fin hc]
    exact mixReal_fin hc _ _ _
  case outside => exact (mixSamples_outside c _ _ _ _ hout).trans (hold i hi)

end

end Sys2Proof.Machine
end

section
/-! What STEREO_PROCESS does: the statements about the stereo mixer. -/

namespace Sys2Proof.Machine

/-- Settles O45: the frame of the targets and of the mixed rows, and the remap by the band count in each resolution. -/
theorem stereoFrame : Obligations.StereoFrame := by
  intro s b hs q through remapped
  have hremap : ∀ src n full, remapped src n full (remapTo b src n q.numEnv full) := fun src n full => by
    refine ⟨?to20, ?to34⟩
    case to20 =>
      rintro rfl
      exact remapTo_false_cases src n q.numEnv full
    case to34 =>
      rintro rfl
      exact remapTo_true_cases src n q.numEnv full
  refine ⟨_, exec_stereoProcess hs b, ⟨fun _ => rfl, fun _ _ _ => rfl, fun _ _ _ => rfl⟩,
    congrArg (·.withStatus .ok) (stereo_frame s b), fun k n hk => Prod.mk.inj ?rows, rfl, hremap _ _ _, hremap _ _ _,
    fun hon => ?phasesOn, fun hoff => mapParams_phases_off hoff b, fun x part slot k hslot hrest => ?cells⟩
  case rows =>
    refine (stereo_pair s b k n).trans ?_
    rw [mixAfter_rows_high s.cfg s.params b _ _ _ hk, mixStart_pair]
  case phasesOn =>
    obtain ⟨hipd, hopd⟩ := mapParams_phases_on hon b
    rw [withStatus_work, stereo_mapped, hipd, hopd]
    exact ⟨hremap _ _ _, hremap _ _ _⟩
  case cells =>
    rw [withStatus_dsp, stereo_dsp_eq, targetsAfter_other _ _ _ _ _ _ _ hrest, carryOver_other _ _ _ _ _ _ _ _ hslot]

/-- Settles O46: no envelope stores into slot 0, and the carry-over puts the row of the frame before there. -/
theorem matrixCarryOver : Obligations.MatrixCarryOver := by
  intro s b x part hs hshaped hpart hold row
  refine ⟨_, exec_stereoProcess hs b, ?_⟩
  have hslots : 0 < (cell [] (s.dsp.mat x) part).length := by
    obtain ⟨hlen, -⟩ := shape2_iff.mp (shape3_cell (((Dsp.shaped_iff _ _).mp hshaped).mats x) hpart)
    omega
  rw [withStatus_dsp, stereo_dsp_eq, targetsAfter_row_zero, carryOver_mat, carriedMat_row_zero _ _ _ hslots]
  cases b <;> rfl

/-- Settles O47: `stereo_of_carried`, with the carry-over written out for a change of resolution. -/
theorem phaseHistoryReset : Obligations.PhaseHistoryReset := by
  intro s b hs hb carried q
  let start := (s.withParams (s.params.settledAt b)).withDsp (carryOver s.cfg s.params b s.dsp)
  have hmat : carriedMat s.cfg s.params b = carried := funext fun x => by
    simp only [carriedMat, carriedRow, if_neg hb, carried]
  have hhist : ∀ hist, carriedHist s.params b hist = hist.map fun _ => 0 := fun hist => if_neg hb
  have hdsp : carryOver s.cfg s.params b s.dsp = { s.dsp with
      h11 := carried s.dsp.h11, h12 := carried s.dsp.h12, h21 := carried s.dsp.h21, h22 := carried s.dsp.h22
      ipdHist := s.dsp.ipdHist.map fun _ => 0, opdHist := s.dsp.opdHist.map fun _ => 0 } := by
    rw [carryOver_eq, hmat, hhist, hhist]
    rfl
  refine ⟨_, exec_stereoProcess hs b, ?run, fun hnone k => ?cleared⟩
  case run =>
    have hrun : exec (.stereoProcess b) start = .next ((start.stereo b).withStatus .ok) :=
      exec_stereoProcess (s := start) hs b
    rw [stereo_of_carried] at hrun
    rw [← hdsp]
    exact hrun
  case cleared =>
    rw [withStatus_dsp, stereo_dsp_eq, hnone]
    exact ⟨(congrArg (cell 0 · k) (congrArg Dsp.ipdHist hdsp)).trans (cell_map_const _ _ _),
      (congrArg (cell 0 · k) (congrArg Dsp.opdHist hdsp)).trans (cell_map_const _ _ _)⟩

/-- Settles O48: the carried history takes up the phases of the envelopes in the bands of the range, and is kept in the
others. -/
theorem phaseHistory : Obligations.PhaseHistory := by
  intro s b k hs hipd hopd m before updated hrange
  have hafter : ∀ (hist : List (BitVec 6)) rows, k < hist.length → (∀ e, iccOk (cellI rows e k) = true) →
      let new := cell 0 (histAfter b rows (carriedHist s.params b hist) s.params.numEnv) k
      (k < nrIpdOpdBands b → updated hist rows new) ∧ (nrIpdOpdBands b ≤ k → new = before hist) := by
    intro hist rows hk hphases new
    have hlen : k < (carriedHist s.params b hist).length := (carriedHist_length _ _ _).symm ▸ hk
    have hstart : cell 0 (carriedHist s.params b hist) k = before hist := cell_carriedHist _ _ _ _
    refine ⟨fun hlow => ?_, fun hhigh => (cell_histAfter_high rows hlen hhigh _).trans hstart⟩
    have hnew : new.toNat = phasesAfter rows k (before hist).toNat s.params.numEnv :=
      (cell_histAfter_low rows hlen hlow _).trans (by rw [hstart])
    refine ⟨fun h0 => ?none, fun h1 => ?one, fun h2 => ?more⟩
    case none =>
      rw [h0] at hnew
      exact BitVec.eq_of_toNat_eq hnew
    case one =>
      rw [hnew, h1]
      exact phasesAfter_one rows hphases _
    case more =>
      obtain ⟨n, hn⟩ := Nat.exists_eq_add_of_le' h2
      rw [hnew, hn]
      exact phasesAfter_two rows hphases _ n
  obtain ⟨hipdLow, hipdHigh⟩ := hafter s.dsp.ipdHist m.ipd hipd fun e => (hrange e k).1
  obtain ⟨hopdLow, hopdHigh⟩ := hafter s.dsp.opdHist m.opd hopd fun e => (hrange e k).2
  obtain ⟨hists, hists'⟩ := targetsAfter_hists s.cfg s.params b m (carryOver s.cfg s.params b s.dsp) s.params.numEnv
  refine ⟨_, exec_stereoProcess hs b, ?_⟩
  rw [withStatus_dsp, stereo_dsp_eq, hists, hists', carryOver_ipdHist, carryOver_opdHist]
  exact ⟨fun hk => ⟨hipdLow hk, hopdLow hk⟩, fun hk => ⟨hipdHigh hk, hopdHigh hk⟩⟩

/-- A band below `NR_PAR_BANDS` of an envelope's slot is a cell of the matrices, also after the carry-over. -/
theorem hasCell_carried {s : State} {b : Bool} {e k part : Nat} (hwf : s.cfg.wf = true)
    (hshaped : s.dsp.shaped s.cfg = true) (henv : s.params.numEnv ≤ s.cfg.maxNumEnv) (he : e < s.params.numEnv)
    (hk : k < nrParBands b) (hpart : part < 2) : (carryOver s.cfg s.params b s.dsp).HasCell part (e + 1) k := by
  obtain ⟨-, -, -, -, -, -, -, -, -, -, -, hnr, -⟩ := (Config.wf_iff s.cfg).mp hwf
  exact (hasCell_of_shaped hshaped hpart (he.trans_le henv) (by have := nrParBands_le b; omega)).carryOver
    (Nat.succ_pos e)

/-- Settles O49: the targets of the envelope where nothing is turned are the table entry. -/
theorem targetMatrices : Obligations.TargetMatrices := by
  intro s b e k hs hwf hshaped henv hplain he hk m lut entry
  have hcells : ∀ part, part < 2 → (carryOver s.cfg s.params b s.dsp).HasCell part (e + 1) k := fun part =>
    hasCell_carried hwf hshaped henv he hk
  have hentry : mixEntry s.cfg s.params m e k = ⟨entry 0, entry 1, entry 2, entry 3⟩ := by
    rw [mixEntry_eq, mixTable_eq]
  refine ⟨_, exec_stereoProcess hs b, ?_⟩
  rw [withStatus_dsp, stereo_dsp_eq]
  have hre : ∀ x, cellN3 ((targetsAfter s.cfg s.params b m (carryOver s.cfg s.params b s.dsp) s.params.numEnv).mat x)
      0 (e + 1) k = coefOf x ⟨entry 0, entry 1, entry 2, entry 3⟩ := fun x => by
    rw [cellN3_targetsAfter_re he hk x (hcells 0 (by decide)), targetCoef_plain _ _ _ hplain, hentry]
  refine ⟨hre .h11, hre .h12, hre .h21, hre .h22, fun x => ?_⟩
  rw [cellN3_targetsAfter_im he hk x (hcells 1 (by decide)), targetCoef_plain _ _ _ hplain]
  exact carryOver_other _ _ _ _ _ _ _ _ (Nat.succ_pos e)

theorem nrIpdOpdBands_lt_nrParBands (b : Bool) : nrIpdOpdBands b < nrParBands b := by cases b <;> decide

/-- Settles O50: the target of the envelope is the entry turned by the phases its histories and rows hold. -/
theorem phaseRotation : Obligations.PhaseRotation := by
  intro s b e k hs hwf hshaped he henv hbase hon hk m lut entry history index pd opd ipd adj prod
  let start := carryOver s.cfg s.params b s.dsp
  have hpar : k < nrParBands b := hk.trans (nrIpdOpdBands_lt_nrParBands b)
  have hpath : complexPath s.cfg s.params = true := by rw [complexPath, hbase, hon]; rfl
  have hcells : ∀ part, part < 2 → start.HasCell part (e + 1) k := fun part =>
    hasCell_carried hwf hshaped henv he hpar
  have hlens : k < s.dsp.ipdHist.length ∧ k < s.dsp.opdHist.length := by
    have hshapes := (Dsp.shaped_iff _ _).mp hshaped
    obtain ⟨-, -, -, -, -, -, -, -, -, -, -, -, hnr, -⟩ := (Config.wf_iff s.cfg).mp hwf
    have hle : nrIpdOpdBands b ≤ 17 := by cases b <;> decide
    rw [hshapes.ipdHist, hshapes.opdHist]
    omega
  have hentry : mixEntry s.cfg s.params m e k = ⟨entry 0, entry 1, entry 2, entry 3⟩ := by
    rw [mixEntry_eq, mixTable_eq]
    simp only [hbase, Bool.false_eq_true, false_or]
    rfl
  have hhistory : ∀ (hist : List (BitVec 6)) rows, k < hist.length →
      smoothIndex (cell 0 (histAfter b rows (carriedHist s.params b hist) e) k) (cellI rows e k) = index hist rows := by
    intro hist rows hlen
    have hphases := cell_histAfter_low (is34 := b) rows ((carriedHist_length s.params b hist).symm ▸ hlen) hk e
    rw [smoothIndex, hphases, cell_carriedHist, apply_ite BitVec.toNat]
    rfl
  obtain ⟨hists, hists'⟩ := targetsAfter_hists s.cfg s.params b m start e
  have htarget : targetCoef s.cfg s.params b m (targetsAfter s.cfg s.params b m start e) e k
      = Prod.map id some (rotate s.cfg ⟨entry 0, entry 1, entry 2, entry 3⟩ (index s.dsp.opdHist m.opd)
        (index s.dsp.ipdHist m.ipd)) := by
    rw [targetCoef_turned m _ e hpath hk, hentry, hists, hists', carryOver_ipdHist, carryOver_opdHist,
      hhistory _ _ hlens.1, hhistory _ _ hlens.2]
  refine ⟨_, exec_stereoProcess hs b, ?_⟩
  rw [withStatus_dsp, stereo_dsp_eq]
  have hre := fun x => (cellN3_targetsAfter_re he hpar x (hcells 0 (by decide))).trans
    (congrArg (fun t => coefOf x t.1) htarget)
  have him := fun x => (cellN3_targetsAfter_im he hpar x (hcells 1 (by decide))).trans
    (congrArg (fun t : Coef × Option Coef => (t.2.map (coefOf x)).getD (cellN3 (start.mat x) 1 (e + 1) k))
      htarget)
  exact ⟨hre .h11, him .h11, hre .h12, him .h12, hre .h21, him .h21, hre .h22, him .h22⟩

/-- Settles O51: no envelope touches the slot. -/
theorem samplesOutsideEnvelopes : Obligations.SamplesOutsideEnvelopes := by
  intro s b hs hborder
  refine ⟨_, exec_stereoProcess hs b, fun k n hout => Prod.mk.inj ?_⟩
  exact ((stereo_pair s b k n).trans (mixAfter_outside s.cfg b hborder _ _ k (Nat.zero_le _) fun e _ => hout e)).trans
    (mixStart_pair s b k n)

/-- Settles O52: over the reals by the number of steps of the sample (`mixSamples_fin`), and in every format by the
walk between the two slots of the envelope (`stereo_sample`), told coefficient by coefficient. -/
theorem linearInterpolation : Obligations.LinearInterpolation := by
  refine ⟨fun _ _ _ _ _ _ _ _ hc hlen => mixSamples_fin hc hlen, fun s b hs hshaped => ?_⟩
  intro border hborder hrise
  refine ⟨_, exec_stereoProcess hs b, fun e k n he hk hn hafter hupTo => ?_⟩
  intro i steps width walk slot flip re im l r sum mixRe mixCx
  have hsample := stereo_sample hshaped hborder hrise he hk hn ⟨hafter, hupTo⟩
  have hwidth : widthOf s.cfg s.params e = width := by
    have hspan : spanOf s.params e ≠ 0 := Int.ne_of_gt (sub_pos.mpr (hafter.trans_le hupTo))
    rw [widthOf, if_pos hspan]
    rfl
  have hre : walked s.cfg steps (realWalk s.cfg s.params b (s.stereo b).dsp e k)
      = ⟨re .h11, re .h12, re .h21, re .h22⟩ := eq_of_coefOf_eq <| fun x => by
    rw [realWalk, coefOf_walked_stepOf, coefOf_coefAt, coefOf_coefAt, hwidth]
    cases x <;> rfl
  have him : walked s.cfg steps (imagWalk s.cfg s.params b (s.stereo b).dsp e k)
      = ⟨im .h11, im .h12, im .h21, im .h22⟩ := eq_of_coefOf_eq <| fun x => by
    rw [imagWalk, coefOf_walked_stepOf, coefOf_startIm, coefOf_coefAt, coefOf_coefAt, hwidth]
    simp only [signFlip_iff]
    cases x <;> rfl
  refine ⟨fun hreal => Prod.mk.inj (hsample.trans ?real), fun hbase hon => Prod.mk.inj (hsample.trans ?complex)⟩
  case real =>
    have hpath : complexPath s.cfg s.params = false := by
      rcases hreal with hbase | hoff
      · rw [complexPath, hbase]; rfl
      · rw [complexPath, hoff, Bool.and_false]
    rw [hre, imagWalk?, hpath]
    rfl
  case complex =>
    have hpath : complexPath s.cfg s.params = true := by rw [complexPath, hbase, hon]; rfl
    rw [hre, imagWalk?, if_pos hpath, Option.map_some, him]
    rfl

end Sys2Proof.Machine
end

section
/-! SUPPORT. The frame driver and the housekeeping commands: each on a state where it may run, APPLY as a frame of its two
syntheses, what its first step clears, and the cells of the state after RESET. -/

namespace Sys2Proof.Machine

/-! ## The commands where they may run -/

theorem exec_apply {s : State} (hs : s.ready) {k : Int} (hlow : 0 ≤ k) (hhigh : k ≤ 64) :
    exec (.apply k) s = .next ((s.applyFrame k).withStatus .ok) :=
  (execApply_eq hs k).trans (if_pos ⟨hlow, hhigh⟩)

theorem exec_reset {s : State} (hs : s.ready) : exec .reset s = .next s.resetInstance :=
  show execReset s = _ from execReset_eq hs

theorem exec_initTables {s : State} (hp : s.parse = none) :
    exec .initTables s = .next { s with tablesReady := true, status := .ok } :=
  show execInitTables s = _ from whenIdle_eq hp

/-! ## The engines keep the state ready, and read no status -/

section
variable (s : State) (x y : Status) (b : Bool) (buf : HybBuf) (dst : HostBuf)

theorem ready_analysis (hs : s.ready) : ((s.analysis b).withStatus x).ready := hs

theorem ready_decorrelate (hs : s.ready) : ((s.decorrelate buf b).withStatus x).ready := hs

theorem ready_stereo (hs : s.ready) : ((s.stereo b).withStatus x).ready := hs

theorem ready_synthesis (hs : s.ready) : ((s.synthesis buf b dst).withStatus x).ready := hs

theorem withStatus_withStatus : (s.withStatus x).withStatus y = s.withStatus y := rfl

theorem decorrelate_withStatus : (s.withStatus x).decorrelate buf b = (s.decorrelate buf b).withStatus x := rfl

theorem stereo_withStatus : (s.withStatus x).stereo b = (s.stereo b).withStatus x := rfl

theorem synthesis_withStatus : (s.withStatus x).synthesis buf b dst = (s.synthesis buf b dst).withStatus x := rfl

end

/-! ## APPLY, its two syntheses apart (`46_frame_driver.md` R292) -/

/-- The host supplies another `R`. -/
def State.withRight (s : State) (other : List (List (List PsNum))) : State :=
  s.withHost { s.host with bufR := other }

section
variable (s : State) (k : Int) (b : Bool) (buf : HybBuf) (other : List (List (List PsNum)))

theorem withRight_self : s.withRight s.host.bufR = s := rfl

theorem withDsp_withRight (d : Dsp) : (s.withRight other).withDsp d = (s.withDsp d).withRight other := rfl

theorem analysis_withRight : (s.withRight other).analysis b = (s.analysis b).withRight other := rfl

theorem decorrelate_withRight : (s.withRight other).decorrelate buf b = (s.decorrelate buf b).withRight other := rfl

theorem stereo_withRight : (s.withRight other).stereo b = (s.stereo b).withRight other := rfl

/-- The state before the syntheses of APPLY: cleared, analysed, decorrelated and mixed. -/
def State.mixedFrame : State :=
  let is34 := s.params.is34bands
  (((s.withDsp (s.dsp.clearAbove is34 (topOf is34 k))).analysis is34).decorrelate .lbuf is34).stereo is34

theorem applyFrame_eq_synthesis : s.applyFrame k =
    ((s.mixedFrame k).synthesis .lbuf s.params.is34bands .left).synthesis .rbuf s.params.is34bands .right := rfl

/-- No step before the syntheses reads `R`. -/
theorem mixedFrame_withRight : (s.withRight other).mixedFrame k = (s.mixedFrame k).withRight other := by
  simp only [State.mixedFrame, ← analysis_withRight, ← decorrelate_withRight, ← stereo_withRight, ← withDsp_withRight]
  rfl

/-- The steps before the syntheses change the DSP state and the working buffers only. -/
theorem mixedFrame_frame : ∃ d w, s.mixedFrame k = { s with dsp := d, work := w } := by
  cases s
  exact ⟨_, _, rfl⟩

/-- APPLY changes the DSP state, the working buffers and the host's two sample buffers, and nothing else; and with any
`R` to start from it synthesises the same working buffers. -/
theorem applyFrame_frame : ∃ d w, ∀ other, (s.withRight other).applyFrame k = { s with
    dsp := d
    work := w
    host := { s.host with
      bufL := Machine.synthesis s.cfg s.params.is34bands w.lbuf s.host.bufL
      bufR := Machine.synthesis s.cfg s.params.is34bands w.rbuf other } } := by
  obtain ⟨d, w, hmixed⟩ := mixedFrame_frame s k
  refine ⟨d, w, fun other => ?_⟩
  rw [applyFrame_eq_synthesis, mixedFrame_withRight, hmixed]
  rfl

end

/-! ## What the first step of APPLY clears (`46_frame_driver.md` R291) -/

/-- A computed array whose every cell comes from the same cell of an array of that length. -/
theorem tab_cell_eq_mapIdx {α β : Type} (d : α) {n : Nat} {l : List α} (hlen : l.length = n) (f : Nat → α → β) :
    (tab n fun k => f k (cell d l k)) = l.mapIdx f := by
  refine List.ext_getElem (by simp [hlen]) fun k hk hk' => ?_
  have hkl : k < l.length := by simpa using hk'
  simp [tab, cell_in d l k hkl]

theorem mapIdx_eq_self {α : Type} (l : List α) {f : Nat → α → α} (hf : ∀ i x, f i x = x) : l.mapIdx f = l :=
  List.ext_getElem List.length_mapIdx fun i _ _ => List.getElem_mapIdx.trans (hf i _)

section
variable {c : Config} {d : Dsp} (h : d.Shapes c) (is34 : Bool)
include h

theorem clearAbove_eq_mapIdx (top : Int) : d.clearAbove is34 top = { d with
    delay := d.delay.mapIdx fun i row =>
      if top ≤ (i : Int) ∧ i < nrBands is34 then row.map fun _ => Cx.zero else row
    apDelay := d.apDelay.mapIdx fun i links =>
      if top ≤ (i : Int) ∧ i < nrAllpassBands is34 then links.map fun row => row.map fun _ => Cx.zero
      else links } := by
  have hdelay : d.delay.length = hybMax := (shape2_iff.mp h.delay).1
  have hap : d.apDelay.length = 50 := (shape3_iff.mp h.apDelay).1
  rw [← tab_cell_eq_mapIdx [] hdelay, ← tab_cell_eq_mapIdx [] hap]
  simp only [Dsp.clearAbove, Bool.and_eq_true, decide_eq_true_eq]

/-- No subband lies at or above `NR_BANDS`, and no all-pass line does. -/
theorem clearAbove_nrBands : d.clearAbove is34 (nrBands is34) = d := by
  have hap : nrAllpassBands is34 ≤ nrBands is34 := by cases is34 <;> decide
  have hnone : ∀ i n : Nat, n ≤ nrBands is34 → ¬((nrBands is34 : Int) ≤ (i : Int) ∧ i < n) := by omega
  rw [clearAbove_eq_mapIdx h, mapIdx_eq_self d.delay fun i _ => if_neg (hnone i _ le_rfl),
    mapIdx_eq_self d.apDelay fun i _ => if_neg (hnone i _ hap)]

end

theorem topOf_64 (is34 : Bool) : topOf is34 64 = nrBands is34 := by
  unfold topOf
  omega

/-- The clearing done beforehand leaves nothing to clear: APPLY goes on as with `topBand = 64`. -/
theorem applyFrame_of_cleared {s : State} (h : s.dsp.Shapes s.cfg) (k : Int) :
    (s.withDsp (s.dsp.clearAbove s.params.is34bands (topOf s.params.is34bands k))).applyFrame 64 = s.applyFrame k := by
  have hkeeps := clearAbove_nrBands (h.clearAbove s.params.is34bands (topOf s.params.is34bands k)) s.params.is34bands
  simp only [State.applyFrame, withDsp_params, withDsp_dsp, topOf_64, hkeeps]
  rfl

/-! ## The cells after RESET (`10_state.md` R46) -/

theorem cell_rep_self {α : Type} (z : α) (n k : Nat) : cell z (rep n z) k = z := by
  rw [cell_rep, ite_self]

theorem cellC_rep_zero (n m k j : Nat) : cellC (rep n (rep m Cx.zero)) k j = Cx.zero := by
  rw [cellC, cell_rep]
  split_ifs
  · exact cell_rep_self _ _ _
  · rfl

theorem cellN3_zeroH (c : Config) (p e b : Nat) : cellN3 (zeroH c) p e b = .zero := by
  rw [cellN3, zeroH, cell_rep]
  split_ifs
  · rw [cell_rep]
    split_ifs
    · exact cell_rep_self _ _ _
    · rfl
  · rfl

theorem mat_zero (c : Config) (x : Mat) : (Dsp.zero c).mat x = zeroH c := by
  cases x <;> rfl

theorem cellC_apDelay_zero (c : Config) (k m j : Nat) : cellC (cell [] (Dsp.zero c).apDelay k) m j = Cx.zero := by
  rw [Dsp.zero, cell_rep]
  split_ifs
  · exact cellC_rep_zero _ _ _ _
  · rfl

end Sys2Proof.Machine
end

section
/-! What APPLY, INIT_TABLES and RESET do: the statements about the frame driver. -/

namespace Sys2Proof.Machine

/-- Settles O53: the frame of APPLY, and the rows no synthesis writes. -/
theorem applyCompletes : Obligations.ApplyCompletes := by
  intro s k hs hlow hhigh
  obtain ⟨d, w, hframe⟩ := applyFrame_frame s k
  have hself := hframe s.host.bufR
  rw [withRight_self] at hself
  have hrun := exec_apply hs hlow hhigh
  rw [hself] at hrun
  exact ⟨_, hrun, rfl, rfl, rfl, rfl, rfl, hs.2, rfl, rfl, fun _ => rfl, fun p r q hr hleft hright =>
    ⟨cellN3_synthesis_rest _ _ _ _ hleft p hr q, cellN3_synthesis_rest _ _ _ _ hright p hr q⟩⟩

/-- Settles O54: each engine runs as a command of its own, and the statuses between them leave no trace. -/
theorem applyIsItsEngines : Obligations.ApplyIsItsEngines := by
  intro s k hs hlow hhigh is34
  let s1 := s.withDsp (s.dsp.clearAbove is34 (topOf is34 k))
  let s2 := (s1.analysis is34).withStatus .ok
  let s3 := (s2.decorrelate .lbuf is34).withStatus .ok
  let s4 := (s3.stereo is34).withStatus .ok
  let s5 := (s4.synthesis .lbuf is34 .left).withStatus .ok
  have hs1 : s1.ready := hs
  have hs2 : s2.ready := ready_analysis s1 .ok is34 hs1
  have hs3 : s3.ready := ready_decorrelate s2 .ok is34 .lbuf hs2
  have hs4 : s4.ready := ready_stereo s3 .ok is34 hs3
  have hs5 : s5.ready := ready_synthesis s4 .ok is34 .lbuf .left hs4
  have hengines : (s.applyFrame k).withStatus .ok = (s5.synthesis .rbuf is34 .right).withStatus .ok := by
    simp only [State.applyFrame, s5, s4, s3, s2, s1, is34, decorrelate_withStatus, stereo_withStatus,
      synthesis_withStatus, withStatus_withStatus]
  change _ = execAll _ s1
  rw [exec_apply hs hlow hhigh, hengines, execAll_cons_of_next (exec_hybridAnalysis hs1 is34),
    execAll_cons_of_next (exec_decorrelate hs2 .lbuf is34), execAll_cons_of_next (exec_stereoProcess hs3 is34),
    execAll_cons_of_next (exec_hybridSynthesis hs4 .lbuf is34 .left), execAll_singleton,
    exec_hybridSynthesis hs5 .rbuf is34 .right]

/-- Settles O55: the state with the lines zeroed is the cleared one, and from there `topBand = 64` clears nothing. -/
theorem applyClears : Obligations.ApplyClears := by
  intro s k hs hlow hhigh hshaped is34 top
  have hshapes := (Dsp.shaped_iff s.cfg s.dsp).mp hshaped
  let cleared := s.withDsp (s.dsp.clearAbove is34 top)
  have hrun : exec (.apply 64) cleared = .next ((cleared.applyFrame 64).withStatus .ok) :=
    exec_apply (s := cleared) hs (by decide) le_rfl
  rw [show cleared.applyFrame 64 = s.applyFrame k from applyFrame_of_cleared hshapes k] at hrun
  refine ⟨_, exec_apply hs hlow hhigh, ?_⟩
  rw [← clearAbove_eq_mapIdx hshapes]
  exact hrun

/-- Settles O56: the two runs synthesise the same buffers, and rows 32 to 37 of `R` are those each one was given. -/
theorem applyIgnoresRight : Obligations.ApplyIgnoresRight := by
  intro s k other hs hlow hhigh
  obtain ⟨d, w, hframe⟩ := applyFrame_frame s k
  have hself := hframe s.host.bufR
  rw [withRight_self] at hself
  have hrun := exec_apply hs hlow hhigh
  have hother := exec_apply (s := s.withRight other) hs hlow hhigh
  rw [hself] at hrun
  rw [hframe] at hother
  refine ⟨_, _, hrun, hother, rfl, fun p r q hp hq => ?cells⟩
  have hcell : ∀ old, r < 38 → cellN3 (Machine.synthesis s.cfg s.params.is34bands w.rbuf old) p r q = _ :=
    fun old hr => cellN3_synthesis _ _ _ old hp hr hq
  refine ⟨fun hr => ?written, fun hrest hr => ?kept⟩
  case written => exact ((hcell other (by omega)).trans (if_pos hr)).trans ((hcell _ (by omega)).trans (if_pos hr)).symm
  case kept =>
    have hnot : ¬r < numSlots := Nat.not_lt.mpr hrest
    exact ⟨(hcell _ hr).trans (if_neg hnot), (hcell _ hr).trans (if_neg hnot)⟩

/-- Settles O57, by INIT_TABLES between two commands, once and on its own result. -/
theorem initTablesResult : Obligations.InitTablesResult := by
  intro s hp
  have hfirst := exec_initTables hp
  refine ⟨hfirst, ?twice⟩
  rw [execAll_cons_of_next hfirst, execAll_singleton, hfirst]
  exact exec_initTables (s := { s with tablesReady := true, status := .ok }) hp

/-- Settles O58: every array RESET puts in is made of zeros, and all of it depends on the configuration only. -/
theorem resetResult : Obligations.ResetResult := by
  intro s hs
  refine ⟨s.resetInstance, exec_reset hs, rfl, rfl, ⟨fun _ => rfl, fun _ _ _ => rfl, fun _ _ _ => rfl⟩, hs.1, hs.2, rfl,
    rfl, Params.zero_arraysZero s.cfg, rfl, rfl, rfl, rfl, rfl, rfl, rfl, rfl, rfl, rfl, rfl, rfl,
    fun _ => cell_rep_self _ _ _, rfl, rfl, rfl, fun x p e b => ?matrices,
    fun _ => ⟨cell_rep_self _ _ _, cell_rep_self _ _ _⟩,
    fun _ _ => ⟨cellC_rep_zero _ _ _ _, cellC_rep_zero _ _ _ _⟩, cellC_apDelay_zero s.cfg,
    fun _ => ⟨cell_rep_self _ _ _, cell_rep_self _ _ _, cell_rep_self _ _ _⟩, fun s' t' hs' hcfg hrun => ?noTrace⟩
  case matrices => rw [resetInstance_dsp, mat_zero, cellN3_zeroH]
  case noTrace =>
    obtain rfl : s'.resetInstance = t' := by
      rw [exec_reset hs'] at hrun
      exact Host.Outcome.next.inj hrun
    simp only [resetInstance_params, resetInstance_dsp, resetInstance_work, hcfg, and_self]

end Sys2Proof.Machine
end

section
/-! What a command but READ_DATA leaves when it has run: the statement about the commands that cannot fail
(`60_exceptions.md` R330). -/

namespace Sys2Proof.Machine

/-! ## The host cursor is READ_DATA's (`20_memory.md` R79) -/

@[simp] theorem synthesis_hostpos (s : State) (x : HybBuf) (b : Bool) (d : HostBuf) :
    (s.synthesis x b d).host.hostpos = s.host.hostpos := setBuf_hostpos ..

@[simp] theorem applyFrame_hostpos (s : State) (k : Int) : (s.applyFrame k).host.hostpos = s.host.hostpos := by
  simp [State.applyFrame]

@[simp] theorem applyFrame_parse (s : State) (k : Int) : (s.applyFrame k).parse = s.parse := by
  simp [State.applyFrame]

/-! ## Completion without failure -/

/-- From `s` a command has completed in `t`: status Ok, and neither the parse nor the host cursor has moved. -/
structure CompletesOk (s t : State) : Prop where
  status : t.status = .ok
  parse : t.parse = s.parse
  cursor : t.host.hostpos = s.host.hostpos

/-- The one next state of an outcome. -/
theorem CompletesOk.of_next {s t u : State} {o : Out} (h : o = .next t) (ho : o = .next u) (hu : CompletesOk s u) :
    CompletesOk s t :=
  Host.Outcome.next.inj (ho.symm.trans h) ▸ hu

/-- An engine that moves neither the parse nor the cursor, and the status Ok after it. -/
theorem CompletesOk.engine {s u : State} (hparse : u.parse = s.parse) (hcursor : u.host.hostpos = s.host.hostpos) :
    CompletesOk s (u.withStatus .ok) :=
  ⟨rfl, hparse, hcursor⟩

/-- APPLY answers a next state for a `topBand` in 0..64 only (`46_frame_driver.md` R290). -/
theorem exec_apply_completesOk {s t : State} {k : Int} (hs : s.ready) (h : exec (.apply k) s = .next t) :
    CompletesOk s t := by
  have hrun : execApply k s = .next t := h
  rw [execApply_eq hs] at hrun
  split_ifs at hrun with hk
  exact .of_next hrun rfl (.engine (applyFrame_parse s k) (applyFrame_hostpos s k))

/-- Every command but READ_DATA completes so, from a state without a parse: INIT_TABLES by itself, the others from a
ready state, on which each has one next state. -/
theorem exec_command_completesOk {i : Instr} {s t : State} (hi : i.isElement = false) (hread : ∀ n, i ≠ .readData n)
    (h : exec i s = .next t) : CompletesOk s t := by
  obtain ⟨hp, -⟩ := exec_command_effect hi h
  by_cases hinit : i = .initTables
  · subst hinit
    exact .of_next h (exec_initTables hp) ⟨rfl, rfl, rfl⟩
  have hs : s.ready := exec_next_ready hi hinit h
  cases i with
  | initTables => exact absurd rfl hinit
  | readData n => exact absurd rfl (hread n)
  | reset => exact .of_next h (exec_reset hs) ⟨rfl, rfl, rfl⟩
  | apply k => exact exec_apply_completesOk hs h
  | remap20 f n e full => exact .of_next h (exec_remap20 hs f n e full) ⟨rfl, rfl, rfl⟩
  | remap34 f n e full => exact .of_next h (exec_remap34 hs f n e full) ⟨rfl, rfl, rfl⟩
  | remapVal20 r => exact .of_next h (exec_remapVal20 hs r) ⟨rfl, rfl, rfl⟩
  | remapVal34 r => exact .of_next h (exec_remapVal34 hs r) ⟨rfl, rfl, rfl⟩
  | hybridAnalysis b => exact .of_next h (exec_hybridAnalysis hs b) (.engine rfl rfl)
  | decorrelate x b => exact .of_next h (exec_decorrelate hs x b) (.engine rfl rfl)
  | stereoProcess b => exact .of_next h (exec_stereoProcess hs b) (.engine rfl rfl)
  | hybridSynthesis x b d =>
    exact .of_next h (exec_hybridSynthesis hs x b d) (.engine rfl (synthesis_hostpos s x b d))
  | _ => cases hi

/-- Settles O27: a command runs with no parse in progress, and every one but READ_DATA completes with status Ok, the parse
and the cursor as they were. -/
theorem commandsNeverFail : Obligations.CommandsNeverFail := by
  intro i s t hi hread h
  obtain ⟨hidle, -⟩ := exec_command_effect hi h
  obtain ⟨hstatus, hparse, hcursor⟩ := exec_command_completesOk hi hread h
  exact ⟨hstatus, hparse.trans hidle, hcursor⟩

end Sys2Proof.Machine
end

section
/-! SUPPORT. What every payload element does at its place of the grammar, said once: `ElementRun` has one case per
element, and an element that answers a next state is one of them. -/

namespace Sys2Proof.Machine

/-! ## The elements before the parameter rows, at their place -/

section
variable {s : State} {p : Parse} (hp : s.parse = some p)
include hp

theorem exec_psHeader (hph : p.phase = .psHeader) (v : Bool) : exec (.psHeader v) s = .next
    (s.goto { p.advance 1 with header := v } (if v then .enableIid else .frameClass)) :=
  show execPsHeader v s = _ from element_at hp hph rfl

theorem exec_enableIid (hph : p.phase = .enableIid) (v : Bool) : exec (.enableIid v) s = .next
    ((s.withParams { s.params with enableIid := v }).goto (p.advance 1) (if v then .iidMode else .enableIcc)) :=
  show execEnableIid v s = _ from element_at hp hph rfl

theorem exec_enableIcc (hph : p.phase = .enableIcc) (v : Bool) : exec (.enableIcc v) s = .next
    ((s.withParams { s.params with enableIcc := v }).goto (p.advance 1) (if v then .iccMode else .enableExt)) :=
  show execEnableIcc v s = _ from element_at hp hph rfl

theorem exec_enableExt (hph : p.phase = .enableExt) (v : Bool) : exec (.enableExt v) s = .next
    ((s.withParams { s.params with enableExt := v }).goto (p.advance 1) .frameClass) :=
  show execEnableExt v s = _ from element_at hp hph rfl

theorem exec_frameClass (hph : p.phase = .frameClass) (v : Bool) : exec (.frameClass v) s = .next
    ((s.withParams { s.params with frameClass := v }).goto (p.advance 1) .numEnvIdx) :=
  show execFrameClass v s = _ from element_at hp hph rfl

/-- PSParameters with the envelope count NUM_ENV_IDX selects; the old count is kept (`41_parameter_decoder.md` R163). -/
def Params.setNumEnv (q : Params) (sel : Nat) : Params :=
  { q with numEnvOld := q.numEnv, numEnv := numEnvTab q.frameClass sel }

theorem exec_numEnvIdx (hph : p.phase = .numEnvIdx) (n : BitVec 2) : exec (.numEnvIdx n) s = .next
    (enterBorders (p.advance 2) (s.withParams (s.params.setNumEnv n.toNat))) :=
  show execNumEnvIdx n s = _ from element_at hp hph rfl

/-- PSParameters with border `e` stored (R164). -/
def Params.setBorder (q : Params) (e : Nat) (v : Int) : Params :=
  { q with borderPosition := q.borderPosition.set e v }

/-- What comes after an explicit border that is not smaller than the one before it (R164). -/
def afterBorder (e : Nat) (p : Parse) (s : State) : State :=
  if e < s.params.numEnv then s.goto p (.border (e + 1)) else enterIid p s

theorem exec_borderPosition {e : Nat} (hph : p.phase = .border e) (b : BitVec 5) : exec (.borderPosition b) s = .next
    (if (b.toNat : Int) < cell 0 s.params.borderPosition (e - 1) then
      errorPath .borderOrder p (s.withParams (s.params.setBorder e b.toNat))
    else afterBorder e (p.advance 5) (s.withParams (s.params.setBorder e b.toNat))) :=
  show execBorderPosition b s = _ from element_at hp hph rfl

theorem exec_extFill (hph : p.phase = .extFill) :
    exec .extFill s = .next (finishParse (p.advance p.cnt.toNat) s) :=
  show execExtFill s = _ from element_at hp hph rfl

end

/-! ## All elements -/

/-- The states the payload elements lead to, each from its place of the grammar. -/
inductive ElementRun (s : State) (p : Parse) : Instr → State → Prop
  | psHeader (v : Bool) (hph : p.phase = .psHeader) :
    ElementRun s p (.psHeader v) (s.goto { p.advance 1 with header := v } (if v then .enableIid else .frameClass))
  | enableIid (v : Bool) (hph : p.phase = .enableIid) :
    ElementRun s p (.enableIid v)
      ((s.withParams { s.params with enableIid := v }).goto (p.advance 1) (if v then .iidMode else .enableIcc))
  | iidMode (m : BitVec 3) (hm : m.toNat ≤ 5) (hph : p.phase = .iidMode) :
    ElementRun s p (.iidMode m)
      ((s.withParams (s.params.setIidMode s.cfg.tables m.toNat)).goto (p.advance 3) .enableIcc)
  | iidModeReserved (m : BitVec 3) (hm : 5 < m.toNat) (hph : p.phase = .iidMode) :
    ElementRun s p (.iidMode m) (errorPath .iidModeReserved p s)
  | enableIcc (v : Bool) (hph : p.phase = .enableIcc) :
    ElementRun s p (.enableIcc v)
      ((s.withParams { s.params with enableIcc := v }).goto (p.advance 1) (if v then .iccMode else .enableExt))
  | iccMode (m : BitVec 3) (hm : m.toNat ≤ 5) (hph : p.phase = .iccMode) :
    ElementRun s p (.iccMode m)
      ((s.withParams (Params.setIccMode { s.params with iccMode := m } s.cfg.tables m.toNat)).goto (p.advance 3)
        .enableExt)
  | iccModeReserved (m : BitVec 3) (hm : 5 < m.toNat) (hph : p.phase = .iccMode) :
    ElementRun s p (.iccMode m) (errorPath .iccModeReserved p (s.withParams { s.params with iccMode := m }))
  | enableExt (v : Bool) (hph : p.phase = .enableExt) :
    ElementRun s p (.enableExt v) ((s.withParams { s.params with enableExt := v }).goto (p.advance 1) .frameClass)
  | frameClass (v : Bool) (hph : p.phase = .frameClass) :
    ElementRun s p (.frameClass v) ((s.withParams { s.params with frameClass := v }).goto (p.advance 1) .numEnvIdx)
  | numEnvIdx (n : BitVec 2) (hph : p.phase = .numEnvIdx) :
    ElementRun s p (.numEnvIdx n) (enterBorders (p.advance 2) (s.withParams (s.params.setNumEnv n.toNat)))
  | border (b : BitVec 5) (e : Nat) (hb : cell 0 s.params.borderPosition (e - 1) ≤ (b.toNat : Int))
    (hph : p.phase = .border e) :
    ElementRun s p (.borderPosition b)
      (afterBorder e (p.advance 5) (s.withParams (s.params.setBorder e b.toNat)))
  | borderOrder (b : BitVec 5) (e : Nat) (hb : (b.toNat : Int) < cell 0 s.params.borderPosition (e - 1))
    (hph : p.phase = .border e) :
    ElementRun s p (.borderPosition b) (errorPath .borderOrder p (s.withParams (s.params.setBorder e b.toNat)))
  | dt (f : Family) (e : Nat) (dt : Bool) (hph : p.phase = dtPhase f e) :
    ElementRun s p (dtInstr f dt) (startRow f e (dataPhase f e · dt) p s)
  | data (f : Family) (e b : Nat) (dt : Bool) (d : Int) (cw : Nat × Nat)
    (hcw : codewordOf (tableFor s.cfg f dt s.params.iidQuant) d = some cw) (hph : p.phase = dataPhase f e b dt) :
    ElementRun s p (dataInstr f d)
      (storeValue f e b (dataPhase f e · dt) cw.2 (deltaValue f s.params p.acc e b dt d) p s)
  | extSize (n : BitVec 4) (hn : n.toNat ≠ 15) (hph : p.phase = .extSize) :
    ElementRun s p (.extSize n) (extLoop { p.advance 4 with cnt := (n.toNat : Int) * 8 } s)
  | extSizeEscape (n : BitVec 4) (hn : n.toNat = 15) (hph : p.phase = .extSize) :
    ElementRun s p (.extSize n) (s.goto { p.advance 4 with cnt := 15 } .extEsc)
  | extEsc (n : BitVec 8) (hph : p.phase = .extEsc) :
    ElementRun s p (.extEsc n) (extLoop { p.advance 8 with cnt := (p.cnt + n.toNat) * 8 } s)
  | extIdIpdOpd (id : BitVec 2) (hid : id.toNat = 0) (hph : p.phase = .extId) :
    ElementRun s p (.extId id) (s.goto { p.advance 2 with extStart := p.pos + 2 } .enableIpdopd)
  | extIdOther (id : BitVec 2) (hid : id.toNat ≠ 0) (hph : p.phase = .extId) :
    ElementRun s p (.extId id) (extLoop { p.advance 2 with cnt := p.cnt - 2 } s)
  | extFill (hph : p.phase = .extFill) : ElementRun s p .extFill (finishParse (p.advance p.cnt.toNat) s)
  | enableIpdopd (hph : p.phase = .enableIpdopd) :
    ElementRun s p (.enableIpdopd true)
      (enterIpdRow 0 (p.advance 1) (s.withParams { s.params with enableIpdopd := true }))
  | disableIpdopd (hph : p.phase = .enableIpdopd) :
    ElementRun s p (.enableIpdopd false)
      ((s.withParams { s.params with enableIpdopd := false }).goto (p.advance 1) .reservedPs)
  | reservedPs (v : Bool) (hph : p.phase = .reservedPs) :
    ElementRun s p (.reservedPs v)
      (extLoop { p.advance 1 with cnt := p.cnt - 2 - ((p.pos : Int) + 1 - p.extStart) } s)

section
variable {s t u : State} {p : Parse} {i : Instr}

theorem ElementRun.of_exec (ho : exec i s = .next u) (h : exec i s = .next t) (hu : ElementRun s p i u) :
    ElementRun s p i t :=
  Host.Outcome.next.inj (ho.symm.trans h) ▸ hu

/-- The words of an element at the place of the parse say which place that is. -/
theorem exec_next_words (hi : i.isElement = true) (h : exec i s = .next t) :
    ∃ p l, s.parse = some p ∧ encodeElement s.cfg (elemCtx s p) i = some l := by
  obtain ⟨p, hp, -⟩ := exec_element_proceeds hi h
  rcases hl : encodeElement s.cfg (elemCtx s p) i with _ | l
  · rcases exec_element_refused hi hp hl with hr | hr <;> cases hr.symm.trans h
  · exact ⟨p, l, hp, hl⟩

/-- A `VLC` element that answers a next state has stored a value. -/
theorem exec_data_run {f : Family} {d : Int} {l : List Bool} (hp : s.parse = some p)
    (hl : encodeElement s.cfg (elemCtx s p) (dataInstr f d) = some l) (h : exec (dataInstr f d) s = .next t) :
    ElementRun s p (dataInstr f d) t := by
  obtain ⟨e, b, dt, hph, hw⟩ := encodeElement_data_eq_some hl
  obtain ⟨cw, hcw, -⟩ := encodeVlc_eq_some hw
  exact .of_exec (exec_data_stores hp hph hcw) h (.data f e b dt d cw hcw hph)

/-- A `dt` element that answers a next state has begun a row. -/
theorem exec_dt_run {f : Family} {dt : Bool} {l : List Bool} (hp : s.parse = some p)
    (hl : encodeElement s.cfg (elemCtx s p) (dtInstr f dt) = some l) (h : exec (dtInstr f dt) s = .next t) :
    ElementRun s p (dtInstr f dt) t := by
  have hplace : ∃ e, p.phase = dtPhase f e := by
    obtain ⟨pos, budget, header, cnt, extStart, acc, phase⟩ := p
    cases f <;> cases phase <;> cases hl <;> exact ⟨_, rfl⟩
  obtain ⟨e, hph⟩ := hplace
  exact .of_exec (exec_dt_at hp hph) h (.dt f e dt hph)

theorem exec_iidMode_run {m : BitVec 3} (hp : s.parse = some p) (hph : p.phase = .iidMode)
    (h : exec (.iidMode m) s = .next t) : ElementRun s p (.iidMode m) t := by
  refine .of_exec (exec_iidMode hp hph m) h ?_
  split_ifs with hm
  · exact .iidModeReserved m hm hph
  · exact .iidMode m (Nat.le_of_not_lt hm) hph

theorem exec_iccMode_run {m : BitVec 3} (hp : s.parse = some p) (hph : p.phase = .iccMode)
    (h : exec (.iccMode m) s = .next t) : ElementRun s p (.iccMode m) t := by
  refine .of_exec (exec_iccMode hp hph m) h ?_
  split_ifs with hm
  · exact .iccModeReserved m hm hph
  · exact .iccMode m (Nat.le_of_not_lt hm) hph

theorem exec_borderPosition_run {b : BitVec 5} {e : Nat} (hp : s.parse = some p) (hph : p.phase = .border e)
    (h : exec (.borderPosition b) s = .next t) : ElementRun s p (.borderPosition b) t := by
  refine .of_exec (exec_borderPosition hp hph b) h ?_
  split_ifs with hb
  · exact .borderOrder b e hb hph
  · exact .border b e (Int.not_lt.mp hb) hph

theorem exec_extSize_run {n : BitVec 4} (hp : s.parse = some p) (hph : p.phase = .extSize)
    (h : exec (.extSize n) s = .next t) : ElementRun s p (.extSize n) t := by
  refine .of_exec (exec_extSize hp hph n) h ?_
  split_ifs with hn
  · exact .extSizeEscape n hn hph
  · exact .extSize n hn hph

theorem exec_extId_run {id : BitVec 2} (hp : s.parse = some p) (hph : p.phase = .extId)
    (h : exec (.extId id) s = .next t) : ElementRun s p (.extId id) t := by
  refine .of_exec (exec_extId hp hph id) h ?_
  split_ifs with hid
  · exact .extIdIpdOpd id hid hph
  · exact .extIdOther id hid hph

theorem exec_enableIpdopd_run {v : Bool} (hp : s.parse = some p) (hph : p.phase = .enableIpdopd)
    (h : exec (.enableIpdopd v) s = .next t) : ElementRun s p (.enableIpdopd v) t := by
  refine .of_exec (exec_enableIpdopd hp hph v) h ?_
  cases v
  · exact .disableIpdopd hph
  · exact .enableIpdopd hph

/-- Every element that answers a next state is one of the cases. -/
theorem exec_element_run (hi : i.isElement = true) (h : exec i s = .next t) :
    ∃ p, s.parse = some p ∧ ElementRun s p i t := by
  obtain ⟨p, l, hp, hl⟩ := exec_next_words hi h
  refine ⟨p, hp, ?_⟩
  obtain ⟨pos, budget, header, cnt, extStart, acc, phase⟩ := p
  cases i with
  | psHeader v =>
    cases phase <;> cases hl
    exact .of_exec (exec_psHeader hp rfl v) h (.psHeader v rfl)
  | enableIid v =>
    cases phase <;> cases hl
    exact .of_exec (exec_enableIid hp rfl v) h (.enableIid v rfl)
  | iidMode m =>
    cases phase <;> cases hl
    exact exec_iidMode_run hp rfl h
  | enableIcc v =>
    cases phase <;> cases hl
    exact .of_exec (exec_enableIcc hp rfl v) h (.enableIcc v rfl)
  | iccMode m =>
    cases phase <;> cases hl
    exact exec_iccMode_run hp rfl h
  | enableExt v =>
    cases phase <;> cases hl
    exact .of_exec (exec_enableExt hp rfl v) h (.enableExt v rfl)
  | frameClass v =>
    cases phase <;> cases hl
    exact .of_exec (exec_frameClass hp rfl v) h (.frameClass v rfl)
  | numEnvIdx n =>
    cases phase <;> cases hl
    exact .of_exec (exec_numEnvIdx hp rfl n) h (.numEnvIdx n rfl)
  | borderPosition b =>
    cases phase <;> cases hl
    exact exec_borderPosition_run hp rfl h
  | extSize n =>
    cases phase <;> cases hl
    exact exec_extSize_run hp rfl h
  | extEsc n =>
    cases phase <;> cases hl
    exact .of_exec (exec_extEsc hp rfl n) h (.extEsc n rfl)
  | extId id =>
    cases phase <;> cases hl
    exact exec_extId_run hp rfl h
  | extFill =>
    cases phase <;> cases hl
    exact .of_exec (exec_extFill hp rfl) h (.extFill rfl)
  | enableIpdopd v =>
    cases phase <;> cases hl
    exact exec_enableIpdopd_run hp rfl h
  | reservedPs v =>
    cases phase <;> cases hl
    exact .of_exec (exec_reservedPs hp rfl v) h (.reservedPs v rfl)
  | iidDt dt => exact exec_dt_run (f := .iid) hp hl h
  | iccDt dt => exact exec_dt_run (f := .icc) hp hl h
  | ipdDt dt => exact exec_dt_run (f := .ipd) hp hl h
  | opdDt dt => exact exec_dt_run (f := .opd) hp hl h
  | iidData d => exact exec_data_run (f := .iid) hp hl h
  | iccData d => exact exec_data_run (f := .icc) hp hl h
  | ipdData d => exact exec_data_run (f := .ipd) hp hl h
  | opdData d => exact exec_data_run (f := .opd) hp hl h
  | _ => cases hi

end

end Sys2Proof.Machine
end

section
/-! SUPPORT. From one part of the payload grammar to the next: where the parse goes, the borders, and the end of the
parse. -/

namespace Sys2Proof.Machine

/-! ## The parse between two elements -/

/-- The parse has ended, or goes on with no other change than its place. -/
def Parse.OnlyMoves (p : Parse) (t : State) : Prop := ∀ p', t.parse = some p' → p' = { p with phase := p'.phase }

section
variable {p : Parse} {s : State}

theorem goto_onlyMoves (ph : Phase) : p.OnlyMoves (s.goto p ph) := fun _ h => Option.some.inj h ▸ rfl

theorem Parse.OnlyMoves.of_ended {t : State} (h : t.parse = none) : p.OnlyMoves t :=
  fun _ hp => nomatch h.symm.trans hp

theorem enterExt_onlyMoves : p.OnlyMoves (enterExt p s) := by
  unfold enterExt
  split_ifs
  · exact goto_onlyMoves _
  · exact .of_ended (finishParse_ended p s).1

theorem enterIccRow_onlyMoves (e : Nat) : p.OnlyMoves (enterIccRow e p s) := by
  unfold enterIccRow
  split_ifs
  · exact goto_onlyMoves _
  · exact enterExt_onlyMoves

theorem enterIcc_onlyMoves : p.OnlyMoves (enterIcc p s) := by
  unfold enterIcc
  split_ifs
  · exact enterIccRow_onlyMoves 0
  · exact enterExt_onlyMoves

theorem enterIidRow_onlyMoves (e : Nat) : p.OnlyMoves (enterIidRow e p s) := by
  unfold enterIidRow
  split_ifs
  · exact goto_onlyMoves _
  · exact enterIcc_onlyMoves

theorem enterIid_onlyMoves : p.OnlyMoves (enterIid p s) := by
  unfold enterIid
  split_ifs
  · exact enterIidRow_onlyMoves 0
  · exact enterIcc_onlyMoves

end

/-! ## The fixed borders (`41_parameter_decoder.md` R165) -/

theorem length_foldl_set (g : Nat → Int) (n : Nat) (l : List Int) :
    ((List.range n).foldl (fun l j => l.set (j + 1) (g (j + 1))) l).length = l.length :=
  List.foldlRecOn (motive := fun x : List Int => x.length = l.length) _ _ rfl fun _ hx _ _ =>
    List.length_set.trans hx

/-- Storing `g 1` to `g n` into the cells 1 to `n`. -/
theorem cell_foldl_set (g : Nat → Int) (n : Nat) (l : List Int) (e : Nat) :
    cell 0 ((List.range n).foldl (fun l j => l.set (j + 1) (g (j + 1))) l) e
      = if 1 ≤ e ∧ e ≤ n ∧ e < l.length then g e else cell 0 l e := by
  induction n with
  | zero => exact (if_neg (by omega)).symm
  | succ n ih =>
    rw [List.range_succ, List.foldl_append, List.foldl_cons, List.foldl_nil, cell_set, length_foldl_set, ih]
    by_cases he : n + 1 = e
    · subst he
      exact if_congr (by omega) rfl (if_neg (by omega))
    · rw [if_neg fun h => he h.1]
      exact if_congr (by omega) rfl rfl

theorem fixedBorders_length (n : Nat) (old : List Int) : (fixedBorders n old).length = old.length :=
  (length_foldl_set (fixedBorder n) n _).trans List.length_set

theorem cell_fixedBorders_zero (n : Nat) {old : List Int} (h : 0 < old.length) :
    cell 0 (fixedBorders n old) 0 = -1 := by
  rw [fixedBorders, cell_foldl_set, if_neg (by omega), cell_set, if_pos ⟨rfl, h⟩]

theorem cell_fixedBorders {n e : Nat} {old : List Int} (h : n < old.length) (h1 : 1 ≤ e) (he : e ≤ n) :
    cell 0 (fixedBorders n old) e = fixedBorder n e := by
  rw [fixedBorders, cell_foldl_set, List.length_set, if_pos ⟨h1, he, by omega⟩]

/-- No border beyond the envelope count changes. -/
theorem cell_fixedBorders_above {n e : Nat} (old : List Int) (h : n < e) :
    cell 0 (fixedBorders n old) e = cell 0 old e := by
  rw [fixedBorders, cell_foldl_set, if_neg (by omega), cell_set, if_neg (by omega)]

section
variable {p : Parse} {s : State}

theorem enterBorders_fixed (hf : s.params.frameClass = false) : enterBorders p s = enterIid p
    (s.withParams { s.params with borderPosition := fixedBorders s.params.numEnv s.params.borderPosition }) :=
  if_neg (by rw [hf]; exact Bool.false_ne_true)

theorem enterBorders_explicit (hf : s.params.frameClass = true) (hn : 1 ≤ s.params.numEnv) :
    enterBorders p s = (s.withParams (s.params.setBorder 0 (-1))).goto p (.border 1) :=
  (if_pos hf).trans (if_pos hn)

/-- Past the borders, those up to the envelope count stand as they were. -/
theorem enterIid_borders {j : Nat} (hj : j ≤ s.params.numEnv) :
    cell 0 (enterIid p s).params.borderPosition j = cell 0 s.params.borderPosition j :=
  (enterIid_keeps (borders_closed s.params.numEnv fun j => cell 0 s.params.borderPosition j)
    ⟨le_rfl, fun _ _ => rfl⟩).2 j hj

/-- Border 0 is -1 in both frame classes (R164, R165). -/
theorem enterBorders_border_zero (h : 1 ≤ s.params.borderPosition.length) :
    cell 0 (enterBorders p s).params.borderPosition 0 = -1 := by
  have hset : cell 0 (s.params.borderPosition.set 0 (-1)) 0 = -1 := by rw [cell_set, if_pos ⟨rfl, h⟩]
  unfold enterBorders
  simp only
  split_ifs
  · exact hset
  · exact (enterIid_borders (Nat.zero_le _)).trans hset
  · exact (enterIid_borders (Nat.zero_le _)).trans (cell_fixedBorders_zero _ h)

end

/-- No step between two elements changes the old envelope count. -/
theorem numEnvOld_closed (n : Nat) : ParamsClosed fun q => q.numEnvOld = n := by
  refine ⟨fun _ h => h, fun _ h => h, fun q h => ?_, fun _ h => h, fun _ _ h => h, fun _ _ h => h, fun _ _ h => h,
    fun _ h => h⟩
  obtain ⟨-, -, hold, -⟩ := fixupCopy_fields q
  exact hold.trans h

/-! ## Steps 8 to 10 (`41_parameter_decoder.md` R177 to R181) -/

/-- PSParameters after the resolution, the baseline rule and `start`. -/
theorem concludedParams_eq (q : Params) (baseline header : Bool) :
    ((q.updateResolution baseline).baselineRule baseline).startRule header =
      { q with
        is34bandsOld := q.is34bands
        is34bands :=
          if baseline = false ∧ (q.enableIid = true ∨ q.enableIcc = true) then
            decide ((q.enableIid = true ∧ q.nrIidPar = 34) ∨ (q.enableIcc = true ∧ q.nrIccPar = 34))
          else q.is34bands
        enableIpdopd := q.enableIpdopd && !baseline
        ipdPar := if q.enableIpdopd && !baseline then q.ipdPar else zeroI q.ipdPar
        opdPar := if q.enableIpdopd && !baseline then q.opdPar else zeroI q.opdPar
        start := if header then true else q.start } := by
  cases baseline <;> cases header <;>
    simp [Params.updateResolution, Params.baselineRule, Params.startRule, Bool.beq_eq_decide_eq]

/-- The commit within the budget, or BIT_OVERRUN (R181). -/
theorem commit_eq (p : Parse) (s : State) : commit p s =
    if p.pos - s.host.hostpos ≤ p.budget then
      { s with
        host := { s.host with hostpos := s.host.hostpos + (p.pos - s.host.hostpos) }
        status := .okBits (p.pos - s.host.hostpos)
        parse := none }
    else afterError s s.params .bitOverrun p.budget := rfl

/-- A parse that concludes within its budget commits the bits consumed. -/
theorem concludeParse_within {p : Parse} {s : State} (h : p.pos - s.host.hostpos ≤ p.budget) :
    (concludeParse p s).status = .okBits (p.pos - s.host.hostpos)
      ∧ (concludeParse p s).params =
        ((s.params.updateResolution s.cfg.baseline).baselineRule s.cfg.baseline).startRule p.header :=
  ⟨congrArg State.status (if_pos h), congrArg State.params (if_pos h)⟩

/-! ## The envelope fix-up (R175, R176) -/

section
variable {q : Params}

theorem fixupNeeded_iff :
    q.fixupNeeded = true ↔ q.numEnv = 0 ∨ cell 0 q.borderPosition q.numEnv < 31 := by
  simp only [Params.fixupNeeded, Bool.or_eq_true, beq_iff_eq, decide_eq_true_eq]

/-- The row the fix-up copies; where there is none, the row it would copy to. -/
def Params.fixupRow (q : Params) : Nat :=
  if 0 < q.numEnv then q.numEnv - 1 else if 0 < q.numEnvOld then q.numEnvOld - 1 else q.numEnv

/-- A row copied onto itself changes nothing. -/
theorem copyRow_self (rows : List (List Int)) (k : Nat) : copyRow rows k k = rows := by
  unfold copyRow
  by_cases hk : k < rows.length
  · rw [cell_in _ _ _ hk, List.set_getElem_self]
  · exact List.set_eq_of_length_le (Nat.le_of_not_lt hk)

/-- The copies of R175, each gated by its family's enable. -/
theorem fixupCopy_eq (q : Params) : q.fixupCopy =
    { q with
      iidPar := if q.enableIid then copyRow q.iidPar q.numEnv q.fixupRow else q.iidPar
      iccPar := if q.enableIcc then copyRow q.iccPar q.numEnv q.fixupRow else q.iccPar
      ipdPar := if q.enableIpdopd then copyRow q.ipdPar q.numEnv q.fixupRow else q.ipdPar
      opdPar := if q.enableIpdopd then copyRow q.opdPar q.numEnv q.fixupRow else q.opdPar } := by
  unfold Params.fixupCopy
  by_cases h : 0 ≤ q.fixupSource ∧ q.fixupSource ≠ q.numEnv
  · have hrow : q.fixupSource.toNat = q.fixupRow := by
      unfold Params.fixupSource at h ⊢
      unfold Params.fixupRow
      split_ifs at h ⊢ <;> omega
    rw [if_pos h, hrow]
  · have hrow : q.fixupRow = q.numEnv := by
      unfold Params.fixupSource at h
      unfold Params.fixupRow
      split_ifs at h ⊢ <;> omega
    rw [if_neg h, hrow]
    simp only [copyRow_self, ite_self]

theorem fixupIidOk_eq_false : q.fixupIidOk = false ↔
    q.enableIid = true ∧ ∃ b, b < q.nrIidPar ∧ iidOk q.iidQuant (cellI q.iidPar q.numEnv b) = false := by
  simp [Params.fixupIidOk]

theorem fixupIccOk_eq_false : q.fixupIccOk = false ↔
    q.enableIcc = true ∧ ∃ b, b < q.nrIccPar ∧ iccOk (cellI q.iccPar q.numEnv b) = false := by
  simp [Params.fixupIccOk]

end

section
variable {p : Parse} {s : State}

theorem finishParse_of_closed (h : ¬s.params.fixupNeeded = true) : finishParse p s = concludeParse p s := if_neg h

theorem finishParse_badIid (h : s.params.fixupNeeded = true) (hi : s.params.fixupCopy.fixupIidOk = false) :
    finishParse p s = errorPath .fixupIidRange p (s.withParams s.params.fixupCopy) :=
  (if_pos h).trans (if_pos (by rw [hi]; rfl))

theorem finishParse_badIcc (h : s.params.fixupNeeded = true) (hi : s.params.fixupCopy.fixupIidOk = true)
    (hc : s.params.fixupCopy.fixupIccOk = false) :
    finishParse p s = errorPath .fixupIccRange p (s.withParams s.params.fixupCopy) :=
  (if_pos h).trans ((if_neg (by rw [hi]; exact Bool.false_ne_true)).trans (if_pos (by rw [hc]; rfl)))

/-- With the copied rows in range the frame is closed by one envelope more. -/
theorem finishParse_closes (h : s.params.fixupNeeded = true) (hi : s.params.fixupCopy.fixupIidOk = true)
    (hc : s.params.fixupCopy.fixupIccOk = true) :
    finishParse p s = concludeParse p (s.withParams s.params.fixupCopy.closeEnvelope) :=
  (if_pos h).trans ((if_neg (by rw [hi]; exact Bool.false_ne_true)).trans
    (if_neg (by rw [hc]; exact Bool.false_ne_true)))

end

/-! ## The settled statements -/

/-- Settles O9: the five elements at their place. -/
theorem headerFlagElements : Obligations.HeaderFlagElements := fun _ _ v hp =>
  ⟨fun hph => exec_psHeader hp hph v, fun hph => exec_enableIid hp hph v, fun hph => exec_enableIcc hp hph v,
    fun hph => exec_enableExt hp hph v, fun hph => exec_frameClass hp hph v⟩

/-- Settles O14: a row begins with its first band, or is its flag where the family has none. -/
theorem rowFlags : Obligations.RowFlags := fun _ _ _ _ _ hp hph =>
  ⟨exec_dt_bands hp hph, exec_dt_empty hp hph, _, exec_dt_at hp hph⟩

/-- NUM_ENV_IDX with `frame_class = 1` selects 1 to 4 envelopes (`47_constant_tables.md` R301). -/
theorem setNumEnv_explicit {q : Params} (hf : q.frameClass = true) (n : BitVec 2) :
    q.setNumEnv n.toNat = { q with numEnvOld := q.numEnv, numEnv := n.toNat + 1 } := by
  have hn : n.toNat < 4 := n.isLt
  rw [Params.setNumEnv, hf]
  interval_cases n.toNat <;> rfl

/-- With `frame_class = 0` it selects 0, 1, 2 or 4 (R301). -/
theorem setNumEnv_fixed {q : Params} (hf : q.frameClass = false) (sel : Nat) :
    q.setNumEnv sel = { q with numEnvOld := q.numEnv, numEnv := [0, 1, 2, 4].getD sel 0 } := by
  rw [Params.setNumEnv, hf]
  rfl

/-- Settles O12: NUM_ENV_IDX goes to border 1, and an explicit border to the next one or past the borders, which leaves
them as they are. -/
theorem explicitBorders : Obligations.ExplicitBorders := by
  refine ⟨?zero, ?first, ?border⟩
  case zero =>
    intro s p n hp hph hlen
    exact ⟨_, exec_numEnvIdx hp hph n, enterBorders_border_zero hlen⟩
  case first =>
    intro s p n hp hph hf
    rw [exec_numEnvIdx hp hph, setNumEnv_explicit hf, enterBorders_explicit]
    · rfl
    · exact hf
    · exact Nat.le_add_left 1 _
  case border =>
    intro s p e b hp hph q before
    have hexec := exec_borderPosition hp hph b
    refine ⟨fun hlt => ?_, fun hle he => ?_, fun hle he => ?_⟩
    · rw [hexec, if_pos hlt]
      rfl
    · rw [hexec, if_neg hle.not_gt]
      exact congrArg Host.Outcome.next (if_pos he)
    · have hpast : exec (.borderPosition b) s = .next (enterIid (p.advance 5) (s.withParams q)) := by
        rw [hexec, if_neg hle.not_gt]
        exact congrArg Host.Outcome.next (if_neg he.not_gt)
      exact ⟨hpast.trans (enterIid_eq s q (p.advance 5)), _, hpast,
        fun j hj => enterIid_borders (s := s.withParams q) hj⟩

/-- With its own parse in progress a state differs from `s` in PSParameters only. -/
theorem afterElement_self {s : State} {p : Parse} (hp : s.parse = some p) (q : Params) :
    afterElement s q p = s.withParams q := by
  rw [afterElement, ← hp]
  rfl

/-- Settles O20: the copies are those of `fixupCopy`, and a closed frame needs no fix-up. -/
theorem envelopeFixUp : Obligations.EnvelopeFixUp := by
  intro s p hp hph hneed hlen n source copied q closed badIid badIcc
  have hneed : s.params.fixupNeeded = true := fixupNeeded_iff.mpr hneed
  have hcopy : s.params.fixupCopy = q := fixupCopy_eq s.params
  have hiid : q.fixupIidOk = false ↔ badIid := fixupIidOk_eq_false
  have hicc : q.fixupIccOk = false ↔ badIcc := fixupIccOk_eq_false
  have hexec := exec_extFill hp hph
  refine ⟨fun hbad => ?_, fun hok hbad => ?_, fun hokIid hokIcc => ?_⟩
  · rw [hexec, finishParse_badIid hneed (hcopy ▸ hiid.mpr hbad), hcopy]
    rfl
  · have hgood : q.fixupIidOk = true := by rwa [← hiid, Bool.not_eq_false] at hok
    rw [hexec, finishParse_badIcc hneed (hcopy ▸ hgood) (hcopy ▸ hicc.mpr hbad), hcopy]
    rfl
  · have hgoodIid : q.fixupIidOk = true := by rwa [← hiid, Bool.not_eq_false] at hokIid
    have hgoodIcc : q.fixupIccOk = true := by rwa [← hicc, Bool.not_eq_false] at hokIcc
    have hlast : cell 0 closed.borderPosition closed.numEnv = 31 := (cell_set _ _ _ _ _).trans (if_pos ⟨rfl, hlen⟩)
    have hclosed : ¬closed.fixupNeeded = true := by
      rw [fixupNeeded_iff, hlast]
      exact fun h => h.elim (Nat.succ_ne_zero n) (lt_irrefl 31)
    have hend : exec .extFill s = .next (concludeParse (p.advance p.cnt.toNat) (s.withParams closed)) := by
      rw [hexec, finishParse_closes hneed (hcopy ▸ hgoodIid) (hcopy ▸ hgoodIcc), hcopy]
      rfl
    refine ⟨hlast, ?_, fun hpos hbudget => ⟨_, hend, ?_, ?_⟩⟩
    · rw [hend, afterElement_self hp, exec_extFill (s := s.withParams closed) hp hph, finishParse_of_closed hclosed]
    · exact (concludeParse_within (s := s.withParams closed) hbudget).1
    · exact congrArg Params.numEnv (concludeParse_within (s := s.withParams closed) hbudget).2

end Sys2Proof.Machine

namespace Sys2Proof

section
open Machine

/-- Settles O13: the fixed borders cell by cell; what comes past the borders leaves those up to the envelope count as
they are and reads no bit. -/
theorem fixedBorders : Obligations.FixedBorders := by
  intro s p n hp hph hf hlen count
  let borders := Machine.fixedBorders count s.params.borderPosition
  let q : Params := { s.params with numEnvOld := s.params.numEnv, numEnv := count, borderPosition := borders }
  have hcount : count ≤ 4 := numEnvTab_le false n.toNat
  have hexec : exec (.numEnvIdx n) s = .next (enterIid (p.advance 2) (s.withParams q)) := by
    rw [exec_numEnvIdx hp hph, setNumEnv_fixed hf, enterBorders_fixed]
    · rfl
    · exact hf
  have hzero : cell 0 borders 0 = -1 := cell_fixedBorders_zero count (by omega)
  have hcells : ∀ e, 1 ≤ e → e ≤ count → cell 0 borders e = fixedBorder count e :=
    fun e h1 he => cell_fixedBorders (by omega) h1 he
  refine ⟨⟨borders, hexec.trans (enterIid_eq s q (p.advance 2)), fixedBorders_length _ _, hzero, hcells,
    fun e he => cell_fixedBorders_above _ he⟩, ?_⟩
  have hkept : ∀ e, e ≤ count →
      cell 0 (enterIid (p.advance 2) (s.withParams q)).params.borderPosition e = cell 0 borders e :=
    fun e he => enterIid_borders (s := s.withParams q) he
  have hfixed : ∀ e, 1 ≤ e → e ≤ count →
      cell 0 (enterIid (p.advance 2) (s.withParams q)).params.borderPosition e = fixedBorder count e :=
    fun e h1 he => (hkept e he).trans (hcells e h1 he)
  refine ⟨_, hexec, ?old, fun p' hp' => ?cursor, (hkept 0 (Nat.zero_le _)).trans hzero, hfixed, fun hn => ?one,
    fun hn => ?two, fun hn => ?four⟩
  case old => exact enterIid_keeps (numEnvOld_closed _) rfl
  case cursor => exact congrArg Parse.pos (enterIid_onlyMoves p' hp')
  case one =>
    subst hn
    exact (hfixed 1 (by decide) (by decide)).trans (by decide)
  case two =>
    subst hn
    exact ⟨(hfixed 1 (by decide) (by decide)).trans (by decide), (hfixed 2 (by decide) (by decide)).trans (by decide)⟩
  case four =>
    subst hn
    exact ⟨(hfixed 1 (by decide) (by decide)).trans (by decide), (hfixed 2 (by decide) (by decide)).trans (by decide),
      (hfixed 3 (by decide) (by decide)).trans (by decide), (hfixed 4 (by decide) (by decide)).trans (by decide)⟩

/-- Settles O19: no fix-up is needed, so the parse concludes. -/
theorem endOfParse : Obligations.EndOfParse := by
  intro s p hp hph hn hlast hpos on q consumed
  have hclosed : ¬s.params.fixupNeeded = true := by
    rw [fixupNeeded_iff]
    omega
  rw [exec_extFill hp hph, finishParse_of_closed hclosed, concludeParse, concludedParams_eq, commit_eq]
  exact apply_ite Host.Outcome.next _ _ _

end

end Sys2Proof
end

section
/-! SUPPORT. The arrays of absent families, and READ_DATA as the run of its elements. -/

namespace Sys2Proof.Machine

/-! ## Settled arrays (`41_parameter_decoder.md` R167, R169) -/

theorem fixupCopy_iidSettled {q : Params} (h : q.iidSettled) : q.fixupCopy.iidSettled := fun hoff => by
  obtain ⟨-, -, -, hiid, -⟩ := fixupCopy_fields q
  have hoff : q.enableIid = false := hiid ▸ hoff
  rw [fixupCopy_iidPar_off q hoff]
  exact h hoff

theorem fixupCopy_iccSettled {q : Params} (h : q.iccSettled) : q.fixupCopy.iccSettled := fun hoff => by
  obtain ⟨-, -, -, -, hicc, -⟩ := fixupCopy_fields q
  have hoff : q.enableIcc = false := hicc ▸ hoff
  rw [fixupCopy_iccPar_off q hoff]
  exact h hoff

/-- No step between two elements unsettles the IID array. -/
theorem iidSettled_closed : ParamsClosed Params.iidSettled :=
  ⟨fun _ _ _ => allZero_zeroI _, fun _ h => h, fun _ => fixupCopy_iidSettled, fun _ h => h, fun _ _ h => h,
    fun _ _ h => h, fun _ _ h => h, fun _ _ _ => allZero_zeroI _⟩

/-- No step between two elements unsettles the ICC array. -/
theorem iccSettled_closed : ParamsClosed Params.iccSettled :=
  ⟨fun _ h => h, fun _ _ _ => allZero_zeroI _, fun _ => fixupCopy_iccSettled, fun _ h => h, fun _ _ h => h,
    fun _ _ h => h, fun _ _ h => h, fun _ _ _ => allZero_zeroI _⟩

/-- A family that is on is settled. -/
theorem iidSettled_of_on {q : Params} (h : q.enableIid = true) : q.iidSettled := fun hoff => nomatch h.symm.trans hoff

theorem iccSettled_of_on {q : Params} (h : q.enableIcc = true) : q.iccSettled := fun hoff => nomatch h.symm.trans hoff

/-- The parse has ended or stands at a place behind the IID block. -/
def State.PastIid (t : State) : Prop := ∀ p', t.parse = some p' → p'.phase.beforeIid = false

/-- The parse has ended or stands at a place behind the ICC block. -/
def State.PastIcc (t : State) : Prop := ∀ p', t.parse = some p' → p'.phase.beforeIcc = false

section
variable {p : Parse} {s : State}

/-- A parse that goes on before the IID block is not past it. -/
theorem goto_not_pastIid {ph : Phase} (h : ph.beforeIid = true) : ¬(s.goto p ph).PastIid :=
  fun hpast => nomatch h.symm.trans (hpast _ rfl)

theorem goto_not_pastIcc {ph : Phase} (h : ph.beforeIcc = true) : ¬(s.goto p ph).PastIcc :=
  fun hpast => nomatch h.symm.trans (hpast _ rfl)

/-- Where the parse enters the IID block, or passes it by, the IID array is settled. -/
theorem enterIid_iidSettled : (enterIid p s).params.iidSettled := by
  unfold enterIid
  split_ifs with hen
  · exact enterIidRow_keeps iidSettled_closed (iidSettled_of_on hen)
  · exact enterIcc_keeps iidSettled_closed fun _ => allZero_zeroI _

theorem enterIcc_iccSettled : (enterIcc p s).params.iccSettled := by
  unfold enterIcc
  split_ifs with hen
  · exact enterIccRow_keeps iccSettled_closed (iccSettled_of_on hen)
  · exact enterExt_keeps iccSettled_closed fun _ => allZero_zeroI _

theorem enterIidRow_iccSettled {e : Nat} (h : (enterIidRow e p s).PastIcc) : (enterIidRow e p s).params.iccSettled := by
  unfold enterIidRow at h ⊢
  split_ifs at h ⊢
  · exact absurd h (goto_not_pastIcc rfl)
  · exact enterIcc_iccSettled

theorem enterIid_iccSettled (h : (enterIid p s).PastIcc) : (enterIid p s).params.iccSettled := by
  unfold enterIid at h ⊢
  split_ifs at h ⊢
  · exact enterIidRow_iccSettled h
  · exact enterIcc_iccSettled

theorem enterBorders_iidSettled (h : (enterBorders p s).PastIid) : (enterBorders p s).params.iidSettled := by
  unfold enterBorders at h ⊢
  simp only at h ⊢
  split_ifs at h ⊢
  · exact absurd h (goto_not_pastIid rfl)
  · exact enterIid_iidSettled
  · exact enterIid_iidSettled

theorem enterBorders_iccSettled (h : (enterBorders p s).PastIcc) : (enterBorders p s).params.iccSettled := by
  unfold enterBorders at h ⊢
  simp only at h ⊢
  split_ifs at h ⊢
  · exact absurd h (goto_not_pastIcc rfl)
  · exact enterIid_iccSettled h
  · exact enterIid_iccSettled h

theorem afterBorder_iidSettled {e : Nat} (h : (afterBorder e p s).PastIid) : (afterBorder e p s).params.iidSettled := by
  unfold afterBorder at h ⊢
  split_ifs at h ⊢
  · exact absurd h (goto_not_pastIid rfl)
  · exact enterIid_iidSettled

theorem afterBorder_iccSettled {e : Nat} (h : (afterBorder e p s).PastIcc) : (afterBorder e p s).params.iccSettled := by
  unfold afterBorder at h ⊢
  split_ifs at h ⊢
  · exact absurd h (goto_not_pastIcc rfl)
  · exact enterIid_iccSettled h

theorem startRow_iccSettled {e : Nat} {dt : Bool} (h : (startRow .iid e (dataPhase .iid e · dt) p s).PastIcc) :
    (startRow .iid e (dataPhase .iid e · dt) p s).params.iccSettled := by
  unfold startRow at h ⊢
  simp only at h ⊢
  split_ifs at h ⊢
  · exact absurd h (goto_not_pastIcc rfl)
  · exact enterIidRow_iccSettled h

theorem storeValue_iccSettled {e b len : Nat} {dt : Bool} {v : Int}
    (h : (storeValue .iid e b (dataPhase .iid e · dt) len v p s).PastIcc) :
    (storeValue .iid e b (dataPhase .iid e · dt) len v p s).params.iccSettled := by
  unfold storeValue at h ⊢
  simp only at h ⊢
  split_ifs at h ⊢
  · exact absurd h (goto_not_pastIcc rfl)
  · exact enterIidRow_iccSettled h
  · exact fun _ => allZero_zeroI _

end

section
variable {s t : State} {p : Parse} {i : Instr}

/-- The element that takes the parse past the IID block leaves its array settled. -/
theorem ElementRun.iidSettled (h : ElementRun s p i t) (hbefore : p.phase.beforeIid = true) (hpast : t.PastIid) :
    t.params.iidSettled := by
  cases h with
  | psHeader v | enableIid v | enableIcc v => exact absurd hpast (goto_not_pastIid (by cases v <;> rfl))
  | iidMode | iccMode | enableExt | frameClass => exact absurd hpast (goto_not_pastIid rfl)
  | iidModeReserved | iccModeReserved | borderOrder => exact fun _ => allZero_zeroI _
  | numEnvIdx => exact enterBorders_iidSettled hpast
  | border => exact afterBorder_iidSettled hpast
  | dt f _ _ hph | data f _ _ _ _ _ _ hph =>
    rw [hph] at hbefore
    cases f <;> cases hbefore
  | _ =>
    rename_i hph
    rw [hph] at hbefore
    cases hbefore

/-- The element that takes the parse past the ICC block leaves its array settled. -/
theorem ElementRun.iccSettled (h : ElementRun s p i t) (hbefore : p.phase.beforeIcc = true) (hpast : t.PastIcc) :
    t.params.iccSettled := by
  cases h with
  | psHeader v | enableIid v | enableIcc v => exact absurd hpast (goto_not_pastIcc (by cases v <;> rfl))
  | iidMode | iccMode | enableExt | frameClass => exact absurd hpast (goto_not_pastIcc rfl)
  | iidModeReserved | iccModeReserved | borderOrder => exact fun _ => allZero_zeroI _
  | numEnvIdx => exact enterBorders_iccSettled hpast
  | border => exact afterBorder_iccSettled hpast
  | dt f _ _ hph =>
    rw [hph] at hbefore
    cases f with
    | iid => exact startRow_iccSettled hpast
    | _ => cases hbefore
  | data f _ _ _ _ _ _ hph =>
    rw [hph] at hbefore
    cases f with
    | iid => exact storeValue_iccSettled hpast
    | _ => cases hbefore
  | _ =>
    rename_i hph
    rw [hph] at hbefore
    cases hbefore

end

/-- Settles O21, by the cases of the element. -/
theorem absentFamilies : Obligations.AbsentFamilies := by
  intro i s t p hi hp h
  obtain ⟨p', hp', hrun⟩ := exec_element_run hi h
  obtain rfl : p' = p := Option.some.inj (hp'.symm.trans hp)
  exact ⟨hrun.iidSettled, hrun.iccSettled⟩

/-! ## The run of a parse, element by element -/

/-- What READ_DATA does with the element at the working cursor the step does too, if it answers a next state. -/
theorem step_of_parseStep {s t : State} {p : Parse} (hp : s.parse = some p) (h : parseStep p s = .next t) :
    step s = .next t := by
  unfold parseStep at h
  split at h
  · next i n hf => rw [step_element hp hf, ← runElement_eq i s (decodeElement_isElement hf), h]
  · cases h

/-- A run of the parse is a number of steps. -/
theorem runParse_steps (fuel : Nat) {s t : State} (h : runParse fuel s = .next t) :
    ∃ k, Host.Core.run Sys2Proof.core k s = .next t := by
  induction fuel generalizing s with
  | zero =>
    unfold runParse at h
    split_ifs at h
    exact ⟨0, h⟩
  | succ fuel ih =>
    unfold runParse at h
    split at h
    · exact ⟨0, h⟩
    · next p hp =>
      split at h
      · next u hu =>
        obtain ⟨k, hk⟩ := ih h
        have hstep : Sys2Proof.core.step s = .next u := step_of_parseStep hp hu
        exact ⟨k + 1, by simp only [Host.Core.run, hstep, hk]⟩
      · cases h
      · cases h

/-- Settles O26: READ_DATA is a run of the parse it begins. -/
theorem readDataStepwise : Obligations.ReadDataStepwise := fun s t n h => by
  have hread : execReadData n s = .next t := h
  obtain ⟨-, hrun⟩ := command_next hread
  exact runParse_steps _ hrun

end Sys2Proof.Machine
end

section
/-! SUPPORT. What the parse has read so far: the borders rise and the values of the coded rows are in range at every
place of the payload grammar, and a parse that commits leaves PSParameters as `41_parameter_decoder.md` R183 says. -/

namespace Sys2Proof.Machine

/-! ## Rising borders and coded rows -/

/-- Border 0 is -1, and the borders up to `n` do not fall (`41_parameter_decoder.md` R164, R165). -/
def Params.BordersRise (q : Params) (n : Nat) : Prop :=
  cell 0 q.borderPosition 0 = -1 ∧ ∀ e, e < n → cell 0 q.borderPosition e ≤ cell 0 q.borderPosition (e + 1)

/-- The first `n` values of row `e` of a family are in range (`40_entropy_delta.md` R143, R147). -/
def Params.RowCoded (q : Params) (f : Family) (e n : Nat) : Prop :=
  ∀ b, b < n → rangeOk q.iidQuant f (cellI (q.par f) e b) = true

/-- The first `n` rows of a family are in range. -/
def Params.RowsCoded (q : Params) (f : Family) (n : Nat) : Prop := ∀ e, e < n → q.RowCoded f e (q.nrPar f)

/-- What the parse has read when it is past the ICC block. -/
def Params.Framed (q : Params) : Prop :=
  q.BordersRise q.numEnv ∧ q.RowsCoded .iid q.numEnv ∧ q.RowsCoded .icc q.numEnv

/-- What the parse has read when the rows of a family begin. -/
def Params.CodedBefore (q : Params) : Family → Prop
  | .iid => q.BordersRise q.numEnv
  | .icc => q.BordersRise q.numEnv ∧ q.RowsCoded .iid q.numEnv
  | .ipd | .opd => q.Framed

/-- What the parse has read at its place of the grammar. -/
def Parse.Coded (q : Params) (p : Parse) : Prop :=
  match p.phase with
  | .psHeader | .enableIid | .iidMode | .enableIcc | .iccMode | .enableExt | .frameClass | .numEnvIdx => True
  | .border e => q.BordersRise (e - 1)
  | .iidDt e => q.CodedBefore .iid ∧ q.RowsCoded .iid e
  | .iidData e b _ => q.CodedBefore .iid ∧ q.RowsCoded .iid e ∧ q.RowCoded .iid e b
  | .iccDt e => q.CodedBefore .icc ∧ q.RowsCoded .icc e
  | .iccData e b _ => q.CodedBefore .icc ∧ q.RowsCoded .icc e ∧ q.RowCoded .icc e b
  | .ipdDt _ | .ipdData _ _ _ | .opdDt _ | .opdData _ _ _ | .extSize | .extEsc | .extId | .extFill | .enableIpdopd
  | .reservedPs => q.Framed

section
variable {q : Params} {p : Parse} {f : Family}

theorem rangeOk_zero (quant : Bool) (f : Family) : rangeOk quant f 0 = true := by
  cases f <;> simp [rangeOk, iidOk, iccOk]

/-- IPD and OPD have no range (R143). -/
theorem rowsCoded_ipd (n : Nat) : q.RowsCoded .ipd n := fun _ _ _ _ => rfl

theorem rowsCoded_opd (n : Nat) : q.RowsCoded .opd n := fun _ _ _ _ => rfl

theorem coded_dtPhase {e : Nat} :
    ({ p with phase := dtPhase f e } : Parse).Coded q ↔ q.CodedBefore f ∧ q.RowsCoded f e := by
  cases f
  · exact Iff.rfl
  · exact Iff.rfl
  · exact (and_iff_left (rowsCoded_ipd e)).symm
  · exact (and_iff_left (rowsCoded_opd e)).symm

theorem coded_dataPhase {e b : Nat} {dt : Bool} : ({ p with phase := dataPhase f e b dt } : Parse).Coded q
    ↔ q.CodedBefore f ∧ q.RowsCoded f e ∧ q.RowCoded f e b := by
  cases f
  · exact Iff.rfl
  · exact Iff.rfl
  · exact (and_iff_left ⟨rowsCoded_ipd e, fun _ _ => rfl⟩).symm
  · exact (and_iff_left ⟨rowsCoded_opd e, fun _ _ => rfl⟩).symm

theorem Params.RowsCoded.mono {m n : Nat} (h : q.RowsCoded f n) (hm : m ≤ n) : q.RowsCoded f m :=
  fun e he => h e (he.trans_le hm)

/-- One more row. -/
theorem Params.RowsCoded.succ {n : Nat} (h : q.RowsCoded f n) (hrow : q.RowCoded f n (q.nrPar f)) :
    q.RowsCoded f (n + 1) := fun e he => by
  rcases Nat.lt_succ_iff_lt_or_eq.mp he with hlt | rfl
  · exact h e hlt
  · exact hrow

/-- An array of zeros is in range. -/
theorem rowCoded_of_allZero (h : allZero (q.par f) = true) (e n : Nat) : q.RowCoded f e n := fun b _ => by
  rw [allZero_cellI h]
  exact rangeOk_zero _ _

theorem rowsCoded_zeroed (q : Params) (f : Family) (rows : List (List Int)) (n : Nat) :
    (q.setPar f (zeroI rows)).RowsCoded f n :=
  fun e _ => rowCoded_of_allZero ((setPar_par_same q f (zeroI rows)).symm ▸ allZero_zeroI rows) e _

/-- A cell outside an integer array reads zero (log 24). -/
theorem cellI_out {l : List (List Int)} {e b : Nat} (h : ¬(e < l.length ∧ b < (cell [] l e).length)) :
    cellI l e b = 0 := by
  by_cases he : e < l.length
  · exact cell_out 0 _ b (Nat.le_of_not_lt fun hb => h ⟨he, hb⟩)
  · rw [cellI, cell_out [] l e (Nat.le_of_not_lt he)]
    rfl

/-- A predicate that holds of every cell and of zero holds of whatever is read. -/
theorem cellI_of_allCells {g : Int → Bool} {l : List (List Int)} (h : allCells g l = true) (h0 : g 0 = true)
    (e b : Nat) : g (cellI l e b) = true := by
  by_cases hin : e < l.length ∧ b < (cell [] l e).length
  · obtain ⟨he, hb⟩ := hin
    exact forall_mem_cell (d := 0) (forall_mem_cell (d := []) (allCells_iff.mp h) he) hb
  · rwa [cellI_out hin]

/-! ## A stored value -/

section
variable {e b : Nat} {v : Int}

/-- PSParameters with one value of a row stored (`40_entropy_delta.md` R144, R145). -/
def Params.storeCell (q : Params) (f : Family) (e b : Nat) (v : Int) : Params :=
  q.setPar f (storeI (q.par f) e b v)

theorem storeCell_par (q : Params) (f : Family) (e b : Nat) (v : Int) :
    (q.storeCell f e b v).par f = storeI (q.par f) e b v := setPar_par_same _ _ _

theorem storeCell_rangeOk : rangeOk (q.storeCell f e b v).iidQuant = rangeOk q.iidQuant :=
  congrArg rangeOk (setPar_iidQuant _ _ _)

theorem storeCell_nrPar (g : Family) : (q.storeCell f e b v).nrPar g = q.nrPar g := setPar_nrPar _ _ _ _

/-- The other rows of the family stay coded. -/
theorem Params.RowsCoded.storeCell (h : q.RowsCoded f e) : (q.storeCell f e b v).RowsCoded f e := fun e' he k hk => by
  rw [storeCell_nrPar] at hk
  rw [storeCell_par, storeCell_rangeOk, cellI_storeI, if_neg (by omega)]
  exact h e' he k hk

/-- A value in range lengthens the coded part of its row by one. -/
theorem Params.RowCoded.storeCell (h : q.RowCoded f e b) (hv : rangeOk q.iidQuant f v = true) :
    (q.storeCell f e b v).RowCoded f e (b + 1) := fun k hk => by
  rw [storeCell_par, storeCell_rangeOk, cellI_storeI]
  split_ifs with hin
  · exact hv
  · rcases Nat.lt_succ_iff_lt_or_eq.mp hk with hlt | rfl
    · exact h k hlt
    · rw [cellI_out fun hcell => hin ⟨rfl, rfl, hcell⟩]
      exact rangeOk_zero _ _

/-- The blocks before a family's own do not see its array. -/
theorem codedBefore_setPar (rows : List (List Int)) : (q.setPar f rows).CodedBefore f ↔ q.CodedBefore f := by
  cases f <;> exact Iff.rfl

end

/-! ## The borders -/

theorem fixedBorder_rises {n e : Nat} (hn : n ≤ 4) (h3 : n ≠ 3) (he : e < n) :
    fixedBorder n e ≤ fixedBorder n (e + 1) := by
  obtain rfl | rfl | rfl | rfl : n = 0 ∨ n = 1 ∨ n = 2 ∨ n = 4 := by omega
  all_goals interval_cases e <;> decide

/-- The fixed borders rise (R165). -/
theorem bordersRise_fixed (hn : q.numEnv ≤ 4) (h3 : q.numEnv ≠ 3) (hlen : 5 ≤ q.borderPosition.length) :
    Params.BordersRise { q with borderPosition := fixedBorders q.numEnv q.borderPosition } q.numEnv := by
  have hzero : cell 0 (fixedBorders q.numEnv q.borderPosition) 0 = -1 := cell_fixedBorders_zero _ (by omega)
  have hcell : ∀ e, e ≤ q.numEnv → cell 0 (fixedBorders q.numEnv q.borderPosition) e = fixedBorder q.numEnv e := by
    intro e he
    rcases Nat.eq_zero_or_pos e with rfl | hpos
    · rw [hzero, fixedBorder, Nat.zero_mul, Nat.zero_shiftRight]
      rfl
    · exact cell_fixedBorders (by omega) hpos he
  refine ⟨hzero, fun e he => ?_⟩
  show cell 0 (fixedBorders q.numEnv q.borderPosition) e ≤ cell 0 (fixedBorders q.numEnv q.borderPosition) (e + 1)
  rw [hcell e he.le, hcell (e + 1) he]
  exact fixedBorder_rises hn h3 he

/-- A border that is not smaller than the one before it, or border 0, lengthens the rising part by one (R164). -/
theorem Params.BordersRise.setBorder {n : Nat} {v : Int} (h : q.BordersRise n) (hv : cell 0 q.borderPosition n ≤ v)
    (hlen : n + 1 < q.borderPosition.length) : (q.setBorder (n + 1) v).BordersRise (n + 1) := by
  obtain ⟨hzero, hrise⟩ := h
  have hkept : ∀ e, e ≤ n → cell 0 (q.setBorder (n + 1) v).borderPosition e = cell 0 q.borderPosition e := fun e he =>
    (cell_set _ _ _ _ _).trans (if_neg (by omega))
  have hnew : cell 0 (q.setBorder (n + 1) v).borderPosition (n + 1) = v :=
    (cell_set _ _ _ _ _).trans (if_pos ⟨rfl, hlen⟩)
  refine ⟨(hkept 0 (Nat.zero_le _)).trans hzero, fun e he => ?_⟩
  rcases Nat.lt_succ_iff_lt_or_eq.mp he with hlt | rfl
  · rw [hkept e hlt.le, hkept (e + 1) hlt]
    exact hrise e hlt
  · rw [hkept e le_rfl, hnew]
    exact hv

/-! ## The envelope fix-up (`41_parameter_decoder.md` R175, R176) -/

/-- A copied row is no row above it. -/
theorem cellI_copyRow_other {rows : List (List Int)} {dst src e b : Nat} (h : e ≠ dst) :
    cellI (copyRow rows dst src) e b = cellI rows e b := by
  rw [cellI, copyRow, cell_set, if_neg fun hd => h hd.1.symm, cellI]

theorem fixupCopy_cell_other {e b : Nat} (h : e < q.numEnv) :
    cellI (q.fixupCopy.par f) e b = cellI (q.par f) e b := by
  rcases fixupCopy_par q f with he | ⟨-, he⟩ <;> rw [he]
  exact cellI_copyRow_other h.ne

/-- The rows the frame has coded stay so. -/
theorem Params.RowsCoded.fixupCopy (h : q.RowsCoded f q.numEnv) : q.fixupCopy.RowsCoded f q.numEnv := by
  obtain ⟨-, -, -, -, -, -, hiid, hicc, hipd, hquant, -⟩ := fixupCopy_fields q
  have hnr : q.fixupCopy.nrPar f = q.nrPar f := by
    cases f
    · exact hiid
    · exact hicc
    · exact hipd
    · exact hipd
  intro e he b hb
  rw [hnr] at hb
  rw [hquant, fixupCopy_cell_other he]
  exact h e he b hb

/-- The IID row the fix-up adds is in range: by its check, or as a row of zeros. -/
theorem rowCoded_iid_of_fixupOk (hset : q.iidSettled) (hok : q.fixupIidOk = true) :
    q.RowCoded .iid q.numEnv (q.nrPar .iid) := by
  rcases hen : q.enableIid
  · exact rowCoded_of_allZero (f := .iid) (hset hen) _ _
  · intro b hb
    simp only [Params.fixupIidOk, hen, Bool.not_true, Bool.false_or, List.all_eq_true] at hok
    exact hok b (List.mem_range.mpr hb)

theorem rowCoded_icc_of_fixupOk (hset : q.iccSettled) (hok : q.fixupIccOk = true) :
    q.RowCoded .icc q.numEnv (q.nrPar .icc) := by
  rcases hen : q.enableIcc
  · exact rowCoded_of_allZero (f := .icc) (hset hen) _ _
  · intro b hb
    simp only [Params.fixupIccOk, hen, Bool.not_true, Bool.false_or, List.all_eq_true] at hok
    exact hok b (List.mem_range.mpr hb)

/-- ICC values are in range at any time, so the ICC check of the fix-up never fails (`60_exceptions.md` R335). -/
theorem Params.Held.fixupIccOk {c : Config} (h : q.Held c) : q.fixupIccOk = true := by
  simp only [Params.fixupIccOk, Bool.or_eq_true, List.all_eq_true]
  exact .inr fun b _ => cellI_of_allCells (h.ranged .icc) rfl _ _

/-- A border is at most 31 (`10_state.md` R28). -/
theorem Params.Control.border_le {c : Config} (h : q.Control c) (e : Nat) : cell 0 q.borderPosition e ≤ 31 := by
  by_cases he : e < q.borderPosition.length
  · exact (forall_mem_cell (d := 0) h.borderRange he).2
  · rw [cell_out _ _ _ (Nat.le_of_not_lt he)]
    decide

/-- The frame closed by one envelope more is coded as a whole, and its last border is 31. -/
theorem framed_closeEnvelope {c : Config} (h : q.Held c) (hw : 5 ≤ c.maxNumEnv) (hn : q.numEnv ≤ 4)
    (hf : q.Framed) (hiid : q.iidSettled) (hicc : q.iccSettled) (hok : q.fixupCopy.fixupIidOk = true) :
    q.fixupCopy.closeEnvelope.Framed
      ∧ cell 0 q.fixupCopy.closeEnvelope.borderPosition q.fixupCopy.closeEnvelope.numEnv = 31 := by
  obtain ⟨hrise, hrowsIid, hrowsIcc⟩ := hf
  obtain ⟨hborder, hnum, -⟩ := fixupCopy_fields q
  have hlen : q.fixupCopy.numEnv + 1 < q.fixupCopy.borderPosition.length := by
    rw [hborder, hnum, h.control.borderLength]
    omega
  have hrise' : q.fixupCopy.BordersRise q.fixupCopy.numEnv := by
    rw [Params.BordersRise, hborder, hnum]
    exact hrise
  have hiidRows : q.fixupCopy.RowsCoded .iid (q.fixupCopy.numEnv + 1) :=
    (hnum ▸ hrowsIid.fixupCopy : q.fixupCopy.RowsCoded .iid q.fixupCopy.numEnv).succ
      (rowCoded_iid_of_fixupOk (fixupCopy_iidSettled hiid) hok)
  have hiccRows : q.fixupCopy.RowsCoded .icc (q.fixupCopy.numEnv + 1) :=
    (hnum ▸ hrowsIcc.fixupCopy : q.fixupCopy.RowsCoded .icc q.fixupCopy.numEnv).succ
      (rowCoded_icc_of_fixupOk (fixupCopy_iccSettled hicc) (h.fixupCopy hw).fixupIccOk)
  exact ⟨⟨hrise'.setBorder (h.control.fixupCopy.border_le _) hlen, hiidRows, hiccRows⟩,
    (cell_set _ _ _ _ _).trans (if_pos ⟨rfl, hlen⟩)⟩

end

end Sys2Proof.Machine
end

section
/-! SUPPORT. Every continuation of the parse and every payload element keeps what the parse has read; where the parse
ends with a commit, PSParameters meet the postconditions of READ_DATA (`41_parameter_decoder.md` R183). -/

namespace Sys2Proof.Machine

/-- What holds of the state while a payload is parsed whose PS_HEADER bit is `hdr`, and when its parse has ended. -/
def State.Sound (hdr : Bool) (s : State) : Prop :=
  match s.parse with
  | some p => p.Coded s.params ∧ if p.phase = .psHeader then s.bit p.pos = hdr else p.header = hdr
  | none => s.status ≠ .invalidData .fixupIccRange
    ∧ ∀ k, s.status = .okBits k → s.params.parsed s.cfg ∧ (hdr = true → s.params.start = true)

/-- A continuation of the parse behind PS_HEADER. -/
structure Reading (hdr : Bool) (p : Parse) (s : State) : Prop extends OnTrack p s where
  header : p.header = hdr

section
variable {hdr : Bool} {p : Parse} {s : State}

theorem Reading.withParams (h : Reading hdr p s) {q : Params} (hq : q.Held s.cfg) : Reading hdr p (s.withParams q) :=
  ⟨h.toOnTrack.withParams hq, h.header⟩

theorem goto_sound {ph : Phase} (hh : p.header = hdr) (hph : ph ≠ .psHeader)
    (hc : ({ p with phase := ph } : Parse).Coded s.params) : (s.goto p ph).Sound hdr :=
  ⟨hc, (if_neg hph).mpr hh⟩

/-- The error path with any cause but FIXUP_ICC_RANGE. -/
theorem errorPath_sound {cause : Cause} (hc : cause ≠ .fixupIccRange) : (errorPath cause p s).Sound hdr :=
  ⟨fun h => hc (Status.invalidData.inj h), fun _ h => nomatch h⟩

/-! ## The end of the parse -/

/-- PSParameters of a closed frame meet R183 after steps 8 and 9. -/
theorem parsed_concluded {c : Config} {q : Params} (header : Bool) (h : q.Held c) (hn : 1 ≤ q.numEnv)
    (hf : q.Framed) (hlast : cell 0 q.borderPosition q.numEnv = 31) (hiid : q.iidSettled) (hicc : q.iccSettled) :
    Params.parsed c (((q.updateResolution c.baseline).baselineRule c.baseline).startRule header) := by
  have hheld := (h.updateResolution.baselineRule c.baseline).startRule header
  obtain ⟨⟨hzero, hrise⟩, hrowsIid, hrowsIcc⟩ := hf
  refine ⟨⟨hn, h.control.numEnv⟩, hzero, hrise, hlast, fun e b he hb => hrowsIid e he b hb,
    fun e b he hb => hrowsIcc e he b hb, fun e b => ⟨?_, ?_⟩, hiid, hicc, baselineRule_ipdOpdSettled _ _,
    fun hb => ⟨?_, (hheld.control.baseline hb).1⟩⟩
  · exact cellI_of_allCells (hheld.ranged .ipd) rfl e b
  · exact cellI_of_allCells (hheld.ranged .opd) rfl e b
  · exact if_pos hb

theorem concludeParse_sound (h : Reading hdr p s) (hn : 1 ≤ s.params.numEnv) (hf : s.params.Framed)
    (hlast : cell 0 s.params.borderPosition s.params.numEnv = 31) (hiid : s.params.iidSettled)
    (hicc : s.params.iccSettled) : (concludeParse p s).Sound hdr := by
  rw [concludeParse, commit_eq]
  split_ifs
  · refine ⟨nofun, fun _ _ => ⟨parsed_concluded _ h.held hn hf hlast hiid hicc, fun hh => ?_⟩⟩
    show (p.header || s.params.start) = true
    rw [h.header, hh, Bool.true_or]
  · exact errorPath_sound (p := p) (s := s.withParams _) nofun

theorem finishParse_sound (h : Reading hdr p s) (hn : s.params.numEnv ≤ 4) (hf : s.params.Framed)
    (hiid : s.params.iidSettled) (hicc : s.params.iccSettled) : (finishParse p s).Sound hdr := by
  by_cases hneed : s.params.fixupNeeded = true
  · have hcopy := h.held.fixupCopy h.maxNumEnv
    obtain ⟨-, hnum, -⟩ := fixupCopy_fields s.params
    rcases hok : s.params.fixupCopy.fixupIidOk
    · rw [finishParse_badIid hneed hok]
      exact errorPath_sound nofun
    · rw [finishParse_closes hneed hok hcopy.fixupIccOk]
      obtain ⟨hframed, hlast⟩ := framed_closeEnvelope h.held h.maxNumEnv hn hf hiid hicc hok
      exact concludeParse_sound (h.withParams (hcopy.closeEnvelope (hnum ▸ hn))) (Nat.le_add_left 1 _) hframed hlast
        (fixupCopy_iidSettled hiid) (fixupCopy_iccSettled hicc)
  · rw [finishParse_of_closed hneed]
    have hneed := mt fixupNeeded_iff.mpr hneed
    have hle := h.held.control.border_le s.params.numEnv
    exact concludeParse_sound h (by omega) hf (by omega) hiid hicc

/-! ## From one part of the grammar to the next -/

theorem extLoop_sound (hh : p.header = hdr) (hf : s.params.Framed) : (extLoop p s).Sound hdr := by
  unfold extLoop
  split_ifs
  · exact goto_sound hh nofun hf
  · exact errorPath_sound nofun
  · exact goto_sound hh nofun hf

theorem enterExt_sound (h : Reading hdr p s) (hn : s.params.numEnv ≤ 4) (hf : s.params.Framed)
    (hiid : s.params.iidSettled) (hicc : s.params.iccSettled) : (enterExt p s).Sound hdr := by
  unfold enterExt
  split_ifs
  · exact goto_sound h.header nofun hf
  · exact finishParse_sound h hn hf hiid hicc

theorem enterIpdRow_sound (e : Nat) (hh : p.header = hdr) (hf : s.params.Framed) : (enterIpdRow e p s).Sound hdr := by
  unfold enterIpdRow
  split_ifs
  · exact goto_sound hh nofun hf
  · exact goto_sound hh nofun hf

theorem enterIccRow_sound {e : Nat} (h : Reading hdr p s) (hn : s.params.numEnv ≤ 4) (hiid : s.params.iidSettled)
    (hen : s.params.enableIcc = true) (hb : s.params.CodedBefore .icc) (hr : s.params.RowsCoded .icc e) :
    (enterIccRow e p s).Sound hdr := by
  obtain ⟨hrise, hrows⟩ := hb
  unfold enterIccRow
  split_ifs with he
  · exact goto_sound h.header nofun ⟨⟨hrise, hrows⟩, hr⟩
  · exact enterExt_sound h hn ⟨hrise, hrows, hr.mono (Nat.le_of_not_lt he)⟩ hiid (iccSettled_of_on hen)

theorem enterIcc_sound (h : Reading hdr p s) (hn : s.params.numEnv ≤ 4) (hiid : s.params.iidSettled)
    (hb : s.params.CodedBefore .icc) : (enterIcc p s).Sound hdr := by
  obtain ⟨hrise, hrows⟩ := hb
  unfold enterIcc
  split_ifs with hen
  · exact enterIccRow_sound h hn hiid hen ⟨hrise, hrows⟩ fun e he => absurd he (Nat.not_lt_zero e)
  · exact enterExt_sound (h.withParams (h.held.setPar_zeroI .icc)) hn
      ⟨hrise, hrows, rowsCoded_zeroed s.params .icc s.params.iccPar _⟩ hiid fun _ => allZero_zeroI _

theorem enterIidRow_sound {e : Nat} (h : Reading hdr p s) (hn : s.params.numEnv ≤ 4)
    (hen : s.params.enableIid = true) (hb : s.params.CodedBefore .iid) (hr : s.params.RowsCoded .iid e) :
    (enterIidRow e p s).Sound hdr := by
  unfold enterIidRow
  split_ifs with he
  · exact goto_sound h.header nofun ⟨hb, hr⟩
  · exact enterIcc_sound h hn (iidSettled_of_on hen) ⟨hb, hr.mono (Nat.le_of_not_lt he)⟩

theorem enterIid_sound (h : Reading hdr p s) (hn : s.params.numEnv ≤ 4) (hb : s.params.BordersRise s.params.numEnv) :
    (enterIid p s).Sound hdr := by
  unfold enterIid
  split_ifs with hen
  · exact enterIidRow_sound h hn hen hb fun e he => absurd he (Nat.not_lt_zero e)
  · exact enterIcc_sound (h.withParams (h.held.setPar_zeroI .iid)) hn (fun _ => allZero_zeroI _)
      ⟨hb, rowsCoded_zeroed s.params .iid s.params.iidPar _⟩

theorem enterBorders_sound (h : Reading hdr p s) (hn : s.params.numEnv ≤ 4)
    (h3 : s.params.frameClass = false → s.params.numEnv ≠ 3) : (enterBorders p s).Sound hdr := by
  have hlen : 5 ≤ s.params.borderPosition.length := by
    have hroom := h.maxNumEnv
    have hborders := h.held.control.borderLength
    omega
  rcases hf : s.params.frameClass
  · rw [enterBorders_fixed hf]
    exact enterIid_sound
      (h.withParams (h.held.of_par_eq (h.held.control.fixedBorders hn (h3 hf)) fun _ => rfl)) hn
      (bordersRise_fixed hn (h3 hf) hlen)
  · have hzero : (s.params.setBorder 0 (-1)).BordersRise 0 :=
      ⟨(cell_set _ _ _ _ _).trans (if_pos ⟨rfl, by omega⟩), fun e he => absurd he (Nat.not_lt_zero e)⟩
    by_cases h1 : 1 ≤ s.params.numEnv
    · rw [enterBorders_explicit hf h1]
      exact goto_sound h.header nofun hzero
    · have hstop : enterBorders p s = enterIid p (s.withParams (s.params.setBorder 0 (-1))) :=
        (if_pos hf).trans (if_neg h1)
      rw [hstop]
      have hheld : (s.params.setBorder 0 (-1)).Held s.cfg :=
        h.held.of_par_eq (h.held.control.setBorder 0 (by decide)) fun _ => rfl
      have h0 : s.params.numEnv = 0 := by omega
      exact enterIid_sound (h.withParams hheld) hn
        (h0.symm ▸ hzero : (s.params.setBorder 0 (-1)).BordersRise s.params.numEnv)

theorem afterBorder_sound {e : Nat} (h : Reading hdr p s) (hn : s.params.numEnv ≤ 4) (hb : s.params.BordersRise e)
    (he : e ≤ s.params.numEnv) : (afterBorder e p s).Sound hdr := by
  unfold afterBorder
  split_ifs with hlt
  · exact goto_sound h.header nofun hb
  · exact enterIid_sound h hn (Nat.le_antisymm he (Nat.le_of_not_lt hlt) ▸ hb)

/-! ## The rows of the four families -/

section
variable {f : Family} {e b len : Nat} {dt : Bool} {v : Int}

theorem dtPhase_ne_psHeader : dtPhase f e ≠ .psHeader := by cases f <;> nofun

theorem dataPhase_ne_psHeader : dataPhase f e b dt ≠ .psHeader := by cases f <;> nofun

theorem rowDone_sound (h : Reading hdr p s) (hp : ({ p with phase := dtPhase f e } : Parse).placed s.params)
    (hb : s.params.CodedBefore f) (hr : s.params.RowsCoded f (e + 1)) : (rowDone f e p s).Sound hdr := by
  cases f
  · obtain ⟨hn, hen, -⟩ := hp
    exact enterIidRow_sound h hn hen hb hr
  · obtain ⟨hn, hiid, hen, -⟩ := hp
    exact enterIccRow_sound h hn hiid hen hb hr
  · exact goto_sound h.header nofun hb
  · exact enterIpdRow_sound (e + 1) h.header hb

theorem startRow_sound (h : Reading hdr p s) (hp : ({ p with phase := dtPhase f e } : Parse).placed s.params)
    (hb : s.params.CodedBefore f) (hr : s.params.RowsCoded f e) :
    (startRow f e (dataPhase f e · dt) p s).Sound hdr := by
  have hpos : p.pos ≤ p.pos + 1 := Nat.le_add_right _ _
  unfold startRow
  simp only
  split_ifs with h0
  · exact goto_sound h.header dataPhase_ne_psHeader
      (coded_dataPhase.mpr ⟨hb, hr, fun b hlt => absurd hlt (Nat.not_lt_zero b)⟩)
  · refine rowDone_sound ⟨h.withParse hpos h.cnt, h.header⟩ (placed_dtPhase_mono hp rfl rfl hpos) hb (hr.succ ?_)
    exact fun b hlt => absurd hlt (by omega)

theorem storeValue_sound (h : Reading hdr p s) (hp : ({ p with phase := dtPhase f e } : Parse).placed s.params)
    (hb : s.params.CodedBefore f) (hr : s.params.RowsCoded f e) (hc : s.params.RowCoded f e b)
    (hv : rangeOk s.params.iidQuant f v = true → parOk f v = true) :
    (storeValue f e b (dataPhase f e · dt) len v p s).Sound hdr := by
  have hpos : p.pos ≤ p.pos + len := Nat.le_add_right _ _
  unfold storeValue
  simp only
  split_ifs with hok hlt
  · exact goto_sound h.header dataPhase_ne_psHeader
      (coded_dataPhase.mpr ⟨(codedBefore_setPar _).mpr hb, hr.storeCell, hc.storeCell hok⟩)
  · have hrow : (s.params.storeCell f e b v).RowCoded f e ((s.params.storeCell f e b v).nrPar f) := fun k hk => by
      rw [storeCell_nrPar] at hk
      exact hc.storeCell hok k (by omega)
    have hheld : (s.params.storeCell f e b v).Held s.cfg :=
      h.held.setPar (shape2_storeI (h.held.shaped f) e b v) (allCells_storeI (h.held.ranged f) e b (hv hok))
    exact rowDone_sound ⟨(h.toOnTrack.withParams hheld).withParse hpos h.cnt, h.header⟩
      (placed_dtPhase_setPar _ (placed_dtPhase_mono hp rfl rfl hpos)) ((codedBefore_setPar _).mpr hb)
      (hr.storeCell.succ hrow)
  · exact errorPath_sound (by cases f <;> nofun)

end

end

/-! ## The elements -/

section
variable {hdr : Bool} {s t : State} {p : Parse} {i : Instr}

/-- A parse in progress under the invariant is on track, at a legal place. -/
theorem Inv.onTrack (hs : Inv s) (hp : s.parse = some p) : OnTrack p s ∧ p.placed s.params := by
  obtain ⟨hw, -, -, -, hsh, hrg, -, -, hb, hparse⟩ := hs
  simp only [State.parseInv, hp] at hparse
  obtain ⟨hplace, hpos, hcnt⟩ := hparse
  exact ⟨⟨hw, (Params.held_iff _ _).mpr ⟨hsh, hrg, hb⟩, hpos, hcnt⟩, hplace⟩

theorem placed_at {q : Params} {ph : Phase} (hph : p.phase = ph) (h : p.placed q) :
    ({ p with phase := ph } : Parse).placed q := hph ▸ h

theorem coded_at {q : Params} {ph : Phase} (hph : p.phase = ph) (h : p.Coded q) :
    ({ p with phase := ph } : Parse).Coded q := hph ▸ h

/-- NUM_ENV_IDX keeps what the invariant says of PSParameters. -/
theorem Params.Held.setNumEnv {c : Config} {q : Params} (h : q.Held c) (n : Nat) : (q.setNumEnv n).Held c :=
  h.of_par_eq { h.control with numEnv := (numEnvTab_le _ n).trans (by decide), numEnvOld := h.control.numEnv }
    fun _ => rfl

/-- Every element keeps what the parse has read, PS_HEADER if it carries the bit `hdr`. -/
theorem ElementRun.sound (h : ElementRun s p i t) (ho : OnTrack p s) (hplace : p.placed s.params)
    (hcoded : p.Coded s.params) (hheader : p.phase ≠ .psHeader → p.header = hdr)
    (hfirst : ∀ v, i = .psHeader v → p.phase = .psHeader → v = hdr) : t.Sound hdr := by
  cases h with
  | psHeader v hph => exact goto_sound (hfirst v rfl hph) (by cases v <;> nofun) (by cases v <;> trivial)
  | enableIid v hph | enableIcc v hph =>
    exact goto_sound (hheader (hph ▸ nofun)) (by cases v <;> nofun) (by cases v <;> trivial)
  | iidMode _ _ hph | iccMode _ _ hph | enableExt _ hph | frameClass _ hph =>
    exact goto_sound (hheader (hph ▸ nofun)) nofun trivial
  | iidModeReserved | iccModeReserved | borderOrder => exact errorPath_sound nofun
  | numEnvIdx n hph =>
    refine enterBorders_sound ⟨(ho.withParams (ho.held.setNumEnv _)).advance 2, hheader (hph ▸ nofun)⟩
      (numEnvTab_le _ _) fun hf => ?_
    have hf : s.params.frameClass = false := hf
    exact (congrArg (numEnvTab · n.toNat) hf).trans_ne (numEnvTab_fixed _)
  | border b e hb hph =>
    obtain ⟨-, hn, h1, he⟩ := placed_at hph hplace
    have hrise : s.params.BordersRise (e - 1) := coded_at hph hcoded
    have hlen : e < s.params.borderPosition.length := by
      have hroom := ho.maxNumEnv
      have hborders := ho.held.control.borderLength
      omega
    obtain ⟨n, rfl⟩ : ∃ n, e = n + 1 := ⟨e - 1, by omega⟩
    have hrange : -1 ≤ (b.toNat : Int) ∧ (b.toNat : Int) ≤ 31 := by omega
    have hheld : (s.params.setBorder (n + 1) b.toNat).Held s.cfg :=
      ho.held.of_par_eq (ho.held.control.setBorder (n + 1) hrange) fun _ => rfl
    exact afterBorder_sound ⟨(ho.withParams hheld).advance 5, hheader (hph ▸ nofun)⟩ hn (hrise.setBorder hb hlen) he
  | dt f e dt hph =>
    obtain ⟨hb, hr⟩ := coded_dtPhase.mp (coded_at hph hcoded)
    exact startRow_sound ⟨ho, hheader (hph ▸ dtPhase_ne_psHeader)⟩ (placed_at hph hplace) hb hr
  | data f e b dt d cw _ hph =>
    obtain ⟨hb, hr, hc⟩ := coded_dataPhase.mp (coded_at hph hcoded)
    obtain ⟨hp, -⟩ := (placed_dataPhase _ _ f e b dt).mp (placed_at hph hplace)
    exact storeValue_sound ⟨ho, hheader (hph ▸ dataPhase_ne_psHeader)⟩ hp hb hr hc parOk_deltaValue
  | extSize _ _ hph | extEsc _ hph | extIdOther _ _ hph | reservedPs _ hph =>
    exact extLoop_sound (hheader (hph ▸ nofun)) (coded_at hph hcoded :)
  | extSizeEscape _ _ hph | extIdIpdOpd _ _ hph =>
    exact goto_sound (hheader (hph ▸ nofun)) nofun (coded_at hph hcoded :)
  | extFill hph =>
    obtain ⟨⟨hn, hiid, hicc, -⟩, -⟩ := placed_at hph hplace
    exact finishParse_sound ⟨ho.advance _, hheader (hph ▸ nofun)⟩ hn (coded_at hph hcoded :) hiid hicc
  | enableIpdopd hph => exact enterIpdRow_sound 0 (hheader (hph ▸ nofun)) (coded_at hph hcoded :)
  | disableIpdopd hph => exact goto_sound (hheader (hph ▸ nofun)) nofun (coded_at hph hcoded :)

end

end Sys2Proof.Machine
end

section
/-! SUPPORT. READ_DATA as a whole: what every element of the run keeps, it keeps. -/

namespace Sys2Proof.Machine

section
variable {s t : State} {p : Parse}

/-- One element of the run is fetched at the working cursor and executed. -/
theorem parseStep_exec (h : parseStep p s = .next t) :
    ∃ i n, fetchElement s p = .ok (i, n) ∧ i.isElement = true ∧ exec i s = .next t := by
  unfold parseStep at h
  split at h
  · next i n hf =>
    have hi := decodeElement_isElement hf
    exact ⟨i, n, hf, hi, runElement_eq i s hi ▸ h⟩
  · cases h

/-- A property that every element of the run keeps is kept by the run. -/
theorem runParse_keeps {P : State → Prop}
    (hstep : ∀ s t p, s.parse = some p → parseStep p s = .next t → P s → P t) (fuel : Nat) (hs : P s)
    (h : runParse fuel s = .next t) : P t := by
  induction fuel generalizing s with
  | zero =>
    unfold runParse at h
    split_ifs at h
    exact Host.Outcome.next.inj h ▸ hs
  | succ fuel ih =>
    unfold runParse at h
    split at h
    · exact Host.Outcome.next.inj h ▸ hs
    · next p hp =>
      split at h
      · next u hu => exact ih (hstep s u p hp hu hs) h
      · cases h
      · cases h

/-- What is fetched at the place of PS_HEADER carries the bit at the working cursor (`30_encoding.md` R103). -/
theorem fetchElement_psHeader {v : Bool} {n : Nat} (hph : p.phase = .psHeader)
    (hf : fetchElement s p = .ok (.psHeader v, n)) : v = s.bit p.pos := by
  simp only [fetchElement, elemCtx, hph, decodeElement, Except.ok.injEq, Prod.mk.injEq, Instr.psHeader.injEq] at hf
  exact hf.1.symm

/-- One element of the run keeps what the parse has read. -/
theorem parseStep_sound {hdr : Bool} (hs : Inv s) (hp : s.parse = some p) (h : parseStep p s = .next t)
    (hsound : s.Sound hdr) : t.Sound hdr := by
  obtain ⟨i, n, hf, hi, hexec⟩ := parseStep_exec h
  obtain ⟨p', hp', hrun⟩ := exec_element_run hi hexec
  obtain rfl : p' = p := Option.some.inj (hp'.symm.trans hp)
  obtain ⟨ho, hplace⟩ := hs.onTrack hp
  simp only [State.Sound, hp] at hsound
  obtain ⟨hcoded, hheader⟩ := hsound
  refine hrun.sound ho hplace hcoded (fun hne => (if_neg hne).mp hheader) fun v hv hph => ?_
  subst hv
  exact (fetchElement_psHeader hph hf).trans ((if_pos hph).mp hheader)

/-- A READ_DATA that answers a next state has read a payload, whose first bit is PS_HEADER. -/
theorem execReadData_sound {n : Nat} (hs : Inv s) (h : execReadData n s = .next t) :
    t.Sound (s.bit s.host.hostpos) := by
  obtain ⟨-, hrun⟩ := command_next h
  have hbegin : Inv (beginParse n s) := (inv_iff _).mpr (((inv_iff s).mp hs).beginParse n)
  have hstart : (beginParse n s).Sound (s.bit s.host.hostpos) := ⟨trivial, rfl⟩
  obtain ⟨-, hend⟩ := runParse_keeps (P := fun s' => Inv s' ∧ s'.Sound (s.bit s.host.hostpos))
    (fun _ _ _ hp hu ⟨hi, hsd⟩ => ⟨parseStep_inv hi hu, parseStep_sound hi hp hu hsd⟩) _ ⟨hbegin, hstart⟩ hrun
  exact hend

end

/-- Settles O25: where the parse ends it is sound, and its end is a commit or the error path. -/
theorem readDataPostconditions : Obligations.ReadDataPostconditions := by
  intro s t n hs h
  have hread : execReadData n s = .next t := h
  have hsound := execReadData_sound hs hread
  obtain ⟨-, hend, ⟨hcfg, -⟩, hout⟩ := execReadData_ended hread
  simp only [State.Sound, hend] at hsound
  obtain ⟨-, hparsed⟩ := hsound
  rcases hout with ⟨k', hle, hstatus, hpos⟩ | ⟨c', hstatus, hpos, hzero, hstart⟩
  · refine ⟨fun k hk => ?_, fun c hc => nomatch hstatus.symm.trans hc⟩
    obtain rfl : k' = k := Status.okBits.inj (hstatus.symm.trans hk)
    obtain ⟨hq, hst⟩ := hparsed k' hk
    exact ⟨hle, hpos, hcfg ▸ hq, hst⟩
  · exact ⟨fun k hk => (nomatch hstatus.symm.trans hk), fun _ _ => ⟨hpos, hzero, hstart⟩⟩

end Sys2Proof.Machine
end

section
/-! SUPPORT. READ_DATA ends: the number of elements a parse can still meet falls with every element, and it begins below
the bound of the model (log 21). -/

namespace Sys2Proof.Machine

/-! ## How many elements are left (`30_encoding.md` R102)

`bands` bounds the bands of a row. A bound at a place counts the element there and all that can follow it. -/

/-- The elements of one row: its flag and a value per band. -/
def rowCost (bands : Nat) : Nat := bands + 1

/-- The elements of one pass of the extension loop, charged to a single bit of its budget: an id, the body of an IPD/OPD
extension of at most eight rows, RESERVED_PS. -/
def passCost (bands : Nat) : Nat := 12 + 8 * bands

/-- The elements of an extension container with a budget of `cnt` bits left, the fill included. -/
def loopCost (bands : Nat) (cnt : Int) : Nat := cnt.toNat * passCost bands + 1

/-- The elements of a whole extension container (R110). -/
def containerCost (bands : Nat) : Nat := 2160 * passCost bands + 3

/-- The elements of `rows` rows of ICC and of what follows them. -/
def iccCost (bands rows : Nat) : Nat := rows * rowCost bands + containerCost bands

/-- The elements of `rows` rows of IID and of what follows them. -/
def iidCost (bands rows : Nat) : Nat := rows * rowCost bands + iccCost bands 4

/-- The elements from an IPD row on, with `rows` pairs of rows left, in a body of a container with `cnt` bits left. -/
def bodyCost (bands : Nat) (cnt : Int) (rows : Nat) : Nat :=
  loopCost bands (cnt - 1) + rows * (2 * rowCost bands) + 1

/-- The elements after row `e` of a family in a frame of `n` envelopes. -/
def afterRowCost (bands n : Nat) (cnt : Int) (f : Family) (e : Nat) : Nat :=
  match f with
  | .iid => iidCost bands (n - (e + 1))
  | .icc => iccCost bands (n - (e + 1))
  | .ipd => bodyCost bands cnt (n - (e + 1)) + rowCost bands
  | .opd => bodyCost bands cnt (n - (e + 1))

/-- The elements a parse can still meet in a frame of `n` envelopes. -/
def Parse.cost (bands n : Nat) (p : Parse) : Nat :=
  match p.phase with
  | .psHeader => iidCost bands 4 + 12
  | .enableIid => iidCost bands 4 + 11
  | .iidMode => iidCost bands 4 + 10
  | .enableIcc => iidCost bands 4 + 9
  | .iccMode => iidCost bands 4 + 8
  | .enableExt => iidCost bands 4 + 7
  | .frameClass => iidCost bands 4 + 6
  | .numEnvIdx => iidCost bands 4 + 5
  | .border e => iidCost bands 4 + (5 - e)
  | .iidDt e => afterRowCost bands n p.cnt .iid e + rowCost bands
  | .iidData e b _ => afterRowCost bands n p.cnt .iid e + (bands - b)
  | .iccDt e => afterRowCost bands n p.cnt .icc e + rowCost bands
  | .iccData e b _ => afterRowCost bands n p.cnt .icc e + (bands - b)
  | .extSize => containerCost bands
  | .extEsc => loopCost bands 2160 + 1
  | .extId => loopCost bands p.cnt
  | .extFill => 1
  | .enableIpdopd => bodyCost bands p.cnt n + 1
  | .ipdDt e => afterRowCost bands n p.cnt .ipd e + rowCost bands
  | .ipdData e b _ => afterRowCost bands n p.cnt .ipd e + (bands - b)
  | .opdDt e => afterRowCost bands n p.cnt .opd e + rowCost bands
  | .opdData e b _ => afterRowCost bands n p.cnt .opd e + (bands - b)
  | .reservedPs => loopCost bands (p.cnt - 1) + 1

/-- The elements left in a state, none without a parse. -/
def State.cost (bands : Nat) (s : State) : Nat :=
  match s.parse with
  | some p => p.cost bands s.params.numEnv
  | none => 0

section
variable {bands n e b : Nat} {cnt cnt' : Int} {f : Family} {dt : Bool} {p : Parse} {s : State}

theorem loopCost_mono (h : cnt ≤ cnt') : loopCost bands cnt ≤ loopCost bands cnt' :=
  Nat.succ_le_succ (Nat.mul_le_mul_right _ (Int.toNat_le_toNat h))

/-- One bit of the budget pays for a pass of the loop. -/
theorem loopCost_pred (h : 1 ≤ cnt) : loopCost bands cnt = loopCost bands (cnt - 1) + passCost bands := by
  have hcnt : cnt.toNat = (cnt - 1).toNat + 1 := by omega
  rw [loopCost, loopCost, hcnt, Nat.succ_mul]
  omega

theorem iccCost_succ (k : Nat) : iccCost bands (k + 1) = iccCost bands k + rowCost bands := by
  rw [iccCost, iccCost, Nat.succ_mul]
  omega

theorem iidCost_succ (k : Nat) : iidCost bands (k + 1) = iidCost bands k + rowCost bands := by
  rw [iidCost, iidCost, Nat.succ_mul]
  omega

theorem bodyCost_succ (k : Nat) :
    bodyCost bands cnt (k + 1) = bodyCost bands cnt k + rowCost bands + rowCost bands := by
  rw [bodyCost, bodyCost, Nat.succ_mul]
  omega

theorem iccCost_mono {j k : Nat} (h : j ≤ k) : iccCost bands j ≤ iccCost bands k :=
  Nat.add_le_add_right (Nat.mul_le_mul_right _ h) _

theorem iidCost_mono {j k : Nat} (h : j ≤ k) : iidCost bands j ≤ iidCost bands k :=
  Nat.add_le_add_right (Nat.mul_le_mul_right _ h) _

theorem cost_dtPhase : ({ p with phase := dtPhase f e } : Parse).cost bands n
    = afterRowCost bands n p.cnt f e + rowCost bands := by
  cases f <;> rfl

theorem cost_dataPhase : ({ p with phase := dataPhase f e b dt } : Parse).cost bands n
    = afterRowCost bands n p.cnt f e + (bands - b) := by
  cases f <;> rfl

/-! ## The continuations of the parse -/

theorem cost_of_ended (h : s.parse = none) : s.cost bands = 0 := by simp only [State.cost, h]

theorem cost_goto (ph : Phase) : (s.goto p ph).cost bands =
    ({ p with phase := ph } : Parse).cost bands s.params.numEnv :=
  rfl

theorem finishParse_cost : (finishParse p s).cost bands = 0 := cost_of_ended (finishParse_ended p s).1

theorem extLoop_cost : (extLoop p s).cost bands ≤ loopCost bands p.cnt := by
  unfold extLoop
  split_ifs
  · exact le_rfl
  · exact Nat.zero_le _
  · exact Nat.le_add_left _ _

theorem enterExt_cost : (enterExt p s).cost bands ≤ containerCost bands := by
  unfold enterExt
  split_ifs
  · exact le_rfl
  · rw [finishParse_cost]
    exact Nat.zero_le _

/-- The envelopes from `e` on, as one more than those behind `e`. -/
theorem rows_left {e n : Nat} (h : e < n) : n - e = n - (e + 1) + 1 := by omega

theorem enterIpdRow_cost : (enterIpdRow e p s).cost bands ≤ bodyCost bands p.cnt (s.params.numEnv - e) := by
  unfold enterIpdRow
  split_ifs with h
  · rw [rows_left h, bodyCost_succ]
    exact le_rfl
  · show loopCost bands (p.cnt - 1) + 1 ≤ _
    rw [bodyCost]
    omega

theorem enterIccRow_cost : (enterIccRow e p s).cost bands ≤ iccCost bands (s.params.numEnv - e) := by
  unfold enterIccRow
  split_ifs with h
  · rw [rows_left h, iccCost_succ]
    exact le_rfl
  · exact enterExt_cost.trans (Nat.le_add_left _ _)

theorem enterIcc_cost (hn : s.params.numEnv ≤ 4) : (enterIcc p s).cost bands ≤ iccCost bands 4 := by
  unfold enterIcc
  split_ifs
  · exact enterIccRow_cost.trans (iccCost_mono hn)
  · exact enterExt_cost.trans (Nat.le_add_left _ _)

theorem enterIidRow_cost (hn : s.params.numEnv ≤ 4) :
    (enterIidRow e p s).cost bands ≤ iidCost bands (s.params.numEnv - e) := by
  unfold enterIidRow
  split_ifs with h
  · rw [rows_left h, iidCost_succ]
    exact le_rfl
  · exact (enterIcc_cost hn).trans (Nat.le_add_left _ _)

theorem enterIid_cost (hn : s.params.numEnv ≤ 4) : (enterIid p s).cost bands ≤ iidCost bands 4 := by
  unfold enterIid
  split_ifs
  · exact (enterIidRow_cost hn).trans (iidCost_mono hn)
  · exact le_trans (enterIcc_cost (by exact hn)) (Nat.le_add_left _ _)

theorem enterBorders_cost (hn : s.params.numEnv ≤ 4) : (enterBorders p s).cost bands ≤ iidCost bands 4 + 4 := by
  unfold enterBorders
  simp only
  split_ifs
  · exact le_rfl
  · exact le_trans (enterIid_cost (by exact hn)) (Nat.le_add_right _ _)
  · exact le_trans (enterIid_cost (by exact hn)) (Nat.le_add_right _ _)

theorem afterBorder_cost (hn : s.params.numEnv ≤ 4) (he : e ≤ s.params.numEnv) :
    (afterBorder e p s).cost bands < iidCost bands 4 + (5 - e) := by
  unfold afterBorder
  split_ifs
  · show iidCost bands 4 + (5 - (e + 1)) < _
    omega
  · have hle := enterIid_cost (bands := bands) (p := p) hn
    omega

/-- The rows of the IID block stand in a frame of at most four envelopes. -/
theorem rowDone_cost (hn : s.params.numEnv ≤ 4) :
    (rowDone f e p s).cost bands ≤ afterRowCost bands s.params.numEnv p.cnt f e := by
  cases f
  · exact enterIidRow_cost hn
  · exact enterIccRow_cost
  · exact le_rfl
  · exact enterIpdRow_cost

theorem startRow_cost (hn : s.params.numEnv ≤ 4) : (startRow f e (dataPhase f e · dt) p s).cost bands
    < afterRowCost bands s.params.numEnv p.cnt f e + rowCost bands := by
  unfold startRow
  simp only
  split_ifs
  · rw [cost_goto, cost_dataPhase]
    exact Nat.add_lt_add_left (Nat.lt_succ_self _) _
  · exact (rowDone_cost hn).trans_lt (Nat.lt_add_of_pos_right (Nat.succ_pos _))

theorem storeValue_cost {len : Nat} {v : Int} (hn : s.params.numEnv ≤ 4) (hb : b < s.params.nrPar f)
    (hbands : s.params.nrPar f ≤ bands) : (storeValue f e b (dataPhase f e · dt) len v p s).cost bands
      < afterRowCost bands s.params.numEnv p.cnt f e + (bands - b) := by
  unfold storeValue
  simp only
  split_ifs
  · rw [cost_goto, cost_dataPhase, withParams_params, setPar_numEnv]
    show afterRowCost bands _ p.cnt f e + _ < _
    omega
  · have hle := rowDone_cost (bands := bands) (f := f) (e := e) (p := { p.advance len with acc := v })
      (s := s.withParams (s.params.setPar f (storeI (s.params.par f) e b v)))
      (by rwa [withParams_params, setPar_numEnv])
    rw [withParams_params, setPar_numEnv] at hle
    exact hle.trans_lt (Nat.lt_add_of_pos_right (Nat.sub_pos_of_lt (hb.trans_le hbands)))
  · rw [cost_of_ended rfl]
    omega

end

/-! ## The elements -/

section
variable {bands : Nat} {s t : State} {p : Parse} {i : Instr}

/-- The rows of all families stand in a frame of at most four envelopes. -/
theorem placed_dtPhase_numEnv {q : Params} {f : Family} {e : Nat}
    (h : ({ p with phase := dtPhase f e } : Parse).placed q) : q.numEnv ≤ 4 := by
  cases f
  · exact h.1
  · exact h.1
  · exact h.1.1
  · exact h.1.1

theorem cost_at {n : Nat} {ph : Phase} (hph : p.phase = ph) :
    p.cost bands n = ({ p with phase := ph } : Parse).cost bands n := hph ▸ rfl

/-- With every element fewer elements are left. -/
theorem ElementRun.cost_lt (h : ElementRun s p i t) (hplace : p.placed s.params)
    (hbands : ∀ f, s.params.nrPar f ≤ bands) : t.cost bands < p.cost bands s.params.numEnv := by
  cases h with
  | psHeader v hph | enableIid v hph | enableIcc v hph =>
    rw [cost_at hph, cost_goto]
    cases v <;> simp [Parse.cost]
  | iidMode _ _ hph | iccMode _ _ hph | enableExt _ hph | frameClass _ hph =>
    rw [cost_at hph, cost_goto]
    simp [Parse.cost]
  | iidModeReserved _ _ hph | iccModeReserved _ _ hph =>
    rw [cost_at hph, cost_of_ended rfl]
    exact Nat.succ_pos _
  | numEnvIdx n hph =>
    rw [cost_at hph]
    exact Nat.lt_succ_of_le (enterBorders_cost (numEnvTab_le _ _))
  | border b e _ hph =>
    obtain ⟨-, hn, -, he⟩ := placed_at hph hplace
    rw [cost_at hph]
    exact afterBorder_cost hn he
  | borderOrder b e _ hph =>
    obtain ⟨-, hn, -, he⟩ := placed_at hph hplace
    rw [cost_at hph, cost_of_ended rfl]
    show 0 < iidCost bands 4 + (5 - e)
    omega
  | dt f e dt hph =>
    rw [cost_at hph, cost_dtPhase]
    exact startRow_cost (placed_dtPhase_numEnv (placed_at hph hplace))
  | data f e b dt d cw _ hph =>
    obtain ⟨hrow, hb⟩ := (placed_dataPhase _ _ f e b dt).mp (placed_at hph hplace)
    rw [cost_at hph, cost_dataPhase]
    exact storeValue_cost (placed_dtPhase_numEnv hrow) hb (hbands f)
  | extSize n _ hph =>
    have hn : (n.toNat : Int) * 8 ≤ 2160 := by omega
    rw [cost_at hph]
    exact (extLoop_cost.trans (loopCost_mono hn)).trans_lt (Nat.lt_add_of_pos_right (k := 2) (by decide))
  | extSizeEscape n _ hph =>
    rw [cost_at hph]
    exact Nat.lt_succ_self _
  | extEsc n hph =>
    obtain ⟨-, h15⟩ := placed_at hph hplace
    have h15 : p.cnt = 15 := h15
    have hn : (p.cnt + n.toNat) * 8 ≤ 2160 := by omega
    rw [cost_at hph]
    exact Nat.lt_succ_of_le (extLoop_cost.trans (loopCost_mono hn))
  | extIdIpdOpd id _ hph =>
    obtain ⟨⟨hn, -⟩, h7⟩ := placed_at hph hplace
    have h7 : 7 < p.cnt := h7
    rw [cost_at hph]
    show bodyCost bands p.cnt s.params.numEnv + 1 < loopCost bands p.cnt
    have hrows : s.params.numEnv * (2 * rowCost bands) ≤ 4 * (2 * rowCost bands) := Nat.mul_le_mul_right _ hn
    rw [loopCost_pred (by omega), bodyCost, passCost]
    rw [rowCost] at hrows ⊢
    omega
  | extIdOther id _ hph =>
    obtain ⟨-, h7⟩ := placed_at hph hplace
    have h7 : 7 < p.cnt := h7
    rw [cost_at hph]
    refine (extLoop_cost.trans (loopCost_mono (cnt' := p.cnt - 1) ?_)).trans_lt ?_
    · show p.cnt - 2 ≤ p.cnt - 1
      omega
    · show _ < loopCost bands p.cnt
      rw [loopCost_pred (cnt := p.cnt) (by omega), passCost]
      omega
  | extFill hph =>
    rw [cost_at hph, finishParse_cost]
    exact Nat.one_pos
  | enableIpdopd hph =>
    rw [cost_at hph]
    exact Nat.lt_succ_of_le enterIpdRow_cost
  | disableIpdopd hph =>
    rw [cost_at hph]
    show loopCost bands (p.cnt - 1) + 1 < bodyCost bands p.cnt s.params.numEnv + 1
    rw [bodyCost]
    omega
  | reservedPs v hph =>
    obtain ⟨-, -, hstart⟩ := placed_at hph hplace
    have hstart : p.extStart ≤ p.pos := hstart
    rw [cost_at hph]
    refine Nat.lt_succ_of_le (extLoop_cost.trans (loopCost_mono ?_))
    show p.cnt - 2 - ((p.pos : Int) + 1 - p.extStart) ≤ p.cnt - 1
    omega

end

end Sys2Proof.Machine
end

section
/-! SUPPORT. READ_DATA answers a next state from every state with the invariant: every place of the grammar has an
element to read, and the elements left run out within the bound of the model. -/

namespace Sys2Proof.Machine

/-! ## The band counts a parse can meet -/

/-- Every band count of PSParameters is within a bound. -/
def Params.BandsWithin (bands : Nat) (q : Params) : Prop := ∀ f, q.nrPar f ≤ bands

/-- Every band count the modes select is within a bound (`30_encoding.md` R104, R105). -/
def ModesWithin (bands : Nat) (t : Tables) : Prop :=
  (∀ m, t.nrIidIcc.getD m 0 ≤ bands) ∧ ∀ m, t.nrIpdOpd.getD m 0 ≤ bands

section
variable {bands : Nat}

theorem bandsWithin_iff {q : Params} :
    q.BandsWithin bands ↔ q.nrIidPar ≤ bands ∧ q.nrIccPar ≤ bands ∧ q.nrIpdopdPar ≤ bands :=
  ⟨fun h => ⟨h .iid, h .icc, h .ipd⟩, fun ⟨hiid, hicc, hipd⟩ f => by cases f <;> assumption⟩

/-- No step between two elements changes a band count. -/
theorem bandsWithin_closed : ParamsClosed (Params.BandsWithin bands) := by
  refine ⟨fun q h f => ?_, fun q h f => ?_, fun q h => ?_, fun _ h => bandsWithin_iff.mpr (bandsWithin_iff.mp h),
    fun _ _ h => bandsWithin_iff.mpr (bandsWithin_iff.mp h), fun _ _ h => bandsWithin_iff.mpr (bandsWithin_iff.mp h),
    fun _ _ h => bandsWithin_iff.mpr (bandsWithin_iff.mp h), fun _ h => bandsWithin_iff.mpr (bandsWithin_iff.mp h)⟩
  · rw [setPar_nrPar]
    exact h f
  · rw [setPar_nrPar]
    exact h f
  · obtain ⟨-, -, -, -, -, -, hiid, hicc, hipd, -⟩ := fixupCopy_fields q
    rw [bandsWithin_iff, hiid, hicc, hipd]
    exact bandsWithin_iff.mp h

section
variable {s t : State} {p : Parse} {i : Instr}

theorem enterBorders_bands (h : s.params.BandsWithin bands) : (enterBorders p s).params.BandsWithin bands := by
  have hborders : ∀ l, Params.BandsWithin bands { s.params with borderPosition := l } := fun _ =>
    bandsWithin_iff.mpr (bandsWithin_iff.mp h)
  unfold enterBorders
  simp only
  split_ifs
  · exact hborders _
  · exact enterIid_keeps bandsWithin_closed (hborders _)
  · exact enterIid_keeps bandsWithin_closed (hborders _)

theorem afterBorder_bands {e : Nat} (h : s.params.BandsWithin bands) :
    (afterBorder e p s).params.BandsWithin bands := by
  unfold afterBorder
  split_ifs
  · exact h
  · exact enterIid_keeps bandsWithin_closed h

theorem startRow_bands {f : Family} {e : Nat} {mk : Nat → Phase} (h : s.params.BandsWithin bands) :
    (startRow f e mk p s).params.BandsWithin bands := by
  unfold startRow
  simp only
  split_ifs
  · exact h
  · exact rowDone_keeps bandsWithin_closed h

theorem storeValue_bands {f : Family} {e b len : Nat} {mk : Nat → Phase} {v : Int}
    (h : s.params.BandsWithin bands) : (storeValue f e b mk len v p s).params.BandsWithin bands := by
  have hstored : (s.params.storeCell f e b v).BandsWithin bands := fun g => (storeCell_nrPar g).trans_le (h g)
  unfold storeValue
  simp only
  split_ifs
  · exact hstored
  · exact rowDone_keeps bandsWithin_closed hstored
  · exact bandsWithin_iff.mpr (bandsWithin_iff.mp hstored)

/-- An element leaves every band count, or sets one to that of a mode. -/
theorem ElementRun.bandsWithin (h : ElementRun s p i t) (hs : s.params.BandsWithin bands)
    (ht : ModesWithin bands s.cfg.tables) : t.params.BandsWithin bands := by
  have hkept := bandsWithin_iff.mp hs
  obtain ⟨hiid, hicc, hipd⟩ := hkept
  obtain ⟨hmode, hmodeIpd⟩ := ht
  cases h with
  | iidMode m => exact bandsWithin_iff.mpr ⟨hmode _, hicc, hmodeIpd _⟩
  | iccMode m => exact bandsWithin_iff.mpr ⟨hiid, hmode _, hipd⟩
  | numEnvIdx => exact enterBorders_bands (bandsWithin_iff.mpr ⟨hiid, hicc, hipd⟩)
  | border => exact afterBorder_bands (bandsWithin_iff.mpr ⟨hiid, hicc, hipd⟩)
  | dt => exact startRow_bands hs
  | data => exact storeValue_bands hs
  | extSize | extEsc | extIdOther | reservedPs => exact extLoop_keeps bandsWithin_closed hs
  | extFill => exact finishParse_keeps bandsWithin_closed hs
  | enableIpdopd => exact enterIpdRow_keeps (bandsWithin_iff.mpr ⟨hiid, hicc, hipd⟩)
  | _ => exact bandsWithin_iff.mpr ⟨hiid, hicc, hipd⟩

end

/-- A maximum taken from the left is at least its start and each of the numbers. -/
theorem le_foldl_max (l : List Nat) (m : Nat) : m ≤ l.foldl Nat.max m ∧ ∀ n ∈ l, n ≤ l.foldl Nat.max m := by
  induction l generalizing m with
  | nil => exact ⟨le_rfl, fun _ hn => absurd hn List.not_mem_nil⟩
  | cons a l ih =>
    obtain ⟨hstart, hrest⟩ := ih (Nat.max m a)
    exact ⟨(Nat.le_max_left m a).trans hstart,
      List.forall_mem_cons.mpr ⟨(Nat.le_max_right m a).trans hstart, hrest⟩⟩

/-- The model's cap on the band counts is one. -/
theorem bandCap_within (s : State) : s.params.BandsWithin (bandCap s) ∧ ModesWithin (bandCap s) s.cfg.tables := by
  have hcap : ∀ n ∈ s.params.nrIidPar :: s.params.nrIccPar :: s.params.nrIpdopdPar
      :: (s.cfg.tables.nrIidIcc ++ s.cfg.tables.nrIpdOpd), n ≤ bandCap s := (le_foldl_max _ 0).2
  simp only [List.forall_mem_cons, List.forall_mem_append] at hcap
  obtain ⟨hiid, hicc, hipd, hmode, hmodeIpd⟩ := hcap
  have hget : ∀ {l : List Nat}, (∀ n ∈ l, n ≤ bandCap s) → ∀ m, l.getD m 0 ≤ bandCap s := fun {l} hl m => by
    by_cases hm : m < l.length
    · rw [List.getD_eq_getElem _ _ hm]
      exact hl _ (List.getElem_mem hm)
    · rw [List.getD_eq_default _ _ (Nat.le_of_not_lt hm)]
      exact Nat.zero_le _
  exact ⟨bandsWithin_iff.mpr ⟨hiid, hicc, hipd⟩, hget hmode, hget hmodeIpd⟩

end

/-! ## Every place has an element to read -/

/-- In a conforming configuration a delta is read at every place of a `VLC` element, and it has a codeword there. -/
theorem decodeElement_data_next {c : Config} (hc : c.wf = true) {x : ElemCtx} {f : Family} {e b : Nat} {dt : Bool}
    (hph : x.phase = dataPhase f e b dt) (bit : Nat → Bool) :
    ∃ i n l, decodeElement c x bit = .ok (i, n) ∧ encodeElement c x i = some l := by
  obtain ⟨k, hk, -, -, hdec⟩ := huffmanDecodesEverything _ (tableFor_wf hc f dt x.iidQuant) bit 0
  have hcode : codewordOf (tableFor c f dt x.iidQuant) ((k : Int) - (tableFor c f dt x.iidQuant).offset)
      = some (tableFor c f dt x.iidQuant).code[k] := by
    rw [codewordOf, Int.sub_add_cancel, if_pos (Int.natCast_nonneg k), Int.toNat_natCast, List.getElem?_eq_getElem hk]
  obtain ⟨l, hl⟩ := Laws.encodeVlc_isSome (Option.isSome_iff_exists.mpr ⟨_, hcode⟩)
  have hread := decodeElement_data_at (c := c) hph bit
  rw [decodeVlc, hdec] at hread
  exact ⟨_, _, l, hread, (encodeElement_data_at hph).trans hl⟩

theorem decodeElement_next {c : Config} (hc : c.wf = true) (x : ElemCtx) (bit : Nat → Bool) :
    ∃ i n l, decodeElement c x bit = .ok (i, n) ∧ encodeElement c x i = some l := by
  obtain ⟨phase, quant, cnt⟩ := x
  cases phase with
  | iidData => exact decodeElement_data_next (f := .iid) hc rfl bit
  | iccData => exact decodeElement_data_next (f := .icc) hc rfl bit
  | ipdData => exact decodeElement_data_next (f := .ipd) hc rfl bit
  | opdData => exact decodeElement_data_next (f := .opd) hc rfl bit
  | _ => exact ⟨_, _, _, rfl, rfl⟩

section
variable {bands : Nat} {s t : State} {p : Parse}

/-- In a conforming configuration the parse always has an element to run. -/
theorem parseStep_next (hc : s.cfg.wf = true) (hp : s.parse = some p) : ∃ t, parseStep p s = .next t := by
  obtain ⟨i, n, l, hdec, hl⟩ := decodeElement_next hc (elemCtx s p) fun j => s.bit (p.pos + j)
  obtain ⟨t, ht⟩ := exec_element_next hp hl
  refine ⟨t, ?_⟩
  rw [parseStep, fetchElement, hdec, ← ht]
  exact runElement_eq i s (encodeElement_isElement hl)

theorem runParse_succ (hp : s.parse = some p) (h : parseStep p s = .next t) (fuel : Nat) :
    runParse (fuel + 1) s = runParse fuel t := by
  simp only [runParse, hp, h]

theorem runParse_idle (hp : s.parse = none) (fuel : Nat) : runParse fuel s = .next s := by
  cases fuel <;> simp [runParse, hp]

/-- Every element of the run keeps the bounds on the band counts and leaves fewer elements. -/
theorem parseStep_cost_lt (hs : Inv s) (hp : s.parse = some p) (h : parseStep p s = .next t)
    (hb : s.params.BandsWithin bands) (ht : ModesWithin bands s.cfg.tables) :
    t.params.BandsWithin bands ∧ ModesWithin bands t.cfg.tables ∧ t.cost bands < s.cost bands := by
  obtain ⟨i, n, -, hi, hexec⟩ := parseStep_exec h
  obtain ⟨p', hp', hrun⟩ := exec_element_run hi hexec
  obtain rfl : p' = p := Option.some.inj (hp'.symm.trans hp)
  obtain ⟨_, -, hpr⟩ := exec_element_proceeds hi hexec
  obtain ⟨hcfg, -⟩ := hpr.sameOutside
  refine ⟨hrun.bandsWithin hb ht, hcfg ▸ ht, ?_⟩
  rw [State.cost.eq_def bands s, hp]
  exact hrun.cost_lt (hs.onTrack hp).2 hb

/-- A parse with no more elements left than its run may take ends. -/
theorem runParse_next (fuel : Nat) (hs : Inv s) (hb : s.params.BandsWithin bands)
    (ht : ModesWithin bands s.cfg.tables) (hcost : s.cost bands ≤ fuel) : ∃ t, runParse fuel s = .next t := by
  induction fuel generalizing s with
  | zero =>
    rcases hp : s.parse with _ | p
    · exact ⟨s, runParse_idle hp 0⟩
    · obtain ⟨u, hu⟩ := parseStep_next hs.1 hp
      obtain ⟨-, -, hlt⟩ := parseStep_cost_lt hs hp hu hb ht
      omega
  | succ fuel ih =>
    rcases hp : s.parse with _ | p
    · exact ⟨s, runParse_idle hp _⟩
    · obtain ⟨u, hu⟩ := parseStep_next hs.1 hp
      obtain ⟨hbu, htu, hlt⟩ := parseStep_cost_lt hs hp hu hb ht
      rw [runParse_succ hp hu]
      exact ih (parseStep_inv hs hu) hbu htu (by omega)

/-- The bound of the model covers every payload (log 21). -/
theorem beginParse_cost (n : Nat) (s : State) : (beginParse n s).cost (bandCap s) ≤ parseBound s := by
  show iidCost (bandCap s) 4 + 12 ≤ parseBound s
  rw [iidCost, iccCost, containerCost, passCost, rowCost, parseBound]
  omega

/-- From a ready state with the invariant READ_DATA answers a next state. -/
theorem execReadData_next (hs : Inv s) (hr : s.ready) (n : Nat) : ∃ t, execReadData n s = .next t := by
  obtain ⟨hbands, hmodes⟩ := bandCap_within s
  obtain ⟨t, ht⟩ := runParse_next (parseBound s) (s := beginParse n s)
    ((inv_iff _).mpr (((inv_iff s).mp hs).beginParse n)) hbands hmodes (beginParse_cost n s)
  exact ⟨t, (command_eq hr).trans ht⟩

end

/-! ## The shortest payload -/

section
variable {p : Parse} {s : State}

/-- The status of a parse that ends with a budget check (`41_parameter_decoder.md` R181). -/
def closingStatus (p : Parse) (s : State) : Status :=
  if p.pos - s.host.hostpos ≤ p.budget then .okBits (p.pos - s.host.hostpos) else .invalidData .bitOverrun

theorem concludeParse_status : (concludeParse p s).status = closingStatus p s := by
  rw [concludeParse, commit_eq, closingStatus]
  exact apply_ite State.status _ _ _

/-- With IID and ICC off no check of the fix-up fails. -/
theorem finishParse_status (hiid : s.params.enableIid = false) (hicc : s.params.enableIcc = false) :
    (finishParse p s).status = closingStatus p s := by
  by_cases hneed : s.params.fixupNeeded = true
  · obtain ⟨-, -, -, heiid, heicc, -⟩ := fixupCopy_fields s.params
    have hokIid : s.params.fixupCopy.fixupIidOk = true := by rw [Params.fixupIidOk, heiid, hiid]; rfl
    have hokIcc : s.params.fixupCopy.fixupIccOk = true := by rw [Params.fixupIccOk, heicc, hicc]; rfl
    rw [finishParse_closes hneed hokIid hokIcc, concludeParse_status]
    rfl
  · rw [finishParse_of_closed hneed, concludeParse_status]

/-- Past fixed borders a payload with no family and no extension ends. -/
theorem enterBorders_status (hf : s.params.frameClass = false) (hiid : s.params.enableIid = false)
    (hicc : s.params.enableIcc = false) (hext : s.params.enableExt = false) :
    (enterBorders p s).status = closingStatus p s ∧ (enterBorders p s).parse = none := by
  have hend : ∃ q : Params, enterBorders p s = finishParse p (s.withParams q) ∧ q.enableIid = false
      ∧ q.enableIcc = false := by
    rw [enterBorders_fixed hf, enterIid, if_neg, enterIcc, if_neg, enterExt, if_neg]
    · exact ⟨_, rfl, hiid, hicc⟩
    all_goals simpa
  obtain ⟨q, hq, hqiid, hqicc⟩ := hend
  rw [hq]
  exact ⟨finishParse_status (s := s.withParams q) hqiid hqicc, (finishParse_ended _ _).1⟩

/-- The next element of the run is the one that is fetched. -/
theorem parseStep_of_fetch {i : Instr} {n : Nat} {t : State} (hf : fetchElement s p = .ok (i, n))
    (h : exec i s = .next t) : parseStep p s = .next t := by
  rw [parseStep, hf, ← h]
  exact runElement_eq i s (decodeElement_isElement hf)

theorem fetchElement_psHeader_at (hph : p.phase = .psHeader) :
    fetchElement s p = .ok (.psHeader (s.bit p.pos), 1) := by
  simp only [fetchElement, elemCtx, hph, decodeElement, Nat.add_zero]

theorem fetchElement_frameClass_at (hph : p.phase = .frameClass) :
    fetchElement s p = .ok (.frameClass (s.bit p.pos), 1) := by
  simp only [fetchElement, elemCtx, hph, decodeElement, Nat.add_zero]

theorem fetchElement_numEnvIdx_at (hph : p.phase = .numEnvIdx) :
    ∃ n, fetchElement s p = .ok (.numEnvIdx n, 2) :=
  ⟨BitVec.ofNat 2 (bitsValue (fun j => s.bit (p.pos + j)) 0 2), by
    simp only [fetchElement, elemCtx, hph, decodeElement]⟩

/-- NUM_ENV_IDX ends the payload where the borders are fixed and nothing follows them. -/
theorem parseStep_numEnvIdx_last (hp : s.parse = some p) (hph : p.phase = .numEnvIdx)
    (hf : s.params.frameClass = false) (hiid : s.params.enableIid = false) (hicc : s.params.enableIcc = false)
    (hext : s.params.enableExt = false) :
    ∃ t, parseStep p s = .next t ∧ t.status = closingStatus (p.advance 2) s ∧ t.parse = none := by
  obtain ⟨n, hn⟩ := fetchElement_numEnvIdx_at (s := s) hph
  obtain ⟨hstatus, hend⟩ := enterBorders_status (p := p.advance 2) (s := s.withParams (s.params.setNumEnv n.toNat))
    hf hiid hicc hext
  exact ⟨_, parseStep_of_fetch hn (exec_numEnvIdx hp hph n), hstatus, hend⟩

/-- The four-bit payload: PS_HEADER 0, FRAME_CLASS 0 and NUM_ENV_IDX. -/
theorem runParse_shortest (n fuel : Nat) (hiid : s.params.enableIid = false) (hicc : s.params.enableIcc = false)
    (hext : s.params.enableExt = false) (h0 : s.bit s.host.hostpos = false) (h1 : s.bit (s.host.hostpos + 1) = false) :
    ∃ t, runParse (fuel + 3) (beginParse n s) = .next t
      ∧ t.status = if 4 ≤ n then .okBits 4 else .invalidData .bitOverrun := by
  let p : Parse := ⟨s.host.hostpos, n, false, 0, 0, 0, .psHeader⟩
  let s1 := (beginParse n s).goto { p.advance 1 with header := false } .frameClass
  let p1 : Parse := ⟨s.host.hostpos + 1, n, false, 0, 0, 0, .frameClass⟩
  let s2 := (s1.withParams { s1.params with frameClass := false }).goto (p1.advance 1) .numEnvIdx
  let p2 : Parse := ⟨s.host.hostpos + 2, n, false, 0, 0, 0, .numEnvIdx⟩
  have hheader : parseStep p (beginParse n s) = .next s1 := by
    have hbit : (beginParse n s).bit p.pos = false := h0
    have hf := fetchElement_psHeader_at (s := beginParse n s) (p := p) rfl
    rw [hbit] at hf
    exact parseStep_of_fetch hf (exec_psHeader rfl rfl false)
  have hclass : parseStep p1 s1 = .next s2 := by
    have hbit : s1.bit p1.pos = false := h1
    have hf := fetchElement_frameClass_at (s := s1) (p := p1) rfl
    rw [hbit] at hf
    exact parseStep_of_fetch hf (exec_frameClass rfl rfl false)
  obtain ⟨t, ht, hstatus, hend⟩ := parseStep_numEnvIdx_last (s := s2) (p := p2) rfl rfl rfl hiid hicc hext
  refine ⟨t, ?_, hstatus.trans ?_⟩
  · rw [runParse_succ rfl hheader, runParse_succ (t := s2) rfl hclass, runParse_succ rfl ht, runParse_idle hend]
  · have hconsumed : s.host.hostpos + 2 + 2 - s.host.hostpos = 4 := by omega
    show (if s.host.hostpos + 2 + 2 - s.host.hostpos ≤ n then Status.okBits (s.host.hostpos + 2 + 2 - s.host.hostpos)
      else _) = _
    rw [hconsumed]

end

/-! ## The settled statement -/

/-- Settles O24: the elements left run out within the bound, the parse ends as a parse can, and the copied ICC row is
never out of range. -/
theorem readDataCompletes : Obligations.ReadDataCompletes := by
  intro s n hs hr
  obtain ⟨t, ht⟩ := execReadData_next hs hr n
  obtain ⟨-, hend, hsame, hout⟩ := execReadData_ended ht
  have hsound := execReadData_sound hs ht
  simp only [State.Sound, hend] at hsound
  obtain ⟨hcause, -⟩ := hsound
  refine ⟨t, ht, hend, hsame, sameMemory_of_sameOutside hsame, fun hiid hicc hext h0 h1 => ?shortest, ?_⟩
  case shortest =>
    obtain ⟨k, hk⟩ : ∃ k, parseBound s = k + 3 := ⟨parseBound s - 3, by unfold parseBound; omega⟩
    obtain ⟨u, hu, hstatus⟩ := runParse_shortest n k hiid hicc hext h0 h1
    have hrun : runParse (parseBound s) (beginParse n s) = .next t := (command_eq hr).symm.trans ht
    rw [hk, hu] at hrun
    exact Host.Outcome.next.inj hrun ▸ hstatus
  rcases hout with hok | ⟨c, hc, hpos, hzero, hstart⟩
  · exact .inl hok
  · exact .inr ⟨c, fun h => hcause (h ▸ hc), hc, hpos, hzero, hstart⟩

end Sys2Proof.Machine
end
